-- ==== Sys2Proof/Word.lean ====
section
/-! DEFINITION. The word types of KF-INFLATE: 32-bit registers (R30) and bytes of host memory (R90). -/

namespace Sys2Proof

/-- A register value, a command word or a host physical address: 32 bits (R8 `REG_W`, `ADDR_W`). -/
abbrev Word := BitVec 32

/-- One byte of host memory (R90). -/
abbrev Byte := BitVec 8

/-- Byte lane `k` of a word on the register port carries bits `8k+7:8k` (R30). -/
def lane (w : Word) (k : Nat) : Byte := w.extractLsb' (8 * k) 8

end Sys2Proof
end

