-- ==== Sys2Proof/Config.lean ====
section
/-! DEFINITION. The fixed parameters of R8, and the free values of the model: opaque constants without a
body, applied to a draw counter of State, for every value the spec calls unspecified (log entries 3 to 9
and 26).
The block's draws and the host's are counted apart, so that no access of the host moves a draw of the block. -/

namespace Sys2Proof
namespace Config

/-- `ID` reads "KFI1" at all times (R3, R32). -/
def idValue : Word := 0x4B464931#32

/-- `SRC_LEN_MAX`, so that `8 * SRC_LEN` fits `BITPOS` (R8, R46). -/
def srcLenMax : Nat := 0x1FFFFFFF

/-- The host address space is `0 .. 2^32 - 1` (R8 `ADDR_W`, R90). -/
def addrSpace : Nat := 2 ^ 32

/-- The register block spans 0x4000 bytes from `REG_BASE` (R31). -/
def regSpan : Nat := 0x4000

/-- `READ_BITS_MAX` (R8, R124). -/
def readBitsMax : Nat := 16

/-- `UNF_BPP_MAX` (R8, R302). -/
def unfBppMax : Nat := 64

/-- FREE VALUE: the byte a DMA read returns where it returns no byte the rules fix, and the contents of an output
byte whose final value is unspecified, one per draw of the block (R106 (3), R344, R347, R376). -/
opaque freeByte : Nat → BitVec 8

/-- FREE VALUE: the word a register read returns where the spec calls it unspecified, one per draw
of the host (R60 to R62, R68). -/
opaque freeWord : Nat → BitVec 32

/-- FREE VALUE: entry `j` of a tree RAM whose contents the spec calls unspecified, per draw of the block
and entry (R60, R202). -/
opaque freeEntry : Nat → Nat → BitVec 10

/-- FREE VALUE: the byte a racing host read returns where the host has raced it, one per draw of the host
(R106 (3)). -/
opaque hostByte : Nat → BitVec 8

/-- FREE VALUE: per draw of the host and address, whether a racing host read, or an abort, sees the byte the running
command writes (true) or the byte before the command (false) (R106 (3), R373). -/
opaque seesNew : Nat → Nat → Bool

/-- FREE VALUE: per draw of the block and step, the number of the bus access that serves the step: the steps of one
direction with one number, at contiguous addresses, are merged into one access (R100). -/
opaque mergedInto : Nat → Nat → Nat

/-- FREE VALUE: per draw of the block and step, whether the step is the one drawn to fail if its bus access errs
(R344). -/
opaque failsHere : Nat → Nat → Bool

/-- FREE VALUE: per draw of the block and number of accesses made, whether a read of a byte whose merged write erred
returns the byte the command wrote there (R105) or the byte the write left there (R344; log entry 26). -/
opaque seesLost : Nat → Nat → Bool

end Config
end Sys2Proof
end

