-- ==== Sys2Proof/Syntax.lean ====
section
/-! DEFINITION. The commands of KF-INFLATE, one constructor per row of `spec/opcode_table.json` (R122). -/

namespace Sys2Proof

/-- The three tree RAMs a command can build: `SEL` 0 to 2 (R123). -/
inductive RamTree where
  /-- `TREE_LL`, the literal/length tree, `SEL` 0. -/
  | ll
  /-- `TREE_D`, the distance tree, `SEL` 1. -/
  | d
  /-- `TREE_CL`, the code-length tree, `SEL` 2. -/
  | cl
  deriving DecidableEq, Repr

/-- The five trees a symbol can be decoded with: `SEL` 0 to 4 (R123). -/
inductive TreeSel where
  /-- A tree RAM, `SEL` 0 to 2. -/
  | ram (t : RamTree)
  /-- The constant `FIXED_LL` tree, `SEL` 3. -/
  | fixedLL
  /-- The constant `FIXED_D` tree, `SEL` 4. -/
  | fixedD
  deriving DecidableEq, Repr

/-- A legal command (R120 to R124). The operands that are not in the command word are registers. -/
inductive Instr where
  /-- `NOP`, OP 0x00 (R177). -/
  | nop
  /-- `READ_BITS n`, OP 0x01, the 5-bit field `N` (R193). -/
  | readBits (n : BitVec 5)
  /-- `BUILD_TREE sel`, OP 0x02 (R203). -/
  | buildTree (t : RamTree)
  /-- `DECODE_SYMBOL sel`, OP 0x03 (R206). -/
  | decodeSymbol (t : TreeSel)
  /-- `READ_DYN_TREES`, OP 0x04 (R241). -/
  | readDynTrees
  /-- `LZ_COPY`, OP 0x05 (R262). -/
  | lzCopy
  /-- `INFLATE_BLOCK`, OP 0x06 (R263). -/
  | inflateBlock
  /-- `ZLIB_HEADER`, OP 0x07 (R281). -/
  | zlibHeader
  /-- `INFLATE_ZLIB`, OP 0x08 (R282). -/
  | inflateZlib
  /-- `PAETH`, OP 0x10 (R301). -/
  | paeth
  /-- `UNFILTER_LINE`, OP 0x11 (R307). -/
  | unfilterLine
  /-- `UNFILTER_IMAGE`, OP 0x12 (R308). -/
  | unfilterImage
  deriving DecidableEq, Repr

end Sys2Proof
end

