-- ==== Sys2Proof/WellFormed.lean ====
section
/-! DEFINITION. Which terms of `Instr` are legal commands. The selectors of `BUILD_TREE` and
`DECODE_SYMBOL` are legal by their types (`SEL` 0 to 2 and 0 to 4, R123), so the one check is `N` (R124). -/

namespace Sys2Proof

/-- `READ_BITS` accepts `N` from 0 to 16 (R124); every other command is legal as it stands. -/
def Instr.wf : Instr → Bool
  | .nop => true
  | .readBits n => decide (n.toNat ≤ Config.readBitsMax)
  | .buildTree _ => true
  | .decodeSymbol _ => true
  | .readDynTrees => true
  | .lzCopy => true
  | .inflateBlock => true
  | .zlibHeader => true
  | .inflateZlib => true
  | .paeth => true
  | .unfilterLine => true
  | .unfilterImage => true

/-- The instruction is a legal command. -/
abbrev WellFormed (i : Instr) : Prop := i.wf = true

end Sys2Proof
end

