-- ==== Sys2Proof/Decode.lean ====
section
/-! DEFINITION. The command word (R120): the decoder of R173, total on all 2^32 words and rejecting by
name, and after it the encoder, from the same rules R120 to R124. -/

namespace Sys2Proof

/-- Why a word is no command. Every one of these fails with `ILLEGAL_CMD` (R121, R173, R178). -/
inductive Reject where
  /-- `OP` 0x09 to 0x0F or 0x13 to 0xFF (R178). -/
  | reservedOp
  /-- A reserved bit, or a field the command does not use, is not 0 (R121). -/
  | unusedField
  /-- `READ_BITS` with `N` above 16 (R124). -/
  | bitCount
  /-- `BUILD_TREE` with `SEL` above 2, or `DECODE_SYMBOL` with `SEL` above 4 (R123). -/
  | selector
  deriving DecidableEq, Repr

/-- The operation codes (R122). -/
inductive Op where
  | nop | readBits | buildTree | decodeSymbol | readDynTrees | lzCopy | inflateBlock
  | zlibHeader | inflateZlib | paeth | unfilterLine | unfilterImage
  deriving DecidableEq, Repr

/-- `OP`, bits 7:0 of the command word (R120). -/
def opField (w : Word) : BitVec 8 := w.extractLsb' 0 8

/-- `SEL`, bits 10:8 of the command word (R120). -/
def selField (w : Word) : BitVec 3 := w.extractLsb' 8 3

/-- `N`, bits 20:16 of the command word (R120). -/
def countField (w : Word) : BitVec 5 := w.extractLsb' 16 5

/-- The number of each operation code (R122). -/
def opCode : Op → BitVec 8
  | .nop => 0x00#8
  | .readBits => 0x01#8
  | .buildTree => 0x02#8
  | .decodeSymbol => 0x03#8
  | .readDynTrees => 0x04#8
  | .lzCopy => 0x05#8
  | .inflateBlock => 0x06#8
  | .zlibHeader => 0x07#8
  | .inflateZlib => 0x08#8
  | .paeth => 0x10#8
  | .unfilterLine => 0x11#8
  | .unfilterImage => 0x12#8

/-- The operation a code names; every other code is reserved (R122, R178). -/
def opOf (c : BitVec 8) : Option Op :=
  if c = 0x00#8 then some .nop
  else if c = 0x01#8 then some .readBits
  else if c = 0x02#8 then some .buildTree
  else if c = 0x03#8 then some .decodeSymbol
  else if c = 0x04#8 then some .readDynTrees
  else if c = 0x05#8 then some .lzCopy
  else if c = 0x06#8 then some .inflateBlock
  else if c = 0x07#8 then some .zlibHeader
  else if c = 0x08#8 then some .inflateZlib
  else if c = 0x10#8 then some .paeth
  else if c = 0x11#8 then some .unfilterLine
  else if c = 0x12#8 then some .unfilterImage
  else none

/-- The bits above `OP` that a command may set: `N` of `READ_BITS`, `SEL` of the two tree commands (R121, R173). -/
def allowedBits : Op → Word
  | .readBits => 0x001F0000#32
  | .buildTree => 0x00000700#32
  | .decodeSymbol => 0x00000700#32
  | _ => 0#32

/-- The tree a `BUILD_TREE` selector names (R123). -/
def ramTreeOf (c : BitVec 3) : Option RamTree :=
  if c = 0#3 then some .ll
  else if c = 1#3 then some .d
  else if c = 2#3 then some .cl
  else none

/-- The tree a `DECODE_SYMBOL` selector names (R123). -/
def treeSelOf (c : BitVec 3) : Option TreeSel :=
  if c = 3#3 then some .fixedLL
  else if c = 4#3 then some .fixedD
  else (ramTreeOf c).map .ram

/-- The command word decoder: the checks of R173 in their order. -/
def decode (w : Word) : Except Reject Instr :=
  match opOf (opField w) with
  | none => .error .reservedOp
  | some op =>
    if w &&& 0xFFFFFF00#32 &&& ~~~(allowedBits op) ≠ 0#32 then .error .unusedField
    else
      match op with
      | .nop => .ok .nop
      | .readBits =>
        if Config.readBitsMax < (countField w).toNat then .error .bitCount
        else .ok (.readBits (countField w))
      | .buildTree =>
        match ramTreeOf (selField w) with
        | none => .error .selector
        | some t => .ok (.buildTree t)
      | .decodeSymbol =>
        match treeSelOf (selField w) with
        | none => .error .selector
        | some t => .ok (.decodeSymbol t)
      | .readDynTrees => .ok .readDynTrees
      | .lzCopy => .ok .lzCopy
      | .inflateBlock => .ok .inflateBlock
      | .zlibHeader => .ok .zlibHeader
      | .inflateZlib => .ok .inflateZlib
      | .paeth => .ok .paeth
      | .unfilterLine => .ok .unfilterLine
      | .unfilterImage => .ok .unfilterImage

/-- The command whose `nbits` bits are `w`, every bit above them 0. A command is one 32-bit word (R120). -/
def decodeTableWord (nbits w : Nat) : Option Instr :=
  match decode (BitVec.ofNat 32 (w % 2 ^ nbits)) with
  | .ok i => some i
  | .error _ => none

/-- The `SEL` number of a tree RAM (R123). -/
def ramTreeCode : RamTree → BitVec 3
  | .ll => 0#3
  | .d => 1#3
  | .cl => 2#3

/-- The `SEL` number of a tree (R123). -/
def treeSelCode : TreeSel → BitVec 3
  | .ram t => ramTreeCode t
  | .fixedLL => 3#3
  | .fixedD => 4#3

/-- A command word from its three fields, reserved bits 0 (R120). -/
def commandWord (op : Op) (sel : BitVec 3) (n : BitVec 5) : Word :=
  0#11 ++ n ++ 0#5 ++ sel ++ opCode op

/-- The word of a command (R120 to R124). -/
def encode : Instr → Word
  | .nop => commandWord .nop 0#3 0#5
  | .readBits n => commandWord .readBits 0#3 n
  | .buildTree t => commandWord .buildTree (ramTreeCode t) 0#5
  | .decodeSymbol t => commandWord .decodeSymbol (treeSelCode t) 0#5
  | .readDynTrees => commandWord .readDynTrees 0#3 0#5
  | .lzCopy => commandWord .lzCopy 0#3 0#5
  | .inflateBlock => commandWord .inflateBlock 0#3 0#5
  | .zlibHeader => commandWord .zlibHeader 0#3 0#5
  | .inflateZlib => commandWord .inflateZlib 0#3 0#5
  | .paeth => commandWord .paeth 0#3 0#5
  | .unfilterLine => commandWord .unfilterLine 0#3 0#5
  | .unfilterImage => commandWord .unfilterImage 0#3 0#5

end Sys2Proof
end

