-- ==== Sys2Proof/Machine/State.lean ====
section
/-! DEFINITION. The state of the machine as plain data: the registers, RAMs and status of the block (R30 to
R63), host memory (R90), the pending actions of the host (R7), the parameters the platform fixes (R8), and the
model's own bookkeeping of races, erring accesses and draws. -/

namespace Sys2Proof
namespace Machine

/-- `STATUS.STATE` (R34, R35). -/
inductive Phase where
  /-- 0: no command in progress, the last one completed or none was issued. -/
  | idle
  /-- 1: a command has been issued and has not ended. -/
  | busy
  /-- 2: the sticky failed state; only a reset leaves it (R337). -/
  | failed
  deriving DecidableEq, Repr

/-- The causes of failure (R332). The code of each is `Cause.code`. -/
inductive Cause where
  | illegalCmd | badConfig | bitsExhausted | symbolExhausted | treeWalkCorrupt | oversubscribed
  | treeNodesExhausted | treeNotBuilt | lengthTooLong | zlibFcheck | zlibMethod | zlibWindow | zlibFdict
  | badBtype | storedNlen | storedInput | outputFull | badLitlenSymbol | badDistSymbol | distTooFar
  | repeatNoPrevious | repeatOverflow | noEndCode | badFilterType | argRange | unfSize | busError
  deriving DecidableEq, Repr

/-- The width of a host access (R98). -/
inductive Width where
  | byte | half | word
  deriving DecidableEq, Repr

/-- Another instance of the block that runs: its source and its output region (R347). -/
structure Rival where
  /-- Its `SRC_BASE`. -/
  srcBase : Nat
  /-- Its `SRC_LEN`. -/
  srcLen : Nat
  /-- Its `DST_BASE`. -/
  dstBase : Nat
  /-- Its `DST_CAP`. -/
  dstCap : Nat
  deriving DecidableEq, Repr

/-- One step's single-byte access as a merged run notes it (R90, R100). -/
structure Access where
  /-- It is a `MemWrite`. -/
  write : Bool
  /-- Its address. -/
  addr : Nat
  /-- The platform errs at its byte (R344). -/
  errs : Bool
  deriving DecidableEq, Repr

/-- The run of a command whose accesses are merged (R100, R344). -/
structure Merging where
  /-- The draw that says which accesses are merged. -/
  choice : Nat
  /-- The byte that a read at whose byte the platform errs returns where another step fails, if not a free value. -/
  guess : Option Byte
  /-- The accesses of the run so far, the latest first. -/
  seen : List Access
  /-- The number of the step that fails. -/
  stop : Option Nat
  /-- The numbers of the steps that share an access that errs: of these, a write changes no byte. -/
  erring : List Nat
  /-- The writes that have changed no byte, the latest first: the address and the byte. -/
  lost : List (Nat × Byte)
  deriving DecidableEq, Repr

/-- What the outside world does to the machine, in arrival order (R7, R125, R370). -/
inductive HostAct where
  /-- A host write of `data` to the register port at host physical address `addr` (R30, `W NAME, v`). -/
  | regWrite (addr : Word) (width : Width) (data : Word)
  /-- A host read of the register port at host physical address `addr` (R30, `R NAME`). -/
  | regRead (addr : Word) (width : Width)
  /-- A write of host memory by the host, or by any agent other than the block (R125 `MW a, v`, R347). -/
  | memWrite (addr : Word) (v : Byte)
  /-- A host read of host memory (R125 `MR a`). -/
  | memRead (addr : Word)
  /-- Poll `STATUS` until the block is not `BUSY`: the block runs meanwhile (R125 `WAIT`). -/
  | wait
  /-- The reset input is asserted and released (R370). -/
  | hwReset
  /-- The platform answers other addresses with an error from now on: those of its reads, those of its writes
  (R344). -/
  | errMap (reads writes : List Nat)
  /-- These other instances run from now on (R347). -/
  | rivals (running : List Rival)
  deriving DecidableEq, Repr

/-- Host memory: (address, byte) pairs, addresses strictly rising, none equal to what an unlisted address
reads as (`Memory.wf`). -/
abbrev Memory := List Host.Cell

/-- The state of the machine. -/
structure State where
  /-- `CTRL.IRQ_EN` (R33). -/
  irqEn : Bool
  /-- `STATUS.STATE` (R34, R35). -/
  phase : Phase
  /-- `STATUS.BFINAL` (R36). -/
  bfinal : Bool
  /-- `STATUS.BTYPE` (R36). -/
  btype : BitVec 2
  /-- `STATUS.STREAM_END` (R37). -/
  streamEnd : Bool
  /-- `STATUS.LL_VALID` (R38). -/
  llValid : Bool
  /-- `STATUS.D_VALID` (R38). -/
  dValid : Bool
  /-- `STATUS.CL_VALID` (R38). -/
  clValid : Bool
  /-- `INT_STATUS.DONE` (R39). -/
  done : Bool
  /-- `INT_STATUS.ERR` (R39). -/
  err : Bool
  /-- `INT_STATUS.WIGN` (R39, R343). -/
  wign : Bool
  /-- `CMD`, the last command word stored (R40). -/
  cmd : Word
  /-- `ERR_KIND` (R41). -/
  errKind : BitVec 2
  /-- `ERR_CAUSE` (R42). -/
  errCause : BitVec 5
  /-- `ERR_BITPOS` (R43). -/
  errBitpos : Word
  /-- `ERR_OUTPOS` (R44). -/
  errOutpos : Word
  /-- `SRC_BASE` (R45). -/
  srcBase : Word
  /-- `SRC_LEN` (R46). -/
  srcLen : Word
  /-- `DST_BASE` (R47). -/
  dstBase : Word
  /-- `DST_CAP` (R48). -/
  dstCap : Word
  /-- `BITPOS`, the bit cursor (R49). -/
  bitpos : Word
  /-- `OUTPOS`, the output position (R50). -/
  outpos : Word
  /-- `ARG0` (R51). -/
  arg0 : Word
  /-- `ARG1` (R52). -/
  arg1 : Word
  /-- `RESULT` (R53). -/
  result : Word
  /-- `UNF_WIDTH` (R54). -/
  unfWidth : Word
  /-- `UNF_HEIGHT` (R55). -/
  unfHeight : Word
  /-- `UNF_BPP` (R56). -/
  unfBpp : Word
  /-- `LENRAM[0..287]`, 288 code lengths of 4 bits (R58). -/
  lenram : List (BitVec 4)
  /-- `TREE_LL[0..575]`, 576 entries of 10 bits (R59, R60). -/
  treeLL : List (BitVec 10)
  /-- `TREE_D[0..63]`, 64 entries of 10 bits (R61). -/
  treeD : List (BitVec 10)
  /-- `TREE_CL[0..37]`, 38 entries of 10 bits (R62). -/
  treeCL : List (BitVec 10)
  /-- Host memory (R90). -/
  mem : Memory
  /-- The word the register port returned for the last host register read (R30). -/
  portData : Word
  /-- The byte host memory returned for the last host memory read (R125). -/
  memData : Byte
  /-- The host's pending actions, the next one first (R7). -/
  inputs : List HostAct
  /-- Bits 31:14 of `REG_BASE`, which is aligned to 0x4000: the open parameter (R8, R31). -/
  regPage : BitVec 18
  /-- `BUS_ERRORS_POSSIBLE`: the open parameter (R8, R344). -/
  busErrors : Bool
  /-- The implementation merges DMA accesses into wider ones: it may or may not (R100). -/
  merges : Bool
  /-- The host addresses a read of which the platform answers with an error, when it can (R344). -/
  errsRead : List Nat
  /-- The host addresses a write of which the platform answers with an error, when it can (R344). -/
  errsWrite : List Nat
  /-- Address ranges (base, length) that are no plain memory: reads there have side effects (R100). -/
  devices : List (Nat × Nat)
  /-- The other instances that run, or have run while the present command was in progress (R347). -/
  rivals : List Rival
  /-- The bytes of a region that the host has written while `BUSY` (R106 (3)). -/
  raced : List Nat
  /-- How the accesses of the running command are merged: the model's own field, `none` between commands and where
  nothing is merged (R100, R344). -/
  merging : Option Merging
  /-- The model's own counter of the block's draws: free value number `draws` is the next one taken. -/
  draws : Nat
  /-- The model's own counter of the host's draws. -/
  hostDraws : Nat
  deriving DecidableEq, Repr

/-- The stops of the machine. There are none: every failure of the block is the next state of R333, and
every access the block makes lies in the address space. -/
inductive Fault
  deriving DecidableEq, Repr

/-- What the model does not cover. -/
inductive Refusal where
  /-- An instruction that has no meaning yet; safe. Raised by an arm of `exec` only. -/
  | notModelled (mnemonic : String)
  /-- A command's source or output region holds addresses with read side effects; safe. Raised by
  `regionCheck`: "such as device registers, is outside the model: the model refuses it" (R100). -/
  | sideEffectRegion
  deriving DecidableEq, Repr

/-- The block's state after reset (R370). What no reset sets stands at the values of log entries 1, 2 and 10. -/
def State.reset : State where
  irqEn := false
  phase := .idle
  bfinal := false
  btype := 0#2
  streamEnd := false
  llValid := false
  dValid := false
  clValid := false
  done := false
  err := false
  wign := false
  cmd := 0#32
  errKind := 0#2
  errCause := 0#5
  errBitpos := 0#32
  errOutpos := 0#32
  srcBase := 0#32
  srcLen := 0#32
  dstBase := 0#32
  dstCap := 0#32
  bitpos := 0#32
  outpos := 0#32
  arg0 := 0#32
  arg1 := 0#32
  result := 0#32
  unfWidth := 0#32
  unfHeight := 0#32
  unfBpp := 0#32
  lenram := List.replicate 288 0#4
  treeLL := List.replicate 576 0#10
  treeD := List.replicate 64 0#10
  treeCL := List.replicate 38 0#10
  mem := []
  portData := 0#32
  memData := 0#8
  inputs := []
  regPage := 0x3FFFF#18
  busErrors := false
  merges := false
  errsRead := []
  errsWrite := []
  devices := []
  rivals := []
  raced := []
  merging := none
  draws := 0
  hostDraws := 0

end Machine
end Sys2Proof
end

