-- ==== Sys2Proof/Machine/Flags.lean ====
section
/-! DEFINITION. The status bits of the block: the words of `STATUS`, `INT_STATUS` and `CTRL`, the interrupt
line, the cause codes, and the updates that commands make to the status and to the cursors. Each update carries
its field lemmas (`simps`), so that no proof unfolds a record update. -/

namespace Sys2Proof
namespace Machine

/-- The number of `STATUS.STATE` (R34). -/
def Phase.code : Phase → BitVec 2
  | .idle => 0#2
  | .busy => 1#2
  | .failed => 2#2

/-- The code of each cause (R332). -/
def Cause.code : Cause → BitVec 5
  | .illegalCmd => 1#5
  | .badConfig => 2#5
  | .bitsExhausted => 3#5
  | .symbolExhausted => 4#5
  | .treeWalkCorrupt => 5#5
  | .oversubscribed => 6#5
  | .treeNodesExhausted => 7#5
  | .treeNotBuilt => 8#5
  | .lengthTooLong => 9#5
  | .zlibFcheck => 10#5
  | .zlibMethod => 11#5
  | .zlibWindow => 12#5
  | .zlibFdict => 13#5
  | .badBtype => 14#5
  | .storedNlen => 15#5
  | .storedInput => 16#5
  | .outputFull => 17#5
  | .badLitlenSymbol => 18#5
  | .badDistSymbol => 19#5
  | .distTooFar => 20#5
  | .repeatNoPrevious => 21#5
  | .repeatOverflow => 22#5
  | .noEndCode => 23#5
  | .badFilterType => 24#5
  | .argRange => 25#5
  | .unfSize => 26#5
  | .busError => 27#5

/-- `InvalidParameter`, the one kind the block raises (R331). -/
def invalidParameter : BitVec 2 := 1#2

/-- `STATUS` as the host reads it (R34): bits 10, 9, 8 the valid bits, 7:6 zero, 5 `STREAM_END`, 4:3 `BTYPE`,
2 `BFINAL`, 1:0 `STATE`. -/
def statusWord (s : State) : Word :=
  0#21 ++ BitVec.ofBool s.clValid ++ BitVec.ofBool s.dValid ++ BitVec.ofBool s.llValid ++ 0#2
    ++ BitVec.ofBool s.streamEnd ++ s.btype ++ BitVec.ofBool s.bfinal ++ s.phase.code

/-- `INT_STATUS` as the host reads it (R39): bit 2 `WIGN`, 1 `ERR`, 0 `DONE`. -/
def intStatusWord (s : State) : Word :=
  0#29 ++ BitVec.ofBool s.wign ++ BitVec.ofBool s.err ++ BitVec.ofBool s.done

/-- `CTRL` as the host reads it (R33): bit 1 `IRQ_EN`, bit 0 reads 0. -/
def ctrlWord (s : State) : Word := 0#30 ++ BitVec.ofBool s.irqEn ++ 0#1

/-- The interrupt output (R340): a function of the state, with no latch of its own. -/
def irq (s : State) : Bool := s.irqEn && (s.done || s.err)

/-- The valid bit of a tree RAM (R38). -/
def valid (t : RamTree) (s : State) : Bool :=
  match t with
  | .ll => s.llValid
  | .d => s.dValid
  | .cl => s.clValid

/-- Write the valid bit of a tree RAM (R38, R202). -/
@[simps]
def State.setValid (t : RamTree) (b : Bool) (s : State) : State :=
  { s with
    llValid := if t = .ll then b else s.llValid
    dValid := if t = .d then b else s.dValid
    clValid := if t = .cl then b else s.clValid }

/-- Move the bit cursor: the register holds the position modulo 2^32 (R11, R49). -/
@[simps]
def State.setBitpos (p : Nat) (s : State) : State := { s with bitpos := BitVec.ofNat 32 p }

/-- Move the output position (R50). -/
@[simps]
def State.setOutpos (p : Nat) (s : State) : State := { s with outpos := BitVec.ofNat 32 p }

/-- Write `RESULT`, zero-extended (R53). -/
@[simps]
def State.setResult (v : Nat) (s : State) : State := { s with result := BitVec.ofNat 32 v }

/-- Store a block header into `STATUS` (R36, R250). -/
@[simps]
def State.setHeader (bfinal btype : Nat) (s : State) : State :=
  { s with bfinal := bfinal == 1, btype := BitVec.ofNat 2 btype }

/-- Write `STATUS.STREAM_END` (R37). -/
@[simps]
def State.setStreamEnd (b : Bool) (s : State) : State := { s with streamEnd := b }

/-- Replace host memory. -/
@[simps]
def State.setMem (m : Memory) (s : State) : State := { s with mem := m }

/-- Take one free value on the block's side: the next draw gets a number of its own. -/
@[simps]
def State.tick (s : State) : State := { s with draws := s.draws + 1 }

/-- Take one free value on the host's side. -/
@[simps]
def State.hostTick (s : State) : State := { s with hostDraws := s.hostDraws + 1 }

/-- Say how the accesses of the running command are merged (R100, R344). -/
@[simps]
def State.setMerging (x : Option Merging) (s : State) : State := { s with merging := x }

/-- Completion of a command (R171). -/
@[simps]
def State.complete (s : State) : State := { s with phase := .idle, done := true }

end Machine
end Sys2Proof
end

