-- ==== Sys2Proof/Machine/Ops.lean ====
section
/-! DEFINITION. The shared operations: host memory, how a procedure of a command ends (R12), the failure entry
(R333), the DMA accesses with what may come between them (R90 to R92, R344, R347), the region check (R95) and the run
of a command over its regions. -/

namespace Sys2Proof
namespace Machine

/-! ### Host memory -/

/-- What an address that is not listed reads as (log entry 1). -/
def Memory.unlisted : Byte := 0#8

/-- The byte at an address: `MemRead` of plain memory (R90). -/
def Memory.read : Memory → Nat → Byte
  | [], _ => Memory.unlisted
  | (k, v) :: m, a => if k = a then v else Memory.read m a

/-- List a byte before the first higher address. -/
def Memory.insert (a : Nat) (v : Byte) : Memory → Memory
  | [] => [(a, v)]
  | (k, w) :: m => if a < k then (a, v) :: (k, w) :: m else (k, w) :: Memory.insert a v m

/-- Forget what is listed at an address. -/
def Memory.erase (m : Memory) (a : Nat) : Memory := m.filter fun c => c.1 != a

/-- Store a byte: `MemWrite` (R90). The value of an unlisted address is stored by listing nothing. -/
def Memory.write (m : Memory) (a : Nat) (v : Byte) : Memory :=
  if v = Memory.unlisted then m.erase a else Memory.insert a v (m.erase a)

/-- The canonical form: addresses strictly rise, every one lies in the address space, and no listed byte equals
what an unlisted address reads as. -/
def Memory.wf : Memory → Bool
  | [] => true
  | (k, v) :: m =>
    decide (k < Config.addrSpace) && v != Memory.unlisted && m.all (fun c => decide (k < c.1)) && Memory.wf m

/-! ### How a procedure ends -/

/-- What a `raise Fail` carries (R12, R306, R333). -/
inductive Failure where
  /-- A cause located by the cursors at the failing step. -/
  | cause (c : Cause)
  /-- `BAD_FILTER_TYPE`, located by the line `y` and the line length `lb`. -/
  | badFilter (y lb : Nat)
  deriving DecidableEq, Repr

/-- A procedure returns normally, ends by `raise Fail` (R12), or is outside the model. -/
inductive Res (α : Type) where
  /-- It returned `a`, the machine then being in `s`. -/
  | ok (a : α) (s : State)
  /-- It raised `f` in the state `s`. -/
  | fail (f : Failure) (s : State)
  /-- The model does not cover what it asks for. -/
  | refuse (r : Refusal)
  deriving DecidableEq, Repr

/-- One procedure after another: a failure ends the whole command at once (R12). -/
def Res.andThen {α β : Type} (r : Res α) (f : α → State → Res β) : Res β :=
  match r with
  | .ok a s => f a s
  | .fail x s => .fail x s
  | .refuse x => .refuse x

/-- `raise Fail(c)` (R12). -/
def raise {α : Type} (c : Cause) (s : State) : Res α := .fail (.cause c) s

/-- The cause of a failure (R332). -/
def Failure.code : Failure → BitVec 5
  | .cause c => c.code
  | .badFilter _ _ => Cause.badFilterType.code

/-- What `ERR_BITPOS` takes: the cursor, or the bit offset of the failing line's filter byte (R333, R334). -/
def Failure.bitpos (f : Failure) (s : State) : Word :=
  match f with
  | .cause _ => s.bitpos
  | .badFilter y lb => BitVec.ofNat 32 (8 * y * (lb + 1))

/-- What `ERR_OUTPOS` takes: the output position, or the output offset of the failing line (R333, R334). -/
def Failure.outpos (f : Failure) (s : State) : Word :=
  match f with
  | .cause _ => s.outpos
  | .badFilter y lb => BitVec.ofNat 32 (y * lb)

/-- FAILURE ENTRY (R333): the one place where a failure is taken. -/
@[simps]
def State.enterFailure (f : Failure) (s : State) : State :=
  { s with
    errBitpos := f.bitpos s
    errOutpos := f.outpos s
    errKind := invalidParameter
    errCause := f.code
    outpos := 0#32
    phase := .failed
    err := true }

/-- The end of `Execute` (R170): completion (R171) or the failure entry (R333). -/
def finish : Res Unit → Host.Outcome State Fault Refusal
  | .ok _ s => .next s.complete
  | .fail f s => .next (s.enterFailure f)
  | .refuse r => .refused r

/-! ### Regions -/

/-- The address lies in the source region (R91). -/
def inSource (s : State) (a : Nat) : Bool :=
  decide (s.srcBase.toNat ≤ a) && decide (a < s.srcBase.toNat + s.srcLen.toNat)

/-- The address lies in the output region (R92). -/
def inOutput (s : State) (a : Nat) : Bool :=
  decide (s.dstBase.toNat ≤ a) && decide (a < s.dstBase.toNat + s.dstCap.toNat)

/-- The ranges of `n` bytes at `a` and of `m` bytes at `b` share an address. -/
def overlap (a n b m : Nat) : Bool :=
  decide (0 < n) && decide (0 < m) && decide (a < b + m) && decide (b < a + n)

/-! ### Other instances -/

/-- Another instance and this block have regions that overlap where either writes (R347). -/
def clashes (s : State) (r : Rival) : Bool :=
  overlap s.srcBase.toNat s.srcLen.toNat r.dstBase r.dstCap
    || overlap s.dstBase.toNat s.dstCap.toNat r.srcBase r.srcLen
    || overlap s.dstBase.toNat s.dstCap.toNat r.dstBase r.dstCap

/-- The address lies in the range of `n` bytes at `b`. -/
def within (a b n : Nat) : Bool := decide (b ≤ a) && decide (a < b + n)

/-- Another instance may write this byte while the command runs (R347). -/
def rivalWrites (s : State) (a : Nat) : Bool :=
  s.rivals.any fun r => clashes s r && within a r.dstBase r.dstCap

/-- Another instance may read or write this byte while the command runs (R347). -/
def rivalTouches (s : State) (a : Nat) : Bool :=
  s.rivals.any fun r => clashes s r && (within a r.srcBase r.srcLen || within a r.dstBase r.dstCap)

/-- No other instance that runs has a region that overlaps with this block's where either writes, as R347 asks. -/
def rivalsApart (s : State) : Bool := s.rivals.all fun r => !clashes s r

/-! ### DMA -/

/-- The addresses at which the platform answers a write, or a read, with an error (R344; log entry 24). -/
def errsAt (write : Bool) (s : State) : List Nat := if write then s.errsWrite else s.errsRead

/-- A merged run before its first access, in which no step fails. -/
def Merging.start (choice : Nat) (guess : Option Byte) : Merging := ⟨choice, guess, [], none, [], []⟩

/-- The number of the next step of the run. -/
def Merging.steps (g : Merging) : Nat := g.seen.length

/-- The run after one more access. -/
def Merging.note (g : Merging) (x : Access) : Merging := { g with seen := x :: g.seen }

/-- The byte of a write that changed none, if a read returns it (R105, R344; log entry 26). -/
def Merging.lostByte (g : Merging) (a : Nat) : Option Byte :=
  (g.lost.lookup a).filter fun _ => Config.seesLost g.choice g.steps

/-- The bus side of one DMA access: it is served (`false`), the command fails with `BUS_ERROR` at this step, or it goes on
from the step without its effect (`true`) (R344; log entry 8). Where no error is possible it changes nothing, and where
nothing is merged the command fails at the step whose own byte errs. A merged run fails at the step drawn. Another step
has no effect where the platform errs at its byte, or where it is a write that shares an access that errs. -/
def busAccess (write : Bool) (a : Nat) (s : State) : Res Bool :=
  if s.busErrors then
    match s.merging with
    | none => if a ∈ errsAt write s then raise .busError s.tick else .ok false s.tick
    | some g =>
      if g.stop = some g.steps then raise .busError s.tick
      else
        .ok (decide (a ∈ errsAt write s) || write && decide (g.steps ∈ g.erring))
          (s.tick.setMerging (some (g.note ⟨write, a, decide (a ∈ errsAt write s)⟩)))
  else .ok false s

/-- What a read finds at the address: the byte of host memory, or the one an earlier write of the command meant for it,
where that write shared the access that errs and changed none. R105 has a read see every earlier write and R344 has such
a write change no byte: which of the two it is, is a free choice (log entry 26). -/
def byteSeen (a : Nat) (s : State) : Byte :=
  ((if s.busErrors then s.merging else none).bind fun g => g.lostByte a).getD (s.mem.read a)

/-- The byte a command goes on with where a read gives no value: a free value, but in a run that only asks which accesses
follow a given byte (R344; log entry 8). -/
def byteLacking (s : State) : Byte := (s.merging.bind Merging.guess).getD (Config.freeByte s.draws)

/-- A one-byte DMA read (R90). It returns a free value for a byte the host has raced (R106 (3), R376), a byte another
instance may write (R347), and a byte the platform errs at where another step fails (R344; log entry 8). -/
def dmaRead (a : Nat) (s : State) : Res Byte :=
  (busAccess false a s).andThen fun erred s =>
    if erred then .ok (byteLacking s) s.tick
    else if decide (a ∈ s.raced) || rivalWrites s a then .ok (Config.freeByte s.draws) s.tick
    else .ok (byteSeen a s) s

/-- The end of a write: it writes its byte, or, where its access erred, changes none (R344), which the run notes. -/
def putByte (erred : Bool) (a : Nat) (v : Byte) (s : State) : State :=
  if erred then s.setMerging (s.merging.map fun g => { g with lost := (a, v) :: g.lost })
  else s.setMem (s.mem.write a v)

/-- A one-byte DMA write (R90). One that erred changes no byte (R344), and one to a byte another instance reads or
writes leaves it a free value (R347). What a later read of the same command finds where a write changed no byte is the
model's choice (`byteSeen`, log entry 26). -/
def dmaWrite (a : Nat) (v : Byte) (s : State) : Res Unit :=
  (busAccess true a s).andThen fun erred s =>
    if rivalTouches s a then .ok () (putByte erred a (Config.freeByte s.draws) s.tick)
    else .ok () (putByte erred a v s)

/-- `Src(i)` (R91). -/
def src (i : Nat) (s : State) : Res Byte := dmaRead (s.srcBase.toNat + i) s

/-- `Dst(i)` (R92). -/
def dst (i : Nat) (s : State) : Res Byte := dmaRead (s.dstBase.toNat + i) s

/-- `DstWrite(i, v)` (R92). -/
def dstWrite (i : Nat) (v : Byte) (s : State) : Res Unit := dmaWrite (s.dstBase.toNat + i) v s

/-! ### The region check -/

/-- The conditions of the region check, any of which is `BAD_CONFIG` (R95). The sums are exact integers. -/
def regionsBad (inflateSide : Bool) (s : State) : Bool :=
  decide (Config.srcLenMax < s.srcLen.toNat)
    || decide (Config.addrSpace < s.srcBase.toNat + s.srcLen.toNat)
    || decide (Config.addrSpace < s.dstBase.toNat + s.dstCap.toNat)
    || overlap s.srcBase.toNat s.srcLen.toNat s.dstBase.toNat s.dstCap.toNat
    || (inflateSide
        && (decide (8 * s.srcLen.toNat < s.bitpos.toNat) || decide (s.dstCap.toNat < s.outpos.toNat)))

/-- Both regions are plain memory, as they must be (R100). -/
def regionsPlain (s : State) : Bool :=
  s.devices.all fun r =>
    !overlap s.srcBase.toNat s.srcLen.toNat r.1 r.2 && !overlap s.dstBase.toNat s.dstCap.toNat r.1 r.2

/-- `RegionCheck(inflate_side)` (R95), and the refusal of a region that is no plain memory (R100). -/
def regionCheck (inflateSide : Bool) (s : State) : Res Unit :=
  if regionsBad inflateSide s then raise .badConfig s
  else if regionsPlain s then .ok () s
  else .refuse .sideEffectRegion

/-! ### The run of a command over its regions -/

/-- The same end of a procedure, its state changed by `f`. -/
def Res.mapState {α : Type} (f : State → State) : Res α → Res α
  | .ok a s => .ok a (f s)
  | .fail x s => .fail x (f s)
  | .refuse r => .refuse r

/-- The lowest address of the range of these addresses that goes down from `a`, within `n` more. -/
def lowest (as : List Nat) : Nat → Nat → Nat
  | 0, a => a
  | n + 1, a => if 0 < a ∧ a - 1 ∈ as then lowest as n (a - 1) else a

/-- The highest address of the range of these addresses that goes up from `a`, within `n` more. -/
def highest (as : List Nat) : Nat → Nat → Nat
  | 0, a => a
  | n + 1, a => if a + 1 ∈ as then highest as n (a + 1) else a

/-- The steps that the bus access of the step `x` serves: those of its direction and number at the contiguous addresses
about its own (R100). -/
def sharing (choice : Nat) (log : List (Access × Nat)) (x : Access × Nat) : List (Access × Nat) :=
  let one := log.filter fun y =>
    y.1.write == x.1.write && Config.mergedInto choice y.2 == Config.mergedInto choice x.2
  let as := one.map fun y => y.1.addr
  one.filter fun y =>
    decide (lowest as as.length x.1.addr ≤ y.1.addr) && decide (y.1.addr ≤ highest as as.length x.1.addr)

/-- The accesses a merged run has noted when it ends, the first one first. -/
def noted : Res Unit → List Access
  | .ok _ s => (s.merging.elim [] Merging.seen).reverse
  | .fail _ s => (s.merging.elim [] Merging.seen).reverse
  | .refuse _ => []

/-- The accesses of a command in which no step fails, and whose reads that err return the byte given, or free values. -/
def accessesWith (body : State → Res Unit) (s : State) (v : Option Byte) : List Access :=
  noted (body (s.setMerging (some (.start s.draws v))))

/-- The longest list with which both begin. -/
def commonPrefix : List Access → List Access → List Access
  | x :: xs, y :: ys => if x = y then x :: commonPrefix xs ys else []
  | _, _ => []

/-- The accesses the command makes whatever byte its reads that err return, up to the first one that hangs on that byte:
a byte that decides no step ends them nowhere, and one that decides which step follows ends them there. -/
def sureAccesses (body : State → Res Unit) (s : State) : List Access :=
  (List.range 256).foldl (fun l v => commonPrefix l (accessesWith body s (some (BitVec.ofNat 8 v))))
    (accessesWith body s none)

/-- The steps among which the one that fails is drawn, of those that share the access of the step `x`, at whose byte the
platform errs (R344). The first `n` steps are sure; where `x` is none of these, none of these fails for it. -/
def candidates (choice n : Nat) (log : List (Access × Nat)) (x : Access × Nat) : List Nat :=
  ((if x.2 < n then sharing choice (log.take n) x else [])
    ++ (sharing choice log x).filter fun y => decide (n ≤ y.2)).map Prod.snd

/-- The step drawn to fail of those that share the access of the step `x` (R344): the first one drawn so, else `x`. -/
def drawnStep (choice n : Nat) (log : List (Access × Nat)) (x : Access × Nat) : Nat :=
  ((candidates choice n log x).find? (Config.failsHere choice)).getD x.2

/-- A read of a sure byte errs when it is issued, which can be with the first of its steps. -/
def errsAhead (n : Nat) (x : Access × Nat) : Bool := !x.1.write && decide (x.2 < n)

/-- The run in which the access of the step `x` errs, too, if it errs ahead of its steps or the run comes to `x`: the
command fails at the earliest of the steps drawn (R344). -/
def Merging.withError (n : Nat) (log : List (Access × Nat)) (g : Merging) (x : Access × Nat) : Merging :=
  if errsAhead n x || g.stop.all (fun k => decide (x.2 < k)) then
    { g with
      stop := some (min (g.stop.getD (drawnStep g.choice n log x)) (drawnStep g.choice n log x))
      erring := candidates g.choice n log x ++ g.erring }
  else g

/-- The run of a command with the step that fails known, if an access errs. The reads that err ahead of their steps come
first, then the other errors in the order of the steps, each only if the command comes to it. -/
def drawnRun (body : State → Res Unit) (s : State) : Merging :=
  let log := (accessesWith body s none).zipIdx
  let errs := log.filter fun x => x.1.errs
  if errs.isEmpty then .start s.draws none
  else
    let n := (sureAccesses body s).length
    (errs.filter (errsAhead n) ++ errs.filter fun x => !errsAhead n x).foldl (Merging.withError n log)
      (.start s.draws none)

/-- The command fails with `BUS_ERROR`. -/
def failsOnBus : Res Unit → Bool
  | .fail (.cause .busError) _ => true
  | _ => false

/-- The run of a command whose accesses are merged (R100, R344; log entry 8): each access that errs draws the step that
fails of those it serves, and the command fails at the earliest. Where no access errs, the run is that of single-byte
accesses. -/
def mergedRun (body : State → Res Unit) (s : State) : Res Unit :=
  if failsOnBus (body (s.setMerging (some (drawnRun body s)))) then body (s.setMerging (some (drawnRun body s)))
  else body (s.setMerging none)

/-- The run of a command's accesses. The model's field `merging` is as before when it ends. -/
def runAccesses (body : State → Res Unit) (s : State) : Res Unit :=
  (if s.busErrors then if s.merges then mergedRun body s else body (s.setMerging none)
    else body s).mapState (State.setMerging s.merging)

/-- A command that touches host memory: the region check, then its operation (R95, R173). -/
def overRegions (inflateSide : Bool) (body : State → Res Unit) (s : State) : Res Unit :=
  (regionCheck inflateSide s).andThen fun _ s => runAccesses body s

end Machine
end Sys2Proof
end

