-- ==== Sys2Proof/Machine/Control.lean ====
section
/-! DEFINITION. The control command (R177). -/

namespace Sys2Proof
namespace Machine

/-- `NOP` (R177): `Execute` returns at once and completion follows. -/
def execNop (s : State) : Host.Outcome State Fault Refusal := finish (.ok () s)

end Machine
end Sys2Proof
end

