-- ==== Sys2Proof/Machine/Operands.lean ====
section
/-! DEFINITION. The forms a command's operands take: fields of the bit stream (R190 to R192), the tree a
selector names (R123) and its entries (R59), and the constant tables (R63, R137 to R142). -/

namespace Sys2Proof
namespace Machine

/-! ### The bit reader -/

/-- `StreamBit(p)`, as 0 or 1 (R190): bit `p mod 8` of source byte `p div 8`. -/
def streamBit (p : Nat) (s : State) : Res Nat :=
  (src (p / 8) s).andThen fun b s => .ok (b.getLsbD (p % 8)).toNat s

/-- The value of `n` stream bits from `p` on, the first one least significant (R191). -/
def bitsFrom (p : Nat) : Nat → State → Res Nat
  | 0, s => .ok 0 s
  | n + 1, s =>
    (streamBit p s).andThen fun b s =>
      (bitsFrom (p + 1) n s).andThen fun v s => .ok (b + 2 * v) s

/-- `ReadBits(n)` (R191): the cursor moves once all bits are read. -/
def readBits (n : Nat) (s : State) : Res Nat :=
  (bitsFrom s.bitpos.toNat n s).andThen fun v s => .ok v (s.setBitpos (s.bitpos.toNat + n))

/-- `CheckedRead(n)` (R192): a read that would pass the end of the source consumes no bit. -/
def checkedRead (n : Nat) (s : State) : Res Nat :=
  if 8 * s.srcLen.toNat < s.bitpos.toNat + n then raise .bitsExhausted s else readBits n s

/-! ### Trees -/

/-- `numcodes` of a tree RAM (R8, R123). -/
def numcodes : RamTree → Nat
  | .ll => 288
  | .d => 32
  | .cl => 19

/-- `maxbitlen` of a tree RAM (R8, R123). -/
def maxbitlen : RamTree → Nat
  | .ll => 15
  | .d => 15
  | .cl => 7

/-- `numcodes` of the tree a selector names (R123). -/
def numcodesOf : TreeSel → Nat
  | .ram t => numcodes t
  | .fixedLL => 288
  | .fixedD => 32

/-- Entry `j` of a tree RAM (R59). -/
def ramEntry (t : RamTree) (j : Nat) (s : State) : Nat :=
  match t with
  | .ll => (s.treeLL.getD j 0#10).toNat
  | .d => (s.treeD.getD j 0#10).toNat
  | .cl => (s.treeCL.getD j 0#10).toNat

/-- The `n` entries of a tree table as a RAM holds them, each in 10 bits (R59). -/
def tableOf (n : Nat) (l : List (BitVec 10)) : List (BitVec 10) := (l ++ List.replicate n 0#10).take n

/-- Write a tree RAM (R202). -/
@[simps]
def State.setTable (t : RamTree) (l : List (BitVec 10)) (s : State) : State :=
  { s with
    treeLL := if t = .ll then tableOf 576 l else s.treeLL
    treeD := if t = .d then tableOf 64 l else s.treeD
    treeCL := if t = .cl then tableOf 38 l else s.treeCL }

/-! ### Constant tables -/

/-- `LENGTH_BASE` (R137). -/
def lengthBase : List Nat :=
  [3, 4, 5, 6, 7, 8, 9, 10, 11, 13, 15, 17, 19, 23, 27]
    ++ [31, 35, 43, 51, 59, 67, 83, 99, 115, 131, 163, 195, 227, 258]

/-- `LENGTH_EXTRA` (R137). -/
def lengthExtra : List Nat :=
  [0, 0, 0, 0, 0, 0, 0, 0, 1, 1, 1, 1, 2, 2, 2] ++ [2, 3, 3, 3, 3, 4, 4, 4, 4, 5, 5, 5, 5, 0]

/-- `DISTANCE_BASE` (R138). -/
def distanceBase : List Nat :=
  [1, 2, 3, 4, 5, 7, 9, 13, 17, 25, 33, 49, 65, 97, 129]
    ++ [193, 257, 385, 513, 769, 1025, 1537, 2049, 3073, 4097, 6145, 8193, 12289, 16385, 24577]

/-- `DISTANCE_EXTRA` (R138). -/
def distanceExtra : List Nat :=
  [0, 0, 0, 0, 1, 1, 2, 2, 3, 3, 4, 4, 5, 5, 6] ++ [6, 7, 7, 8, 8, 9, 9, 10, 10, 11, 11, 12, 12, 13, 13]

/-- `CLCL_ORDER` (R140). -/
def clclOrder : List Nat := [16, 17, 18, 0, 8, 7, 9, 6, 10, 5, 11, 4, 12, 3, 13, 2, 14, 1, 15]

/-- `FIXED_LL_LENGTHS` (R142): 8 for symbols 0-143, 9 for 144-255, 7 for 256-279, 8 for 280-287. -/
def fixedLLLengths : List Nat :=
  List.replicate 144 8 ++ List.replicate 112 9 ++ List.replicate 24 7 ++ List.replicate 8 8

/-- `FIXED_D_LENGTHS` (R142): 5 for every symbol. -/
def fixedDLengths : List Nat := List.replicate 32 5

end Machine
end Sys2Proof
end

