-- ==== Sys2Proof/Machine/Huffman.lean ====
section
/-! DEFINITION. The Huffman tree builder (R194 to R202), on lists: canonical codes from code lengths, and their
insertion into a tree table. -/

namespace Sys2Proof
namespace Machine

/-- `blcount[l]` (R196): unused symbols are not counted. -/
def blcount (len : List Nat) (l : Nat) : Nat := if l = 0 then 0 else len.count l

/-- `Kraft`, the sum over `l = 1..M` of `blcount[l] * 2^(M-l)` (R197). -/
def kraft (len : List Nat) (M : Nat) : Nat :=
  ((List.range M).map fun k => blcount len (k + 1) * 2 ^ (M - (k + 1))).sum

/-- `nextcode[l]` before any code is assigned (R198). -/
def firstCode (len : List Nat) : Nat → Nat
  | 0 => 0
  | l + 1 => (firstCode len l + blcount len l) <<< 1

/-- Code assignment in symbol order (R199): each used symbol takes the next code of its length. `next` holds
`nextcode[0..M]`; an unused symbol gets code 0, which nothing reads. -/
def assignFrom (next : List Nat) : List Nat → List Nat
  | [] => []
  | l :: ls =>
    if l = 0 then 0 :: assignFrom next ls
    else next.getD l 0 :: assignFrom (next.set l (next.getD l 0 + 1)) ls

/-- `code[0..N-1]` (R198, R199). -/
def assignCodes (len : List Nat) (M : Nat) : List Nat :=
  assignFrom ((List.range (M + 1)).map (firstCode len)) len

/-- A tree under construction (R200): `T[0..2N-1]`, an entry not yet set being `UNSET`, and `nodefilled`. -/
structure Builder where
  /-- `T`. -/
  slots : List (Option Nat)
  /-- `nodefilled`. -/
  nodes : Nat
  deriving DecidableEq, Repr

/-- Insertion of the last `r` bits of the code of symbol `sym` from node `pos` on, most significant bit first
(R200). The bit of weight `2^r` is next, and it is the last one when `r = 0`. -/
def insertBits (N sym code : Nat) : Nat → Nat → Builder → Except Cause Builder
  | 0, _, b => .ok b
  | r + 1, pos, b =>
    if N - 2 < pos then .error .treeNodesExhausted
    else
      match b.slots.getD (2 * pos + (code >>> r) % 2) none with
      | none =>
        if r = 0 then .ok { b with slots := b.slots.set (2 * pos + (code >>> r) % 2) (some sym) }
        else
          insertBits N sym code r (b.nodes + 1)
            { slots := b.slots.set (2 * pos + (code >>> r) % 2) (some (b.nodes + 1 + N))
              nodes := b.nodes + 1 }
      | some v =>
        if r = 0 ∨ v < N then .error .oversubscribed else insertBits N sym code r (v - N) b

/-- Insertion of every symbol from `sym` on, given the pairs of its length and code (R200). -/
def insertFrom (N : Nat) : Nat → List (Nat × Nat) → Builder → Except Cause Builder
  | _, [], b => .ok b
  | sym, (l, c) :: rest, b =>
    match insertBits N sym c l 0 b with
    | .ok b' => insertFrom N (sym + 1) rest b'
    | .error e => .error e

/-- `BuildTree(len, N, M)` (R194): the checks of R195 and R197, insertion (R200), and the zero-fill of R201. -/
def buildTree (len : List Nat) (N M : Nat) : Except Cause (List Nat) :=
  if len.any fun l => decide (M < l) then .error .lengthTooLong
  else if 2 ^ M < kraft len M then .error .oversubscribed
  else
    match insertFrom N 0 (len.zip (assignCodes len M)) ⟨List.replicate (2 * N) none, 0⟩ with
    | .ok b => .ok (b.slots.map fun x => x.getD 0)
    | .error e => .error e

/-- A tree RAM holds unspecified entries, one free value each (R60, R202). -/
def spoilTable (t : RamTree) (s : State) : State :=
  (s.setTable t ((List.range (2 * numcodes t)).map (Config.freeEntry s.draws))).tick

/-- `TreeCommit(sel, len)` (R202): the valid bit is 0 while the tree is built, and after a failed build. -/
def treeCommit (t : RamTree) (len : List Nat) (s : State) : Res Unit :=
  match buildTree len (numcodes t) (maxbitlen t) with
  | .error c => raise c (spoilTable t (s.setValid t false))
  | .ok l => .ok () ((s.setTable t (l.map (BitVec.ofNat 10))).setValid t true)

end Machine
end Sys2Proof
end

