-- ==== Sys2Proof/Machine/Symbols.lean ====
section
/-! DEFINITION. The symbol decoder (R205) and the commands of the three leaf components: `READ_BITS` (R193),
`BUILD_TREE` (R203) and `DECODE_SYMBOL` (R206). -/

namespace Sys2Proof
namespace Machine

/-- The walk of R205 from node `pos`. It takes one bit a step, so `fuel`, the number of stream bits left, is
never short: at 0 no bit is left, and the check before the bit read fails. -/
def walk (t : TreeSel) : Nat → Nat → State → Res Nat
  | 0, _, s => raise .symbolExhausted s
  | fuel + 1, pos, s =>
    if 8 * s.srcLen.toNat ≤ s.bitpos.toNat then raise .symbolExhausted s
    else
      (readBits 1 s).andThen fun bit s =>
        if treeEntry t (2 * pos + bit) s < numcodesOf t then .ok (treeEntry t (2 * pos + bit) s) s
        else if numcodesOf t ≤ treeEntry t (2 * pos + bit) s - numcodesOf t then raise .treeWalkCorrupt s
        else walk t fuel (treeEntry t (2 * pos + bit) s - numcodesOf t) s

/-- A tree can be decoded with when it is constant or its valid bit is 1 (R38, R63). -/
def treeBuilt (t : TreeSel) (s : State) : Bool :=
  match t with
  | .ram r => valid r s
  | .fixedLL => true
  | .fixedD => true

/-- The stream bits from the cursor to the end of the source. -/
def bitsLeft (s : State) : Nat := 8 * s.srcLen.toNat - s.bitpos.toNat

/-- `DecodeSymbol(sel)` (R205). -/
def decodeSymbol (t : TreeSel) (s : State) : Res Nat :=
  if treeBuilt t s then walk t (bitsLeft s) 0 s else raise .treeNotBuilt s

/-- `READ_BITS n` (R193). -/
def execReadBits (n : BitVec 5) (s : State) : Host.Outcome State Fault Refusal :=
  finish <|
    if Config.readBitsMax < n.toNat then raise .illegalCmd s
    else overRegions true (fun s => (checkedRead n.toNat s).andThen fun v s => .ok () (s.setResult v)) s

/-- The code lengths `LENRAM[0..N-1]` of a tree with `N` symbols (R203). -/
def lenramLengths (n : Nat) (s : State) : List Nat := (List.range n).map fun k => (s.lenram.getD k 0#4).toNat

/-- `BUILD_TREE sel` (R203). -/
def execBuildTree (t : RamTree) (s : State) : Host.Outcome State Fault Refusal :=
  finish (treeCommit t (lenramLengths (numcodes t) s) s)

/-- `DECODE_SYMBOL sel` (R206). -/
def execDecodeSymbol (t : TreeSel) (s : State) : Host.Outcome State Fault Refusal :=
  finish (overRegions true (fun s => (decodeSymbol t s).andThen fun v s => .ok () (s.setResult v)) s)

end Machine
end Sys2Proof
end

