-- ==== Sys2Proof/Machine/DynTrees.lean ====
section
/-! DEFINITION. The dynamic-tree reader (R230 to R239) and the command `READ_DYN_TREES` (R241). The reader's
scratch arrays are values of the procedures: none survives a command (R64). -/

namespace Sys2Proof
namespace Machine

/-- The three header counts (R231): `HLIT`, `HDIST` and `HCLEN`. -/
structure DynCounts where
  /-- Number of literal/length code lengths, 257 to 288. -/
  hlit : Nat
  /-- Number of distance code lengths, 1 to 32. -/
  hdist : Nat
  /-- Number of code-length code lengths, 4 to 19. -/
  hclen : Nat
  deriving DecidableEq, Repr

/-- Header counts (R231). -/
def readCounts (s : State) : Res DynCounts :=
  (checkedRead 5 s).andThen fun a s =>
    (checkedRead 5 s).andThen fun b s =>
      (checkedRead 4 s).andThen fun c s => .ok ⟨a + 257, b + 1, c + 4⟩ s

/-- The code lengths of the code-length tree (R232): one 3-bit field for each symbol of `order`, placed at that
symbol of `cl`. -/
def readClLengths : List Nat → List Nat → State → Res (List Nat)
  | [], cl, s => .ok cl s
  | k :: order, cl, s =>
    (checkedRead 3 s).andThen fun v s => readClLengths order (cl.set k v) s

/-- A run of equal lengths (R235, R236): how often, and which length. -/
def readRun (sym : Nat) (lens : List Nat) (s : State) : Res (Nat × Nat) :=
  if sym = 16 then
    if lens.length = 0 then raise .repeatNoPrevious s
    else (checkedRead 2 s).andThen fun x s => .ok (3 + x, lens.getD (lens.length - 1) 0) s
  else if sym = 17 then (checkedRead 3 s).andThen fun x s => .ok (3 + x, 0) s
  else (checkedRead 7 s).andThen fun x s => .ok (11 + x, 0) s

/-- The run-length loop (R233, R234, R237): `lens` is the combined array so far, its length the index `i`.
Each turn appends at least one entry, so `fuel = total` is never short. -/
def readLengths (total : Nat) : Nat → List Nat → State → Res (List Nat)
  | 0, lens, s => .ok lens s
  | fuel + 1, lens, s =>
    if lens.length < total then
      (decodeSymbol (.ram .cl) s).andThen fun sym s =>
        if sym ≤ 15 then readLengths total fuel (lens ++ [sym]) s
        else
          (readRun sym lens s).andThen fun run s =>
            if total < lens.length + run.1 then raise .repeatOverflow s
            else readLengths total fuel (lens ++ List.replicate run.1 run.2) s
    else .ok lens s

/-- The literal/length code lengths of the combined array, padded to the alphabet (R239). -/
def litlenPart (hlit : Nat) (lens : List Nat) : List Nat := lens.take hlit ++ List.replicate (288 - hlit) 0

/-- The distance code lengths of the combined array, padded to the alphabet (R239). -/
def distPart (hlit hdist : Nat) (lens : List Nat) : List Nat :=
  (lens.drop hlit).take hdist ++ List.replicate (32 - hdist) 0

/-- Tree construction from the combined array (R238, R239). -/
def buildDynTrees (c : DynCounts) (lens : List Nat) (s : State) : Res Unit :=
  if lens.getD 256 0 = 0 then raise .noEndCode s
  else
    (treeCommit .ll (litlenPart c.hlit lens) s).andThen fun _ s =>
      treeCommit .d (distPart c.hlit c.hdist lens) s

/-- `ReadDynTrees()` (R230). -/
def readDynTrees (s : State) : Res Unit :=
  (readCounts s).andThen fun c s =>
    (readClLengths (clclOrder.take c.hclen) (List.replicate 19 0) s).andThen fun cl s =>
      (treeCommit .cl cl s).andThen fun _ s =>
        (readLengths (c.hlit + c.hdist) (c.hlit + c.hdist) [] s).andThen fun lens s =>
          buildDynTrees c lens s

/-- `READ_DYN_TREES` (R241). -/
def execReadDynTrees (s : State) : Host.Outcome State Fault Refusal :=
  finish (overRegions true readDynTrees s)

end Machine
end Sys2Proof
end

