-- ==== Sys2Proof/Machine/Inflate.lean ====
section
/-! DEFINITION. The block inflator and the LZ77 copier (R250 to R261), and the commands `LZ_COPY` (R262) and
`INFLATE_BLOCK` (R263). -/

namespace Sys2Proof
namespace Machine

/-! ### Stored body -/

/-- Copy `n` source bytes from offset `start` on to the output, the `k`-th to output offset `OUTPOS + k` (R252). -/
def storedCopy (start : Nat) : Nat → Nat → State → Res Unit
  | 0, _, s => .ok () s
  | n + 1, k, s =>
    (src (start + k) s).andThen fun b s =>
      (dstWrite (s.outpos.toNat + k) b s).andThen fun _ s => storedCopy start n (k + 1) s

/-- A 2-byte field at source offset `p`, least significant byte first (R97, R133). -/
def src16 (p : Nat) (s : State) : Res Nat :=
  (src p s).andThen fun lo s => (src (p + 1) s).andThen fun hi s => .ok (lo.toNat + 256 * hi.toNat) s

/-- The stored body from the aligned source offset `p` on (R252). -/
def storedFrom (p : Nat) (s : State) : Res Unit :=
  if s.srcLen.toNat < p + 4 then raise .storedInput s
  else
    (src16 p s).andThen fun len s =>
      (src16 (p + 2) s).andThen fun nlen s =>
        if len + nlen ≠ 0xFFFF then raise .storedNlen s
        else if s.srcLen.toNat < p + 4 + len then raise .storedInput s
        else if s.dstCap.toNat < s.outpos.toNat + len then raise .outputFull s
        else
          (storedCopy (p + 4) len 0 s).andThen fun _ s =>
            .ok () ((s.setOutpos (s.outpos.toNat + len)).setBitpos (8 * (p + 4 + len)))

/-- `StoredBody()` (R252): the cursor is aligned before the first check. -/
def storedBody (s : State) : Res Unit :=
  storedFrom ((s.bitpos.toNat + 7) / 8) (s.setBitpos (8 * ((s.bitpos.toNat + 7) / 8)))

/-! ### Huffman body -/

/-- `Literal(sym)` (R254). -/
def literal (sym : Nat) (s : State) : Res Unit :=
  if s.dstCap.toNat ≤ s.outpos.toNat then raise .outputFull s
  else
    (dstWrite s.outpos.toNat (BitVec.ofNat 8 sym) s).andThen fun _ s =>
      .ok () (s.setOutpos (s.outpos.toNat + 1))

/-- `length` bytes of the copy still to do, from `back` (R259): the back pointer wraps at `start`, where the
copy began. -/
def lzLoop (start dist : Nat) : Nat → Nat → State → Res Unit
  | 0, _, s => .ok () s
  | n + 1, back, s =>
    (dst back s).andThen fun b s =>
      (dstWrite s.outpos.toNat b s).andThen fun _ s =>
        lzLoop start dist n (if start ≤ back + 1 then start - dist else back + 1)
          (s.setOutpos (s.outpos.toNat + 1))

/-- `LzCopy(length, dist)` (R259), after the checks of R258. -/
def lzCopy (length dist : Nat) (s : State) : Res Unit :=
  lzLoop s.outpos.toNat dist length (s.outpos.toNat - dist) s

/-- The back-reference checks (R258), then the copy. -/
def checkedCopy (length dist : Nat) (s : State) : Res Unit :=
  if s.outpos.toNat < dist then raise .distTooFar s
  else if s.dstCap.toNat < s.outpos.toNat + length then raise .outputFull s
  else lzCopy length dist s

/-- The length of a length symbol (R256). -/
def readLength (sym : Nat) (s : State) : Res Nat :=
  (checkedRead (lengthExtra.getD (sym - 257) 0) s).andThen fun x s =>
    .ok (lengthBase.getD (sym - 257) 0 + x) s

/-- The distance that follows a length (R257). -/
def readDistance (td : TreeSel) (s : State) : Res Nat :=
  (decodeSymbol td s).andThen fun dsym s =>
    if 29 < dsym then raise .badDistSymbol s
    else
      (checkedRead (distanceExtra.getD dsym 0) s).andThen fun x s =>
        .ok (distanceBase.getD dsym 0 + x) s

/-- `BackRef(sym, td)` (R256 to R259). -/
def backRef (sym : Nat) (td : TreeSel) (s : State) : Res Unit :=
  (readLength sym s).andThen fun length s =>
    (readDistance td s).andThen fun dist s => checkedCopy length dist s

/-- `HuffmanBody(tll, td)` (R253). Each turn takes at least one stream bit, so `fuel`, the number of bits left,
is never short: at 0 no bit is left, and decoding a symbol fails. -/
def huffmanLoop (tll td : TreeSel) : Nat → State → Res Unit
  | 0, s => (decodeSymbol tll s).andThen fun _ s => raise .symbolExhausted s
  | fuel + 1, s =>
    (decodeSymbol tll s).andThen fun sym s =>
      if sym ≤ 255 then (literal sym s).andThen fun _ s => huffmanLoop tll td fuel s
      else if sym = 256 then .ok () s
      else if sym ≤ 285 then (backRef sym td s).andThen fun _ s => huffmanLoop tll td fuel s
      else raise .badLitlenSymbol s

/-- `HuffmanBody(tll, td)` (R253). -/
def huffmanBody (tll td : TreeSel) (s : State) : Res Unit := huffmanLoop tll td (bitsLeft s) s

/-! ### The block -/

/-- The body a block type selects (R251). -/
def blockBody (btype : Nat) (s : State) : Res Unit :=
  if btype = 0 then storedBody s
  else if btype = 1 then huffmanBody .fixedLL .fixedD s
  else if btype = 2 then
    (readDynTrees s).andThen fun _ s => huffmanBody (.ram .ll) (.ram .d) s
  else raise .badBtype s

/-- `InflateBlock()` (R250, R251, R263): both header fields are read before either is stored. -/
def inflateOne (s : State) : Res Unit :=
  (checkedRead 1 s).andThen fun bfinal s =>
    (checkedRead 2 s).andThen fun btype s =>
      (blockBody btype (s.setHeader bfinal btype)).andThen fun _ s =>
        .ok () (s.setStreamEnd (bfinal == 1))

/-- The operand ranges of `LZ_COPY` (R262). -/
def copyArgsLegal (s : State) : Bool :=
  decide (3 ≤ s.arg0.toNat) && decide (s.arg0.toNat ≤ 258)
    && decide (1 ≤ s.arg1.toNat) && decide (s.arg1.toNat ≤ 32768)

/-- The operation of `LZ_COPY` (R262). -/
def copyArgs (s : State) : Res Unit :=
  if copyArgsLegal s then checkedCopy s.arg0.toNat s.arg1.toNat s else raise .argRange s

/-- `LZ_COPY` (R262). -/
def execLzCopy (s : State) : Host.Outcome State Fault Refusal := finish (overRegions true copyArgs s)

/-- `INFLATE_BLOCK` (R263). -/
def execInflateBlock (s : State) : Host.Outcome State Fault Refusal :=
  finish (overRegions true inflateOne s)

end Machine
end Sys2Proof
end

