-- ==== Sys2Proof/Machine/Stream.lean ====
section
/-! DEFINITION. The stream inflator (R280 to R284): `ZLIB_HEADER` (R281) and `INFLATE_ZLIB` (R282). The trailer
is not read (R283). -/

namespace Sys2Proof
namespace Machine

/-- The state a stream starts in: both cursors at 0 and `STREAM_END` clear (R280). -/
def streamStart (s : State) : State := ((s.setBitpos 0).setOutpos 0).setStreamEnd false

/-- `ZlibHeader()` (R280): the checks in the order of the rule. -/
def readZlibHeader (s : State) : Res Unit :=
  if s.srcLen.toNat < 2 then raise .bitsExhausted (streamStart s)
  else
    (src 0 (streamStart s)).andThen fun byte0 s =>
      (src 1 s).andThen fun byte1 s =>
        if (byte0.toNat * 256 + byte1.toNat) % 31 ≠ 0 then raise .zlibFcheck s
        else if byte0.extractLsb' 0 4 ≠ 8#4 then raise .zlibMethod s
        else if 7 < (byte0.extractLsb' 4 4).toNat then raise .zlibWindow s
        else if byte1.getLsbD 5 then raise .zlibFdict s
        else .ok () (s.setBitpos 16)

/-- The block loop of R282. Each block takes at least three stream bits, so `fuel`, the number of bits left, is
never short: at 0 no bit is left, and the block header cannot be read. -/
def inflateLoop : Nat → State → Res Unit
  | 0, s => (inflateOne s).andThen fun _ s => raise .bitsExhausted s
  | fuel + 1, s =>
    (inflateOne s).andThen fun _ s => if s.streamEnd then .ok () s else inflateLoop fuel s

/-- Blocks until one with its final-block flag set completes (R282). -/
def inflateBlocks (s : State) : Res Unit := inflateLoop (bitsLeft s) s

/-- `ZLIB_HEADER` (R281). -/
def execZlibHeader (s : State) : Host.Outcome State Fault Refusal :=
  finish (overRegions false readZlibHeader s)

/-- `INFLATE_ZLIB` (R282). -/
def execInflateZlib (s : State) : Host.Outcome State Fault Refusal :=
  finish (overRegions false (fun s => (readZlibHeader s).andThen fun _ s => inflateBlocks s) s)

end Machine
end Sys2Proof
end

