-- ==== Sys2Proof/Machine/Unfilter.lean ====
section
/-! DEFINITION. The Paeth predictor (R300) and the scanline unfilter (R302 to R306), and the commands `PAETH`
(R301), `UNFILTER_LINE` (R307) and `UNFILTER_IMAGE` (R308). -/

namespace Sys2Proof
namespace Machine

/-- `Paeth(a, b, c)` (R300), in exact integer arithmetic. -/
def paeth (a b c : Nat) : Nat :=
  let p : Int := (a : Int) + b - c
  let pa := (p - a).natAbs
  let pb := (p - b).natAbs
  let pc := (p - c).natAbs
  if pa ≤ pb ∧ pa ≤ pc then a else if pb ≤ pc then b else c

/-- `PAETH` (R301): the three bytes of `ARG0`, its top byte ignored. -/
def execPaeth (s : State) : Host.Outcome State Fault Refusal :=
  finish (.ok () (s.setResult
    (paeth (s.arg0.extractLsb' 0 8).toNat (s.arg0.extractLsb' 8 8).toNat (s.arg0.extractLsb' 16 8).toNat)))

/-- `bytewidth` and `linebytes` (R302). -/
structure Geometry where
  /-- `bw`, the bytes of one pixel, at least 1. -/
  bw : Nat
  /-- `LB`, the bytes of one reconstructed line. -/
  lb : Nat
  deriving DecidableEq, Repr

/-- The geometry of the unfilter registers, in exact integers (R302). -/
def geometry (s : State) : Geometry where
  bw := (s.unfBpp.toNat + 7) / 8
  lb := (s.unfWidth.toNat * s.unfBpp.toNat + 7) / 8

/-- `UnfGeometry()` (R302). -/
def unfGeometry (s : State) : Res Geometry :=
  if s.unfBpp.toNat = 0 ∨ Config.unfBppMax < s.unfBpp.toNat then raise .argRange s
  else if s.srcLen.toNat < s.unfHeight.toNat * ((geometry s).lb + 1)
      ∨ s.dstCap.toNat < s.unfHeight.toNat * (geometry s).lb then raise .unfSize s
  else .ok (geometry s) s

/-- A neighbour: the output byte at `off` when it is in range, else 0 (R304). -/
def neighbour (present : Bool) (off : Nat) (s : State) : Res Nat :=
  if present then (dst off s).andThen fun b s => .ok b.toNat s else .ok 0 s

/-- The prediction of a filter type (R305). -/
def predict (ft a b c : Nat) : Nat :=
  if ft = 0 then 0
  else if ft = 1 then a
  else if ft = 2 then b
  else if ft = 3 then (a + b) / 2
  else paeth a b c

/-- Byte `i` of line `y` (R304 to R306): only the final sum is taken modulo 256. -/
def unfilterByte (g : Geometry) (ft y i : Nat) (s : State) : Res Unit :=
  (src (y * (g.lb + 1) + 1 + i) s).andThen fun x s =>
    (neighbour (decide (g.bw ≤ i)) (y * g.lb + i - g.bw) s).andThen fun a s =>
      (neighbour (decide (0 < y)) ((y - 1) * g.lb + i) s).andThen fun b s =>
        (neighbour (decide (0 < y) && decide (g.bw ≤ i)) ((y - 1) * g.lb + i - g.bw) s).andThen fun c s =>
          dstWrite (y * g.lb + i) (BitVec.ofNat 8 (x.toNat + predict ft a b c)) s

/-- The bytes of line `y` from `i` on, `n` of them, in increasing order (R306). -/
def unfilterBytes (g : Geometry) (ft y : Nat) : Nat → Nat → State → Res Unit
  | 0, _, s => .ok () s
  | n + 1, i, s => (unfilterByte g ft y i s).andThen fun _ s => unfilterBytes g ft y n (i + 1) s

/-- `UnfilterLine(y, bw, LB)` (R306): the filter type is checked before any byte of the line is written. A
line of no bytes (`W = 0`) is done without an access (R302, R308; log entry 14). -/
def unfilterLine (g : Geometry) (y : Nat) (s : State) : Res Unit :=
  if g.lb = 0 then .ok () s
  else
    (src (y * (g.lb + 1)) s).andThen fun ft s =>
      if 4 < ft.toNat then .fail (.badFilter y g.lb) s else unfilterBytes g ft.toNat y g.lb 0 s

/-- `n` lines from `y` on (R308). -/
def unfilterLines (g : Geometry) : Nat → Nat → State → Res Unit
  | 0, _, s => .ok () s
  | n + 1, y, s => (unfilterLine g y s).andThen fun _ s => unfilterLines g n (y + 1) s

/-- The operation of `UNFILTER_LINE` (R307). -/
def lineOf (s : State) : Res Unit :=
  (unfGeometry s).andThen fun g s =>
    if s.unfHeight.toNat ≤ s.arg0.toNat then raise .argRange s else unfilterLine g s.arg0.toNat s

/-- The operation of `UNFILTER_IMAGE` (R308). -/
def imageOf (s : State) : Res Unit := (unfGeometry s).andThen fun g s => unfilterLines g s.unfHeight.toNat 0 s

/-- `UNFILTER_LINE` (R307). -/
def execUnfilterLine (s : State) : Host.Outcome State Fault Refusal := finish (overRegions false lineOf s)

/-- `UNFILTER_IMAGE` (R308). -/
def execUnfilterImage (s : State) : Host.Outcome State Fault Refusal := finish (overRegions false imageOf s)

end Machine
end Sys2Proof
end

