-- ==== Sys2Proof/Machine/Dispatch.lean ====
section
/-! DEFINITION. The dispatch of R174: one arm per command. -/

namespace Sys2Proof
namespace Machine

/-- `Execute` of a legal command and what ends it (R173, R174): region check, operation, completion or failure. -/
def exec (i : Instr) (s : State) : Host.Outcome State Fault Refusal :=
  match i with
  | .nop => Sys2Proof.Machine.execNop s
  | .readBits n => Sys2Proof.Machine.execReadBits n s
  | .buildTree t => Sys2Proof.Machine.execBuildTree t s
  | .decodeSymbol t => Sys2Proof.Machine.execDecodeSymbol t s
  | .readDynTrees => Sys2Proof.Machine.execReadDynTrees s
  | .lzCopy => Sys2Proof.Machine.execLzCopy s
  | .inflateBlock => Sys2Proof.Machine.execInflateBlock s
  | .zlibHeader => Sys2Proof.Machine.execZlibHeader s
  | .inflateZlib => Sys2Proof.Machine.execInflateZlib s
  | .paeth => Sys2Proof.Machine.execPaeth s
  | .unfilterLine => Sys2Proof.Machine.execUnfilterLine s
  | .unfilterImage => Sys2Proof.Machine.execUnfilterImage s

end Machine
end Sys2Proof
end

