-- ==== Sys2Proof/Machine/Block.lean ====
section
/-! DEFINITION. The block's single step (R176): the whole command in `CMD`, and what races with the host left
in the output region (R106 (3)). -/

namespace Sys2Proof
namespace Machine

/-- The final contents of raced output bytes are unspecified: one free value each (R106 (3), R376). -/
def settleBytes : List Nat → State → State
  | [], s => s
  | a :: rest, s =>
    settleBytes rest
      (if inOutput s a then (s.setMem (s.mem.write a (Config.freeByte s.draws))).tick else s)

/-- The end of a command's races. -/
def settleRaces (s : State) : State := { settleBytes s.raced s with raced := [] }

/-- A word that is no command fails with `ILLEGAL_CMD` (R121, R173, R178). -/
def illegalCommand (s : State) : State := s.enterFailure (.cause .illegalCmd)

/-- Apply a function to the next state of an outcome. -/
def mapNext (f : State → State) : Host.Outcome State Fault Refusal → Host.Outcome State Fault Refusal
  | .next s => .next (f s)
  | .fault r => .fault r
  | .refused r => .refused r

/-- `Execute` and what ends it, in one step (R173, R176). -/
def blockStep (s : State) : Host.Outcome State Fault Refusal :=
  match decode s.cmd with
  | .ok i => mapNext settleRaces (exec i s)
  | .error _ => .next (settleRaces (illegalCommand s))

/-- The block moves next: a command is in progress, and the host has nothing to do before it ends (R125 `WAIT`,
R379). -/
def blockMoves (s : State) : Bool :=
  s.phase == .busy && (s.inputs.head? == none || s.inputs.head? == some .wait)

end Machine
end Sys2Proof
end

