-- ==== Sys2Proof/Machine/HostPort.lean ====
section
/-! DEFINITION. The host's side: the register port (R30 to R70, R98), resets (R370 to R373), and the host's
accesses to host memory, with their races against a running command (R106). -/

namespace Sys2Proof
namespace Machine

/-! ### The register map -/

/-- What stands at an offset of the register block (R31). -/
inductive Reg where
  | id | ctrl | status | intStatus | cmd | errKind | errCause | errBitpos | errOutpos | srcBase | srcLen
  | dstBase | dstCap | bitpos | outpos | arg0 | arg1 | result | unfWidth | unfHeight | unfBpp
  /-- `LENRAM[k]` (R58). -/
  | lenram (k : Nat)
  /-- Entry `j` of a tree window (R60 to R62). -/
  | tree (t : RamTree) (j : Nat)
  /-- RAZ/WI (R57). -/
  | reserved
  deriving DecidableEq, Repr

/-- The registers at offsets 0x000 to 0x050, in the order of R31. -/
def regList : List Reg :=
  [.id, .ctrl, .status, .intStatus, .cmd, .errKind, .errCause, .errBitpos, .errOutpos, .srcBase, .srcLen]
    ++ [.dstBase, .dstCap, .bitpos, .outpos, .arg0, .arg1, .result, .unfWidth, .unfHeight, .unfBpp]

/-- The register map (R31), for an offset that is a multiple of 4. -/
def regAt (off : Nat) : Reg :=
  if off < 0x54 then regList.getD (off / 4) .reserved
  else if 0x400 ≤ off ∧ off < 0x880 then .lenram ((off - 0x400) / 4)
  else if 0x1000 ≤ off ∧ off < 0x1900 then .tree .ll ((off - 0x1000) / 4)
  else if 0x2000 ≤ off ∧ off < 0x2100 then .tree .d ((off - 0x2000) / 4)
  else if 0x2400 ≤ off ∧ off < 0x2498 then .tree .cl ((off - 0x2400) / 4)
  else .reserved

/-- `REG_BASE`, aligned to 0x4000 (R8). -/
def regBase (s : State) : Word := s.regPage ++ 0#14

/-- The offset in the register block of a host physical address, if it lies there (R31, R90). -/
def regOffset (s : State) (addr : Word) : Option Nat :=
  if (regBase s).toNat ≤ addr.toNat ∧ addr.toNat < (regBase s).toNat + Config.regSpan then
    some (addr.toNat - (regBase s).toNat)
  else none

/-- The offset an access is served at: only aligned 32-bit accesses in the register block are (R98). -/
def servedOffset (s : State) (addr : Word) (width : Width) : Option Nat :=
  match regOffset s addr with
  | some off => if width = .word ∧ off % 4 = 0 then some off else none
  | none => none

/-! ### Reads -/

/-- The value of a register whose value the spec fixes; `none` where it is unspecified (R32 to R62). -/
def regValue (s : State) : Reg → Option Word
  | .id => some Config.idValue
  | .ctrl => some (ctrlWord s)
  | .status => some (statusWord s)
  | .intStatus => some (intStatusWord s)
  | .cmd => some s.cmd
  | .errKind => some (s.errKind.setWidth 32)
  | .errCause => some (s.errCause.setWidth 32)
  | .errBitpos => some s.errBitpos
  | .errOutpos => some s.errOutpos
  | .srcBase => some s.srcBase
  | .srcLen => some s.srcLen
  | .dstBase => some s.dstBase
  | .dstCap => some s.dstCap
  | .bitpos => some s.bitpos
  | .outpos => some s.outpos
  | .arg0 => some s.arg0
  | .arg1 => some s.arg1
  | .result => some s.result
  | .unfWidth => some s.unfWidth
  | .unfHeight => some s.unfHeight
  | .unfBpp => some s.unfBpp
  | .lenram k => some ((s.lenram.getD k 0#4).setWidth 32)
  | .tree t j => if valid t s then some (BitVec.ofNat 32 (ramEntry t j s)) else none
  | .reserved => some 0#32

/-- The registers that read their current values while `BUSY` (R68). -/
def readableWhileBusy (r : Reg) : Bool := r == .id || r == .ctrl || r == .status || r == .intStatus

/-- A served read: the value, or a free draw where it is unspecified (R60 to R62, R68). No read changes
anything the host can see. -/
def readReg (r : Reg) (s : State) : State :=
  if s.phase == .busy && !readableWhileBusy r then { s.hostTick with portData := Config.freeWord s.hostDraws }
  else
    match regValue s r with
    | some v => { s with portData := v }
    | none => { s.hostTick with portData := Config.freeWord s.hostDraws }

/-- A host read of the register port (R98: an access that is not served returns 0). -/
def portRead (addr : Word) (width : Width) (s : State) : State :=
  match regOffset s addr, servedOffset s addr width with
  | some _, some off => readReg (regAt off) s
  | some _, none => { s with portData := 0#32 }
  | none, _ => s

/-! ### Resets -/

/-- What the running command would leave, were it to end now. Of a command that the model refuses, since one of its
regions has read side effects (R100), that is `s`: it is taken to have made no access, so that a reset while `BUSY` (R373)
and a racing host read (R375) find the bytes from before the command. The spec does not say what they find there, and
this is the model's choice (log entry 27). -/
def commandEnd (s : State) : State :=
  match blockStep s with
  | .next t => t
  | .fault _ => s
  | .refused _ => s

/-- Store, at every listed address the choice picks, the byte of `new` (R373: each output byte of an aborted
command is its old value or the one the command writes). -/
def mixFrom (new : Memory) (pick : Nat → Bool) : List Nat → Memory → Memory
  | [], m => m
  | a :: rest, m => mixFrom new pick rest (if pick a then m.write a (new.read a) else m)

/-- The memory an aborted command leaves (R373): byte by byte, what it was or what the command writes, and a
free value where the host raced it. What it leaves of a command that the model refuses is the model's choice (log entry
27). -/
def abortedState (s : State) : State :=
  settleRaces
    { s with
      mem :=
        mixFrom (commandEnd s).mem (Config.seesNew s.hostDraws) ((s.mem ++ (commandEnd s).mem).map Prod.fst) s.mem
      draws := (commandEnd s).draws
      hostDraws := s.hostDraws + 1 }

/-- HARDWARE RESET (R370): the block's state is that of `State.reset`; host memory, the host and the platform
keep theirs. A command in progress is aborted (R373). -/
def hardReset (s : State) : State :=
  let a := if s.phase == .busy then abortedState s else s
  { State.reset with
    mem := a.mem
    draws := a.draws
    hostDraws := a.hostDraws
    portData := s.portData
    memData := s.memData
    inputs := s.inputs
    regPage := s.regPage
    busErrors := s.busErrors
    merges := s.merges
    errsRead := s.errsRead
    errsWrite := s.errsWrite
    devices := s.devices
    rivals := s.rivals }

/-! ### Writes -/

/-- A host write of `CTRL` (R33, R371). -/
def writeCtrl (w : Word) (s : State) : State :=
  if w.getLsbD 0 then { hardReset s with irqEn := w.getLsbD 1 } else { s with irqEn := w.getLsbD 1 }

/-- A host write of `INT_STATUS`: a 1 clears its bit (R39, R342). -/
def writeIntStatus (w : Word) (s : State) : State :=
  { s with
    done := s.done && !w.getLsbD 0
    err := s.err && !w.getLsbD 1
    wign := s.wign && !w.getLsbD 2 }

/-- A host write of `CMD` outside `BUSY`: it issues the command (R170), or signals the stored failure (R172). -/
def writeCmd (w : Word) (s : State) : State :=
  if s.phase = .failed then { s with cmd := w, err := true } else { s with cmd := w, phase := .busy }

/-- A host write of a register outside `BUSY` (R31, R69, R70). -/
def writeReg (r : Reg) (w : Word) (s : State) : State :=
  match r with
  | .ctrl => writeCtrl w s
  | .intStatus => writeIntStatus w s
  | .cmd => writeCmd w s
  | .srcBase => { s with srcBase := w }
  | .srcLen => { s with srcLen := w }
  | .dstBase => { s with dstBase := w }
  | .dstCap => { s with dstCap := w }
  | .bitpos => { s with bitpos := w }
  | .outpos => { s with outpos := w }
  | .arg0 => { s with arg0 := w }
  | .arg1 => { s with arg1 := w }
  | .unfWidth => { s with unfWidth := w }
  | .unfHeight => { s with unfHeight := w }
  | .unfBpp => { s with unfBpp := w }
  | .lenram k => { s with lenram := s.lenram.set k (w.extractLsb' 0 4) }
  | .id => s
  | .status => s
  | .errKind => s
  | .errCause => s
  | .errBitpos => s
  | .errOutpos => s
  | .result => s
  | .tree _ _ => s
  | .reserved => s

/-- A served write: while `BUSY` only `CTRL` and `INT_STATUS` take effect, and every other write is ignored and
sets `WIGN` (R67, R69). -/
def servedWrite (r : Reg) (w : Word) (s : State) : State :=
  if s.phase = .busy ∧ r ≠ .ctrl ∧ r ≠ .intStatus then { s with wign := true } else writeReg r w s

/-- A host write of the register port (R98: an access that is not served is ignored). -/
def portWrite (addr : Word) (width : Width) (w : Word) (s : State) : State :=
  match servedOffset s addr width with
  | some off => servedWrite (regAt off) w s
  | none => s

/-! ### Host memory -/

/-- The host's access to this address races with the running command, whichever it is (R106 (3), R376). -/
def races (s : State) (a : Nat) : Bool := s.phase == .busy && (inSource s a || inOutput s a)

/-- A host write of host memory (R125). A byte access in the register block is not served (R98). While `BUSY`, a
write to a region is a race (R106 (3)). -/
def hostMemWrite (addr : Word) (v : Byte) (s : State) : State :=
  match regOffset s addr with
  | some _ => s
  | none =>
    { s with
      mem := s.mem.write addr.toNat v
      raced := if races s addr.toNat then addr.toNat :: s.raced else s.raced }

/-- The byte a racing host read of the output region returns: the byte before the command or the one it
writes (R106 (3)), and a free value where the host has raced it. The command seen ahead is the one that will run: a
host read moves none of its draws. Of a command that the model refuses, the byte is the one before it, by the model's
choice (log entry 27). -/
def racingRead (a : Nat) (s : State) : Byte :=
  if a ∈ s.raced then Config.hostByte s.hostDraws
  else if Config.seesNew s.hostDraws a then (commandEnd s).mem.read a
  else s.mem.read a

/-- A host read of host memory (R125). A byte access in the register block returns 0 (R98). -/
def hostMemRead (addr : Word) (s : State) : State :=
  match regOffset s addr with
  | some _ => { s with memData := 0#8 }
  | none =>
    if races s addr.toNat && inOutput s addr.toNat then
      { s.hostTick with memData := racingRead addr.toNat s }
    else { s with memData := s.mem.read addr.toNat }

/-! ### The platform -/

/-- The platform answers other addresses with an error from now on. Which they are is settled while a command runs: a
change then has no effect (R344; log entry 24). -/
def platformErrs (reads writes : List Nat) (s : State) : State :=
  if s.phase = .busy then s else { s with errsRead := reads, errsWrite := writes }

/-- These other instances run from now on. While a command runs, those that ran with it before still count (R347; log
entry 25). -/
def rivalsRun (running : List Rival) (s : State) : State :=
  { s with rivals := if s.phase = .busy then running ++ s.rivals else running }

/-! ### The host's step -/

/-- One action of the outside world. -/
def hostAct (a : HostAct) (s : State) : State :=
  match a with
  | .regWrite addr width data => portWrite addr width data s
  | .regRead addr width => portRead addr width s
  | .memWrite addr v => hostMemWrite addr v s
  | .memRead addr => hostMemRead addr s
  | .wait => readReg .status s
  | .hwReset => hardReset s
  | .errMap reads writes => platformErrs reads writes s
  | .rivals running => rivalsRun running s

/-- The host takes its next action; where it has none, nothing happens. -/
def hostStep (s : State) : State :=
  match s.inputs with
  | [] => s
  | a :: rest => hostAct a { s with inputs := rest }

end Machine
end Sys2Proof
end

