-- ==== Sys2Proof/Machine/Step.lean ====
section
/-! DEFINITION. One step of the machine: of the block when it moves next, else of the host (R7, R176). -/

namespace Sys2Proof
namespace Machine

/-- One step. The block runs its command when the host has nothing to do before the command ends. -/
def step (s : State) : Host.Outcome State Fault Refusal :=
  if blockMoves s then blockStep s else .next (hostStep s)

/-- `s` with the command word `w` issued: it stands in `CMD`, the block is `BUSY`, and the host waits for it.
The next step runs exactly that command (R40, R170, R176; log entry 12). -/
def State.withFetchWord (s : State) (nbits w : Nat) : State :=
  { s with
    cmd := BitVec.ofNat 32 (w % 2 ^ nbits)
    phase := .busy
    inputs := .wait :: s.inputs }

end Machine
end Sys2Proof
end

