-- ==== Sys2Proof/Safety.lean ====
section
/-! DEFINITION. The terms claims are stated in: pure views of the source and the output, what a command keeps
(R175), when an access is quiet, and the invariant of every state a run can reach. -/

namespace Sys2Proof
namespace Machine

/-! ### Views -/

/-- Source byte `i` as host memory holds it (R91). -/
def srcByte (s : State) (i : Nat) : Byte := s.mem.read (s.srcBase.toNat + i)

/-- Output byte `i` as host memory holds it (R92). -/
def outByte (s : State) (i : Nat) : Byte := s.mem.read (s.dstBase.toNat + i)

/-- Stream bit `p`, 0 or 1 (R190). -/
def bitAt (s : State) (p : Nat) : Nat := ((srcByte s (p / 8)).getLsbD (p % 8)).toNat

/-- The `n` stream bits from `p` on as a number, the first bit least significant (R191). -/
def fieldAt (s : State) (p : Nat) : Nat → Nat
  | 0 => 0
  | n + 1 => bitAt s p + 2 * fieldAt s (p + 1) n

/-- Bit `i` of a code of `L` bits as it stands in the stream, most significant bit first (R134). -/
def codeBit (code L i : Nat) : Nat := (code >>> (L - 1 - i)) % 2

/-- The code of `L` bits stands in the stream from `p` on (R134). -/
def codeAt (s : State) (p code L : Nat) : Prop := ∀ i, i < L → bitAt s (p + i) = codeBit code L i

/-! ### How a command ends -/

/-- The state a completed command leaves (R171). -/
def completed (s : State) : State := { s with phase := .idle, done := true }

/-- The state a failure with cause `c` leaves when the failing step is taken in `s` (R333). -/
def failedWith (c : Cause) (s : State) : State :=
  { s with
    errBitpos := s.bitpos
    errOutpos := s.outpos
    errKind := 1#2
    errCause := c.code
    outpos := 0#32
    phase := .failed
    err := true }

/-- The state `BAD_FILTER_TYPE` of line `y` leaves, for lines of `lb` bytes (R306, R333). -/
def failedAtLine (y lb : Nat) (s : State) : State :=
  { failedWith .badFilterType s with
    errBitpos := BitVec.ofNat 32 (8 * y * (lb + 1))
    errOutpos := BitVec.ofNat 32 (y * lb) }

/-- The commands that access the regions, each with the `inflate_side` of its region check (R95, R173). -/
def checksRegions : Instr → Option Bool
  | .nop => none
  | .readBits _ => some true
  | .buildTree _ => none
  | .decodeSymbol _ => some true
  | .readDynTrees => some true
  | .lzCopy => some true
  | .inflateBlock => some true
  | .zlibHeader => some false
  | .inflateZlib => some false
  | .paeth => none
  | .unfilterLine => some false
  | .unfilterImage => some false

/-- The conditions of `RegionCheck(inflate_side)`, in exact integers (R95). -/
def RegionFault (inflateSide : Bool) (s : State) : Prop :=
  0x1FFFFFFF < s.srcLen.toNat
    ∨ 2 ^ 32 < s.srcBase.toNat + s.srcLen.toNat
    ∨ 2 ^ 32 < s.dstBase.toNat + s.dstCap.toNat
    ∨ (0 < s.srcLen.toNat ∧ 0 < s.dstCap.toNat
        ∧ s.srcBase.toNat < s.dstBase.toNat + s.dstCap.toNat
        ∧ s.dstBase.toNat < s.srcBase.toNat + s.srcLen.toNat)
    ∨ (inflateSide = true ∧ (8 * s.srcLen.toNat < s.bitpos.toNat ∨ s.dstCap.toNat < s.outpos.toNat))

/-! ### What stands in the stream -/

/-- The table a selector names (R123). -/
def tableAt (t : TreeSel) (s : State) : List Nat :=
  match t with
  | .ram .ll => s.treeLL.map BitVec.toNat
  | .ram .d => s.treeD.map BitVec.toNat
  | .ram .cl => s.treeCL.map BitVec.toNat
  | .fixedLL => fixedLL
  | .fixedD => fixedD

/-- The symbol a walk of table `T` from `node` reaches over at most `n` stream bits from `p` on, and the position
behind it; none when the bits run out (R205). -/
def symFrom (T : List Nat) (N : Nat) (s : State) : Nat → Nat → Nat → Option (Nat × Nat)
  | 0, _, _ => none
  | n + 1, node, p =>
    if T.getD (2 * node + bitAt s p) 0 < N then some (T.getD (2 * node + bitAt s p) 0, p + 1)
    else symFrom T N s n (T.getD (2 * node + bitAt s p) 0 - N) (p + 1)

/-- The symbol that stands at `p` in the stream under table `T`, and the position behind it (R205). -/
def symAt (T : List Nat) (N : Nat) (s : State) (p : Nat) : Option (Nat × Nat) :=
  symFrom T N s (8 * s.srcLen.toNat - p) 0 p

/-- One literal or one back-reference of a Huffman-coded body (R253). -/
inductive Token where
  | literal (b : Nat)
  | copy (length dist : Nat)
  deriving DecidableEq, Repr

/-- From `p` to `q` the stream holds this token (R253 to R257). -/
def tokenAt (Tll Td : List Nat) (s : State) : Token → Nat → Nat → Prop
  | .literal b, p, q => b ≤ 255 ∧ symAt Tll 288 s p = some (b, q)
  | .copy length dist, p, q =>
    ∃ sym p1 dsym p2,
      symAt Tll 288 s p = some (sym, p1) ∧ 257 ≤ sym ∧ sym ≤ 285
        ∧ length = lengthBase.getD (sym - 257) 0 + fieldAt s p1 (lengthExtra.getD (sym - 257) 0)
        ∧ symAt Td 32 s (p1 + lengthExtra.getD (sym - 257) 0) = some (dsym, p2) ∧ dsym ≤ 29
        ∧ dist = distanceBase.getD dsym 0 + fieldAt s p2 (distanceExtra.getD dsym 0)
        ∧ p2 + distanceExtra.getD dsym 0 ≤ 8 * s.srcLen.toNat ∧ q = p2 + distanceExtra.getD dsym 0

/-- From `p` to `q` the stream holds these tokens (R253 to R257). -/
def tokensTo (Tll Td : List Nat) (s : State) : List Token → Nat → Nat → Prop
  | [], p, q => q = p
  | t :: ts, p, q => ∃ p1, tokenAt Tll Td s t p p1 ∧ tokensTo Tll Td s ts p1 q

/-- From `p` to `q` the stream holds these tokens and then the end-of-block symbol (R253). -/
def tokensAt (Tll Td : List Nat) (s : State) (ts : List Token) (p q : Nat) : Prop :=
  ∃ p1, tokensTo Tll Td s ts p p1 ∧ symAt Tll 288 s p1 = some (256, q)

/-- The output after a token, from the output before it (R254, R260). -/
def expandToken (out : List Byte) : Token → List Byte
  | .literal b => out ++ [BitVec.ofNat 8 b]
  | .copy length dist =>
    out ++ (List.range length).map fun k => out.getD (out.length - dist + k % dist) 0#8

/-- The output after a list of tokens. -/
def expandTokens (out : List Byte) (ts : List Token) : List Byte := ts.foldl expandToken out

/-- The checks of R254 and R258 pass for a token. -/
def tokenFits (cap : Nat) (out : List Byte) : Token → Prop
  | .literal _ => out.length < cap
  | .copy length dist => dist ≤ out.length ∧ out.length + length ≤ cap

/-- The checks of R254 and R258 pass for every token. -/
def tokensFit (cap : Nat) : List Byte → List Token → Prop
  | _, [] => True
  | out, t :: ts => tokenFits cap out t ∧ tokensFit cap (expandToken out t) ts

/-- Bits that follow a code-length symbol (R141). -/
def repeatBits (sym : Nat) : Nat := if sym = 16 then 2 else if sym = 17 then 3 else if sym = 18 then 7 else 0

/-- The combined code-length array after a symbol with extra value `x` (R234 to R237). -/
def expandLength (lens : List Nat) (sym x : Nat) : List Nat :=
  if sym ≤ 15 then lens ++ [sym]
  else if sym = 16 then lens ++ List.replicate (3 + x) (lens.getD (lens.length - 1) 0)
  else if sym = 17 then lens ++ List.replicate (3 + x) 0
  else lens ++ List.replicate (11 + x) 0

/-- From `p` to `q` the stream holds the code-length symbols that extend the array `lens` to `out`, under the
code-length table `Tcl`; each symbol is listed (R233 to R237). -/
def lengthsAt (Tcl : List Nat) (s : State) : List Nat → List Nat → Nat → List Nat → Nat → Prop
  | [], lens, p, out, q => out = lens ∧ q = p
  | sym :: syms, lens, p, out, q =>
    ∃ p1, symAt Tcl 19 s p = some (sym, p1) ∧ sym ≤ 18 ∧ (sym = 16 → lens ≠ [])
      ∧ p1 + repeatBits sym ≤ 8 * s.srcLen.toNat
      ∧ lengthsAt Tcl s syms (expandLength lens sym (fieldAt s p1 (repeatBits sym))) (p1 + repeatBits sym) out q

/-- The code lengths of the code-length tree: the `k`-th 3-bit field from `p` on goes to the `k`-th symbol of
`order` (R232). -/
def clLengthsAt (s : State) : List Nat → Nat → List Nat → List Nat
  | [], _, cl => cl
  | k :: order, p, cl => clLengthsAt s order (p + 3) (cl.set k (fieldAt s p 3))

/-- The three tables of a dynamic block (R139). -/
structure DynTables where
  cl : List Nat
  ll : List Nat
  d : List Nat
  deriving DecidableEq, Repr

/-- The state with these tables in the tree RAMs, all three valid (R202). -/
def withTrees (T : DynTables) (s : State) : State :=
  { s with
    treeLL := T.ll.map (BitVec.ofNat 10)
    treeD := T.d.map (BitVec.ofNat 10)
    treeCL := T.cl.map (BitVec.ofNat 10)
    llValid := true
    dValid := true
    clValid := true }

/-- From `p` to `q` the stream holds a dynamic tree header that gives these tables (R230 to R239). -/
def dynTreesAt (s : State) (T : DynTables) (p q : Nat) : Prop :=
  ∃ hlit hdist hclen syms lens,
    hlit = fieldAt s p 5 + 257 ∧ hdist = fieldAt s (p + 5) 5 + 1 ∧ hclen = fieldAt s (p + 10) 4 + 4
      ∧ p + 14 + 3 * hclen ≤ 8 * s.srcLen.toNat
      ∧ buildTree (clLengthsAt s (clclOrder.take hclen) (p + 14) (List.replicate 19 0)) 19 7 = .ok T.cl
      ∧ lengthsAt T.cl s syms [] (p + 14 + 3 * hclen) lens q
      ∧ lens.length = hlit + hdist ∧ lens.getD 256 0 ≠ 0
      ∧ buildTree (lens.take hlit ++ List.replicate (288 - hlit) 0) 288 15 = .ok T.ll
      ∧ buildTree ((lens.drop hlit).take hdist ++ List.replicate (32 - hdist) 0) 32 15 = .ok T.d

/-- A DEFLATE block (R132, R251). -/
inductive Block where
  | stored
  | fixed (ts : List Token)
  | dynamic (T : DynTables) (ts : List Token)
  deriving DecidableEq, Repr

/-- `BTYPE` of a block (R132). -/
def Block.btype : Block → Nat
  | .stored => 0
  | .fixed _ => 1
  | .dynamic _ _ => 2

/-- The state with the tree RAMs a block leaves: only a dynamic one builds them (R251). -/
def Block.trees (b : Block) (s : State) : State :=
  match b with
  | .stored => s
  | .fixed _ => s
  | .dynamic T _ => withTrees T s

/-- The state with the tree RAMs a list of blocks leaves. -/
def blocksTrees (bs : List Block) (s : State) : State := bs.foldl (fun u b => b.trees u) s

/-- `BTYPE` of the last of a list of blocks. -/
def lastBtype : List Block → Nat
  | [] => 0
  | [b] => b.btype
  | _ :: b :: bs => lastBtype (b :: bs)

/-- A 2-byte field of the source, least significant byte first (R97). -/
def halfAt (s : State) (i : Nat) : Nat := (srcByte s i).toNat + 256 * (srcByte s (i + 1)).toNat

/-- The `n` source bytes from `i` on. -/
def srcBytes (s : State) (i n : Nat) : List Byte := (List.range n).map fun k => srcByte s (i + k)

/-- From `p` to `q` the stream holds the body of this block, which takes the output from `out` to `out'` within
`cap` bytes (R252, R253). -/
def bodyAt (s : State) (cap : Nat) (out : List Byte) (p : Nat) (b : Block) (out' : List Byte) (q : Nat) : Prop :=
  match b with
  | .stored =>
    (p + 7) / 8 + 4 + halfAt s ((p + 7) / 8) ≤ s.srcLen.toNat
      ∧ halfAt s ((p + 7) / 8) + halfAt s ((p + 7) / 8 + 2) = 0xFFFF
      ∧ out.length + halfAt s ((p + 7) / 8) ≤ cap
      ∧ out' = out ++ srcBytes s ((p + 7) / 8 + 4) (halfAt s ((p + 7) / 8))
      ∧ q = 8 * ((p + 7) / 8 + 4 + halfAt s ((p + 7) / 8))
  | .fixed ts => tokensAt fixedLL fixedD s ts p q ∧ tokensFit cap out ts ∧ out' = expandTokens out ts
  | .dynamic T ts =>
    ∃ p1, dynTreesAt s T p p1 ∧ tokensAt T.ll T.d s ts p1 q ∧ tokensFit cap out ts ∧ out' = expandTokens out ts

/-- From `p` to `q` the stream holds this block, with final-block flag `final` (R132, R250). -/
def blockAt (s : State) (cap : Nat) (out : List Byte) (p : Nat) (final : Bool) (b : Block) (out' : List Byte)
    (q : Nat) : Prop :=
  p + 3 ≤ 8 * s.srcLen.toNat ∧ fieldAt s p 1 = final.toNat ∧ fieldAt s (p + 1) 2 = b.btype
    ∧ bodyAt s cap out (p + 3) b out' q

/-- From `p` to `q` the stream holds these blocks, the last one and no other with the final-block flag set (R144). -/
def blocksAt (s : State) (cap : Nat) : List Byte → Nat → List Block → List Byte → Nat → Prop
  | _, _, [], _, _ => False
  | out, p, b :: bs, out', q =>
    (bs = [] ∧ blockAt s cap out p true b out' q)
      ∨ ∃ out1 p1, blockAt s cap out p false b out1 p1 ∧ blocksAt s cap out1 p1 bs out' q

/-- From `p` to `q` the stream holds these blocks, none of them final (R144). -/
def blocksTo (s : State) (cap : Nat) : List Byte → Nat → List Block → List Byte → Nat → Prop
  | out, p, [], out', q => out' = out ∧ q = p
  | out, p, b :: bs, out', q =>
    ∃ out1 p1, blockAt s cap out p false b out1 p1 ∧ blocksTo s cap out1 p1 bs out' q

/-- The zlib header passes the four checks (R131, R280). -/
def headerValid (s : State) : Prop :=
  2 ≤ s.srcLen.toNat ∧ ((srcByte s 0).toNat * 256 + (srcByte s 1).toNat) % 31 = 0
    ∧ (srcByte s 0).toNat % 16 = 8 ∧ (srcByte s 0).toNat / 16 ≤ 7 ∧ (srcByte s 1).getLsbD 5 = false

/-- The output so far: the bytes below `OUTPOS`. -/
def outSoFar (s : State) : List Byte := (List.range s.outpos.toNat).map (outByte s)

/-- Memory `m` holds these bytes from the start of the output region on. -/
def holdsOutput (s : State) (m : Memory) (out : List Byte) : Prop :=
  ∀ k, k < out.length → m.read (s.dstBase.toNat + k) = out.getD k 0#8

/-- Outside the output bytes from offset `i` up to `j`, memory `m` reads as memory of `s` does. -/
def sameOutside (s : State) (m : Memory) (i j : Nat) : Prop :=
  ∀ a, (a < s.dstBase.toNat + i ∨ s.dstBase.toNat + j ≤ a) → m.read a = s.mem.read a

/-! ### Where a block fails -/

/-- After the distance symbol `dsym` of a back-reference of `length` bytes, the bit cursor at `p`, the body fails with
cause `c` and the cursor at `q` (R257, R258). -/
def distanceFails (s : State) (cap : Nat) (out : List Byte) (length dsym p : Nat) (c : Cause) (q : Nat) : Prop :=
  30 ≤ dsym ∧ c = .badDistSymbol ∧ q = p
    ∨ dsym ≤ 29 ∧ 8 * s.srcLen.toNat < p + distanceExtra.getD dsym 0 ∧ c = .bitsExhausted ∧ q = p
    ∨ dsym ≤ 29 ∧ p + distanceExtra.getD dsym 0 ≤ 8 * s.srcLen.toNat ∧ q = p + distanceExtra.getD dsym 0
      ∧ (out.length < distanceBase.getD dsym 0 + fieldAt s p (distanceExtra.getD dsym 0) ∧ c = .distTooFar
        ∨ distanceBase.getD dsym 0 + fieldAt s p (distanceExtra.getD dsym 0) ≤ out.length
          ∧ cap < out.length + length ∧ c = .outputFull)

/-- After a length symbol with base `base` and `e` extra bits, the bit cursor at `p`, the body fails with cause `c` and
the cursor at `q` (R256 to R258). -/
def copyFails (Td : List Nat) (s : State) (cap : Nat) (out : List Byte) (base e p : Nat) (c : Cause) (q : Nat) : Prop :=
  8 * s.srcLen.toNat < p + e ∧ c = .bitsExhausted ∧ q = p
    ∨ p + e ≤ 8 * s.srcLen.toNat ∧ symAt Td 32 s (p + e) = none ∧ c = .symbolExhausted ∧ q = 8 * s.srcLen.toNat
    ∨ ∃ dsym p1, symAt Td 32 s (p + e) = some (dsym, p1)
      ∧ distanceFails s cap out (base + fieldAt s p e) dsym p1 c q

/-- With the output `out` and room for `cap` bytes, what stands at `p` fails a Huffman-coded body with cause `c` and the
cursor at `q` (R205, R253, R254, R256 to R258, R261). -/
def tokenFails (Tll Td : List Nat) (s : State) (cap : Nat) (out : List Byte) (p : Nat) (c : Cause) (q : Nat) : Prop :=
  symAt Tll 288 s p = none ∧ c = .symbolExhausted ∧ q = 8 * s.srcLen.toNat
    ∨ ∃ sym p1, symAt Tll 288 s p = some (sym, p1)
      ∧ (sym ≤ 255 ∧ cap ≤ out.length ∧ c = .outputFull ∧ q = p1
        ∨ 286 ≤ sym ∧ c = .badLitlenSymbol ∧ q = p1
        ∨ 257 ≤ sym ∧ sym ≤ 285
          ∧ copyFails Td s cap out (lengthBase.getD (sym - 257) 0) (lengthExtra.getD (sym - 257) 0) p1 c q)

/-- The stored body at source byte `p` fails with cause `c`, when `n` output bytes are written (R252). -/
def storedFails (s : State) (cap n p : Nat) (c : Cause) : Prop :=
  s.srcLen.toNat < p + 4 ∧ c = .storedInput
    ∨ p + 4 ≤ s.srcLen.toNat
      ∧ (halfAt s p + halfAt s (p + 2) ≠ 0xFFFF ∧ c = .storedNlen
        ∨ halfAt s p + halfAt s (p + 2) = 0xFFFF
          ∧ (s.srcLen.toNat < p + 4 + halfAt s p ∧ c = .storedInput
            ∨ p + 4 + halfAt s p ≤ s.srcLen.toNat ∧ cap < n + halfAt s p ∧ c = .outputFull))

/-- How far a dynamic tree header has built its trees when it fails. -/
inductive TreeStage where
  /-- No tree is touched. -/
  | kept
  /-- The build of the code-length tree failed. -/
  | clFailed
  /-- The code-length tree is built. -/
  | cl (Tcl : List Nat)
  /-- The build of the literal/length tree failed. -/
  | llFailed (Tcl : List Nat)
  /-- The build of the distance tree failed. -/
  | dFailed (Tcl Tll : List Nat)
  /-- All three are built. -/
  | all (T : DynTables)
  deriving DecidableEq, Repr

/-- The entries of the tree RAM whose build failed; 0 where none did. -/
def TreeStage.size : TreeStage → Nat
  | .kept => 0
  | .clFailed => 38
  | .cl _ => 0
  | .llFailed _ => 576
  | .dFailed _ _ => 64
  | .all _ => 0

/-- The state with the tree RAMs of a stage: `l` is what a failed build left, whatever it is, and `d` the draw counter
after it (R202). -/
def TreeStage.state (k : TreeStage) (l : List (BitVec 10)) (d : Nat) (s : State) : State :=
  match k with
  | .kept => s
  | .clFailed => { s with treeCL := l, clValid := false, draws := d }
  | .cl Tcl => { s with treeCL := Tcl.map (BitVec.ofNat 10), clValid := true }
  | .llFailed Tcl =>
    { s with treeCL := Tcl.map (BitVec.ofNat 10), clValid := true, treeLL := l, llValid := false, draws := d }
  | .dFailed Tcl Tll =>
    { s with
      treeCL := Tcl.map (BitVec.ofNat 10)
      clValid := true
      treeLL := Tll.map (BitVec.ofNat 10)
      llValid := true
      treeD := l
      dValid := false
      draws := d }
  | .all T => withTrees T s

/-- `HLIT`, `HDIST` and `HCLEN` of the dynamic tree header at `p` (R231). -/
def hlitAt (s : State) (p : Nat) : Nat := fieldAt s p 5 + 257
def hdistAt (s : State) (p : Nat) : Nat := fieldAt s (p + 5) 5 + 1
def hclenAt (s : State) (p : Nat) : Nat := fieldAt s (p + 10) 4 + 4

/-- The header at `p` has a field of `w` bits at offset `n`: one of the three counts, or one of the `HCLEN` code lengths
of the code-length tree (R231, R232). -/
def headerField (s : State) (p n w : Nat) : Prop :=
  n = 0 ∧ w = 5 ∨ n = 5 ∧ w = 5 ∨ n = 10 ∧ w = 4 ∨ ∃ k, k < hclenAt s p ∧ n = 14 + 3 * k ∧ w = 3

/-- The header at `p` has all its fields in the source, and their code lengths give this code-length tree, or this
failure (R231, R232). -/
def clTreeAt (s : State) (p : Nat) (r : Except Cause (List Nat)) : Prop :=
  p + 14 + 3 * hclenAt s p ≤ 8 * s.srcLen.toNat
    ∧ buildTree (clLengthsAt s (clclOrder.take (hclenAt s p)) (p + 14) (List.replicate 19 0)) 19 7 = r

/-- The code-length symbols of the header at `p` give the combined array `lens` and end at `q` (R233 to R237). -/
def lensAt (s : State) (p : Nat) (Tcl lens : List Nat) (q : Nat) : Prop :=
  ∃ syms, lengthsAt Tcl s syms [] (p + 14 + 3 * hclenAt s p) lens q

/-- With the combined array `lens` not yet full, what stands at `p` fails the run-length loop with cause `c` and the
cursor at `q` (R205, R234 to R237). -/
def lengthFails (Tcl : List Nat) (s : State) (total : Nat) (lens : List Nat) (p : Nat) (c : Cause) (q : Nat) : Prop :=
  symAt Tcl 19 s p = none ∧ c = .symbolExhausted ∧ q = 8 * s.srcLen.toNat
    ∨ ∃ sym p1, symAt Tcl 19 s p = some (sym, p1)
      ∧ (sym = 16 ∧ lens = [] ∧ c = .repeatNoPrevious ∧ q = p1
        ∨ (sym = 16 → lens ≠ []) ∧ 8 * s.srcLen.toNat < p1 + repeatBits sym ∧ c = .bitsExhausted ∧ q = p1
        ∨ (sym = 16 → lens ≠ []) ∧ p1 + repeatBits sym ≤ 8 * s.srcLen.toNat
          ∧ total < (expandLength lens sym (fieldAt s p1 (repeatBits sym))).length
          ∧ c = .repeatOverflow ∧ q = p1 + repeatBits sym)

/-- The dynamic tree header at `p` fails with cause `c`, the cursor at `q` and its trees at this stage (R230 to R239). -/
def dynFails (s : State) (p : Nat) (c : Cause) (q : Nat) : TreeStage → Prop
  | .kept =>
    ∃ n w, headerField s p n w ∧ p + n ≤ 8 * s.srcLen.toNat ∧ 8 * s.srcLen.toNat < p + n + w
      ∧ c = .bitsExhausted ∧ q = p + n
  | .clFailed => clTreeAt s p (.error c) ∧ q = p + 14 + 3 * hclenAt s p
  | .cl Tcl =>
    clTreeAt s p (.ok Tcl) ∧ ∃ lens p1, lensAt s p Tcl lens p1
      ∧ (lens.length < hlitAt s p + hdistAt s p ∧ lengthFails Tcl s (hlitAt s p + hdistAt s p) lens p1 c q
        ∨ lens.length = hlitAt s p + hdistAt s p ∧ lens.getD 256 0 = 0 ∧ c = .noEndCode ∧ q = p1)
  | .llFailed Tcl =>
    clTreeAt s p (.ok Tcl) ∧ ∃ lens, lensAt s p Tcl lens q ∧ lens.length = hlitAt s p + hdistAt s p
      ∧ lens.getD 256 0 ≠ 0
      ∧ buildTree (lens.take (hlitAt s p) ++ List.replicate (288 - hlitAt s p) 0) 288 15 = .error c
  | .dFailed Tcl Tll =>
    clTreeAt s p (.ok Tcl) ∧ ∃ lens, lensAt s p Tcl lens q ∧ lens.length = hlitAt s p + hdistAt s p
      ∧ lens.getD 256 0 ≠ 0
      ∧ buildTree (lens.take (hlitAt s p) ++ List.replicate (288 - hlitAt s p) 0) 288 15 = .ok Tll
      ∧ buildTree ((lens.drop (hlitAt s p)).take (hdistAt s p) ++ List.replicate (32 - hdistAt s p) 0) 32 15
        = .error c
  | .all _ => False

/-- How a block fails: the cause, the bit cursor at the failing step, the output so far, the header where `STATUS` holds
it already, and the trees. -/
structure BlockFailure where
  cause : Cause
  pos : Nat
  out : List Byte
  header : Option (Bool × Nat)
  trees : TreeStage
  deriving DecidableEq, Repr

/-- A Huffman-coded body at `p` fails this way, the tables being `Tll` and `Td`: some tokens are expanded, and what
stands behind them fails (R253). -/
def huffmanFails (Tll Td : List Nat) (s : State) (cap : Nat) (out : List Byte) (p : Nat) (f : BlockFailure) : Prop :=
  ∃ ts p1, tokensTo Tll Td s ts p p1 ∧ tokensFit cap out ts ∧ f.out = expandTokens out ts
    ∧ tokenFails Tll Td s cap f.out p1 f.cause f.pos

/-- The body at `p` of a block of this type fails this way (R251, R252, R253). -/
def bodyFails (s : State) (cap : Nat) (out : List Byte) (p btype : Nat) (f : BlockFailure) : Prop :=
  btype = 0 ∧ f.trees = .kept ∧ f.out = out ∧ f.pos = 8 * ((p + 7) / 8)
      ∧ storedFails s cap out.length ((p + 7) / 8) f.cause
    ∨ btype = 1 ∧ f.trees = .kept ∧ huffmanFails fixedLL fixedD s cap out p f
    ∨ btype = 2 ∧ f.out = out ∧ dynFails s p f.cause f.pos f.trees
    ∨ btype = 2 ∧ (∃ T p1, dynTreesAt s T p p1 ∧ f.trees = .all T ∧ huffmanFails T.ll T.d s cap out p1 f)
    ∨ btype = 3 ∧ f.trees = .kept ∧ f.out = out ∧ f.pos = p ∧ f.cause = .badBtype

/-- The block at `p` fails this way, the output before it being `out` and the room `cap` bytes (R250, R251). -/
def blockFails (s : State) (cap : Nat) (out : List Byte) (p : Nat) (f : BlockFailure) : Prop :=
  match f.header with
  | none =>
    f.trees = .kept ∧ f.out = out ∧ f.cause = .bitsExhausted
      ∧ (8 * s.srcLen.toNat < p + 1 ∧ f.pos = p
        ∨ p + 1 ≤ 8 * s.srcLen.toNat ∧ 8 * s.srcLen.toNat < p + 3 ∧ f.pos = p + 1)
  | some (final, btype) =>
    p + 3 ≤ 8 * s.srcLen.toNat ∧ fieldAt s p 1 = final.toNat ∧ fieldAt s (p + 1) 2 = btype
      ∧ bodyFails s cap out (p + 3) btype f

/-- The state at the failing step of a block that began in `s`, host memory being `m` (R250, R251, R253). -/
def BlockFailure.state (f : BlockFailure) (l : List (BitVec 10)) (d : Nat) (m : Memory) (s : State) : State :=
  { f.trees.state l d s with
    mem := m
    bitpos := BitVec.ofNat 32 f.pos
    outpos := BitVec.ofNat 32 f.out.length
    bfinal := match f.header with
      | none => s.bfinal
      | some (final, _) => final
    btype := match f.header with
      | none => s.btype
      | some (_, btype) => BitVec.ofNat 2 btype }

/-- The trees, `STREAM_END` and header bits that a stream holds after these blocks, none of them final (R280, R282). -/
def midStream (bs : List Block) (s : State) : State :=
  { blocksTrees bs s with
    streamEnd := false
    bfinal := if bs = [] then s.bfinal else false
    btype := if bs = [] then s.btype else BitVec.ofNat 2 (lastBtype bs) }

/-! ### The unfilter -/

/-- `bytewidth` (R302). -/
def bwOf (s : State) : Nat := (s.unfBpp.toNat + 7) / 8

/-- `linebytes` (R302). -/
def lbOf (s : State) : Nat := (s.unfWidth.toNat * s.unfBpp.toNat + 7) / 8

/-- The geometry checks pass (R302). -/
def geometryValid (s : State) : Prop :=
  1 ≤ s.unfBpp.toNat ∧ s.unfBpp.toNat ≤ 64 ∧ s.unfHeight.toNat * (lbOf s + 1) ≤ s.srcLen.toNat
    ∧ s.unfHeight.toNat * lbOf s ≤ s.dstCap.toNat

/-- The filter type of line `y` (R303). -/
def filterOf (s : State) (y : Nat) : Nat := (srcByte s (y * (lbOf s + 1))).toNat

/-- Output byte `k` in memory `m`, as a number, when `present`; else 0 (R304). -/
def outOr0 (s : State) (m : Memory) (present : Prop) [Decidable present] (k : Nat) : Nat :=
  if present then (m.read (s.dstBase.toNat + k)).toNat else 0

/-- In memory `m`, byte `i` of line `y` is reconstructed: the filtered byte plus the prediction from its
neighbours, modulo 256 (R304 to R306). -/
def reconstructed (s : State) (m : Memory) (y i : Nat) : Prop :=
  m.read (s.dstBase.toNat + (y * lbOf s + i)) =
    BitVec.ofNat 8 ((srcByte s (y * (lbOf s + 1) + 1 + i)).toNat
      + predict (filterOf s y)
          (outOr0 s m (bwOf s ≤ i) (y * lbOf s + i - bwOf s))
          (outOr0 s m (0 < y) ((y - 1) * lbOf s + i))
          (outOr0 s m (0 < y ∧ bwOf s ≤ i) ((y - 1) * lbOf s + i - bwOf s)))

/-! ### Hypotheses -/

/-- The region check passes and both regions are plain memory (R95, R100). -/
abbrev Ready (inflateSide : Bool) (s : State) : Prop :=
  regionsBad inflateSide s = false ∧ regionsPlain s = true

/-- No DMA access can err (R344), the host has raced no byte (R106 (3)), and no instance that runs has a region in the
way (R347). -/
abbrev Quiet (s : State) : Prop := s.busErrors = false ∧ s.raced = [] ∧ rivalsApart s = true

/-! ### The host's accesses -/

/-- The step in which the host takes this action next. -/
def stepWith (a : HostAct) (s : State) : Host.Outcome State Fault Refusal := step { s with inputs := a :: s.inputs }

/-- The host physical address of a register offset (R30). -/
def portAt (s : State) (off : Nat) : Word := regBase s + BitVec.ofNat 32 off

/-- The step of a 32-bit host write at a register offset (R30). -/
def hostWrites (off : Nat) (w : Word) (s : State) : Host.Outcome State Fault Refusal :=
  stepWith (.regWrite (portAt s off) .word w) s

/-- The step of a 32-bit host read at a register offset (R30). -/
def hostReads (off : Nat) (s : State) : Host.Outcome State Fault Refusal :=
  stepWith (.regRead (portAt s off) .word) s

/-- The address lies in the register block (R31, R90). -/
def inRegisterBlock (s : State) (addr : Word) : Prop :=
  (regBase s).toNat ≤ addr.toNat ∧ addr.toNat < (regBase s).toNat + 0x4000

/-- A host action that resets the block: the reset input, or a write of `CTRL` with `SRESET` set (R370, R371). -/
def isReset (s : State) : HostAct → Prop
  | .hwReset => True
  | .regWrite addr width data => addr = portAt s 4 ∧ width = .word ∧ data.getLsbD 0 = true
  | .regRead _ _ => False
  | .memWrite _ _ => False
  | .memRead _ => False
  | .wait => False
  | .errMap _ _ => False
  | .rivals _ => False

/-- Every piece of the block's state that reset sets has its reset value (R370). The contents of the tree RAMs are
unspecified, and host memory is no part of the block's state. -/
structure AtReset (t : State) : Prop where
  irqEn : t.irqEn = false
  phase : t.phase = .idle
  bfinal : t.bfinal = false
  btype : t.btype = 0#2
  streamEnd : t.streamEnd = false
  llValid : t.llValid = false
  dValid : t.dValid = false
  clValid : t.clValid = false
  done : t.done = false
  err : t.err = false
  wign : t.wign = false
  cmd : t.cmd = 0#32
  errKind : t.errKind = 0#2
  errCause : t.errCause = 0#5
  errBitpos : t.errBitpos = 0#32
  errOutpos : t.errOutpos = 0#32
  srcBase : t.srcBase = 0#32
  srcLen : t.srcLen = 0#32
  dstBase : t.dstBase = 0#32
  dstCap : t.dstCap = 0#32
  bitpos : t.bitpos = 0#32
  outpos : t.outpos = 0#32
  arg0 : t.arg0 = 0#32
  arg1 : t.arg1 = 0#32
  result : t.result = 0#32
  unfWidth : t.unfWidth = 0#32
  unfHeight : t.unfHeight = 0#32
  unfBpp : t.unfBpp = 0#32
  lenram : t.lenram = List.replicate 288 0#4

/-! ### Code lengths -/

/-- The sum over the used symbols of `2^(M - length)`: above `2^M` exactly when the sum of `2^(-length)` exceeds 1
(R197). -/
def usedWeight (len : List Nat) (M : Nat) : Nat := ((len.filter fun l => l != 0).map fun l => 2 ^ (M - l)).sum

/-- The canonical code of a used symbol in closed form (R198, R199): the first code of its length, plus the number of
earlier symbols of that length. -/
def canonicalCode (len : List Nat) (sym : Nat) : Nat :=
  firstCode len (len.getD sym 0) + (len.take sym).count (len.getD sym 0)

/-! ### What a command keeps -/

/-- What no command writes (R175), and what is no state of the block: the host and the platform. -/
structure SameOperands (s t : State) : Prop where
  irqEn : t.irqEn = s.irqEn
  wign : t.wign = s.wign
  cmd : t.cmd = s.cmd
  srcBase : t.srcBase = s.srcBase
  srcLen : t.srcLen = s.srcLen
  dstBase : t.dstBase = s.dstBase
  dstCap : t.dstCap = s.dstCap
  arg0 : t.arg0 = s.arg0
  arg1 : t.arg1 = s.arg1
  unfWidth : t.unfWidth = s.unfWidth
  unfHeight : t.unfHeight = s.unfHeight
  unfBpp : t.unfBpp = s.unfBpp
  lenram : t.lenram = s.lenram
  portData : t.portData = s.portData
  memData : t.memData = s.memData
  inputs : t.inputs = s.inputs
  regPage : t.regPage = s.regPage
  busErrors : t.busErrors = s.busErrors
  merges : t.merges = s.merges
  errsRead : t.errsRead = s.errsRead
  errsWrite : t.errsWrite = s.errsWrite
  devices : t.devices = s.devices
  rivals : t.rivals = s.rivals
  raced : t.raced = s.raced
  hostDraws : t.hostDraws = s.hostDraws

/-- The three tree RAMs and their valid bits are the same. -/
structure SameTrees (s t : State) : Prop where
  llValid : t.llValid = s.llValid
  dValid : t.dValid = s.dValid
  clValid : t.clValid = s.clValid
  treeLL : t.treeLL = s.treeLL
  treeD : t.treeD = s.treeD
  treeCL : t.treeCL = s.treeCL

/-- `STATUS.BFINAL`, `BTYPE` and `STREAM_END` are the same. -/
structure SameBlockStatus (s t : State) : Prop where
  bfinal : t.bfinal = s.bfinal
  btype : t.btype = s.btype
  streamEnd : t.streamEnd = s.streamEnd

/-- The stored failure is the same (R41 to R44). -/
structure SameError (s t : State) : Prop where
  errKind : t.errKind = s.errKind
  errCause : t.errCause = s.errCause
  errBitpos : t.errBitpos = s.errBitpos
  errOutpos : t.errOutpos = s.errOutpos

/-- Every byte of host memory outside the output region is the same (R93): a safe step of the block. -/
def WritesOnlyOutput (s t : State) : Prop := ∀ a, inOutput s a = false → t.mem.read a = s.mem.read a

/-- Every byte of host memory is the same. -/
def SameBytes (s t : State) : Prop := ∀ a, t.mem.read a = s.mem.read a

/-! ### The invariant -/

/-- Every entry of a valid tree RAM is at most `2N - 2` (R59, R204 (e)). -/
def TreesInRange (s : State) : Prop :=
  ∀ t j, valid t s = true → ramEntry t j s ≤ 2 * numcodes t - 2

/-- What holds of every state a run from reset can reach. -/
structure Inv (s : State) : Prop where
  /-- Host memory is in canonical form. -/
  mem_wf : s.mem.wf = true
  /-- The RAMs have the sizes of R58 and R60 to R62. -/
  lenram_size : s.lenram.length = 288
  treeLL_size : s.treeLL.length = 576
  treeD_size : s.treeD.length = 64
  treeCL_size : s.treeCL.length = 38
  /-- R59. -/
  trees : TreesInRange s
  /-- Outside `FAILED` no failure is stored (R41 to R44, R338). -/
  no_error : s.phase ≠ .failed → s.errKind = 0#2 ∧ s.errCause = 0#5 ∧ s.errBitpos = 0#32 ∧ s.errOutpos = 0#32
  /-- In `FAILED` the kind is `InvalidParameter` and the cause is one of the codes 1 to 27 (R331, R332), but not
  `TREE_WALK_CORRUPT`, which is unreachable (R205). -/
  error : s.phase = .failed →
    s.errKind = invalidParameter ∧ 1 ≤ s.errCause.toNat ∧ s.errCause.toNat ≤ 27
      ∧ s.errCause ≠ Cause.treeWalkCorrupt.code
  /-- Bytes are raced only while a command runs, and lie in the address space. -/
  raced_busy : s.phase ≠ .busy → s.raced = []
  raced_lt : ∀ a ∈ s.raced, a < Config.addrSpace
  /-- Between steps no run of merged accesses is left over. -/
  settled : s.merging = none

end Machine
end Sys2Proof
end

