-- ==== Sys2Proof/Certificates/Slice0/Obligations.lean ====
section
/-! DEFINITION. The statements for the provers. Each docstring names the rule of `spec/` it formalises. -/

section Statements

open Sys2Proof Sys2Proof.Machine

/-! ### Encoding -/

/-- Decode and encode agree: every well-formed command comes back from its word (R120 to R124, R173). -/
def Obligations.DecodeEncode : Prop := ∀ i : Instr, WellFormed i → decode (encode i) = .ok i

/-- A word that decodes is the word of the command it decodes to, which is well-formed; so every legal word has exactly
one command and every command one word (R120, R173). -/
def Obligations.EncodeDecode : Prop := ∀ (w : Word) (i : Instr), decode w = .ok i → encode i = w ∧ WellFormed i

/-- Which of the 2^32 words are legal, by the numbers of their fields (R120 to R124, R178). -/
def Obligations.LegalWords : Prop :=
  ∀ w : Word,
    (∃ i, decode w = .ok i) ↔
      w.toNat / 2 ^ 11 % 32 = 0 ∧ w.toNat / 2 ^ 21 = 0
        ∧ (w.toNat % 256 = 0x01 ∧ w.toNat / 2 ^ 8 % 8 = 0 ∧ w.toNat / 2 ^ 16 % 32 ≤ 16
          ∨ w.toNat % 256 = 0x02 ∧ w.toNat / 2 ^ 8 % 8 ≤ 2 ∧ w.toNat / 2 ^ 16 % 32 = 0
          ∨ w.toNat % 256 = 0x03 ∧ w.toNat / 2 ^ 8 % 8 ≤ 4 ∧ w.toNat / 2 ^ 16 % 32 = 0
          ∨ (w.toNat % 256 = 0x00 ∨ 0x04 ≤ w.toNat % 256 ∧ w.toNat % 256 ≤ 0x08
              ∨ 0x10 ≤ w.toNat % 256 ∧ w.toNat % 256 ≤ 0x12)
            ∧ w.toNat / 2 ^ 8 % 8 = 0 ∧ w.toNat / 2 ^ 16 % 32 = 0)

/-- The command words the spec writes out (R125, R177, R203, R206, R241, R262, R263, R281, R282, R301, R307, R308). -/
def Obligations.SpecWords : Prop :=
  decode 0x00000000#32 = .ok .nop
    ∧ decode 0x00030001#32 = .ok (.readBits 3#5)
    ∧ decode 0x00070001#32 = .ok (.readBits 7#5)
    ∧ decode 0x00000202#32 = .ok (.buildTree .cl)
    ∧ decode 0x00000203#32 = .ok (.decodeSymbol (.ram .cl))
    ∧ decode 0x00000303#32 = .ok (.decodeSymbol .fixedLL)
    ∧ decode 0x00000403#32 = .ok (.decodeSymbol .fixedD)
    ∧ decode 0x00000004#32 = .ok .readDynTrees
    ∧ decode 0x00000005#32 = .ok .lzCopy
    ∧ decode 0x00000006#32 = .ok .inflateBlock
    ∧ decode 0x00000007#32 = .ok .zlibHeader
    ∧ decode 0x00000008#32 = .ok .inflateZlib
    ∧ decode 0x00000010#32 = .ok .paeth
    ∧ decode 0x00000011#32 = .ok .unfilterLine
    ∧ decode 0x00000012#32 = .ok .unfilterImage

/-! ### Steps -/

/-- A step runs the decoded command: where the block moves and `CMD` decodes to `i`, the step is `exec` of `i`, and
after it the host's races are settled, which changes nothing where there are none. Where the block does not move,
whatever stands in `CMD`, the host does (R170, R173, R176; that the host is a queue of actions is the model's choice,
log entry 11). -/
def Obligations.StepRunsDecoded : Prop :=
  ∀ s : State,
    (blockMoves s = false → step s = .next (hostStep s))
      ∧ ∀ i : Instr, decode s.cmd = .ok i →
        (blockMoves s = true → step s = mapNext settleRaces (exec i s))
          ∧ (blockMoves s = true → s.raced = [] → step s = exec i s)

/-- Illegal words: every word that decodes to no command has a reserved operation code, a reserved bit or an unused `SEL`
or `N` that is not 0, an `N` above 16, or a `SEL` that names no tree, and every such word decodes to none. It fails with
`ILLEGAL_CMD` and kind `InvalidParameter`; it executes nothing and touches no host memory, so that the next state is the
present one but for the failure entry and the host's own races (R121, R123, R124, R178). -/
def Obligations.IllegalWords : Prop :=
  ∀ s : State,
    ((∀ i, decode s.cmd ≠ .ok i) ↔
      9 ≤ s.cmd.toNat % 256 ∧ s.cmd.toNat % 256 ≤ 15 ∨ 0x13 ≤ s.cmd.toNat % 256
        ∨ s.cmd.toNat / 2 ^ 11 % 32 ≠ 0 ∨ s.cmd.toNat / 2 ^ 21 ≠ 0
        ∨ s.cmd.toNat % 256 ≠ 2 ∧ s.cmd.toNat % 256 ≠ 3 ∧ s.cmd.toNat / 2 ^ 8 % 8 ≠ 0
        ∨ s.cmd.toNat % 256 ≠ 1 ∧ s.cmd.toNat / 2 ^ 16 % 32 ≠ 0
        ∨ s.cmd.toNat % 256 = 1 ∧ 17 ≤ s.cmd.toNat / 2 ^ 16 % 32
        ∨ s.cmd.toNat % 256 = 2 ∧ 3 ≤ s.cmd.toNat / 2 ^ 8 % 8
        ∨ s.cmd.toNat % 256 = 3 ∧ 5 ≤ s.cmd.toNat / 2 ^ 8 % 8)
      ∧ ((∀ i, decode s.cmd ≠ .ok i) → blockMoves s = true →
        step s = .next (settleRaces (failedWith .illegalCmd s))
          ∧ (s.raced = [] → step s = .next (failedWith .illegalCmd s)))

/-- A step of the block changes no byte outside the output region, and the host's races end with it (R93, R106). -/
def Obligations.StepWritesOnlyOutput : Prop :=
  ∀ s t : State, blockMoves s = true → step s = .next t → WritesOnlyOutput s t ∧ t.raced = [] ∧ t.phase ≠ .busy

/-! ### The register port -/

/-- A `CMD` write is stored and issues the command when `IDLE`; when `FAILED` it only signals; when `BUSY` it is lost and
sets `WIGN` (R40, R170). -/
def Obligations.CommandIssue : Prop :=
  ∀ (s : State) (w : Word),
    (s.phase = .idle → hostWrites 0x010 w s = .next { s with cmd := w, phase := .busy })
      ∧ (s.phase = .failed → hostWrites 0x010 w s = .next { s with cmd := w, err := true })
      ∧ (s.phase = .busy → hostWrites 0x010 w s = .next { s with wign := true })

/-- In `FAILED` a `CMD` write stores the word, sets `ERR` and does nothing else, and the only way out is a reset (R172). -/
def Obligations.FailedIsTerminal : Prop :=
  ∀ s : State, s.phase = .failed →
    (∀ w, hostWrites 0x010 w s = .next { s with cmd := w, err := true })
      ∧ ∀ a t, stepWith a s = .next t → t.phase ≠ .failed → isReset s a

/-- Writes while busy: `CTRL` and `INT_STATUS` take effect; a write to any other offset is ignored and sets `WIGN` (R67).
That it does so at the reserved offsets too, which R57 gives no side effect, is the model's reading (log entry 13). -/
def Obligations.WritesWhileBusy : Prop :=
  ∀ (s : State) (w : Word), s.phase = .busy →
    (w.getLsbD 0 = false → hostWrites 0x004 w s = .next { s with irqEn := w.getLsbD 1 })
      ∧ (w.getLsbD 0 = true → ∃ t, hostWrites 0x004 w s = .next t ∧ AtReset { t with irqEn := false }
          ∧ t.irqEn = w.getLsbD 1)
      ∧ hostWrites 0x00C w s = .next
          { s with
            done := s.done && !w.getLsbD 0
            err := s.err && !w.getLsbD 1
            wign := s.wign && !w.getLsbD 2 }
      ∧ ∀ off, off < 0x4000 → off % 4 = 0 → off ≠ 0x004 → off ≠ 0x00C →
          hostWrites off w s = .next { s with wign := true }

/-- Outside `BUSY`, in `IDLE` and in `FAILED` alike, a write of any RW register or of `LENRAM` takes effect at once, and
does not leave `FAILED`: the lifecycle is as before (R70; the fields are those of R33, R45 to R56 and R58). -/
def Obligations.RegisterWrites : Prop :=
  ∀ (s : State) (w : Word), s.phase ≠ .busy →
    (w.getLsbD 0 = false → hostWrites 0x004 w s = .next { s with irqEn := w.getLsbD 1 })
      ∧ hostWrites 0x024 w s = .next { s with srcBase := w }
      ∧ hostWrites 0x028 w s = .next { s with srcLen := w }
      ∧ hostWrites 0x02C w s = .next { s with dstBase := w }
      ∧ hostWrites 0x030 w s = .next { s with dstCap := w }
      ∧ hostWrites 0x034 w s = .next { s with bitpos := w }
      ∧ hostWrites 0x038 w s = .next { s with outpos := w }
      ∧ hostWrites 0x03C w s = .next { s with arg0 := w }
      ∧ hostWrites 0x040 w s = .next { s with arg1 := w }
      ∧ hostWrites 0x048 w s = .next { s with unfWidth := w }
      ∧ hostWrites 0x04C w s = .next { s with unfHeight := w }
      ∧ hostWrites 0x050 w s = .next { s with unfBpp := w }
      ∧ ∀ k, k < 288 → hostWrites (0x400 + 4 * k) w s
          = .next { s with lenram := s.lenram.set k (BitVec.ofNat 4 (w.toNat % 16)) }

/-- A write to a read-only register is ignored and has no side effect; while `BUSY` it sets `WIGN` (R69). -/
def Obligations.ReadOnlyRegisters : Prop :=
  ∀ (s : State) (w : Word) (off : Nat),
    (off ∈ [0x000, 0x008, 0x014, 0x018, 0x01C, 0x020, 0x044]
      ∨ (∃ j, j < 576 ∧ off = 0x1000 + 4 * j) ∨ (∃ j, j < 64 ∧ off = 0x2000 + 4 * j)
      ∨ ∃ j, j < 38 ∧ off = 0x2400 + 4 * j) →
    (s.phase ≠ .busy → hostWrites off w s = .next s)
      ∧ (s.phase = .busy → hostWrites off w s = .next { s with wign := true })

/-- What each register reads as outside `BUSY`, the fields of `CTRL`, `STATUS` and `INT_STATUS` at their bits
(R31 to R58). -/
def Obligations.RegisterReads : Prop :=
  ∀ s : State, s.phase ≠ .busy →
    hostReads 0x000 s = .next { s with portData := 0x4B464931#32 }
      ∧ hostReads 0x004 s = .next { s with portData := BitVec.ofNat 32 (2 * s.irqEn.toNat) }
      ∧ hostReads 0x008 s = .next
          { s with
            portData := BitVec.ofNat 32
              ((if s.phase = .failed then 2 else 0) + 4 * s.bfinal.toNat + 8 * s.btype.toNat
                + 32 * s.streamEnd.toNat + 256 * s.llValid.toNat + 512 * s.dValid.toNat + 1024 * s.clValid.toNat) }
      ∧ hostReads 0x00C s = .next
          { s with portData := BitVec.ofNat 32 (s.done.toNat + 2 * s.err.toNat + 4 * s.wign.toNat) }
      ∧ hostReads 0x010 s = .next { s with portData := s.cmd }
      ∧ hostReads 0x014 s = .next { s with portData := s.errKind.setWidth 32 }
      ∧ hostReads 0x018 s = .next { s with portData := s.errCause.setWidth 32 }
      ∧ hostReads 0x01C s = .next { s with portData := s.errBitpos }
      ∧ hostReads 0x020 s = .next { s with portData := s.errOutpos }
      ∧ hostReads 0x024 s = .next { s with portData := s.srcBase }
      ∧ hostReads 0x028 s = .next { s with portData := s.srcLen }
      ∧ hostReads 0x02C s = .next { s with portData := s.dstBase }
      ∧ hostReads 0x030 s = .next { s with portData := s.dstCap }
      ∧ hostReads 0x034 s = .next { s with portData := s.bitpos }
      ∧ hostReads 0x038 s = .next { s with portData := s.outpos }
      ∧ hostReads 0x03C s = .next { s with portData := s.arg0 }
      ∧ hostReads 0x040 s = .next { s with portData := s.arg1 }
      ∧ hostReads 0x044 s = .next { s with portData := s.result }
      ∧ hostReads 0x048 s = .next { s with portData := s.unfWidth }
      ∧ hostReads 0x04C s = .next { s with portData := s.unfHeight }
      ∧ hostReads 0x050 s = .next { s with portData := s.unfBpp }
      ∧ (∀ k, k < 288 → hostReads (0x400 + 4 * k) s
          = .next { s with portData := (s.lenram.getD k 0#4).setWidth 32 })

/-- Reserved offsets read 0 and ignore writes, with no side effect, outside `BUSY` (R57; while `BUSY` the model follows
R67 and R68, log entry 13). -/
def Obligations.ReservedOffsets : Prop :=
  ∀ (s : State) (off : Nat) (w : Word), s.phase ≠ .busy → off % 4 = 0 →
    (0x054 ≤ off ∧ off ≤ 0x3FC ∨ 0x880 ≤ off ∧ off ≤ 0xFFC ∨ 0x1900 ≤ off ∧ off ≤ 0x1FFC
      ∨ 0x2100 ≤ off ∧ off ≤ 0x23FC ∨ 0x2498 ≤ off ∧ off ≤ 0x3FFC) →
    hostReads off s = .next { s with portData := 0#32 } ∧ hostWrites off w s = .next s

/-- The tree windows read the entries of the last completed build while their valid bit is 1; otherwise a read returns
some value and changes nothing else but the model's own counter of the host's draws (R60 to R62; log entries 4 and 9). -/
def Obligations.TreeWindows : Prop :=
  ∀ s : State, s.phase ≠ .busy →
    (s.llValid = true → ∀ j, j < 576 → hostReads (0x1000 + 4 * j) s
        = .next { s with portData := (s.treeLL.getD j 0#10).setWidth 32 })
      ∧ (s.dValid = true → ∀ j, j < 64 → hostReads (0x2000 + 4 * j) s
        = .next { s with portData := (s.treeD.getD j 0#10).setWidth 32 })
      ∧ (s.clValid = true → ∀ j, j < 38 → hostReads (0x2400 + 4 * j) s
        = .next { s with portData := (s.treeCL.getD j 0#10).setWidth 32 })
      ∧ (s.llValid = false → ∀ j, j < 576 → ∃ v, hostReads (0x1000 + 4 * j) s
        = .next { s with portData := v, hostDraws := s.hostDraws + 1 })
      ∧ (s.dValid = false → ∀ j, j < 64 → ∃ v, hostReads (0x2000 + 4 * j) s
        = .next { s with portData := v, hostDraws := s.hostDraws + 1 })
      ∧ (s.clValid = false → ∀ j, j < 38 → ∃ v, hostReads (0x2400 + 4 * j) s
        = .next { s with portData := v, hostDraws := s.hostDraws + 1 })

/-- Reads while busy: `ID`, `CTRL`, `STATUS` and `INT_STATUS` read their current values; any other offset returns some
value, drawn freely, and the read has no side effect (R68). The counter of the host's draws is the model's own (log
entry 9), and that the reserved offsets, which R57 lets read 0, return some value too is its reading (log entry 13). -/
def Obligations.ReadsWhileBusy : Prop :=
  ∀ s : State, s.phase = .busy →
    hostReads 0x000 s = .next { s with portData := 0x4B464931#32 }
      ∧ hostReads 0x004 s = .next { s with portData := BitVec.ofNat 32 (2 * s.irqEn.toNat) }
      ∧ hostReads 0x008 s = .next
          { s with
            portData := BitVec.ofNat 32
              (1 + 4 * s.bfinal.toNat + 8 * s.btype.toNat + 32 * s.streamEnd.toNat + 256 * s.llValid.toNat
                + 512 * s.dValid.toNat + 1024 * s.clValid.toNat) }
      ∧ hostReads 0x00C s = .next
          { s with portData := BitVec.ofNat 32 (s.done.toNat + 2 * s.err.toNat + 4 * s.wign.toNat) }
      ∧ ∀ off, off < 0x4000 → off % 4 = 0 → 0x010 ≤ off →
          ∃ v, hostReads off s = .next { s with portData := v, hostDraws := s.hostDraws + 1 }

/-- The port serves only 32-bit accesses at multiples of 4: any other write is ignored and any other read returns 0,
with no side effect (R98). That such a write sets no `WIGN` while `BUSY` either, against the "any other offset" of R67, is
the model's reading (log entry 15). -/
def Obligations.UnservedAccesses : Prop :=
  ∀ (s : State) (addr w : Word) (width : Width), inRegisterBlock s addr →
    (width ≠ .word ∨ addr.toNat % 4 ≠ 0) →
    stepWith (.regWrite addr width w) s = .next s
      ∧ stepWith (.regRead addr width) s = .next { s with portData := 0#32 }

/-- The interrupt: the line is 1 exactly when `IRQ_EN` is 1 and `DONE` or `ERR` is 1, so `WIGN` does not drive it and
setting `IRQ_EN` over a bit that is 1 raises it at once; writing a 1 to a bit of `INT_STATUS` clears it in every state and
changes nothing else, so the line falls when `DONE` and `ERR` are cleared, and `FAILED` stays (R39, R340 to R343). -/
def Obligations.Interrupt : Prop :=
  ∀ (s : State) (w : Word),
    (irq s = true ↔ s.irqEn = true ∧ (s.done = true ∨ s.err = true))
      ∧ (∀ b, irq { s with wign := b } = irq s)
      ∧ (∀ t, hostWrites 0x004 2#32 s = .next t → (irq t = true ↔ s.done = true ∨ s.err = true))
      ∧ hostWrites 0x00C w s = .next
        { s with
          done := s.done && !w.getLsbD 0
          err := s.err && !w.getLsbD 1
          wign := s.wign && !w.getLsbD 2 }
      ∧ (w.getLsbD 0 = true → w.getLsbD 1 = true → ∀ t, hostWrites 0x00C w s = .next t →
          irq t = false ∧ t.phase = s.phase)

/-! ### Host memory -/

/-- Host memory under other hands than the block's, outside the register block. A host write stores its byte and
changes no other; a host read returns the byte, unless a command runs that may write it; and while `BUSY` both are
free outside the two regions. A write to a region of a running command is a race: from then on every block read of the
byte returns a free value, and after the block's step the byte, where it is an output byte, holds one (R90, R106, R376).
A byte that another instance may write reads as a free value, and one it may read or write holds a free value where the
block writes it (R347; which instances run, and that all bytes of a clashing region count, is log entry 25). -/
def Obligations.HostMemory : Prop :=
  ∀ (s : State) (addr : Word) (v : Byte), ¬ inRegisterBlock s addr →
    (s.phase ≠ .busy ∨ inSource s addr.toNat = false ∧ inOutput s addr.toNat = false →
        ∃ m, stepWith (.memWrite addr v) s = .next { s with mem := m }
          ∧ m.read addr.toNat = v ∧ ∀ a, a ≠ addr.toNat → m.read a = s.mem.read a)
      ∧ (s.phase ≠ .busy ∨ inOutput s addr.toNat = false →
        stepWith (.memRead addr) s = .next { s with memData := s.mem.read addr.toNat })
      ∧ (s.phase = .busy → inSource s addr.toNat = true ∨ inOutput s addr.toNat = true →
        ∃ m, stepWith (.memWrite addr v) s = .next { s with mem := m, raced := addr.toNat :: s.raced }
          ∧ m.read addr.toNat = v ∧ ∀ a, a ≠ addr.toNat → m.read a = s.mem.read a)
      ∧ (addr.toNat ∈ s.raced → s.busErrors = false →
        dmaRead addr.toNat s = .ok (Config.freeByte s.draws) { s with draws := s.draws + 1 })
      ∧ (addr.toNat ∈ s.raced → inOutput s addr.toNat = true → blockMoves s = true →
        ∀ t, step s = .next t → ∃ d, t.mem.read addr.toNat = Config.freeByte d)
      ∧ ∀ r ∈ s.rivals, clashes s r = true → s.busErrors = false →
        (r.dstBase ≤ addr.toNat ∧ addr.toNat < r.dstBase + r.dstCap →
            dmaRead addr.toNat s = .ok (Config.freeByte s.draws) { s with draws := s.draws + 1 })
          ∧ (r.dstBase ≤ addr.toNat ∧ addr.toNat < r.dstBase + r.dstCap
              ∨ r.srcBase ≤ addr.toNat ∧ addr.toNat < r.srcBase + r.srcLen →
            ∃ m, dmaWrite addr.toNat v s = .ok () { s with mem := m, draws := s.draws + 1 }
              ∧ m.read addr.toNat = Config.freeByte s.draws ∧ ∀ a, a ≠ addr.toNat → m.read a = s.mem.read a)

/-- While a command runs, whichever it is, a host read of an output byte that the host has not raced returns its value
before the command or the value the command gives it, and changes nothing but the byte it returns and the model's
counter of the host's draws, so that no draw of the command moves (R106 (3), R375; log entry 9). That it is the value
before the command where the model refuses the command (R100) is the model's choice (log entry 27). -/
def Obligations.RacingRead : Prop :=
  ∀ (s : State) (addr : Word), ¬ inRegisterBlock s addr → s.phase = .busy → addr.toNat ∉ s.raced →
    inOutput s addr.toNat = true →
    ∃ v, stepWith (.memRead addr) s = .next { s with memData := v, hostDraws := s.hostDraws + 1 }
      ∧ (v = s.mem.read addr.toNat ∨ ∃ u, blockStep s = .next u ∧ v = u.mem.read addr.toNat)

/-! ### Reset -/

/-- The state of the model right after reset has the reset values of R370, no host memory listed and no pending action
(R370; that an unlisted byte reads 0, and that no host action is pending, are the model's choices, log entries 1 and
10). -/
def Obligations.ResetState : Prop :=
  AtReset State.reset ∧ State.reset.mem = [] ∧ State.reset.inputs = [] ∧ irq State.reset = false

/-- Hardware reset, in any state: every piece of the block's state has its reset value, the line is 0, host memory is
unchanged unless a command was in progress, and the block then accepts a command (R370). That the host's and the
platform's state, which R370 does not speak of, is kept is the model's choice (log entry 10). -/
def Obligations.HardwareReset : Prop :=
  ∀ s : State, ∃ t, stepWith .hwReset s = .next t ∧ AtReset t ∧ irq t = false
    ∧ (s.phase ≠ .busy → t.mem = s.mem) ∧ hostReads 0x000 t = .next { t with portData := 0x4B464931#32 }
    ∧ (∀ w, hostWrites 0x010 w t = .next { t with cmd := w, phase := .busy })
    ∧ t.inputs = s.inputs ∧ t.regPage = s.regPage ∧ t.busErrors = s.busErrors ∧ t.merges = s.merges
    ∧ t.errsRead = s.errsRead ∧ t.errsWrite = s.errsWrite ∧ t.devices = s.devices ∧ t.rivals = s.rivals
    ∧ t.portData = s.portData ∧ t.memData = s.memData

/-- Soft reset: a write of `CTRL` with bit 0 set performs exactly the hardware reset, in every state, and then `IRQ_EN`
takes bit 1; with bit 0 clear it only sets `IRQ_EN` (R371). -/
def Obligations.SoftReset : Prop :=
  ∀ (s : State) (w : Word),
    (w.getLsbD 0 = true → ∃ t, stepWith .hwReset s = .next t ∧ AtReset t ∧ (s.phase ≠ .busy → t.mem = s.mem)
        ∧ hostWrites 0x004 w s = .next { t with irqEn := w.getLsbD 1 })
      ∧ (w.getLsbD 0 = false → hostWrites 0x004 w s = .next { s with irqEn := w.getLsbD 1 })

/-- A reset during a command leaves each byte of the output region at its value before the command or at the value the
command gives it, and every other byte unchanged (R373). That it is the value before the command where the model refuses
the command (R100) is the model's choice (log entry 27). -/
def Obligations.AbortedCommand : Prop :=
  ∀ s t : State, s.phase = .busy → s.raced = [] → stepWith .hwReset s = .next t →
    ∀ a, t.mem.read a = s.mem.read a
      ∨ inOutput s a = true ∧ ∃ u, blockStep s = .next u ∧ t.mem.read a = u.mem.read a

/-! ### Failures -/

/-- Failure entry: what a failure with each cause leaves, from the state at the failing step (R333); the codes of the 27
causes are those of the table of R332. -/
def Obligations.FailureEntry : Prop :=
  ∀ s : State,
    (∀ c, c ≠ .badFilterType → finish (.fail (.cause c) s) = .next
        { s with
          errBitpos := s.bitpos
          errOutpos := s.outpos
          errKind := 1#2
          errCause := c.code
          outpos := 0#32
          phase := .failed
          err := true })
      ∧ (∀ y lb, finish (.fail (.badFilter y lb) s) = .next
        { s with
          errBitpos := BitVec.ofNat 32 (8 * y * (lb + 1))
          errOutpos := BitVec.ofNat 32 (y * lb)
          errKind := 1#2
          errCause := 24#5
          outpos := 0#32
          phase := .failed
          err := true })
      ∧ [Cause.illegalCmd, .badConfig, .bitsExhausted, .symbolExhausted, .treeWalkCorrupt, .oversubscribed,
          .treeNodesExhausted, .treeNotBuilt, .lengthTooLong, .zlibFcheck, .zlibMethod, .zlibWindow, .zlibFdict,
          .badBtype, .storedNlen, .storedInput, .outputFull, .badLitlenSymbol, .badDistSymbol, .distTooFar,
          .repeatNoPrevious, .repeatOverflow, .noEndCode, .badFilterType, .argRange, .unfSize, .busError].map
          (fun c => c.code.toNat)
        = (List.range 27).map (· + 1)

/-- Every command ends: over plain memory it completes, with `DONE` and the stored failure as before, or fails once, with
`ERR`, the kind `InvalidParameter`, a cause, `OUTPOS` 0 and the position of the cursor (R170, R171, R179, R331, R333). -/
def Obligations.EveryCommandEnds : Prop :=
  ∀ (i : Instr) (s : State), regionsPlain s = true →
    ∃ t, exec i s = .next t
      ∧ (t.phase = .idle ∧ t.done = true ∧ t.err = s.err ∧ SameError s t
        ∨ t.phase = .failed ∧ t.err = true ∧ t.done = s.done ∧ t.errKind = 1#2 ∧ 1 ≤ t.errCause.toNat
          ∧ t.errCause.toNat ≤ 27 ∧ t.outpos = 0#32
          ∧ (i ≠ .unfilterLine → i ≠ .unfilterImage → t.errBitpos = t.bitpos))

/-- The region check: a command that touches host memory fails with `BAD_CONFIG` under any of the conditions of R95,
with the inflate-side condition only where the rule has it, and passes the check under none (R95). -/
def Obligations.RegionCheck : Prop :=
  (∀ (i : Instr) (b : Bool) (s : State), WellFormed i → checksRegions i = some b → RegionFault b s →
      exec i s = .next (failedWith .badConfig s))
    ∧ (∀ (b : Bool) (s : State), ¬ RegionFault b s → regionsPlain s = true → regionCheck b s = .ok () s)
    ∧ ∀ i : Instr,
        (checksRegions i = some true ↔
          (∃ n, i = .readBits n) ∨ (∃ t, i = .decodeSymbol t) ∨ i = .readDynTrees ∨ i = .lzCopy ∨ i = .inflateBlock)
          ∧ (checksRegions i = some false ↔
            i = .zlibHeader ∨ i = .inflateZlib ∨ i = .unfilterLine ∨ i = .unfilterImage)

/-- A region that is no plain memory is outside the model, which refuses it (R100). That it refuses the whole command, even
where the command would access no byte that has side effects, is the model's reading (log entry 18). -/
def Obligations.SideEffectRegions : Prop :=
  ∀ (i : Instr) (b : Bool) (s : State), WellFormed i → checksRegions i = some b → ¬ RegionFault b s →
    regionsPlain s = false → exec i s = .refused .sideEffectRegion

/-- A bus error ends the command at its step, with `BUS_ERROR` and the cursors of that step; the erring access returns no
value and changes no byte, and earlier accesses keep their effects (R344). Of `READ_BITS`: any of its bytes errs, whether
the implementation merges accesses or not. Of `LZ_COPY` and `UNFILTER_LINE`, by single-byte accesses: byte `j` of the
copy or of the line is the first whose write errs. Of `LZ_COPY` with merged accesses: it fails at some byte of the copy,
with the bytes from that one on as they were. And it comes of no other cause: where the platform errs at none of the
bytes `READ_BITS` reads, it completes, and so does `LZ_COPY`, merged or not, where it errs at none of the reads and
writes of the copy, whatever errs elsewhere (R93, R100). Which addresses err, reads and writes apart, is the platform's
(log entry 24), that a merged access takes in no other byte is the model's reading (log entry 8), and the draw counter is
the model's own (log entry 9). -/
def Obligations.BusError : Prop :=
  ∀ s : State, s.busErrors = true →
    (∀ (n : BitVec 5) (i : Nat), n.toNat ≤ 16 → Ready true s → s.bitpos.toNat + n.toNat ≤ 8 * s.srcLen.toNat →
        i < n.toNat → s.srcBase.toNat + (s.bitpos.toNat + i) / 8 ∈ s.errsRead →
        ∃ d, exec (.readBits n) s = .next { failedWith .busError s with draws := d })
      ∧ (s.merges = false → s.raced = [] → rivalsApart s = true →
        (∀ j, Ready true s → 3 ≤ s.arg0.toNat → s.arg0.toNat ≤ 258 → 1 ≤ s.arg1.toNat → s.arg1.toNat ≤ 32768 →
            s.arg1.toNat ≤ s.outpos.toNat → s.outpos.toNat + s.arg0.toNat ≤ s.dstCap.toNat → j < s.arg0.toNat →
            s.dstBase.toNat + (s.outpos.toNat + j) ∈ s.errsWrite →
            (∀ k, k < j → s.dstBase.toNat + (s.outpos.toNat + k) ∉ s.errsWrite) →
            (∀ a ∈ s.errsRead, inOutput s a = false) →
            ∃ m d, exec .lzCopy s = .next
                { failedWith .busError { s with mem := m, outpos := BitVec.ofNat 32 (s.outpos.toNat + j) } with draws := d }
              ∧ (∀ k, k < j → m.read (s.dstBase.toNat + (s.outpos.toNat + k))
                = s.mem.read (s.dstBase.toNat + (s.outpos.toNat - s.arg1.toNat + k % s.arg1.toNat)))
              ∧ sameOutside s m s.outpos.toNat (s.outpos.toNat + j))
          ∧ ∀ j, Ready false s → geometryValid s → s.arg0.toNat < s.unfHeight.toNat →
            filterOf s s.arg0.toNat ≤ 4 → j < lbOf s →
            s.dstBase.toNat + (s.arg0.toNat * lbOf s + j) ∈ s.errsWrite →
            (∀ k, k < j → s.dstBase.toNat + (s.arg0.toNat * lbOf s + k) ∉ s.errsWrite) →
            (∀ a ∈ s.errsRead, inSource s a = false ∧ inOutput s a = false) →
            ∃ m d, exec .unfilterLine s = .next { failedWith .busError { s with mem := m } with draws := d }
              ∧ (∀ i, i < j → reconstructed s m s.arg0.toNat i)
              ∧ sameOutside s m (s.arg0.toNat * lbOf s) (s.arg0.toNat * lbOf s + j))
      ∧ (Ready true s → 3 ≤ s.arg0.toNat → s.arg0.toNat ≤ 258 → 1 ≤ s.arg1.toNat → s.arg1.toNat ≤ 32768 →
          s.arg1.toNat ≤ s.outpos.toNat → s.outpos.toNat + s.arg0.toNat ≤ s.dstCap.toNat →
          (∃ k, k < s.arg0.toNat
            ∧ (s.dstBase.toNat + (s.outpos.toNat - s.arg1.toNat + k % s.arg1.toNat) ∈ s.errsRead
              ∨ s.dstBase.toNat + (s.outpos.toNat + k) ∈ s.errsWrite)) →
          ∃ j m d, j < s.arg0.toNat
            ∧ exec .lzCopy s = .next
              { failedWith .busError { s with mem := m, outpos := BitVec.ofNat 32 (s.outpos.toNat + j) } with draws := d }
            ∧ sameOutside s m s.outpos.toNat (s.outpos.toNat + j))
      ∧ (s.raced = [] → rivalsApart s = true →
        (∀ n : BitVec 5, n.toNat ≤ 16 → Ready true s → s.bitpos.toNat + n.toNat ≤ 8 * s.srcLen.toNat →
            (∀ i, i < n.toNat → s.srcBase.toNat + (s.bitpos.toNat + i) / 8 ∉ s.errsRead) →
            ∃ d, exec (.readBits n) s = .next (completed
              { s with
                result := BitVec.ofNat 32 (fieldAt s s.bitpos.toNat n.toNat)
                bitpos := BitVec.ofNat 32 (s.bitpos.toNat + n.toNat)
                draws := d }))
          ∧ (Ready true s → 3 ≤ s.arg0.toNat → s.arg0.toNat ≤ 258 → 1 ≤ s.arg1.toNat → s.arg1.toNat ≤ 32768 →
            s.arg1.toNat ≤ s.outpos.toNat → s.outpos.toNat + s.arg0.toNat ≤ s.dstCap.toNat →
            (∀ k, k < s.arg0.toNat →
              s.dstBase.toNat + (s.outpos.toNat - s.arg1.toNat + k % s.arg1.toNat) ∉ s.errsRead
                ∧ s.dstBase.toNat + (s.outpos.toNat + k) ∉ s.errsWrite) →
            ∃ m d, exec .lzCopy s = .next (completed
                { s with mem := m, outpos := BitVec.ofNat 32 (s.outpos.toNat + s.arg0.toNat), draws := d })
              ∧ (∀ k, k < s.arg0.toNat → m.read (s.dstBase.toNat + (s.outpos.toNat + k))
                = s.mem.read (s.dstBase.toNat + (s.outpos.toNat - s.arg1.toNat + k % s.arg1.toNat)))
              ∧ sameOutside s m s.outpos.toNat (s.outpos.toNat + s.arg0.toNat)))

/-! ### The leaf commands -/

/-- `NOP` completes and writes nothing else, with no region check; with any other bit set its word is illegal; in `FAILED`
it only signals; and from reset it leaves `STATUS` 0 and `INT_STATUS` 1 (R177). -/
def Obligations.NopCompletes : Prop :=
  (∃ t, exec .nop { State.reset with phase := .busy } = .next t ∧ statusWord t = 0#32 ∧ intStatusWord t = 1#32)
    ∧ ∀ s : State,
      exec .nop s = .next (completed s)
      ∧ (blockMoves s = true → s.raced = [] → s.cmd.toNat % 256 = 0 →
          step s = .next (if s.cmd = 0#32 then completed s else failedWith .illegalCmd s))
      ∧ (s.phase = .failed → hostWrites 0x010 0#32 s = .next { s with cmd := 0#32, err := true })

/-- `READ_BITS`: the `N` bits from the cursor, the first one least significant, go zero-extended to `RESULT` and the
cursor moves past them; a read past the end fails and consumes nothing (R191 to R193). -/
def Obligations.ReadBits : Prop :=
  ∀ (s : State) (n : BitVec 5), Ready true s →
    (n.toNat ≤ 16 → Quiet s → s.bitpos.toNat + n.toNat ≤ 8 * s.srcLen.toNat →
      exec (.readBits n) s = .next (completed
        { s with
          result := BitVec.ofNat 32 (((List.range n.toNat).map fun i => bitAt s (s.bitpos.toNat + i) * 2 ^ i).sum)
          bitpos := BitVec.ofNat 32 (s.bitpos.toNat + n.toNat) }))
      ∧ (n.toNat ≤ 16 → 8 * s.srcLen.toNat < s.bitpos.toNat + n.toNat →
        exec (.readBits n) s = .next (failedWith .bitsExhausted s))
      ∧ (16 < n.toNat → exec (.readBits n) s = .next (failedWith .illegalCmd s))

/-- `BUILD_TREE`: where `LENRAM` builds, the table goes to the tree RAM and its valid bit is set, and nothing else
changes (R202, R203). -/
def Obligations.BuildTree : Prop :=
  ∀ (s : State) (T : List Nat),
    (buildTree ((s.lenram.take 288).map BitVec.toNat) 288 15 = .ok T → 288 ≤ s.lenram.length →
        exec (.buildTree .ll) s = .next (completed { s with treeLL := T.map (BitVec.ofNat 10), llValid := true }))
      ∧ (buildTree ((s.lenram.take 32).map BitVec.toNat) 32 15 = .ok T → 288 ≤ s.lenram.length →
        exec (.buildTree .d) s = .next (completed { s with treeD := T.map (BitVec.ofNat 10), dValid := true }))
      ∧ (buildTree ((s.lenram.take 19).map BitVec.toNat) 19 7 = .ok T → 288 ≤ s.lenram.length →
        exec (.buildTree .cl) s = .next (completed { s with treeCL := T.map (BitVec.ofNat 10), clValid := true }))

/-- Which sets of code lengths build: a length above the maximum fails first, then an oversubscribed set, judged by the
sum over its used symbols; any other set builds or runs out of nodes; and a complete set builds
(R195, R197, R200, R204). -/
def Obligations.BuildOutcome : Prop :=
  ∀ (t : RamTree) (s : State), 288 ≤ s.lenram.length →
    ((∃ l ∈ lenramLengths (numcodes t) s, maxbitlen t < l) →
        ∃ u, exec (.buildTree t) s = .next u ∧ u.phase = .failed ∧ u.errCause = Cause.lengthTooLong.code)
      ∧ ((∀ l ∈ lenramLengths (numcodes t) s, l ≤ maxbitlen t) →
        (2 ^ maxbitlen t < usedWeight (lenramLengths (numcodes t) s) (maxbitlen t) →
            ∃ u, exec (.buildTree t) s = .next u ∧ u.phase = .failed ∧ u.errCause = Cause.oversubscribed.code)
          ∧ (usedWeight (lenramLengths (numcodes t) s) (maxbitlen t) ≤ 2 ^ maxbitlen t →
            ∃ u, exec (.buildTree t) s = .next u
              ∧ (u.phase = .idle ∧ valid t u = true
                ∨ u.phase = .failed ∧ u.errCause = Cause.treeNodesExhausted.code))
          ∧ (usedWeight (lenramLengths (numcodes t) s) (maxbitlen t) = 2 ^ maxbitlen t →
            ∃ u, exec (.buildTree t) s = .next u ∧ u.phase = .idle ∧ valid t u = true))

/-- A failed build clears the valid bit and leaves the contents of that tree RAM unspecified, whatever they are; the rest
is as the failure entry says (R38, R202). -/
def Obligations.BuildFailure : Prop :=
  ∀ (s : State) (c : Cause),
    (buildTree (lenramLengths 288 s) 288 15 = .error c →
        ∃ l d, l.length = 576
          ∧ exec (.buildTree .ll) s = .next (failedWith c { s with treeLL := l, llValid := false, draws := d }))
      ∧ (buildTree (lenramLengths 32 s) 32 15 = .error c →
        ∃ l d, l.length = 64
          ∧ exec (.buildTree .d) s = .next (failedWith c { s with treeD := l, dValid := false, draws := d }))
      ∧ (buildTree (lenramLengths 19 s) 19 7 = .error c →
        ∃ l d, l.length = 38
          ∧ exec (.buildTree .cl) s = .next (failedWith c { s with treeCL := l, clValid := false, draws := d }))

/-- `DECODE_SYMBOL`: the symbol the walk of the selected table reaches goes to `RESULT` and the cursor moves past its
bits; where the bits run out the partly walked code stays consumed; a RAM tree that is not valid fails first
(R205, R206). -/
def Obligations.DecodeSymbol : Prop :=
  ∀ (s : State) (t : TreeSel), Ready true s →
    (treeBuilt t s = false → exec (.decodeSymbol t) s = .next (failedWith .treeNotBuilt s))
      ∧ (treeBuilt t s = true → Quiet s → TreesInRange s →
        exec (.decodeSymbol t) s = .next
          (match symAt (tableAt t s) (numcodesOf t) s s.bitpos.toNat with
          | some (v, q) => completed { s with result := BitVec.ofNat 32 v, bitpos := BitVec.ofNat 32 q }
          | none => failedWith .symbolExhausted { s with bitpos := BitVec.ofNat 32 (8 * s.srcLen.toNat) }))

/-- The decoder inverts the builder: with a RAM tree built from code lengths, the canonical code of a used symbol, most
significant bit first at the cursor, decodes to that symbol (R134, R194 to R206). -/
def Obligations.CanonicalCodesDecode : Prop :=
  ∀ (s : State) (t : RamTree) (len T : List Nat) (sym : Nat), Ready true s → Quiet s →
    len.length = numcodes t → buildTree len (numcodes t) (maxbitlen t) = .ok T →
    tableAt (.ram t) s = T → valid t s = true →
    sym < len.length → len.getD sym 0 ≠ 0 →
    codeAt s s.bitpos.toNat (canonicalCode len sym) (len.getD sym 0) →
    s.bitpos.toNat + len.getD sym 0 ≤ 8 * s.srcLen.toNat →
    exec (.decodeSymbol (.ram t)) s = .next (completed
      { s with
        result := BitVec.ofNat 32 sym
        bitpos := BitVec.ofNat 32 (s.bitpos.toNat + len.getD sym 0) })

/-- The fixed codes: the canonical assignment over the lengths of R142 gives every symbol of the two constant trees the
code of its row, and that code, most significant bit first at the cursor, decodes to it (R143). -/
def Obligations.FixedCodes : Prop :=
  ∀ (s : State) (sym code L : Nat) (t : TreeSel), Ready true s → Quiet s →
    (t = .fixedLL ∧ sym ≤ 143 ∧ L = 8 ∧ code = 0b00110000 + sym
      ∨ t = .fixedLL ∧ 144 ≤ sym ∧ sym ≤ 255 ∧ L = 9 ∧ code = 0b110010000 + (sym - 144)
      ∨ t = .fixedLL ∧ 256 ≤ sym ∧ sym ≤ 279 ∧ L = 7 ∧ code = sym - 256
      ∨ t = .fixedLL ∧ 280 ≤ sym ∧ sym ≤ 287 ∧ L = 8 ∧ code = 0b11000000 + (sym - 280)
      ∨ t = .fixedD ∧ sym ≤ 31 ∧ L = 5 ∧ code = sym) →
    (t = .fixedLL → fixedLLLengths.getD sym 0 = L ∧ canonicalCode fixedLLLengths sym = code)
      ∧ (t = .fixedD → fixedDLengths.getD sym 0 = L ∧ canonicalCode fixedDLengths sym = code)
      ∧ (codeAt s s.bitpos.toNat code L → s.bitpos.toNat + L ≤ 8 * s.srcLen.toNat →
        exec (.decodeSymbol t) s = .next (completed
          { s with result := BitVec.ofNat 32 sym, bitpos := BitVec.ofNat 32 (s.bitpos.toNat + L) }))

/-- A zero-filled slot decodes as symbol 0 and consumes the bits walked: with `TREE_D` built from one used symbol of
length 1, a stream bit 1 decodes as symbol 0; with all lengths 0, every decode returns 0 after one bit (R201, R208). -/
def Obligations.UnresolvedSlots : Prop :=
  ∀ (s : State) (len T : List Nat) (sym : Nat), Ready true s → Quiet s →
    len.length = 32 → buildTree len 32 15 = .ok T → tableAt (.ram .d) s = T → s.dValid = true →
    s.bitpos.toNat < 8 * s.srcLen.toNat →
    (len = (List.replicate 32 0).set sym 1 ∧ sym < 32 ∧ bitAt s s.bitpos.toNat = 1 ∨ len = List.replicate 32 0) →
    exec (.decodeSymbol (.ram .d)) s = .next (completed
      { s with result := 0#32, bitpos := BitVec.ofNat 32 (s.bitpos.toNat + 1) })

/-! ### The dynamic-tree reader -/

/-- `READ_DYN_TREES`: where the stream holds a dynamic tree header, the three tables it gives go to the tree RAMs, all
three valid bits are set, the cursor moves past the header, and nothing else changes (R230 to R239, R241). -/
def Obligations.ReadDynTrees : Prop :=
  ∀ (s : State) (T : DynTables) (q : Nat), Ready true s → Quiet s → dynTreesAt s T s.bitpos.toNat q →
    exec .readDynTrees s = .next (completed (withTrees T { s with bitpos := BitVec.ofNat 32 q }))

/-- Where the dynamic-tree reader fails: at a header field that does not fit; where the code-length tree does not build;
in the run-length loop at a symbol whose bits run out, at a repeat code that comes first, before its extra bits are read,
at extra bits that run out and at a run past the end of the array; at a missing end-of-block code; and where the
literal/length or the distance tree does not build. The cursor is that of the failing step, the trees built before it
stay, and a tree whose build failed is not valid and holds unspecified contents (R230 to R239, R202, R205). -/
def Obligations.ReadDynTreesFails : Prop :=
  ∀ (s : State) (c : Cause) (q : Nat) (k : TreeStage), Ready true s → Quiet s → dynFails s s.bitpos.toNat c q k →
    ∃ l d, l.length = k.size
      ∧ exec .readDynTrees s = .next (failedWith c { k.state l d s with bitpos := BitVec.ofNat 32 q })

/-! ### The copier and the block inflator -/

/-- `LZ_COPY`: the argument, distance and capacity checks in that order, then the copy in closed form, which equals the
byte-by-byte copy; the bytes at `DST_BASE + OUTPOS + k` change and no other (R258, R260, R262). -/
def Obligations.LzCopy : Prop :=
  ∀ s : State, Ready true s → Quiet s →
    (¬ (3 ≤ s.arg0.toNat ∧ s.arg0.toNat ≤ 258 ∧ 1 ≤ s.arg1.toNat ∧ s.arg1.toNat ≤ 32768) →
        exec .lzCopy s = .next (failedWith .argRange s))
      ∧ (3 ≤ s.arg0.toNat → s.arg0.toNat ≤ 258 → 1 ≤ s.arg1.toNat → s.arg1.toNat ≤ 32768 →
        (s.outpos.toNat < s.arg1.toNat → exec .lzCopy s = .next (failedWith .distTooFar s))
          ∧ (s.arg1.toNat ≤ s.outpos.toNat → s.dstCap.toNat < s.outpos.toNat + s.arg0.toNat →
            exec .lzCopy s = .next (failedWith .outputFull s))
          ∧ (s.arg1.toNat ≤ s.outpos.toNat → s.outpos.toNat + s.arg0.toNat ≤ s.dstCap.toNat →
            ∃ m, exec .lzCopy s = .next (completed
                { s with mem := m, outpos := BitVec.ofNat 32 (s.outpos.toNat + s.arg0.toNat) })
              ∧ (∀ k, k < s.arg0.toNat →
                m.read (s.dstBase.toNat + (s.outpos.toNat + k))
                    = s.mem.read (s.dstBase.toNat + (s.outpos.toNat - s.arg1.toNat + k % s.arg1.toNat))
                  ∧ m.read (s.dstBase.toNat + (s.outpos.toNat + k))
                    = m.read (s.dstBase.toNat + (s.outpos.toNat + k - s.arg1.toNat)))
              ∧ sameOutside s m s.outpos.toNat (s.outpos.toNat + s.arg0.toNat)))

/-- The block header: both fields are read before either is stored, and type 3 fails with no body bit read
(R250, R251). -/
def Obligations.BlockHeader : Prop :=
  ∀ s : State, Ready true s → Quiet s →
    (8 * s.srcLen.toNat < s.bitpos.toNat + 1 → exec .inflateBlock s = .next (failedWith .bitsExhausted s))
      ∧ (s.bitpos.toNat + 1 ≤ 8 * s.srcLen.toNat → 8 * s.srcLen.toNat < s.bitpos.toNat + 3 →
        exec .inflateBlock s
          = .next (failedWith .bitsExhausted { s with bitpos := BitVec.ofNat 32 (s.bitpos.toNat + 1) }))
      ∧ (s.bitpos.toNat + 3 ≤ 8 * s.srcLen.toNat → fieldAt s (s.bitpos.toNat + 1) 2 = 3 →
        exec .inflateBlock s = .next (failedWith .badBtype
          { s with
            bfinal := bitAt s s.bitpos.toNat == 1
            btype := 3#2
            bitpos := BitVec.ofNat 32 (s.bitpos.toNat + 3) }))

/-- A stored block: the cursor is aligned, then the four checks in their order, each at the aligned position, then `LEN`
bytes are copied to `DST_BASE + OUTPOS + k` and no other byte changes (R252). -/
def Obligations.StoredBlock : Prop :=
  ∀ (s u : State) (p len nlen : Nat), Ready true s → Quiet s →
    s.bitpos.toNat + 3 ≤ 8 * s.srcLen.toNat → fieldAt s (s.bitpos.toNat + 1) 2 = 0 →
    p = (s.bitpos.toNat + 3 + 7) / 8 → len = halfAt s p → nlen = halfAt s (p + 2) →
    u = { s with bfinal := bitAt s s.bitpos.toNat == 1, btype := 0#2, bitpos := BitVec.ofNat 32 (8 * p) } →
    (s.srcLen.toNat < p + 4 → exec .inflateBlock s = .next (failedWith .storedInput u))
      ∧ (p + 4 ≤ s.srcLen.toNat →
        (len + nlen ≠ 0xFFFF → exec .inflateBlock s = .next (failedWith .storedNlen u))
          ∧ (len + nlen = 0xFFFF →
            (s.srcLen.toNat < p + 4 + len → exec .inflateBlock s = .next (failedWith .storedInput u))
              ∧ (p + 4 + len ≤ s.srcLen.toNat →
                (s.dstCap.toNat < s.outpos.toNat + len → exec .inflateBlock s = .next (failedWith .outputFull u))
                  ∧ (s.outpos.toNat + len ≤ s.dstCap.toNat →
                    ∃ m, exec .inflateBlock s = .next (completed
                        { u with
                          mem := m
                          outpos := BitVec.ofNat 32 (s.outpos.toNat + len)
                          bitpos := BitVec.ofNat 32 (8 * (p + 4 + len))
                          streamEnd := bitAt s s.bitpos.toNat == 1 })
                      ∧ (∀ k, k < len →
                        m.read (s.dstBase.toNat + (s.outpos.toNat + k)) = srcByte s (p + 4 + k))
                      ∧ sameOutside s m s.outpos.toNat (s.outpos.toNat + len)))))

/-- Where a block fails: its header does not fit or has type 3; a check of a stored block fails; a dynamic tree header
fails; or, behind any number of tokens of a fixed or a dynamic body, the source ends within a code or within extra
bits, a literal or a back-reference meets a full output, a symbol is 286 or 287, a distance symbol is 30 or 31, before
any extra bit of it, or a distance lies before the start of the output. The bytes of the tokens before it are written and
no other, the cursors are those of the failing step, and the header stands in `STATUS` once it is read
(R205, R250 to R258, R261). -/
def Obligations.BlockFails : Prop :=
  ∀ (s : State) (f : BlockFailure), Ready true s → Quiet s →
    blockFails s s.dstCap.toNat (outSoFar s) s.bitpos.toNat f →
    ∃ m l d, l.length = f.trees.size ∧ exec .inflateBlock s = .next (failedWith f.cause (f.state l d m s))
      ∧ holdsOutput s m f.out ∧ sameOutside s m s.outpos.toNat f.out.length

/-- `INFLATE_BLOCK`: where the stream holds a stored, fixed or dynamic block that takes the output so far to `out'`, the
output region holds `out'`, the cursors are past the block and its output, `STATUS` holds its header and `STREAM_END`
its final-block flag, a dynamic block's trees stand in the RAMs, and nothing else changes: no other byte, no other
register (R250 to R260, R263). -/
def Obligations.InflateBlock : Prop :=
  ∀ (s : State) (final : Bool) (b : Block) (out' : List Byte) (q : Nat), Ready true s → Quiet s →
    blockAt s s.dstCap.toNat (outSoFar s) s.bitpos.toNat final b out' q →
    ∃ m, exec .inflateBlock s = .next (completed
        { b.trees s with
          mem := m
          outpos := BitVec.ofNat 32 out'.length
          bitpos := BitVec.ofNat 32 q
          bfinal := final
          btype := BitVec.ofNat 2 b.btype
          streamEnd := final })
      ∧ holdsOutput s m out' ∧ sameOutside s m s.outpos.toNat out'.length
      ∧ out'.length ≤ s.dstCap.toNat ∧ q ≤ 8 * s.srcLen.toNat

/-! ### The stream inflator -/

/-- The zlib header: a stream starts at both cursors 0 with `STREAM_END` clear, the checks come in the order of the rule,
for `ZLIB_HEADER` and for `INFLATE_ZLIB` alike, and a valid header leaves `BITPOS` 16 (R131, R280). -/
def Obligations.ZlibHeader : Prop :=
  ∀ (s u : State) (cmf flg : Nat), Ready false s → Quiet s →
    u = { s with bitpos := 0#32, outpos := 0#32, streamEnd := false } →
    cmf = (srcByte s 0).toNat → flg = (srcByte s 1).toNat →
    (∀ i, i = .zlibHeader ∨ i = .inflateZlib →
      (s.srcLen.toNat < 2 → exec i s = .next (failedWith .bitsExhausted u))
        ∧ (2 ≤ s.srcLen.toNat →
          ((cmf * 256 + flg) % 31 ≠ 0 → exec i s = .next (failedWith .zlibFcheck u))
            ∧ ((cmf * 256 + flg) % 31 = 0 →
              (cmf % 16 ≠ 8 → exec i s = .next (failedWith .zlibMethod u))
                ∧ (cmf % 16 = 8 →
                  (7 < cmf / 16 → exec i s = .next (failedWith .zlibWindow u))
                    ∧ (cmf / 16 ≤ 7 → flg / 32 % 2 = 1 → exec i s = .next (failedWith .zlibFdict u))))))
      ∧ (2 ≤ s.srcLen.toNat → (cmf * 256 + flg) % 31 = 0 → cmf % 16 = 8 → cmf / 16 ≤ 7 → flg / 32 % 2 = 0 →
        exec .zlibHeader s = .next (completed { u with bitpos := 16#32 }))

/-- `INFLATE_ZLIB`: where the source holds a valid header and then blocks, the last one and no other final, that give the
output `out`, the output region holds `out` from its start, `OUTPOS` is its length, `BITPOS` the bit after the final
block, `STREAM_END` is 1, and no byte outside those of `out` changes (R280, R282, R283). -/
def Obligations.InflateZlib : Prop :=
  ∀ (s : State) (bs : List Block) (out : List Byte) (q : Nat), Ready false s → Quiet s → headerValid s →
    blocksAt s s.dstCap.toNat [] 16 bs out q →
    ∃ m, exec .inflateZlib s = .next (completed
        { blocksTrees bs s with
          mem := m
          outpos := BitVec.ofNat 32 out.length
          bitpos := BitVec.ofNat 32 q
          bfinal := true
          btype := BitVec.ofNat 2 (lastBtype bs)
          streamEnd := true })
      ∧ holdsOutput s m out ∧ sameOutside s m 0 out.length
      ∧ out.length ≤ s.dstCap.toNat ∧ q ≤ 8 * s.srcLen.toNat

/-- The trailer is not read: two sources that agree on the header and the blocks give the same output, whatever stands
behind the final block (R283, R284). -/
def Obligations.TrailerIgnored : Prop :=
  ∀ (s s' : State) (m' : Memory) (bs : List Block) (out : List Byte) (q : Nat), Ready false s → Quiet s →
    headerValid s → blocksAt s s.dstCap.toNat [] 16 bs out q → s' = { s with mem := m' } →
    (∀ i, i < (q + 7) / 8 → srcByte s' i = srcByte s i) →
    ∃ t t', exec .inflateZlib s = .next t ∧ exec .inflateZlib s' = .next t'
      ∧ t'.bitpos = t.bitpos ∧ t'.outpos = t.outpos ∧ t'.phase = .idle ∧ t.phase = .idle ∧ SameTrees t t'
      ∧ ∀ k, k < out.length → outByte t' k = outByte t k

/-! ### The unfilter -/

/-- The Paeth predictor picks the first of left, above and upper-left whose distance from `left + above - upper-left` is
least; the arithmetic is exact (R300). -/
def Obligations.PaethMinimises : Prop :=
  (∀ a b c : Nat, a ≤ 255 → b ≤ 255 → c ≤ 255 →
      ∃ k, k < 3 ∧ paeth a b c = [a, b, c].getD k 0
        ∧ (∀ j, j < 3 → ((a : Int) + b - c - [a, b, c].getD k 0).natAbs ≤ ((a : Int) + b - c - [a, b, c].getD j 0).natAbs)
        ∧ ∀ j, j < k → ((a : Int) + b - c - [a, b, c].getD k 0).natAbs < ((a : Int) + b - c - [a, b, c].getD j 0).natAbs)
    ∧ paeth 100 0 200 = 0

/-- `PAETH`: the predictor of the three low bytes of `ARG0` goes zero-extended to `RESULT`, its top byte is ignored, no
region is checked, and nothing else changes (R301). -/
def Obligations.Paeth : Prop :=
  (∀ s : State, exec .paeth s = .next (completed
      { s with
        result := BitVec.ofNat 32
          (paeth (s.arg0.toNat % 256) (s.arg0.toNat / 256 % 256) (s.arg0.toNat / 65536 % 256)) }))
    ∧ (∀ x, paeth x x x = x) ∧ (∀ a, paeth a 0 0 = a) ∧ ∀ b, paeth 0 b 0 = b

/-- The checks of the unfilter commands, in their order (R302, R306, R307). -/
def Obligations.UnfilterFails : Prop :=
  ∀ s : State, Ready false s → Quiet s →
    (∀ i, i = .unfilterLine ∨ i = .unfilterImage →
      (s.unfBpp.toNat = 0 ∨ 64 < s.unfBpp.toNat → exec i s = .next (failedWith .argRange s))
        ∧ (1 ≤ s.unfBpp.toNat → s.unfBpp.toNat ≤ 64 →
          s.srcLen.toNat < s.unfHeight.toNat * (lbOf s + 1) ∨ s.dstCap.toNat < s.unfHeight.toNat * lbOf s →
          exec i s = .next (failedWith .unfSize s)))
      ∧ (geometryValid s →
        (s.unfHeight.toNat ≤ s.arg0.toNat → exec .unfilterLine s = .next (failedWith .argRange s))
          ∧ (s.arg0.toNat < s.unfHeight.toNat → lbOf s ≠ 0 → 4 < filterOf s s.arg0.toNat →
            exec .unfilterLine s = .next (failedAtLine s.arg0.toNat (lbOf s) s)))

/-- `UNFILTER_LINE`: every byte of line `ARG0`, at `DST_BASE + y * LB + i`, is its filtered byte plus the prediction from
its neighbours modulo 256, and no other byte and no other state changes. A line of no bytes is done with its filter byte
unread, which is the model's reading (log entry 14) (R303 to R307). -/
def Obligations.UnfilterLine : Prop :=
  ∀ s : State, Ready false s → Quiet s → geometryValid s → s.arg0.toNat < s.unfHeight.toNat →
    (lbOf s = 0 ∨ filterOf s s.arg0.toNat ≤ 4) →
    ∃ m, exec .unfilterLine s = .next (completed { s with mem := m })
      ∧ (∀ i, i < lbOf s → reconstructed s m s.arg0.toNat i)
      ∧ sameOutside s m (s.arg0.toNat * lbOf s) (s.arg0.toNat * lbOf s + lbOf s)

/-- `UNFILTER_IMAGE`: every byte of every line is reconstructed from this command's own output, and no other byte and no
other state changes; a bad filter byte leaves the lines above it reconstructed and writes nothing of its own line or
below (R304 to R306, R308). -/
def Obligations.UnfilterImage : Prop :=
  ∀ s : State, Ready false s → Quiet s → geometryValid s →
    ((lbOf s = 0 ∨ ∀ y, y < s.unfHeight.toNat → filterOf s y ≤ 4) →
        ∃ m, exec .unfilterImage s = .next (completed { s with mem := m })
          ∧ (∀ y i, y < s.unfHeight.toNat → i < lbOf s → reconstructed s m y i)
          ∧ sameOutside s m 0 (s.unfHeight.toNat * lbOf s))
      ∧ ∀ y, lbOf s ≠ 0 → y < s.unfHeight.toNat → (∀ z, z < y → filterOf s z ≤ 4) → 4 < filterOf s y →
        ∃ m, exec .unfilterImage s = .next (failedAtLine y (lbOf s) { s with mem := m })
          ∧ (∀ z i, z < y → i < lbOf s → reconstructed s m z i)
          ∧ sameOutside s m 0 (y * lbOf s)

/-! ### Frames -/

/-- The frame of every command, on completion and on failure: it writes none of `SRC_*`, `DST_*`, `ARG0`, `ARG1`, `UNF_*`,
`LENRAM`, `CTRL`, `CMD` and `WIGN`, nothing of the host or the platform, and no byte of host memory outside the output
region (R93, R175); the model's field `merging` is as before. -/
def Obligations.CommandFrame : Prop :=
  ∀ (i : Instr) (s t : State), exec i s = .next t →
    SameOperands s t ∧ WritesOnlyOutput s t ∧ t.merging = s.merging

/-- Which bytes a command can have stored, on completion and on failure: none for the commands that store nothing; for the
storing ones, those of the copy, of the output from `OUTPOS` on, of the whole output, of line `ARG0`, and of the image.
Every other byte reads as before. -/
def Obligations.StoredBytes : Prop :=
  ∀ s t : State,
    (∀ i, i = .nop ∨ (∃ n, i = .readBits n) ∨ (∃ r, i = .buildTree r) ∨ (∃ r, i = .decodeSymbol r)
        ∨ i = .readDynTrees ∨ i = .zlibHeader ∨ i = .paeth → exec i s = .next t → SameBytes s t)
      ∧ (exec .lzCopy s = .next t → sameOutside s t.mem s.outpos.toNat (s.outpos.toNat + s.arg0.toNat))
      ∧ (exec .inflateBlock s = .next t → sameOutside s t.mem s.outpos.toNat s.dstCap.toNat)
      ∧ (exec .inflateZlib s = .next t → sameOutside s t.mem 0 s.dstCap.toNat)
      ∧ (exec .unfilterLine s = .next t →
        sameOutside s t.mem (s.arg0.toNat * lbOf s) (s.arg0.toNat * lbOf s + lbOf s))
      ∧ (exec .unfilterImage s = .next t → sameOutside s t.mem 0 (s.unfHeight.toNat * lbOf s))

/-- What a command leaves of `RESULT`, of the trees and of `STATUS`: only `READ_BITS`, `DECODE_SYMBOL` and `PAETH` write
`RESULT`, and only when they complete; only `BUILD_TREE`, for its own tree, `READ_DYN_TREES`, `INFLATE_BLOCK` and
`INFLATE_ZLIB` write a tree RAM or a valid bit; only the last two write `BFINAL` and `BTYPE`, and with `ZLIB_HEADER`
they alone write `STREAM_END` (R36 to R38, R53, R60 to R62). -/
def Obligations.RegistersKept : Prop :=
  ∀ (i : Instr) (s t : State), exec i s = .next t →
    (t.phase = .failed ∨ (∀ n, i ≠ .readBits n) ∧ (∀ r, i ≠ .decodeSymbol r) ∧ i ≠ .paeth → t.result = s.result)
      ∧ (i ≠ .readDynTrees → i ≠ .inflateBlock → i ≠ .inflateZlib →
        (i ≠ .buildTree .ll → t.llValid = s.llValid ∧ t.treeLL = s.treeLL)
          ∧ (i ≠ .buildTree .d → t.dValid = s.dValid ∧ t.treeD = s.treeD)
          ∧ (i ≠ .buildTree .cl → t.clValid = s.clValid ∧ t.treeCL = s.treeCL))
      ∧ (i ≠ .inflateBlock → i ≠ .inflateZlib →
        t.bfinal = s.bfinal ∧ t.btype = s.btype ∧ (i ≠ .zlibHeader → t.streamEnd = s.streamEnd))

/-- The cursors: no command moves `BITPOS` back but the two that start a stream; the commands that read no stream leave
it; only the block and copy commands and the stream start move `OUTPOS`, on completion forward; and an inflate-side
command that completes leaves both cursors in their regions (R49, R50). -/
def Obligations.Cursors : Prop :=
  ∀ (i : Instr) (s t : State), exec i s = .next t →
    (i ≠ .zlibHeader → i ≠ .inflateZlib → s.bitpos.toNat ≤ t.bitpos.toNat)
      ∧ (i = .nop ∨ (∃ r, i = .buildTree r) ∨ i = .lzCopy ∨ i = .paeth ∨ i = .unfilterLine ∨ i = .unfilterImage →
        t.bitpos = s.bitpos)
      ∧ (t.phase = .idle → i ≠ .zlibHeader → i ≠ .inflateZlib → s.outpos.toNat ≤ t.outpos.toNat)
      ∧ (t.phase = .idle → i ≠ .zlibHeader → i ≠ .inflateZlib → i ≠ .inflateBlock → i ≠ .lzCopy →
        t.outpos = s.outpos)
      ∧ (t.phase = .idle → checksRegions i = some true ∨ i = .zlibHeader ∨ i = .inflateZlib →
        t.bitpos.toNat ≤ 8 * s.srcLen.toNat ∧ t.outpos.toNat ≤ s.dstCap.toNat)

/-! ### Invariant -/

/-- The invariant holds after reset. -/
def Obligations.InvReset : Prop := Inv State.reset

/-- Every step keeps the invariant: host memory in canonical form, the RAMs at their sizes, every entry of a valid tree at
most `2N - 2`, no stored failure outside `FAILED`, and inside it the one kind and a cause that is not
`TREE_WALK_CORRUPT`, and no run of merged accesses left over (R41, R42, R59, R205, R331, R338). -/
def Obligations.InvStep : Prop := ∀ s t : State, Inv s → step s = .next t → Inv t

/-! ### Streams that fail -/

/-- Where `INFLATE_ZLIB` fails behind a valid header: some blocks, none of them final, and then one that fails. The output
of the blocks before it and of its own tokens is written and no other byte, the cursors are those of the failing step,
and `STATUS` and the trees hold what those blocks leave (R253, R280, R282, R333). -/
def Obligations.StreamFails : Prop :=
  ∀ (s : State) (bs : List Block) (out : List Byte) (p : Nat) (f : BlockFailure), Ready false s → Quiet s →
    headerValid s → blocksTo s s.dstCap.toNat [] 16 bs out p → blockFails s s.dstCap.toNat out p f →
    ∃ m l d, l.length = f.trees.size
      ∧ exec .inflateZlib s = .next (failedWith f.cause (f.state l d m (midStream bs s)))
      ∧ holdsOutput s m f.out ∧ sameOutside s m 0 f.out.length

end Statements
end

