-- ==== Sys2Proof/Laws/Memory.lean ====
section
/-! SUPPORT. Host memory: what a byte reads as after a write, that every operation keeps the canonical form, and
that memories in canonical form with the same bytes are the same list. -/

namespace Sys2Proof
namespace Machine

@[simp] theorem Memory.read_nil (a : Nat) : Memory.read [] a = Memory.unlisted := rfl

theorem Memory.read_erase (m : Memory) (a b : Nat) :
    (m.erase a).read b = if b = a then Memory.unlisted else m.read b := by
  induction m with
  | nil => simp [Memory.erase, Memory.read]
  | cons c m ih =>
    obtain ⟨k, v⟩ := c
    simp only [Memory.erase] at ih
    by_cases hk : k = a
    · subst hk
      by_cases hb : b = k
      · subst hb; simpa [Memory.erase, Memory.read] using ih
      · simp [Memory.erase, Memory.read, hb, Ne.symm hb] at ih ⊢; exact ih
    · by_cases hb : k = b
      · subst hb; simp [Memory.erase, Memory.read, hk]
      · simp [Memory.erase, Memory.read, hk, hb] at ih ⊢; exact ih

theorem Memory.not_mem_erase (m : Memory) (a : Nat) : ∀ c ∈ m.erase a, c.1 ≠ a := by
  simp [Memory.erase]

theorem Memory.read_insert {m : Memory} {a : Nat} (h : ∀ c ∈ m, c.1 ≠ a) (v : Byte) (b : Nat) :
    Memory.read (Memory.insert a v m) b = if b = a then v else m.read b := by
  induction m with
  | nil => by_cases hb : b = a <;> simp [Memory.insert, Memory.read, hb, Ne.symm]
  | cons c m ih =>
    obtain ⟨k, w⟩ := c
    have hk : k ≠ a := h (k, w) (by simp)
    have hm := ih fun c hc => h c (by simp [hc])
    by_cases hlt : a < k
    · by_cases hb : b = a <;> simp [Memory.insert, Memory.read, hlt, hb, Ne.symm]
    · by_cases hb : k = b
      · subst hb; simp [Memory.insert, Memory.read, hlt, hk]
      · simp [Memory.insert, Memory.read, hlt, hb, hm]

/-- Read after write: the byte written, and no other. -/
@[simp] theorem Memory.read_write (m : Memory) (a b : Nat) (v : Byte) :
    (m.write a v).read b = if b = a then v else m.read b := by
  by_cases hv : v = Memory.unlisted
  · simp [Memory.write, hv, Memory.read_erase]
  · simp [Memory.write, hv, Memory.read_insert (Memory.not_mem_erase m a), Memory.read_erase]
    split <;> rfl

theorem Memory.wf_cons {k : Nat} {v : Byte} {m : Memory} :
    Memory.wf ((k, v) :: m) = true ↔
      k < Config.addrSpace ∧ v ≠ Memory.unlisted ∧ (∀ c ∈ m, k < c.1) ∧ m.wf = true := by
  simp [Memory.wf, and_assoc]

theorem Memory.wf_erase {m : Memory} (h : m.wf = true) (a : Nat) : (m.erase a).wf = true := by
  induction m with
  | nil => rfl
  | cons c m ih =>
    obtain ⟨k, v⟩ := c
    obtain ⟨h1, h2, h3, h4⟩ := Memory.wf_cons.1 h
    have hm := ih h4
    simp only [Memory.erase] at hm ⊢
    by_cases hk : k = a
    · simpa [hk] using hm
    · simp only [List.filter_cons, bne_iff_ne, ne_eq, hk, not_false_eq_true, if_true]
      exact Memory.wf_cons.2 ⟨h1, h2, fun c hc => h3 c (List.mem_filter.1 hc).1, hm⟩

theorem Memory.mem_insert {m : Memory} {a : Nat} {v : Byte} {c : Host.Cell} (h : c ∈ Memory.insert a v m) :
    c = (a, v) ∨ c ∈ m := by
  induction m with
  | nil => simpa [Memory.insert] using h
  | cons d m ih =>
    obtain ⟨k, w⟩ := d
    by_cases hlt : a < k
    · simpa [Memory.insert, hlt] using h
    · simp only [Memory.insert, hlt, if_false, List.mem_cons] at h
      rcases h with h | h
      · simp [h]
      · rcases ih h with h | h <;> simp [h]

theorem Memory.wf_insert {m : Memory} (h : m.wf = true) {a : Nat} {v : Byte} (ha : a < Config.addrSpace)
    (hv : v ≠ Memory.unlisted) (hn : ∀ c ∈ m, c.1 ≠ a) : Memory.wf (Memory.insert a v m) = true := by
  induction m with
  | nil => exact Memory.wf_cons.2 ⟨ha, hv, by simp, rfl⟩
  | cons c m ih =>
    obtain ⟨k, w⟩ := c
    obtain ⟨h1, h2, h3, h4⟩ := Memory.wf_cons.1 h
    have hk : k ≠ a := hn (k, w) (by simp)
    by_cases hlt : a < k
    · simp only [Memory.insert, hlt, if_true]
      refine Memory.wf_cons.2 ⟨ha, hv, fun c hc => ?_, h⟩
      rcases List.mem_cons.1 hc with rfl | hc
      · exact hlt
      · exact Nat.lt_trans hlt (h3 c hc)
    · simp only [Memory.insert, hlt, if_false]
      refine Memory.wf_cons.2 ⟨h1, h2, fun c hc => ?_, ih h4 fun c hc => hn c (by simp [hc])⟩
      rcases Memory.mem_insert hc with rfl | hc
      · show k < a; omega
      · exact h3 c hc

/-- A write in the address space keeps the canonical form. -/
theorem Memory.wf_write {m : Memory} (h : m.wf = true) {a : Nat} (ha : a < Config.addrSpace) (v : Byte) :
    (m.write a v).wf = true := by
  by_cases hv : v = Memory.unlisted
  · simpa [Memory.write, hv] using Memory.wf_erase h a
  · simpa [Memory.write, hv] using Memory.wf_insert (Memory.wf_erase h a) ha hv (Memory.not_mem_erase m a)

/-- Every address listed in a canonical memory lies in the address space. -/
theorem Memory.lt_of_wf {m : Memory} (h : m.wf = true) : ∀ c ∈ m, c.1 < Config.addrSpace := by
  induction m with
  | nil => simp
  | cons c m ih =>
    obtain ⟨h1, _, _, h4⟩ := Memory.wf_cons.1 h
    intro d hd
    rcases List.mem_cons.1 hd with rfl | hd
    · exact h1
    · exact ih h4 d hd

theorem Memory.read_below {m : Memory} {a : Nat} (h : ∀ c ∈ m, a < c.1) : m.read a = Memory.unlisted := by
  induction m with
  | nil => rfl
  | cons c m ih =>
    have hc : c.1 ≠ a := Nat.ne_of_gt (h c (by simp))
    simpa [Memory.read, hc] using ih fun d hd => h d (by simp [hd])

/-- Equal memories are equal data: in canonical form the bytes determine the list. -/
theorem Memory.eq_of_read {m n : Memory} (hm : m.wf = true) (hn : n.wf = true)
    (h : ∀ a, m.read a = n.read a) : m = n := by
  induction m generalizing n with
  | nil =>
    cases n with
    | nil => rfl
    | cons c n =>
      obtain ⟨_, h2, _, _⟩ := Memory.wf_cons.1 hn
      exact absurd (by simpa [Memory.read] using (h c.1).symm) h2
  | cons c m ih =>
    obtain ⟨k, v⟩ := c
    obtain ⟨_, h2, h3, h4⟩ := Memory.wf_cons.1 hm
    cases n with
    | nil => exact absurd (by simpa [Memory.read] using h k) h2
    | cons d n =>
      obtain ⟨l, w⟩ := d
      obtain ⟨_, g2, g3, g4⟩ := Memory.wf_cons.1 hn
      have hkl : k = l := by
        rcases Nat.lt_trichotomy k l with hlt | rfl | hlt
        · have := h k
          rw [Memory.read_below (m := (l, w) :: n) fun c hc => by
            rcases List.mem_cons.1 hc with rfl | hc
            · exact hlt
            · exact Nat.lt_trans hlt (g3 c hc)] at this
          exact absurd (by simpa [Memory.read] using this) h2
        · rfl
        · have := h l
          rw [Memory.read_below (m := (k, v) :: m) fun c hc => by
            rcases List.mem_cons.1 hc with rfl | hc
            · exact hlt
            · exact Nat.lt_trans hlt (h3 c hc)] at this
          exact absurd (by simpa [Memory.read] using this.symm) g2
      subst hkl
      have hvw : v = w := by simpa [Memory.read] using h k
      subst hvw
      congr 1
      refine ih h4 g4 fun a => ?_
      by_cases hka : k = a
      · subst hka; rw [Memory.read_below h3, Memory.read_below g3]
      · simpa [Memory.read, hka] using h a

end Machine
end Sys2Proof
end

