-- ==== Sys2Proof/Laws/State.lean ====
section
/-! SUPPORT. The field lemmas of the updates that `simps` does not generate at their definitions, and what each
small update keeps. -/

namespace Sys2Proof
namespace Machine

theorem SameOperands.refl (s : State) : SameOperands s s := by constructor <;> rfl

theorem SameOperands.trans {s t u : State} (h : SameOperands s t) (k : SameOperands t u) : SameOperands s u := by
  constructor
  · exact k.irqEn.trans h.irqEn
  · exact k.wign.trans h.wign
  · exact k.cmd.trans h.cmd
  · exact k.srcBase.trans h.srcBase
  · exact k.srcLen.trans h.srcLen
  · exact k.dstBase.trans h.dstBase
  · exact k.dstCap.trans h.dstCap
  · exact k.arg0.trans h.arg0
  · exact k.arg1.trans h.arg1
  · exact k.unfWidth.trans h.unfWidth
  · exact k.unfHeight.trans h.unfHeight
  · exact k.unfBpp.trans h.unfBpp
  · exact k.lenram.trans h.lenram
  · exact k.portData.trans h.portData
  · exact k.memData.trans h.memData
  · exact k.inputs.trans h.inputs
  · exact k.regPage.trans h.regPage
  · exact k.busErrors.trans h.busErrors
  · exact k.merges.trans h.merges
  · exact k.errsRead.trans h.errsRead
  · exact k.errsWrite.trans h.errsWrite
  · exact k.devices.trans h.devices
  · exact k.rivals.trans h.rivals
  · exact k.raced.trans h.raced
  · exact k.hostDraws.trans h.hostDraws

theorem SameTrees.refl (s : State) : SameTrees s s := by constructor <;> rfl

theorem SameTrees.trans {s t u : State} (h : SameTrees s t) (k : SameTrees t u) : SameTrees s u := by
  constructor
  · exact k.llValid.trans h.llValid
  · exact k.dValid.trans h.dValid
  · exact k.clValid.trans h.clValid
  · exact k.treeLL.trans h.treeLL
  · exact k.treeD.trans h.treeD
  · exact k.treeCL.trans h.treeCL

theorem SameBlockStatus.refl (s : State) : SameBlockStatus s s := by constructor <;> rfl

theorem SameBlockStatus.trans {s t u : State} (h : SameBlockStatus s t) (k : SameBlockStatus t u) :
    SameBlockStatus s u :=
  ⟨k.bfinal.trans h.bfinal, k.btype.trans h.btype, k.streamEnd.trans h.streamEnd⟩

theorem SameError.refl (s : State) : SameError s s := by constructor <;> rfl

theorem SameError.trans {s t u : State} (h : SameError s t) (k : SameError t u) : SameError s u :=
  ⟨k.errKind.trans h.errKind, k.errCause.trans h.errCause, k.errBitpos.trans h.errBitpos,
    k.errOutpos.trans h.errOutpos⟩

/-- What every procedure of a command leaves to its caller: operands, the stored failure, `RESULT` and the
lifecycle. Only the end of the command writes the last four. -/
structure ProcKeeps (s t : State) : Prop where
  operands : SameOperands s t
  error : SameError s t
  phase : t.phase = s.phase
  done : t.done = s.done
  err : t.err = s.err
  result : t.result = s.result

theorem ProcKeeps.refl (s : State) : ProcKeeps s s := ⟨.refl s, .refl s, rfl, rfl, rfl, rfl⟩

theorem ProcKeeps.trans {s t u : State} (h : ProcKeeps s t) (k : ProcKeeps t u) : ProcKeeps s u :=
  ⟨h.operands.trans k.operands, h.error.trans k.error, k.phase.trans h.phase, k.done.trans h.done,
    k.err.trans h.err, k.result.trans h.result⟩

theorem procKeeps_setBitpos (p : Nat) (s : State) : ProcKeeps s (s.setBitpos p) := by
  refine ⟨?_, ?_, rfl, rfl, rfl, rfl⟩ <;> constructor <;> rfl

theorem procKeeps_setOutpos (p : Nat) (s : State) : ProcKeeps s (s.setOutpos p) := by
  refine ⟨?_, ?_, rfl, rfl, rfl, rfl⟩ <;> constructor <;> rfl

theorem procKeeps_setMem (m : Memory) (s : State) : ProcKeeps s (s.setMem m) := by
  refine ⟨?_, ?_, rfl, rfl, rfl, rfl⟩ <;> constructor <;> rfl

theorem procKeeps_tick (s : State) : ProcKeeps s s.tick := by
  refine ⟨?_, ?_, rfl, rfl, rfl, rfl⟩ <;> constructor <;> rfl

theorem procKeeps_setMerging (x : Option Merging) (s : State) : ProcKeeps s (s.setMerging x) := by
  refine ⟨?_, ?_, rfl, rfl, rfl, rfl⟩ <;> constructor <;> rfl

theorem procKeeps_setHeader (f b : Nat) (s : State) : ProcKeeps s (s.setHeader f b) := by
  refine ⟨?_, ?_, rfl, rfl, rfl, rfl⟩ <;> constructor <;> rfl

theorem procKeeps_setStreamEnd (b : Bool) (s : State) : ProcKeeps s (s.setStreamEnd b) := by
  refine ⟨?_, ?_, rfl, rfl, rfl, rfl⟩ <;> constructor <;> rfl

theorem procKeeps_setValid (t : RamTree) (b : Bool) (s : State) : ProcKeeps s (s.setValid t b) := by
  refine ⟨?_, ?_, rfl, rfl, rfl, rfl⟩ <;> constructor <;> rfl

theorem procKeeps_setTable (t : RamTree) (l : List (BitVec 10)) (s : State) : ProcKeeps s (s.setTable t l) := by
  refine ⟨?_, ?_, rfl, rfl, rfl, rfl⟩ <;> constructor <;> rfl

theorem procKeeps_spoilTable (t : RamTree) (s : State) : ProcKeeps s (spoilTable t s) :=
  (procKeeps_setTable _ _ _).trans (procKeeps_tick _)

theorem sameTrees_setBitpos (p : Nat) (s : State) : SameTrees s (s.setBitpos p) := by constructor <;> rfl
theorem sameTrees_setOutpos (p : Nat) (s : State) : SameTrees s (s.setOutpos p) := by constructor <;> rfl
theorem sameTrees_setMem (m : Memory) (s : State) : SameTrees s (s.setMem m) := by constructor <;> rfl
theorem sameTrees_tick (s : State) : SameTrees s s.tick := by constructor <;> rfl
theorem sameTrees_setMerging (x : Option Merging) (s : State) : SameTrees s (s.setMerging x) := by constructor <;> rfl

theorem sameBlockStatus_setBitpos (p : Nat) (s : State) : SameBlockStatus s (s.setBitpos p) := by
  constructor <;> rfl
theorem sameBlockStatus_setOutpos (p : Nat) (s : State) : SameBlockStatus s (s.setOutpos p) := by
  constructor <;> rfl
theorem sameBlockStatus_setMem (m : Memory) (s : State) : SameBlockStatus s (s.setMem m) := by
  constructor <;> rfl
theorem sameBlockStatus_tick (s : State) : SameBlockStatus s s.tick := by constructor <;> rfl

@[simp] theorem setMerging_self (s : State) : s.setMerging s.merging = s := rfl

/-! ### Settling races -/

@[simp] theorem settleRaces_raced (s : State) : (settleRaces s).raced = [] := rfl

/-- Without races nothing is settled. -/
theorem settleRaces_of_quiet {s : State} (h : s.raced = []) : settleRaces s = s := by
  cases s; simp_all [settleRaces, settleBytes]

/-! ### The fetch word -/

@[simp] theorem withFetchWord_cmd (s : State) (n w : Nat) :
    (s.withFetchWord n w).cmd = BitVec.ofNat 32 (w % 2 ^ n) := rfl

@[simp] theorem withFetchWord_phase (s : State) (n w : Nat) : (s.withFetchWord n w).phase = .busy := rfl

@[simp] theorem withFetchWord_inputs (s : State) (n w : Nat) :
    (s.withFetchWord n w).inputs = .wait :: s.inputs := rfl

@[simp] theorem withFetchWord_mem (s : State) (n w : Nat) : (s.withFetchWord n w).mem = s.mem := rfl

@[simp] theorem blockMoves_withFetchWord (s : State) (n w : Nat) : blockMoves (s.withFetchWord n w) = true := rfl

end Machine
end Sys2Proof
end

