-- ==== Sys2Proof/Laws/Ops.lean ====
section
/-! SUPPORT. What the shared operations of `Machine/Ops.lean` can do: how procedures compose, what an access
does when it is quiet, and the region check. -/

namespace Sys2Proof
namespace Machine

/-! ### Composition -/

@[simp] theorem Res.andThen_ok {α β : Type} (a : α) (s : State) (f : α → State → Res β) :
    (Res.ok a s).andThen f = f a s := rfl

@[simp] theorem Res.andThen_fail {α β : Type} (x : Failure) (s : State) (f : α → State → Res β) :
    (Res.fail x s).andThen f = .fail x s := rfl

@[simp] theorem Res.andThen_refuse {α β : Type} (x : Refusal) (f : α → State → Res β) :
    (Res.refuse x : Res α).andThen f = .refuse x := rfl

@[simp] theorem raise_andThen {α β : Type} (c : Cause) (s : State) (f : α → State → Res β) :
    (raise c s : Res α).andThen f = raise c s := rfl

theorem Res.andThen_assoc {α β γ : Type} (r : Res α) (f : α → State → Res β) (g : β → State → Res γ) :
    (r.andThen f).andThen g = r.andThen fun a s => (f a s).andThen g := by
  cases r <;> rfl

theorem Res.andThen_eq_ok {α β : Type} {r : Res α} {f : α → State → Res β} {b : β} {t : State}
    (h : r.andThen f = .ok b t) : ∃ a s, r = .ok a s ∧ f a s = .ok b t := by
  cases r with
  | ok a s => exact ⟨a, s, rfl, h⟩
  | fail x s => exact nomatch h
  | refuse x => exact nomatch h

/-- Where a procedure ends, by return or by failure, the state satisfies `P`. -/
def Res.Ensures {α : Type} (P : State → Prop) : Res α → Prop
  | .ok _ s => P s
  | .fail _ s => P s
  | .refuse _ => True

@[simp] theorem Res.ensures_ok {α : Type} (P : State → Prop) (a : α) (s : State) :
    (Res.ok a s).Ensures P ↔ P s := Iff.rfl

@[simp] theorem Res.ensures_fail {α : Type} (P : State → Prop) (f : Failure) (s : State) :
    (Res.fail f s : Res α).Ensures P ↔ P s := Iff.rfl

@[simp] theorem ensures_raise {α : Type} (P : State → Prop) (c : Cause) (s : State) :
    (raise c s : Res α).Ensures P ↔ P s := Iff.rfl

theorem Res.Ensures.mono {α : Type} {P Q : State → Prop} {r : Res α} (h : r.Ensures P)
    (hPQ : ∀ s, P s → Q s) : r.Ensures Q := by
  cases r with
  | ok a s => exact hPQ s h
  | fail x s => exact hPQ s h
  | refuse x => trivial

/-- A procedure after another, through a reflexive and transitive relation on states. -/
theorem Res.Ensures.andThen {α β : Type} {R : State → State → Prop} {s : State} {r : Res α}
    {f : α → State → Res β} (htrans : ∀ {s t u}, R s t → R t u → R s u) (h : r.Ensures (R s))
    (hf : ∀ a t, R s t → r = .ok a t → (f a t).Ensures (R t)) : (r.andThen f).Ensures (R s) := by
  cases r with
  | ok a t => exact (hf a t h rfl).mono fun u hu => htrans h hu
  | fail x t => exact h
  | refuse x => trivial

/-! ### DMA -/

/-- What a bus access can do: nothing, or one draw and a note of the access. -/
theorem busAccess_ensures (write : Bool) (a : Nat) (s : State) :
    (busAccess write a s).Ensures fun t => t = s ∨ ∃ x, t = s.tick.setMerging x := by
  have self : s.tick = s.tick.setMerging s.merging := rfl
  unfold busAccess; split
  · split
    · split <;> exact .inr ⟨_, self⟩
    · split
      · exact .inr ⟨_, self⟩
      · exact .inr ⟨_, rfl⟩
  · exact .inl rfl

theorem busAccess_quiet {s : State} (h : s.busErrors = false) (write : Bool) (a : Nat) :
    busAccess write a s = .ok false s := by simp [busAccess, h]

theorem rivalWrites_apart {s : State} (h : rivalsApart s = true) (a : Nat) : rivalWrites s a = false := by
  simp only [rivalsApart, List.all_eq_true, Bool.not_eq_true'] at h
  simp only [rivalWrites, List.any_eq_false, Bool.and_eq_true, not_and]
  intro r hr hc; simp [h r hr] at hc

theorem rivalTouches_apart {s : State} (h : rivalsApart s = true) (a : Nat) : rivalTouches s a = false := by
  simp only [rivalsApart, List.all_eq_true, Bool.not_eq_true'] at h
  simp only [rivalTouches, List.any_eq_false, Bool.and_eq_true, not_and]
  intro r hr hc; simp [h r hr] at hc

theorem dmaRead_quiet {s : State} (h : Quiet s) (a : Nat) : dmaRead a s = .ok (s.mem.read a) s := by
  simp [dmaRead, busAccess_quiet h.1, h.2.1, rivalWrites_apart h.2.2, byteSeen, h.1]

theorem dmaWrite_quiet {s : State} (h : Quiet s) (a : Nat) (v : Byte) :
    dmaWrite a v s = .ok () (s.setMem (s.mem.write a v)) := by
  simp [dmaWrite, busAccess_quiet h.1, rivalTouches_apart h.2.2, putByte]

/-! ### Accesses that may err -/

/-- Where nothing is merged, an access at whose byte the platform errs fails at its step (R344). -/
theorem busAccess_errs {s : State} {write : Bool} {a : Nat} (hb : s.busErrors = true) (hm : s.merging = none)
    (ha : a ∈ errsAt write s) : busAccess write a s = raise .busError s.tick := by
  unfold busAccess; rw [if_pos hb, hm]; exact if_pos ha

/-- Where nothing is merged, any other access is served. -/
theorem busAccess_served {s : State} {write : Bool} {a : Nat} (hb : s.busErrors = true) (hm : s.merging = none)
    (ha : a ∉ errsAt write s) : busAccess write a s = .ok false s.tick := by
  unfold busAccess; rw [if_pos hb, hm]; exact if_neg ha

/-- A merged run fails at the step drawn. -/
theorem busAccess_stop {s : State} {g : Merging} (hb : s.busErrors = true) (hm : s.merging = some g)
    (h : g.stop = some g.steps) (write : Bool) (a : Nat) : busAccess write a s = raise .busError s.tick := by
  unfold busAccess; rw [if_pos hb, hm]; exact if_pos h

/-- A merged run goes on from any other step. -/
theorem busAccess_notes {s : State} {g : Merging} (hb : s.busErrors = true) (hm : s.merging = some g)
    (h : g.stop ≠ some g.steps) (write : Bool) (a : Nat) :
    busAccess write a s = .ok (decide (a ∈ errsAt write s) || write && decide (g.steps ∈ g.erring))
      (s.tick.setMerging (some (g.note ⟨write, a, decide (a ∈ errsAt write s)⟩))) := by
  unfold busAccess; rw [if_pos hb, hm]; exact if_neg h

/-- A read finds the byte of host memory where no write of the command was lost. -/
theorem byteSeen_read {s : State} (h : ∀ g, s.merging = some g → g.lost = []) (a : Nat) :
    byteSeen a s = s.mem.read a := by
  unfold byteSeen
  cases hm : s.merging with
  | none => simp
  | some g => cases s.busErrors <;> simp [Merging.lostByte, h g hm]

theorem dmaRead_errs {s : State} {a : Nat} (hb : s.busErrors = true) (hm : s.merging = none) (ha : a ∈ s.errsRead) :
    dmaRead a s = raise .busError s.tick := by rw [dmaRead, busAccess_errs hb hm ha]; rfl

theorem dmaWrite_errs {s : State} {a : Nat} (hb : s.busErrors = true) (hm : s.merging = none) (ha : a ∈ s.errsWrite)
    (v : Byte) : dmaWrite a v s = raise .busError s.tick := by rw [dmaWrite, busAccess_errs hb hm ha]; rfl

/-- A read that the bus serves, of a byte nothing disputes, returns the byte a read finds there. -/
theorem dmaRead_of_served {s t : State} {a : Nat} (h : busAccess false a s = .ok false t) (hr : t.raced = [])
    (hv : rivalsApart t = true) : dmaRead a s = .ok (byteSeen a t) t := by
  rw [dmaRead, h, Res.andThen_ok, if_neg (by decide), if_neg (by simp [hr, rivalWrites_apart hv])]

/-- A write that the bus serves, of a byte nothing disputes, writes it. -/
theorem dmaWrite_of_served {s t : State} {a : Nat} (h : busAccess true a s = .ok false t) (hv : rivalsApart t = true)
    (v : Byte) : dmaWrite a v s = .ok () (t.setMem (t.mem.write a v)) := by
  rw [dmaWrite, h, Res.andThen_ok, if_neg (by simp [rivalTouches_apart hv])]; rfl

theorem dmaRead_served {s : State} {a : Nat} (hb : s.busErrors = true) (hm : s.merging = none) (ha : a ∉ s.errsRead)
    (hr : s.raced = []) (hv : rivalsApart s = true) : dmaRead a s = .ok (s.mem.read a) s.tick := by
  rw [dmaRead_of_served (busAccess_served hb hm ha) hr hv, byteSeen_read (s := s.tick) (by simp [hm])]; rfl

theorem dmaWrite_served {s : State} {a : Nat} (hb : s.busErrors = true) (hm : s.merging = none) (ha : a ∉ s.errsWrite)
    (hv : rivalsApart s = true) (v : Byte) : dmaWrite a v s = .ok () (s.tick.setMem (s.mem.write a v)) :=
  dmaWrite_of_served (busAccess_served hb hm ha) hv v

theorem src_quiet {s : State} (h : Quiet s) (i : Nat) : src i s = .ok (srcByte s i) s := dmaRead_quiet h _

theorem dst_quiet {s : State} (h : Quiet s) (i : Nat) : dst i s = .ok (outByte s i) s := dmaRead_quiet h _

theorem dstWrite_quiet {s : State} (h : Quiet s) (i : Nat) (v : Byte) :
    dstWrite i v s = .ok () (s.setMem (s.mem.write (s.dstBase.toNat + i) v)) := dmaWrite_quiet h _ _

/-! ### Regions -/

theorem regionCheck_bad {b : Bool} {s : State} (h : regionsBad b s = true) :
    regionCheck b s = raise .badConfig s := by simp [regionCheck, h]

theorem regionCheck_ready {b : Bool} {s : State} (h : Ready b s) : regionCheck b s = .ok () s := by
  simp [regionCheck, h.1, h.2]

/-- What a passed region check gives (R95). -/
theorem regions_of_ready {b : Bool} {s : State} (h : regionsBad b s = false) :
    s.srcLen.toNat ≤ Config.srcLenMax ∧ s.srcBase.toNat + s.srcLen.toNat ≤ Config.addrSpace
      ∧ s.dstBase.toNat + s.dstCap.toNat ≤ Config.addrSpace
      ∧ overlap s.srcBase.toNat s.srcLen.toNat s.dstBase.toNat s.dstCap.toNat = false
      ∧ (b = true → s.bitpos.toNat ≤ 8 * s.srcLen.toNat ∧ s.outpos.toNat ≤ s.dstCap.toNat) := by
  simp only [regionsBad, Bool.or_eq_false_iff, Bool.and_eq_false_iff, decide_eq_false_iff_not, Nat.not_lt] at h
  obtain ⟨⟨⟨⟨h1, h2⟩, h3⟩, h4⟩, h5⟩ := h
  refine ⟨h1, h2, h3, h4, fun hb => ?_⟩
  rcases h5 with h5 | h5
  · simp [hb] at h5
  · exact h5

/-- The region check returns only in the state it began in. -/
theorem regionCheck_ok {b : Bool} {s t : State} {u : Unit} (h : regionCheck b s = .ok u t) :
    t = s ∧ Ready b s := by
  unfold regionCheck at h
  split at h
  · exact nomatch h
  · split at h
    · cases h; simp_all [Ready]
    · exact nomatch h

/-! ### The run of a command over its regions -/

@[simp] theorem Res.mapState_ok {α : Type} (f : State → State) (a : α) (s : State) :
    (Res.ok a s).mapState f = .ok a (f s) := rfl

@[simp] theorem Res.mapState_fail {α : Type} (f : State → State) (x : Failure) (s : State) :
    (Res.fail x s : Res α).mapState f = .fail x (f s) := rfl

@[simp] theorem mapState_raise {α : Type} (f : State → State) (c : Cause) (s : State) :
    (raise c s : Res α).mapState f = raise c (f s) := rfl

@[simp] theorem Res.mapState_refuse {α : Type} (f : State → State) (x : Refusal) :
    (Res.refuse x : Res α).mapState f = .refuse x := rfl

/-- The run of a command's accesses is one run of them, from the present state but for the model's field `merging`,
which is as before in the end. -/
theorem runAccesses_cases (body : State → Res Unit) (s : State) :
    ∃ x, runAccesses body s = (body (s.setMerging x)).mapState (State.setMerging s.merging) := by
  unfold runAccesses; split
  · split
    · unfold mergedRun; split <;> exact ⟨_, rfl⟩
    · exact ⟨none, rfl⟩
  · exact ⟨s.merging, rfl⟩

theorem commonPrefix_subset : ∀ {l m : List Access} {x : Access}, x ∈ commonPrefix l m → x ∈ l ∧ x ∈ m
  | [], _, _, h => nomatch h
  | _ :: _, [], _, h => nomatch h
  | a :: l, b :: m, x, h => by
    rw [commonPrefix] at h
    split at h
    · rename_i hab
      subst hab
      rcases List.mem_cons.1 h with rfl | h
      · exact ⟨List.mem_cons_self .., List.mem_cons_self ..⟩
      · exact ⟨List.mem_cons_of_mem _ (commonPrefix_subset h).1, List.mem_cons_of_mem _ (commonPrefix_subset h).2⟩
    · exact nomatch h

/-- The sure accesses are made whatever one byte the reads that err return, and with free values. -/
theorem sureAccesses_made {body : State → Res Unit} {s : State} {x : Access} (h : x ∈ sureAccesses body s) :
    x ∈ accessesWith body s none ∧ ∀ v, x ∈ accessesWith body s (some v) := by
  have key : ∀ (vs : List Nat) (l : List Access),
      x ∈ vs.foldl (fun l v => commonPrefix l (accessesWith body s (some (BitVec.ofNat 8 v)))) l →
      x ∈ l ∧ ∀ w ∈ vs, x ∈ accessesWith body s (some (BitVec.ofNat 8 w)) := by
    intro vs
    induction vs with
    | nil => exact fun l h => ⟨h, by simp⟩
    | cons w vs ih =>
      intro l h
      obtain ⟨h1, h2⟩ := ih _ h
      exact ⟨(commonPrefix_subset h1).1, by simpa using ⟨(commonPrefix_subset h1).2, h2⟩⟩
  obtain ⟨h1, h2⟩ := key _ _ h
  exact ⟨h1, fun v => by simpa using h2 v.toNat (List.mem_range.2 v.isLt)⟩

/-- Every step that can be drawn to fail is a step of the run, of the direction of the access that errs (R344). -/
theorem candidates_made {choice n k : Nat} {log : List (Access × Nat)} {x : Access × Nat}
    (h : k ∈ candidates choice n log x) : ∃ y ∈ log, y.2 = k ∧ y.1.write = x.1.write := by
  have hs {l : List (Access × Nat)} {y : Access × Nat} (h : y ∈ sharing choice l x) :
      y ∈ l ∧ y.1.write = x.1.write := by
    have := List.mem_filter.1 (List.mem_filter.1 h).1
    simp only [Bool.and_eq_true, beq_iff_eq] at this
    exact ⟨this.1, this.2.1⟩
  obtain ⟨y, hy, rfl⟩ := List.mem_map.1 h
  rcases List.mem_append.1 hy with hy | hy
  · split at hy
    · exact ⟨y, List.mem_of_mem_take (hs hy).1, rfl, (hs hy).2⟩
    · exact nomatch hy
  · have hy := hs (List.mem_filter.1 hy).1
    exact ⟨y, hy.1, rfl, hy.2⟩

/-- Where no access of the command errs, no step is drawn to fail and no write is lost. -/
theorem drawnRun_none {body : State → Res Unit} {s : State} (h : ∀ x ∈ accessesWith body s none, x.errs = false) :
    drawnRun body s = .start s.draws none := by
  unfold drawnRun
  have : (accessesWith body s none).zipIdx.filter (fun x => x.1.errs) = [] := by
    rw [List.filter_eq_nil_iff]
    intro x hx
    have hm := List.mem_zipIdx (show (x.1, x.2) ∈ _ from hx)
    rw [hm.2.2, h _ (List.getElem_mem _)]
    decide
  simp only [this, List.isEmpty_nil, if_true]

/-- A merged run fails with `BUS_ERROR` at the step drawn, or it is the run of single-byte accesses (R344). -/
theorem mergedRun_cases (body : State → Res Unit) (s : State) :
    (failsOnBus (mergedRun body s) = true ∧ mergedRun body s = body (s.setMerging (some (drawnRun body s))))
      ∨ mergedRun body s = body (s.setMerging none) := by
  unfold mergedRun; split
  · exact .inl ⟨‹_›, rfl⟩
  · exact .inr rfl

/-- Where no error is possible, a command's accesses run once. -/
theorem runAccesses_plain {body : State → Res Unit} {s : State} (h : s.busErrors = false) :
    runAccesses body s = (body s).mapState (State.setMerging s.merging) := by
  unfold runAccesses; rw [if_neg (by simp [h])]

/-- Where errors are possible and nothing is merged, a command's accesses run once, each by itself. -/
theorem runAccesses_single {body : State → Res Unit} {s : State} (hb : s.busErrors = true) (h : s.merges = false) :
    runAccesses body s = (body (s.setMerging none)).mapState (State.setMerging s.merging) := by
  unfold runAccesses; rw [if_pos hb, if_neg (by simp [h])]

/-- Where errors are possible and accesses are merged, a command fails at the step that R344 draws. -/
theorem runAccesses_merged {body : State → Res Unit} {s : State} (hb : s.busErrors = true) (h : s.merges = true) :
    runAccesses body s = (mergedRun body s).mapState (State.setMerging s.merging) := by
  unfold runAccesses; rw [if_pos hb, if_pos h]

/-- A procedure that fails in whatever way erring accesses are handled, fails. -/
theorem runAccesses_raise {body : State → Res Unit} {s : State} {c : Cause}
    (h : ∀ x, body (s.setMerging x) = raise c (s.setMerging x)) : runAccesses body s = raise c s := by
  obtain ⟨x, hx⟩ := runAccesses_cases body s
  rw [hx, h x]; rfl

theorem overRegions_bad {b : Bool} {body : State → Res Unit} {s : State} (h : regionsBad b s = true) :
    overRegions b body s = raise .badConfig s := by rw [overRegions, regionCheck_bad h]; rfl

theorem overRegions_ready {b : Bool} {body : State → Res Unit} {s : State} (h : Ready b s) :
    overRegions b body s = runAccesses body s := by rw [overRegions, regionCheck_ready h]; rfl

/-- A command over plain regions with no bus error possible is its operation. -/
theorem overRegions_quiet {b : Bool} {body : State → Res Unit} {s : State} (h : Ready b s)
    (hb : s.busErrors = false) :
    overRegions b body s = (body s).mapState (State.setMerging s.merging) := by
  rw [overRegions_ready h, runAccesses_plain hb]

theorem overRegions_refuse {b : Bool} {body : State → Res Unit} {s : State} (h : regionsBad b s = false)
    (hp : regionsPlain s = false) : overRegions b body s = .refuse .sideEffectRegion := by
  simp [overRegions, regionCheck, h, hp]

/-- A command over its regions leaves the model's field `merging` as it was. -/
theorem overRegions_merging (b : Bool) (body : State → Res Unit) (s : State) :
    (overRegions b body s).Ensures fun t => t.merging = s.merging := by
  unfold overRegions regionCheck
  split
  · rfl
  · split
    · obtain ⟨x, hx⟩ := runAccesses_cases body s
      show (runAccesses body s).Ensures _
      rw [hx]; cases body (s.setMerging x) <;> trivial
    · trivial

/-! ### The end of a command -/

@[simp] theorem finish_ok (u : Unit) (s : State) : finish (.ok u s) = .next s.complete := rfl

@[simp] theorem finish_fail (f : Failure) (s : State) : finish (.fail f s) = .next (s.enterFailure f) := rfl

@[simp] theorem finish_raise (c : Cause) (s : State) : finish (raise c s) = .next (s.enterFailure (.cause c)) := rfl

@[simp] theorem finish_refuse (r : Refusal) : finish (.refuse r) = .refused r := rfl

/-- A command ends by completion, by the failure entry, or outside the model. -/
theorem finish_next {r : Res Unit} {t : State} (h : finish r = .next t) :
    (∃ s, r = .ok () s ∧ t = s.complete) ∨ ∃ f s, r = .fail f s ∧ t = s.enterFailure f := by
  cases r with
  | ok a s => cases h; exact .inl ⟨s, rfl, rfl⟩
  | fail f s => cases h; exact .inr ⟨f, s, rfl, rfl⟩
  | refuse x => exact nomatch h

end Machine
end Sys2Proof
end

