-- ==== Sys2Proof/Laws/Effects.lean ====
section
/-! SUPPORT. What every procedure of a command can do, said once (R93, R175, R335): the operands, the stored
failure and the lifecycle stay, no byte outside the output region changes, host memory keeps its canonical form,
valid trees stay in range, and the cursors stay in bounds and never move back. -/

namespace Sys2Proof
namespace Machine

/-! ### Reading only draws -/

/-- Nothing but the draw counter and the note of merged accesses may have changed. -/
def Drawn (s t : State) : Prop := ∃ d x, t = { s with draws := d, merging := x }

theorem Drawn.refl (s : State) : Drawn s s := ⟨s.draws, s.merging, rfl⟩

theorem Drawn.trans {s t u : State} (h : Drawn s t) (k : Drawn t u) : Drawn s u := by
  obtain ⟨d, x, rfl⟩ := h; obtain ⟨e, y, rfl⟩ := k; exact ⟨e, y, rfl⟩

theorem drawn_tick (s : State) : Drawn s s.tick := ⟨_, _, rfl⟩

theorem drawn_setMerging (x : Option Merging) (s : State) : Drawn s (s.setMerging x) := ⟨_, _, rfl⟩

theorem busAccess_drawn (write : Bool) (a : Nat) (s : State) : (busAccess write a s).Ensures (Drawn s) :=
  (busAccess_ensures write a s).mono fun t h => by
    rcases h with rfl | ⟨x, rfl⟩
    · exact .refl _
    · exact (drawn_tick _).trans (drawn_setMerging _ _)

theorem dmaRead_drawn (a : Nat) (s : State) : (dmaRead a s).Ensures (Drawn s) := by
  refine Res.Ensures.andThen Drawn.trans (busAccess_drawn false a s) fun _ t _ _ => ?_
  split
  · exact drawn_tick t
  · split
    · exact drawn_tick t
    · exact .refl t

/-- What the end of a write can do: a byte at its address, or a note that there is none. -/
theorem putByte_cases (erred : Bool) (a : Nat) (v : Byte) (s : State) :
    ∃ u, Drawn s u ∧ (putByte erred a v s = u ∨ ∃ w, putByte erred a v s = u.setMem (u.mem.write a w)) := by
  cases erred with
  | true => exact ⟨_, drawn_setMerging _ s, .inl rfl⟩
  | false => exact ⟨s, .refl s, .inr ⟨v, rfl⟩⟩

/-- What a DMA write can do: draws, and then some byte at its address, or none. -/
theorem dmaWrite_ensures (a : Nat) (v : Byte) (s : State) :
    (dmaWrite a v s).Ensures fun t => ∃ u, Drawn s u ∧ (t = u ∨ ∃ w, t = u.setMem (u.mem.write a w)) := by
  unfold dmaWrite
  have h := busAccess_drawn true a s
  cases hr : busAccess true a s with
  | ok erred t =>
    rw [hr] at h
    rw [Res.andThen_ok]; split
    · obtain ⟨u, hu, h'⟩ := putByte_cases erred a (Config.freeByte t.draws) t.tick
      exact ⟨u, h.trans ((drawn_tick t).trans hu), h'⟩
    · obtain ⟨u, hu, h'⟩ := putByte_cases erred a v t
      exact ⟨u, h.trans hu, h'⟩
  | fail f t => rw [hr] at h; exact ⟨t, h, .inl rfl⟩
  | refuse x => trivial

theorem src_drawn (i : Nat) (s : State) : (src i s).Ensures (Drawn s) := dmaRead_drawn _ _

theorem dst_drawn (i : Nat) (s : State) : (dst i s).Ensures (Drawn s) := dmaRead_drawn _ _

theorem streamBit_drawn (p : Nat) (s : State) : (streamBit p s).Ensures (Drawn s) :=
  Res.Ensures.andThen Drawn.trans (src_drawn _ _) fun _ t _ _ => Drawn.refl t

theorem bitsFrom_drawn (p n : Nat) (s : State) : (bitsFrom p n s).Ensures (Drawn s) := by
  induction n generalizing p s with
  | zero => exact Drawn.refl s
  | succ n ih =>
    exact Res.Ensures.andThen Drawn.trans (streamBit_drawn _ _) fun _ t _ _ =>
      Res.Ensures.andThen Drawn.trans (ih _ _) fun _ u _ _ => Drawn.refl u

theorem src16_drawn (p : Nat) (s : State) : (src16 p s).Ensures (Drawn s) :=
  Res.Ensures.andThen Drawn.trans (src_drawn _ _) fun _ _ _ _ =>
    Res.Ensures.andThen Drawn.trans (src_drawn _ _) fun _ u _ _ => Drawn.refl u

theorem neighbour_drawn (b : Bool) (off : Nat) (s : State) : (neighbour b off s).Ensures (Drawn s) := by
  unfold neighbour; split
  · exact Res.Ensures.andThen Drawn.trans (dst_drawn _ _) fun _ u _ _ => Drawn.refl u
  · exact Drawn.refl s

/-! ### The relation -/

/-- The region check of R95, as it stays true while an inflate-side command runs. -/
structure InBounds (s : State) : Prop where
  srcLen_le : s.srcLen.toNat ≤ Config.srcLenMax
  dst_le : s.dstBase.toNat + s.dstCap.toNat ≤ Config.addrSpace
  bitpos_le : s.bitpos.toNat ≤ 8 * s.srcLen.toNat
  outpos_le : s.outpos.toNat ≤ s.dstCap.toNat

/-- The tree RAMs have their sizes, and valid ones hold entries in range. -/
structure TreesGood (s : State) : Prop where
  ll : s.treeLL.length = 576
  d : s.treeD.length = 64
  cl : s.treeCL.length = 38
  range : TreesInRange s

/-- From `s`, a procedure can reach `t`. -/
structure Runs (s t : State) : Prop where
  keeps : ProcKeeps s t
  bounds : InBounds t
  bitpos_mono : s.bitpos.toNat ≤ t.bitpos.toNat
  outpos_mono : s.outpos.toNat ≤ t.outpos.toNat
  bytes : ∀ a, (a < s.dstBase.toNat + s.outpos.toNat ∨ s.dstBase.toNat + s.dstCap.toNat ≤ a) →
    t.mem.read a = s.mem.read a
  mem_wf : s.mem.wf = true → t.mem.wf = true
  trees : TreesGood s → TreesGood t

theorem Runs.refl {s : State} (h : InBounds s) : Runs s s :=
  ⟨.refl s, h, le_rfl, le_rfl, fun _ _ => rfl, id, id⟩

theorem Runs.trans {s t u : State} (h : Runs s t) (k : Runs t u) : Runs s u where
  keeps := h.keeps.trans k.keeps
  bounds := k.bounds
  bitpos_mono := h.bitpos_mono.trans k.bitpos_mono
  outpos_mono := h.outpos_mono.trans k.outpos_mono
  bytes a ha := by
    rw [k.bytes a, h.bytes a ha]
    rw [h.keeps.operands.dstBase, h.keeps.operands.dstCap]
    have := h.outpos_mono
    omega
  mem_wf hm := k.mem_wf (h.mem_wf hm)
  trees ht := k.trees (h.trees ht)

theorem procKeeps_of_drawn {s t : State} (h : Drawn s t) : ProcKeeps s t := by
  obtain ⟨d, x, rfl⟩ := h
  refine ⟨?_, ?_, rfl, rfl, rfl, rfl⟩ <;> constructor <;> rfl

theorem TreesGood.congr {s t : State} (h : TreesGood s) (k : SameTrees s t) : TreesGood t where
  ll := k.treeLL ▸ h.ll
  d := k.treeD ▸ h.d
  cl := k.treeCL ▸ h.cl
  range r j hv := by
    have hv' : valid r s = true := by
      cases r <;> simp_all [valid, k.llValid, k.dValid, k.clValid]
    have := h.range r j hv'
    cases r <;> simp_all [ramEntry, k.treeLL, k.treeD, k.treeCL]

theorem runs_of_drawn {s t : State} (hb : InBounds s) (h : Drawn s t) : Runs s t := by
  have hk := procKeeps_of_drawn h
  obtain ⟨d, x, rfl⟩ := h
  exact ⟨hk, ⟨hb.1, hb.2, hb.3, hb.4⟩, le_rfl, le_rfl, fun _ _ => rfl, id,
    fun ht => ht.congr (by constructor <;> rfl)⟩

/-- Moving the bit cursor forward within the source. -/
theorem runs_setBitpos {s : State} (hb : InBounds s) {p : Nat} (h : s.bitpos.toNat ≤ p)
    (hp : p ≤ 8 * s.srcLen.toNat) : Runs s (s.setBitpos p) := by
  have hlt : p < 2 ^ 32 := by have := hb.srcLen_le; simp only [Config.srcLenMax] at this; omega
  refine ⟨procKeeps_setBitpos p s, ⟨hb.1, hb.2, ?_, hb.4⟩, ?_, le_rfl, fun _ _ => rfl, id,
    fun ht => ht.congr (sameTrees_setBitpos p s)⟩ <;>
  simp only [State.setBitpos_bitpos, State.setBitpos_srcLen, BitVec.toNat_ofNat, Nat.mod_eq_of_lt hlt] <;>
  assumption

/-- Moving the output position forward within the output region. -/
theorem runs_setOutpos {s : State} (hb : InBounds s) {p : Nat} (h : s.outpos.toNat ≤ p)
    (hp : p ≤ s.dstCap.toNat) : Runs s (s.setOutpos p) := by
  have hlt : p < 2 ^ 32 := lt_of_le_of_lt hp s.dstCap.isLt
  refine ⟨procKeeps_setOutpos p s, ⟨hb.1, hb.2, hb.3, ?_⟩, le_rfl, ?_, fun _ _ => rfl, id,
    fun ht => ht.congr (sameTrees_setOutpos p s)⟩ <;>
  simp only [State.setOutpos_outpos, State.setOutpos_dstCap, BitVec.toNat_ofNat, Nat.mod_eq_of_lt hlt] <;>
  assumption

/-- Writing an output byte at or after the output position. -/
theorem runs_setMem {s : State} (hb : InBounds s) {i : Nat} (h : s.outpos.toNat ≤ i)
    (hi : i < s.dstCap.toNat) (v : Byte) :
    Runs s (s.setMem (s.mem.write (s.dstBase.toNat + i) v)) where
  keeps := procKeeps_setMem _ s
  bounds := ⟨hb.1, hb.2, hb.3, hb.4⟩
  bitpos_mono := le_rfl
  outpos_mono := le_rfl
  bytes a ha := by
    have : a ≠ s.dstBase.toNat + i := by omega
    simp [this]
  mem_wf hm := Memory.wf_write hm (by have := hb.dst_le; omega) v
  trees ht := ht.congr (sameTrees_setMem _ s)

theorem runs_setHeader {s : State} (hb : InBounds s) (f b : Nat) : Runs s (s.setHeader f b) :=
  ⟨procKeeps_setHeader f b s, ⟨hb.1, hb.2, hb.3, hb.4⟩, le_rfl, le_rfl, fun _ _ => rfl, id,
    fun ht => ht.congr (by constructor <;> rfl)⟩

theorem runs_setStreamEnd {s : State} (hb : InBounds s) (b : Bool) : Runs s (s.setStreamEnd b) :=
  ⟨procKeeps_setStreamEnd b s, ⟨hb.1, hb.2, hb.3, hb.4⟩, le_rfl, le_rfl, fun _ _ => rfl, id,
    fun ht => ht.congr (by constructor <;> rfl)⟩

theorem Res.Ensures.runs {α β : Type} {s : State} {r : Res α} {f : α → State → Res β}
    (h : r.Ensures (Runs s)) (hf : ∀ a t, InBounds t → Runs s t → r = .ok a t → (f a t).Ensures (Runs t)) :
    (r.andThen f).Ensures (Runs s) :=
  Res.Ensures.andThen Runs.trans h fun a t ht hr => hf a t ht.bounds ht hr

theorem dstWrite_runs {s : State} (hb : InBounds s) {i : Nat} (h : s.outpos.toNat ≤ i)
    (hi : i < s.dstCap.toNat) (v : Byte) : (dstWrite i v s).Ensures (Runs s) :=
  (dmaWrite_ensures (s.dstBase.toNat + i) v s).mono fun t ⟨u, hu, ht⟩ => by
    have hr := runs_of_drawn hb hu
    obtain ⟨d, x, rfl⟩ := hu
    rcases ht with rfl | ⟨w, rfl⟩
    · exact hr
    · exact hr.trans (runs_setMem hr.bounds (i := i) h hi w)

theorem src_runs {s : State} (hb : InBounds s) (i : Nat) : (src i s).Ensures (Runs s) :=
  (src_drawn i s).mono fun _ => runs_of_drawn hb

theorem dst_runs {s : State} (hb : InBounds s) (i : Nat) : (dst i s).Ensures (Runs s) :=
  (dst_drawn i s).mono fun _ => runs_of_drawn hb

end Machine
end Sys2Proof
end

