-- ==== Sys2Proof/Laws/Reader.lean ====
section
/-! SUPPORT. The bit reader and the symbol decoder: what a quiet read returns (R190 to R192), how many bits each
takes (R205), and that both are covered by `Runs`. -/

namespace Sys2Proof
namespace Machine

/-! ### Values -/

theorem bitAt_lt (s : State) (p : Nat) : bitAt s p < 2 := by
  unfold bitAt; cases (srcByte s (p / 8)).getLsbD (p % 8) <;> simp

theorem fieldAt_lt (s : State) (p n : Nat) : fieldAt s p n < 2 ^ n := by
  induction n generalizing p with
  | zero => simp [fieldAt]
  | succ n ih =>
    have h1 := bitAt_lt s p
    have h2 := ih (p + 1)
    simp only [fieldAt, pow_succ]; omega

theorem streamBit_quiet {s : State} (h : Quiet s) (p : Nat) : streamBit p s = .ok (bitAt s p) s := by
  simp [streamBit, src_quiet h, bitAt]

theorem bitsFrom_quiet {s : State} (h : Quiet s) (p n : Nat) : bitsFrom p n s = .ok (fieldAt s p n) s := by
  induction n generalizing p with
  | zero => rfl
  | succ n ih => simp [bitsFrom, streamBit_quiet h, ih, fieldAt]

theorem readBits_quiet {s : State} (h : Quiet s) (n : Nat) :
    readBits n s = .ok (fieldAt s s.bitpos.toNat n) (s.setBitpos (s.bitpos.toNat + n)) := by
  simp [readBits, bitsFrom_quiet h]

/-- A checked read that fits returns the field and moves the cursor past it (R192). -/
theorem checkedRead_quiet {s : State} (h : Quiet s) {n : Nat} (hn : s.bitpos.toNat + n ≤ 8 * s.srcLen.toNat) :
    checkedRead n s = .ok (fieldAt s s.bitpos.toNat n) (s.setBitpos (s.bitpos.toNat + n)) := by
  rw [checkedRead, if_neg (by omega), readBits_quiet h]

/-- A checked read that does not fit consumes nothing (R192). -/
theorem checkedRead_exhausted {s : State} {n : Nat} (hn : 8 * s.srcLen.toNat < s.bitpos.toNat + n) :
    checkedRead n s = raise .bitsExhausted s := by
  rw [checkedRead, if_pos hn]

/-! ### Effects -/

theorem streamBit_ok_lt {p : Nat} {s t : State} {b : Nat} (h : streamBit p s = .ok b t) : b < 2 := by
  obtain ⟨x, u, _, hx⟩ := Res.andThen_eq_ok h
  cases hx
  cases x.getLsbD (p % 8) <;> simp

theorem bitsFrom_ok_lt {p n : Nat} {s t : State} {v : Nat} (h : bitsFrom p n s = .ok v t) : v < 2 ^ n := by
  induction n generalizing p s t v with
  | zero => cases h; simp
  | succ n ih =>
    obtain ⟨b, u, hb, h⟩ := Res.andThen_eq_ok h
    obtain ⟨w, x, hw, h⟩ := Res.andThen_eq_ok h
    cases h
    have h1 := streamBit_ok_lt hb
    have h2 := ih hw
    rw [pow_succ]; omega

theorem readBits_ok_lt {n : Nat} {s t : State} {v : Nat} (h : readBits n s = .ok v t) : v < 2 ^ n := by
  obtain ⟨w, x, hw, h⟩ := Res.andThen_eq_ok h
  cases h; exact bitsFrom_ok_lt hw

theorem checkedRead_ok_lt {n : Nat} {s t : State} {v : Nat} (h : checkedRead n s = .ok v t) : v < 2 ^ n := by
  unfold checkedRead at h; split at h
  · exact nomatch h
  · exact readBits_ok_lt h

theorem readBits_runs {s : State} (hb : InBounds s) {n : Nat} (hn : s.bitpos.toNat + n ≤ 8 * s.srcLen.toNat) :
    (readBits n s).Ensures (Runs s) := by
  refine Res.Ensures.runs ((bitsFrom_drawn _ _ s).mono fun t => runs_of_drawn hb) fun v t hbt _ ht => ?_
  have hd := bitsFrom_drawn s.bitpos.toNat n s
  rw [ht] at hd
  obtain ⟨d, x, rfl⟩ := hd
  exact runs_setBitpos hbt (Nat.le_add_right _ _) hn

/-- Where a read of `n` bits returns, the cursor stands `n` further on. -/
theorem readBits_ok_bitpos {s t : State} {n v : Nat} (h : readBits n s = .ok v t)
    (hb : s.bitpos.toNat + n < 2 ^ 32) : t.bitpos.toNat = s.bitpos.toNat + n := by
  obtain ⟨w, x, hw, h⟩ := Res.andThen_eq_ok h
  have hd := bitsFrom_drawn s.bitpos.toNat n s
  rw [hw] at hd
  obtain ⟨d, x, rfl⟩ := hd
  cases h
  simp only [State.setBitpos_bitpos, BitVec.toNat_ofNat]; omega

theorem checkedRead_runs {s : State} (hb : InBounds s) (n : Nat) : (checkedRead n s).Ensures (Runs s) := by
  unfold checkedRead; split
  · exact Runs.refl hb
  · exact readBits_runs hb (by omega)

/-! ### The symbol decoder -/

theorem walk_runs {s : State} (hb : InBounds s) (t : TreeSel) (fuel pos : Nat) :
    (walk t fuel pos s).Ensures (Runs s) := by
  induction fuel generalizing pos s with
  | zero => exact Runs.refl hb
  | succ fuel ih =>
    rw [walk]; split
    · exact Runs.refl hb
    · refine Res.Ensures.runs (readBits_runs hb (by omega)) fun b u hbu _ _ => ?_
      split
      · exact Runs.refl hbu
      · split
        · exact Runs.refl hbu
        · exact ih hbu _

theorem decodeSymbol_runs {s : State} (hb : InBounds s) (t : TreeSel) : (decodeSymbol t s).Ensures (Runs s) := by
  unfold decodeSymbol; split
  · exact walk_runs hb t _ _
  · exact Runs.refl hb

/-- A walk that returns has taken at least one bit, and returns a symbol of the alphabet (R205). -/
theorem walk_ok {s u : State} (hb : InBounds s) {t : TreeSel} {fuel pos v : Nat}
    (h : walk t fuel pos s = .ok v u) : s.bitpos.toNat < u.bitpos.toNat ∧ v < numcodesOf t := by
  induction fuel generalizing pos s with
  | zero => exact nomatch h
  | succ fuel ih =>
    rw [walk] at h; split at h
    · exact nomatch h
    · rename_i hlt
      obtain ⟨b, x, hx, h⟩ := Res.andThen_eq_ok h
      have hr := readBits_runs hb (n := 1) (by omega)
      rw [hx] at hr
      have hsl := hb.srcLen_le
      simp only [Config.srcLenMax] at hsl
      have hp := readBits_ok_bitpos hx (by omega)
      split at h
      · cases h; exact ⟨by omega, by assumption⟩
      · split at h
        · exact nomatch h
        · have := ih hr.bounds h
          exact ⟨by omega, this.2⟩

/-- A decoded symbol lies in the alphabet, and its code had at least one bit (R205, R206). -/
theorem decodeSymbol_ok {s u : State} (hb : InBounds s) {t : TreeSel} {v : Nat}
    (h : decodeSymbol t s = .ok v u) : s.bitpos.toNat < u.bitpos.toNat ∧ v < numcodesOf t := by
  unfold decodeSymbol at h; split at h
  · exact walk_ok hb h
  · exact nomatch h

end Machine
end Sys2Proof
end

