-- ==== Sys2Proof/Laws/Trees.lean ====
section
/-! SUPPORT. The tree builder: every table it returns has `2N` entries, none above `2N - 2` (R204 (e)), so that a
tree RAM that is valid is in range, and a commit is covered by `Runs`. -/

namespace Sys2Proof
namespace Machine

/-- A tree under construction, before a code is inserted and after (R200). -/
structure Builder.Fine (N : Nat) (b : Builder) : Prop where
  size : b.slots.length = 2 * N
  nodes : b.nodes ≤ N - 2
  range : ∀ x ∈ b.slots, ∀ v, x = some v → v ≤ 2 * N - 2

theorem Builder.Fine.set {N : Nat} {b : Builder} (h : b.Fine N) (j : Nat) {v : Nat} (hv : v ≤ 2 * N - 2)
    {n : Nat} (hn : n ≤ N - 2) : Builder.Fine N { slots := b.slots.set j (some v), nodes := n } where
  size := by simpa using h.size
  nodes := hn
  range x hx w hw := by
    rcases List.mem_or_eq_of_mem_set hx with hx | rfl
    · exact h.range x hx w hw
    · cases hw; exact hv

/-- The node-slot check keeps every allocated node usable: a node beyond `N - 2` is never left in the tree. -/
theorem insertBits_fine {N sym code : Nat} (hN : 2 ≤ N) (hs : sym < N) {r pos : Nat} {b b' : Builder}
    (hb : (pos ≤ N - 2 ∨ r = 0) → b.Fine N) (h : insertBits N sym code r pos b = .ok b') : b'.Fine N := by
  induction r generalizing pos b with
  | zero => cases h; exact hb (.inr rfl)
  | succ r ih =>
    rw [insertBits] at h
    split at h
    · exact nomatch h
    · rename_i hpos
      have hf := hb (.inl (by omega))
      split at h
      · split at h
        · cases h; exact hf.set _ (by omega) hf.nodes
        · refine ih (fun hc => ?_) h
          exact hf.set _ (by omega) (by omega)
      · split at h
        · exact nomatch h
        · exact ih (fun _ => hf) h

theorem insertFrom_fine {N : Nat} (hN : 2 ≤ N) {l : List (Nat × Nat)} {sym : Nat} {b b' : Builder}
    (hl : sym + l.length ≤ N) (hb : b.Fine N) (h : insertFrom N sym l b = .ok b') : b'.Fine N := by
  induction l generalizing sym b with
  | nil => cases h; exact hb
  | cons c l ih =>
    obtain ⟨k, c⟩ := c
    rw [insertFrom] at h
    split at h
    · rename_i b1 h1
      simp only [List.length_cons] at hl
      exact ih (by omega) (insertBits_fine hN (by omega) (fun _ => hb) h1) h
    · exact nomatch h

/-- What a successful build returns (R194, R204 (e)). -/
theorem buildTree_ok {len T : List Nat} {N M : Nat} (hN : 2 ≤ N) (hlen : len.length ≤ N)
    (h : buildTree len N M = .ok T) : T.length = 2 * N ∧ ∀ v ∈ T, v ≤ 2 * N - 2 := by
  unfold buildTree at h
  split at h
  · exact nomatch h
  · split at h
    · exact nomatch h
    · split at h
      · rename_i b hb
        have hf : b.Fine N := by
          refine insertFrom_fine hN ?_ ⟨by simp, by simp, ?_⟩ hb
          · simp only [List.length_zip]; omega
          · intro x hx v hv
            rw [List.eq_of_mem_replicate hx] at hv; exact nomatch hv
        cases h
        refine ⟨by simpa using hf.size, fun v hv => ?_⟩
        obtain ⟨x, hx, rfl⟩ := List.mem_map.1 hv
        cases x with
        | none => simp
        | some w => exact hf.range _ hx w rfl
      · exact nomatch h

theorem numcodes_bounds (t : RamTree) : 2 ≤ numcodes t ∧ 2 * numcodes t ≤ 576 := by cases t <;> decide

/-! ### The tree RAMs -/

@[simp] theorem length_tableOf (n : Nat) (l : List (BitVec 10)) : (tableOf n l).length = n := by
  simp [tableOf]

theorem tableOf_of_length {n : Nat} {l : List (BitVec 10)} (hl : l.length = n) : tableOf n l = l := by
  subst hl; simp [tableOf]

/-- The entries a written tree RAM holds. -/
theorem ramEntry_setTable {t : RamTree} {l : List (BitVec 10)} (hl : l.length = 2 * numcodes t) (s : State)
    (j : Nat) : ramEntry t j (s.setTable t l) = (l.getD j 0#10).toNat := by
  cases t <;> simp only [numcodes] at hl <;> simp [ramEntry, tableOf_of_length hl]

theorem ramEntry_setTable_ne {t r : RamTree} (h : r ≠ t) (l : List (BitVec 10)) (s : State) (j : Nat) :
    ramEntry r j (s.setTable t l) = ramEntry r j s := by
  cases t <;> cases r <;> simp_all [ramEntry]

@[simp] theorem valid_setValid (t : RamTree) (b : Bool) (s : State) : valid t (s.setValid t b) = b := by
  cases t <;> rfl

theorem valid_setValid_ne {t r : RamTree} (h : r ≠ t) (b : Bool) (s : State) :
    valid r (s.setValid t b) = valid r s := by
  cases t <;> cases r <;> simp_all [valid]

@[simp] theorem valid_setTable (r t : RamTree) (l : List (BitVec 10)) (s : State) :
    valid r (s.setTable t l) = valid r s := by cases r <;> rfl

@[simp] theorem valid_tick (r : RamTree) (s : State) : valid r s.tick = valid r s := by cases r <;> rfl

@[simp] theorem ramEntry_setValid (r t : RamTree) (b : Bool) (s : State) (j : Nat) :
    ramEntry r j (s.setValid t b) = ramEntry r j s := by cases r <;> rfl

@[simp] theorem ramEntry_tick (r : RamTree) (s : State) (j : Nat) : ramEntry r j s.tick = ramEntry r j s := by
  cases r <;> rfl

theorem treesGood_setTable_invalid {t : RamTree} {s : State} (h : TreesGood s) (hv : valid t s = false)
    (l : List (BitVec 10)) : TreesGood (s.setTable t l) where
  ll := by simp only [State.setTable_treeLL]; split <;> simp [h.ll]
  d := by simp only [State.setTable_treeD]; split <;> simp [h.d]
  cl := by simp only [State.setTable_treeCL]; split <;> simp [h.cl]
  range r j hr := by
    have hne : r ≠ t := by
      rintro rfl; rw [valid_setTable, hv] at hr; exact nomatch hr
    rw [ramEntry_setTable_ne hne]
    exact h.range r j (by simpa using hr)

theorem treesGood_setValid_false {s : State} (h : TreesGood s) (t : RamTree) :
    TreesGood (s.setValid t false) where
  ll := h.ll
  d := h.d
  cl := h.cl
  range r j hr := by
    have hne : r ≠ t := by rintro rfl; simp at hr
    rw [valid_setValid_ne hne] at hr
    simpa using h.range r j hr

/-- The table a build wrote into the RAM, entry for entry (R202). -/
theorem ramEntry_commit {t : RamTree} {len T : List Nat} (hlen : len.length ≤ numcodes t)
    (h : buildTree len (numcodes t) (maxbitlen t) = .ok T) (s : State) (j : Nat) :
    ramEntry t j (s.setTable t (T.map (BitVec.ofNat 10))) = T.getD j 0 := by
  have hb := numcodes_bounds t
  obtain ⟨h1, h2⟩ := buildTree_ok hb.1 hlen h
  rw [ramEntry_setTable (by simpa using h1)]
  rw [List.getD_eq_getElem?_getD, List.getElem?_map, List.getD_eq_getElem?_getD]
  by_cases hj : j < T.length
  · have := h2 T[j] (List.getElem_mem hj)
    simp only [List.getElem?_eq_getElem hj, Option.map_some, Option.getD_some, BitVec.toNat_ofNat]
    omega
  · simp [List.getElem?_eq_none (Nat.le_of_not_lt hj)]

theorem runs_setValid_false {s : State} (hb : InBounds s) (t : RamTree) : Runs s (s.setValid t false) :=
  ⟨procKeeps_setValid t false s, ⟨hb.1, hb.2, hb.3, hb.4⟩, le_rfl, le_rfl, fun _ _ => rfl, id,
    fun h => treesGood_setValid_false h t⟩

theorem runs_spoilTable {s : State} (hb : InBounds s) {t : RamTree} (hv : valid t s = false) :
    Runs s (spoilTable t s) :=
  ⟨procKeeps_spoilTable t s, ⟨hb.1, hb.2, hb.3, hb.4⟩, le_rfl, le_rfl, fun _ _ => rfl, id,
    fun h => (treesGood_setTable_invalid h hv _).congr (sameTrees_tick _)⟩

theorem treesGood_commit {s : State} (h : TreesGood s) {t : RamTree} {len T : List Nat}
    (hlen : len.length ≤ numcodes t) (hT : buildTree len (numcodes t) (maxbitlen t) = .ok T) :
    TreesGood ((s.setTable t (T.map (BitVec.ofNat 10))).setValid t true) where
  ll := by simp only [State.setValid_treeLL, State.setTable_treeLL]; split <;> simp [h.ll]
  d := by simp only [State.setValid_treeD, State.setTable_treeD]; split <;> simp [h.d]
  cl := by simp only [State.setValid_treeCL, State.setTable_treeCL]; split <;> simp [h.cl]
  range r j hr := by
    rw [ramEntry_setValid]
    by_cases hne : r = t
    · subst hne
      rw [ramEntry_commit hlen hT]
      have hok := (buildTree_ok (numcodes_bounds r).1 hlen hT).2
      rw [List.getD_eq_getElem?_getD]
      by_cases hj : j < T.length
      · simpa [List.getElem?_eq_getElem hj] using hok T[j] (List.getElem_mem hj)
      · simp [List.getElem?_eq_none (Nat.le_of_not_lt hj)]
    · rw [valid_setValid_ne hne, valid_setTable] at hr
      rw [ramEntry_setTable_ne hne]
      exact h.range r j hr

/-- What `TreeCommit` does when the build succeeds (R202). -/
theorem treeCommit_ok {t : RamTree} {len T : List Nat} {s : State}
    (h : buildTree len (numcodes t) (maxbitlen t) = .ok T) :
    treeCommit t len s = .ok () ((s.setTable t (T.map (BitVec.ofNat 10))).setValid t true) := by
  simp [treeCommit, h]

/-- What `TreeCommit` does when the build fails (R202). -/
theorem treeCommit_error {t : RamTree} {len : List Nat} {s : State} {c : Cause}
    (h : buildTree len (numcodes t) (maxbitlen t) = .error c) :
    treeCommit t len s = raise c (spoilTable t (s.setValid t false)) := by
  simp [treeCommit, h]

theorem treeCommit_runs {s : State} (hb : InBounds s) (t : RamTree) {len : List Nat}
    (hlen : len.length ≤ numcodes t) : (treeCommit t len s).Ensures (Runs s) := by
  cases h : buildTree len (numcodes t) (maxbitlen t) with
  | error c =>
    rw [treeCommit_error h]
    have h1 := runs_setValid_false hb t
    exact h1.trans (runs_spoilTable h1.bounds (valid_setValid t false s))
  | ok T =>
    rw [treeCommit_ok h]
    refine ⟨(procKeeps_setTable t _ s).trans (procKeeps_setValid t true _), ⟨hb.1, hb.2, hb.3, hb.4⟩, le_rfl,
      le_rfl, fun _ _ => rfl, id, fun hg => treesGood_commit hg hlen h⟩

/-- `LENRAM` gives one length for each symbol. -/
@[simp] theorem length_lenramLengths (n : Nat) (s : State) : (lenramLengths n s).length = n := by
  simp [lenramLengths]

end Machine
end Sys2Proof
end

