-- ==== Sys2Proof/Laws/Procs.lean ====
section
/-! SUPPORT. Every procedure of the inflate side is covered by `Runs`: the dynamic-tree reader, the block
inflator, the copier and the block loop. The unfilter is covered by the relation `Paints`. -/

namespace Sys2Proof
namespace Machine

/-! ### The dynamic-tree reader -/

theorem readCounts_runs {s : State} (hb : InBounds s) : (readCounts s).Ensures (Runs s) :=
  Res.Ensures.runs (checkedRead_runs hb 5) fun _ _ h1 _ _ =>
    Res.Ensures.runs (checkedRead_runs h1 5) fun _ _ h2 _ _ =>
      Res.Ensures.runs (checkedRead_runs h2 4) fun _ _ h3 _ _ => Runs.refl h3

/-- The counts lie in the ranges of R231. -/
theorem readCounts_ok {s t : State} {c : DynCounts} (h : readCounts s = .ok c t) :
    257 ≤ c.hlit ∧ c.hlit ≤ 288 ∧ 1 ≤ c.hdist ∧ c.hdist ≤ 32 ∧ 4 ≤ c.hclen ∧ c.hclen ≤ 19 := by
  obtain ⟨a, u, ha, h⟩ := Res.andThen_eq_ok h
  obtain ⟨b, v, hb, h⟩ := Res.andThen_eq_ok h
  obtain ⟨d, w, hd, h⟩ := Res.andThen_eq_ok h
  cases h
  have h1 := checkedRead_ok_lt ha
  have h2 := checkedRead_ok_lt hb
  have h3 := checkedRead_ok_lt hd
  simp only [Nat.reducePow] at h1 h2 h3
  simp only
  omega

theorem readClLengths_runs {s : State} (hb : InBounds s) (order cl : List Nat) :
    (readClLengths order cl s).Ensures (Runs s) := by
  induction order generalizing cl s with
  | nil => exact Runs.refl hb
  | cons k order ih => exact Res.Ensures.runs (checkedRead_runs hb 3) fun v t h1 _ _ => ih h1 _

theorem readClLengths_length {order cl cl' : List Nat} {s t : State}
    (h : readClLengths order cl s = .ok cl' t) : cl'.length = cl.length := by
  induction order generalizing cl s with
  | nil => cases h; rfl
  | cons k order ih =>
    obtain ⟨v, u, _, h⟩ := Res.andThen_eq_ok h
    simpa using ih h

theorem readRun_runs {s : State} (hb : InBounds s) (sym : Nat) (lens : List Nat) :
    (readRun sym lens s).Ensures (Runs s) := by
  unfold readRun; split
  · split
    · exact Runs.refl hb
    · exact Res.Ensures.runs (checkedRead_runs hb 2) fun _ _ h _ _ => Runs.refl h
  · split
    · exact Res.Ensures.runs (checkedRead_runs hb 3) fun _ _ h _ _ => Runs.refl h
    · exact Res.Ensures.runs (checkedRead_runs hb 7) fun _ _ h _ _ => Runs.refl h

/-- A run repeats at least three times (R235, R236). -/
theorem readRun_ok {sym : Nat} {lens : List Nat} {s t : State} {r : Nat × Nat}
    (h : readRun sym lens s = .ok r t) : 3 ≤ r.1 := by
  unfold readRun at h; split at h
  · split at h
    · exact nomatch h
    · obtain ⟨x, u, _, h⟩ := Res.andThen_eq_ok h; cases h; simp
  · split at h
    · obtain ⟨x, u, _, h⟩ := Res.andThen_eq_ok h; cases h; simp
    · obtain ⟨x, u, _, h⟩ := Res.andThen_eq_ok h; cases h; simp only; omega

theorem readLengths_runs {s : State} (hb : InBounds s) (total fuel : Nat) (lens : List Nat) :
    (readLengths total fuel lens s).Ensures (Runs s) := by
  induction fuel generalizing lens s with
  | zero => exact Runs.refl hb
  | succ fuel ih =>
    rw [readLengths]; split
    · refine Res.Ensures.runs (decodeSymbol_runs hb _) fun sym t ht _ _ => ?_
      split
      · exact ih ht _
      · refine Res.Ensures.runs (readRun_runs ht _ _) fun r u hu _ _ => ?_
        split
        · exact Runs.refl hu
        · exact ih hu _
    · exact Runs.refl hb

/-- The run-length loop fills the combined array exactly (R233, R237): its fuel is never short. -/
theorem readLengths_ok {total fuel : Nat} {lens l : List Nat} {s t : State}
    (h : readLengths total fuel lens s = .ok l t) (hle : lens.length ≤ total) (hf : total ≤ lens.length + fuel) :
    l.length = total := by
  induction fuel generalizing lens s with
  | zero => cases h; omega
  | succ fuel ih =>
    rw [readLengths] at h; split at h
    · obtain ⟨sym, u, _, h⟩ := Res.andThen_eq_ok h
      split at h
      · exact ih h (by simp; omega) (by simp; omega)
      · obtain ⟨r, v, hr, h⟩ := Res.andThen_eq_ok h
        have h3 := readRun_ok hr
        split at h
        · exact nomatch h
        · exact ih h (by simp; omega) (by simp; omega)
    · cases h; omega

theorem length_litlenPart_le {hlit : Nat} (h : hlit ≤ 288) (lens : List Nat) :
    (litlenPart hlit lens).length ≤ 288 := by
  simp only [litlenPart, List.length_append, List.length_take, List.length_replicate]; omega

theorem length_distPart_le {hlit hdist : Nat} (h : hdist ≤ 32) (lens : List Nat) :
    (distPart hlit hdist lens).length ≤ 32 := by
  simp only [distPart, List.length_append, List.length_take, List.length_replicate]; omega

theorem buildDynTrees_runs {s : State} (hb : InBounds s) {c : DynCounts} (h1 : c.hlit ≤ 288)
    (h2 : c.hdist ≤ 32) (lens : List Nat) : (buildDynTrees c lens s).Ensures (Runs s) := by
  unfold buildDynTrees; split
  · exact Runs.refl hb
  · exact Res.Ensures.runs (treeCommit_runs hb .ll (length_litlenPart_le h1 lens)) fun _ _ h _ _ =>
      treeCommit_runs h .d (length_distPart_le h2 lens)

theorem readDynTrees_runs {s : State} (hb : InBounds s) : (readDynTrees s).Ensures (Runs s) := by
  refine Res.Ensures.runs (readCounts_runs hb) fun c t1 h1 _ hc => ?_
  have hr := readCounts_ok hc
  refine Res.Ensures.runs (readClLengths_runs h1 _ _) fun cl t2 h2 _ hcl => ?_
  refine Res.Ensures.runs (treeCommit_runs h2 .cl ?_) fun _ t3 h3 _ _ => ?_
  · rw [readClLengths_length hcl]; simp [numcodes]
  · exact Res.Ensures.runs (readLengths_runs h3 _ _ _) fun lens t4 h4 _ _ =>
      buildDynTrees_runs h4 hr.2.1 hr.2.2.2.1 lens

/-! ### The block inflator -/

/-- An output write moves neither cursor. -/
theorem dstWrite_cursors (i : Nat) (v : Byte) (s : State) :
    (dstWrite i v s).Ensures fun t => t.outpos = s.outpos ∧ t.bitpos = s.bitpos :=
  (dmaWrite_ensures _ v s).mono fun t ⟨u, ⟨d, x, hu⟩, ht⟩ => by
    subst hu; rcases ht with rfl | ⟨w, rfl⟩ <;> exact ⟨rfl, rfl⟩

theorem Res.Ensures.and {α : Type} {P Q : State → Prop} {r : Res α} (h : r.Ensures P) (k : r.Ensures Q) :
    r.Ensures fun t => P t ∧ Q t := by
  cases r with
  | ok a s => exact ⟨h, k⟩
  | fail x s => exact ⟨h, k⟩
  | refuse x => trivial

theorem outpos_of_dstWrite_ok {s t : State} {i : Nat} {v : Byte} {u : Unit} (h : dstWrite i v s = .ok u t) :
    t.outpos = s.outpos := by
  have := dstWrite_cursors i v s
  rw [h] at this; exact this.1

theorem storedCopy_runs {s : State} (hb : InBounds s) (start n k : Nat)
    (h : s.outpos.toNat + k + n ≤ s.dstCap.toNat) :
    (storedCopy start n k s).Ensures fun t =>
      Runs s t ∧ t.outpos = s.outpos ∧ t.bitpos = s.bitpos := by
  induction n generalizing k s with
  | zero => exact ⟨Runs.refl hb, rfl, rfl⟩
  | succ n ih =>
    refine Res.Ensures.andThen (R := fun s t => Runs s t ∧ t.outpos = s.outpos ∧ t.bitpos = s.bitpos)
      (fun h k => ⟨h.1.trans k.1, k.2.1.trans h.2.1, k.2.2.trans h.2.2⟩) (s := s) ?_ fun b t ht _ => ?_
    · exact (src_drawn _ s).mono fun t hd => ⟨runs_of_drawn hb hd, by obtain ⟨d, x, rfl⟩ := hd; exact ⟨rfl, rfl⟩⟩
    · obtain ⟨hr, ho, hp⟩ := ht
      have hcap := hr.keeps.operands.dstCap
      refine Res.Ensures.andThen (R := fun s t => Runs s t ∧ t.outpos = s.outpos ∧ t.bitpos = s.bitpos)
        (fun h k => ⟨h.1.trans k.1, k.2.1.trans h.2.1, k.2.2.trans h.2.2⟩) (s := t) ?_ fun _ u hu hw => ?_
      · exact (dstWrite_runs hr.bounds (i := t.outpos.toNat + k) (Nat.le_add_right _ _)
          (by rw [ho, hcap]; omega) b).and (dstWrite_cursors _ b t)
      · have e1 := hu.2.1
        have e2 := hu.1.keeps.operands.dstCap
        exact ih hu.1.bounds (k + 1) (by rw [e1, e2, ho, hcap]; omega)

theorem src16_runs {s : State} (hb : InBounds s) (p : Nat) : (src16 p s).Ensures (Runs s) :=
  (src16_drawn p s).mono fun _ => runs_of_drawn hb

theorem storedFrom_runs {s : State} (hb : InBounds s) {p : Nat} (hp : s.bitpos.toNat ≤ 8 * p) :
    (storedFrom p s).Ensures (Runs s) := by
  unfold storedFrom; split
  · exact Runs.refl hb
  · refine Res.Ensures.andThen Runs.trans ((src16_runs hb p)) fun len t ht hlen => ?_
    have hd1 := src16_drawn p s
    rw [hlen] at hd1
    obtain ⟨d1, x1, rfl⟩ := hd1
    refine Res.Ensures.andThen Runs.trans ((src16_runs ht.bounds _)) fun nlen u hu hnlen => ?_
    have hd2 := src16_drawn (p + 2) { s with draws := d1, merging := x1 }
    rw [hnlen] at hd2
    obtain ⟨d2, x2, rfl⟩ := hd2
    have hbu := hu.bounds
    split
    · exact Runs.refl hbu
    · split
      · exact Runs.refl hbu
      · split
        · exact Runs.refl hbu
        · rename_i hin hout
          simp only [Nat.not_lt] at hin hout
          have hc := storedCopy_runs hbu (p + 4) len 0 (by simpa using hout)
          refine Res.Ensures.andThen (R := Runs) Runs.trans (hc.mono fun _ h => h.1) fun _ v hv hres => ?_
          rw [hres] at hc
          obtain ⟨hr, ho, hpos⟩ := hc
          have e1 := hr.keeps.operands.dstCap
          have e2 := hr.keeps.operands.srcLen
          simp only at ho hpos e1 e2
          have r1 : Runs v (v.setOutpos (v.outpos.toNat + len)) :=
            runs_setOutpos hr.bounds (Nat.le_add_right _ _) (by rw [ho, e1]; exact hout)
          refine r1.trans (runs_setBitpos r1.bounds ?_ ?_)
          · simp only [State.setOutpos_bitpos, hpos]; omega
          · simp only [State.setOutpos_srcLen, e2]; omega

theorem storedBody_runs {s : State} (hb : InBounds s) : (storedBody s).Ensures (Runs s) := by
  unfold storedBody
  have h1 : s.bitpos.toNat ≤ 8 * ((s.bitpos.toNat + 7) / 8) := by omega
  have h2 : 8 * ((s.bitpos.toNat + 7) / 8) ≤ 8 * s.srcLen.toNat := by have := hb.bitpos_le; omega
  have hr := runs_setBitpos hb h1 h2
  refine (storedFrom_runs hr.bounds ?_).mono fun t ht => hr.trans ht
  have hsl := hb.srcLen_le
  simp only [Config.srcLenMax] at hsl
  simp only [State.setBitpos_bitpos, BitVec.toNat_ofNat]; omega

theorem literal_runs {s : State} (hb : InBounds s) (sym : Nat) : (literal sym s).Ensures (Runs s) := by
  unfold literal; split
  · exact Runs.refl hb
  · rename_i hlt
    refine Res.Ensures.runs (dstWrite_runs hb le_rfl (by omega) _) fun _ t hbt hr hw => ?_
    have h1 := outpos_of_dstWrite_ok hw
    have h2 := hr.keeps.operands.dstCap
    rw [Res.ensures_ok]
    exact runs_setOutpos hbt (Nat.le_add_right _ _) (by rw [h1, h2]; omega)

theorem lzLoop_runs {s : State} (hb : InBounds s) (start dist n back : Nat)
    (h : s.outpos.toNat + n ≤ s.dstCap.toNat) : (lzLoop start dist n back s).Ensures (Runs s) := by
  induction n generalizing back s with
  | zero => exact Runs.refl hb
  | succ n ih =>
    rw [lzLoop]
    refine Res.Ensures.andThen Runs.trans (dst_runs hb back) fun b t ht hres => ?_
    have hd := dst_drawn back s
    rw [hres] at hd
    obtain ⟨d, x, rfl⟩ := hd
    refine Res.Ensures.runs (dstWrite_runs ht.bounds le_rfl (by simp only; omega) _) fun _ u hbu hr hw => ?_
    have h1 := outpos_of_dstWrite_ok hw
    have h2 := hr.keeps.operands.dstCap
    simp only at h1 h2
    have hlt : u.outpos.toNat + 1 ≤ u.dstCap.toNat := by rw [h1, h2]; omega
    have r := runs_setOutpos hbu (p := u.outpos.toNat + 1) (Nat.le_add_right _ _) hlt
    refine (ih r.bounds _ ?_).mono fun v hv => r.trans hv
    have : u.outpos.toNat + 1 < 2 ^ 32 := lt_of_le_of_lt hlt u.dstCap.isLt
    simp only [State.setOutpos_outpos, State.setOutpos_dstCap, BitVec.toNat_ofNat, Nat.mod_eq_of_lt this]
    rw [h1, h2]; omega

theorem checkedCopy_runs {s : State} (hb : InBounds s) (length dist : Nat) :
    (checkedCopy length dist s).Ensures (Runs s) := by
  unfold checkedCopy; split
  · exact Runs.refl hb
  · split
    · exact Runs.refl hb
    · exact lzLoop_runs hb _ _ _ _ (by omega)

/-- Stated of a name `r` for the outcome: the elaborator must not evaluate the table lookup. -/
theorem readLength_runs {s : State} (hb : InBounds s) {sym : Nat} {r : Res Nat} (h : readLength sym s = r) :
    r.Ensures (Runs s) := by
  subst h; unfold readLength
  generalize lengthExtra.getD (sym - 257) 0 = n
  generalize lengthBase.getD (sym - 257) 0 = b
  exact Res.Ensures.runs (checkedRead_runs hb n) fun _ _ h _ _ => Runs.refl h

theorem readDistance_runs {s : State} (hb : InBounds s) (td : TreeSel) :
    (readDistance td s).Ensures (Runs s) := by
  unfold readDistance
  refine Res.Ensures.runs (decodeSymbol_runs hb td) fun dsym u hu _ _ => ?_
  split
  · exact Runs.refl hu
  · generalize distanceExtra.getD dsym 0 = n
    generalize distanceBase.getD dsym 0 = b
    exact Res.Ensures.runs (checkedRead_runs hu n) fun _ _ h _ _ => Runs.refl h

/-- Stated of a name `r` for the outcome, as `readLength_runs` is. -/
theorem backRef_runs {s : State} (hb : InBounds s) {sym : Nat} {td : TreeSel} {r : Res Unit}
    (h : backRef sym td s = r) : r.Ensures (Runs s) := by
  subst h; unfold backRef
  generalize h1 : readLength sym s = r
  refine Res.Ensures.runs (readLength_runs hb h1) fun length t ht _ _ => ?_
  exact Res.Ensures.runs (readDistance_runs ht td) fun dist u hu _ _ => checkedCopy_runs hu length dist

theorem huffmanLoop_runs {s : State} (hb : InBounds s) (tll td : TreeSel) (fuel : Nat) :
    (huffmanLoop tll td fuel s).Ensures (Runs s) := by
  induction fuel generalizing s with
  | zero =>
    rw [huffmanLoop]
    exact Res.Ensures.runs (decodeSymbol_runs hb tll) fun _ _ h _ _ => Runs.refl h
  | succ fuel ih =>
    rw [huffmanLoop]
    refine Res.Ensures.runs (decodeSymbol_runs hb tll) fun sym t ht _ _ => ?_
    split
    · exact Res.Ensures.runs (literal_runs ht sym) fun _ _ h _ _ => ih h
    · split
      · exact Runs.refl ht
      · split
        · generalize h1 : backRef sym td t = r
          exact Res.Ensures.runs (backRef_runs ht h1) fun _ _ h _ _ => ih h
        · exact Runs.refl ht

theorem huffmanBody_runs {s : State} (hb : InBounds s) (tll td : TreeSel) :
    (huffmanBody tll td s).Ensures (Runs s) := huffmanLoop_runs hb tll td _

theorem blockBody_runs {s : State} (hb : InBounds s) (btype : Nat) : (blockBody btype s).Ensures (Runs s) := by
  unfold blockBody; split
  · exact storedBody_runs hb
  · split
    · exact huffmanBody_runs hb _ _
    · split
      · exact Res.Ensures.runs (readDynTrees_runs hb) fun _ _ h _ _ => huffmanBody_runs h _ _
      · exact Runs.refl hb

theorem inflateOne_runs {s : State} (hb : InBounds s) : (inflateOne s).Ensures (Runs s) := by
  refine Res.Ensures.runs (checkedRead_runs hb 1) fun bfinal t ht _ _ => ?_
  refine Res.Ensures.runs (checkedRead_runs ht 2) fun btype u hu _ _ => ?_
  have h1 := runs_setHeader hu bfinal btype
  refine Res.Ensures.runs ((blockBody_runs h1.bounds btype).mono fun v hv => h1.trans hv) fun _ v hv _ _ => ?_
  exact runs_setStreamEnd hv _

theorem inflateLoop_runs {s : State} (hb : InBounds s) (fuel : Nat) : (inflateLoop fuel s).Ensures (Runs s) := by
  induction fuel generalizing s with
  | zero => exact Res.Ensures.runs (inflateOne_runs hb) fun _ _ h _ _ => Runs.refl h
  | succ fuel ih =>
    rw [inflateLoop]
    refine Res.Ensures.runs (inflateOne_runs hb) fun _ t ht _ _ => ?_
    split
    · exact Runs.refl ht
    · exact ih ht

/-! ### The unfilter -/

/-- From `s`, an unfilter procedure can reach `t`: only output bytes and the draw counter change. -/
structure Paints (s t : State) : Prop where
  keeps : ProcKeeps s t
  trees : SameTrees s t
  status : SameBlockStatus s t
  bitpos : t.bitpos = s.bitpos
  outpos : t.outpos = s.outpos
  bytes : WritesOnlyOutput s t
  mem_wf : s.dstBase.toNat + s.dstCap.toNat ≤ Config.addrSpace → s.mem.wf = true → t.mem.wf = true

theorem inOutput_congr {s t : State} (h : SameOperands s t) (a : Nat) : inOutput t a = inOutput s a := by
  simp [inOutput, h.dstBase, h.dstCap]

theorem Paints.refl (s : State) : Paints s s :=
  ⟨.refl s, .refl s, .refl s, rfl, rfl, fun _ _ => rfl, fun _ h => h⟩

theorem Paints.trans {s t u : State} (h : Paints s t) (k : Paints t u) : Paints s u where
  keeps := h.keeps.trans k.keeps
  trees := h.trees.trans k.trees
  status := h.status.trans k.status
  bitpos := k.bitpos.trans h.bitpos
  outpos := k.outpos.trans h.outpos
  bytes a ha := by
    rw [k.bytes a (by rw [inOutput_congr h.keeps.operands]; exact ha), h.bytes a ha]
  mem_wf hd hm := k.mem_wf (by rw [h.keeps.operands.dstBase, h.keeps.operands.dstCap]; exact hd) (h.mem_wf hd hm)

theorem paints_of_drawn {s t : State} (h : Drawn s t) : Paints s t := by
  have hk := procKeeps_of_drawn h
  obtain ⟨d, x, rfl⟩ := h
  exact ⟨hk, by constructor <;> rfl, by constructor <;> rfl, rfl, rfl, fun _ _ => rfl, fun _ h => h⟩

theorem paints_setMem {s : State} {i : Nat} (hi : i < s.dstCap.toNat) (v : Byte) :
    Paints s (s.setMem (s.mem.write (s.dstBase.toNat + i) v)) := by
  refine ⟨procKeeps_setMem _ _, sameTrees_setMem _ _, sameBlockStatus_setMem _ _, rfl, rfl, ?_, ?_⟩
  · intro a ha
    have : a ≠ s.dstBase.toNat + i := by
      rintro rfl; simp [inOutput, hi] at ha
    simp [this]
  · intro hd hm; exact Memory.wf_write hm (by omega) v

theorem dstWrite_paints {s : State} {i : Nat} (hi : i < s.dstCap.toNat) (v : Byte) :
    (dstWrite i v s).Ensures (Paints s) :=
  (dmaWrite_ensures (s.dstBase.toNat + i) v s).mono fun t ⟨u, hu, ht⟩ => by
    have hp := paints_of_drawn hu
    obtain ⟨d, x, rfl⟩ := hu
    rcases ht with rfl | ⟨w, rfl⟩
    · exact hp
    · exact hp.trans (paints_setMem (s := { s with draws := d, merging := x }) hi w)

theorem unfilterByte_paints {g : Geometry} {s : State} (ft : Nat) {y i : Nat}
    (h : y * g.lb + i < s.dstCap.toNat) : (unfilterByte g ft y i s).Ensures (Paints s) := by
  refine Res.Ensures.andThen Paints.trans ((src_drawn _ s).mono fun t => paints_of_drawn) fun x t1 h1 _ => ?_
  refine Res.Ensures.andThen Paints.trans ((neighbour_drawn _ _ t1).mono fun t => paints_of_drawn)
    fun a t2 h2 _ => ?_
  refine Res.Ensures.andThen Paints.trans ((neighbour_drawn _ _ t2).mono fun t => paints_of_drawn)
    fun b t3 h3 _ => ?_
  refine Res.Ensures.andThen Paints.trans ((neighbour_drawn _ _ t3).mono fun t => paints_of_drawn)
    fun c t4 h4 _ => ?_
  refine dstWrite_paints ?_ _
  rw [h4.keeps.operands.dstCap, h3.keeps.operands.dstCap, h2.keeps.operands.dstCap, h1.keeps.operands.dstCap]
  exact h

theorem unfilterBytes_paints {g : Geometry} {s : State} (ft : Nat) {y : Nat} (n i : Nat)
    (h : y * g.lb + i + n ≤ s.dstCap.toNat) : (unfilterBytes g ft y n i s).Ensures (Paints s) := by
  induction n generalizing i s with
  | zero => exact Paints.refl s
  | succ n ih =>
    refine Res.Ensures.andThen Paints.trans (unfilterByte_paints ft (by omega)) fun _ t ht _ => ?_
    exact ih _ (by rw [ht.keeps.operands.dstCap]; omega)

theorem unfilterLine_paints {g : Geometry} {s : State} {y : Nat} (h : y * g.lb + g.lb ≤ s.dstCap.toNat) :
    (unfilterLine g y s).Ensures (Paints s) := by
  unfold unfilterLine; split
  · exact Paints.refl s
  · refine Res.Ensures.andThen Paints.trans ((src_drawn _ s).mono fun t => paints_of_drawn) fun ft t ht _ => ?_
    split
    · exact Paints.refl t
    · exact unfilterBytes_paints _ _ _ (by rw [ht.keeps.operands.dstCap]; omega)

theorem unfilterLines_paints {g : Geometry} {s : State} (n y : Nat) (h : (y + n) * g.lb ≤ s.dstCap.toNat) :
    (unfilterLines g n y s).Ensures (Paints s) := by
  induction n generalizing y s with
  | zero => exact Paints.refl s
  | succ n ih =>
    have h1 : y * g.lb + g.lb ≤ s.dstCap.toNat := by
      have : (y + 1) * g.lb ≤ (y + (n + 1)) * g.lb := Nat.mul_le_mul_right _ (by omega)
      rw [Nat.add_mul, Nat.one_mul] at this; omega
    refine Res.Ensures.andThen Paints.trans (unfilterLine_paints h1) fun _ t ht _ => ?_
    exact ih _ (by rw [ht.keeps.operands.dstCap]; rwa [show y + 1 + n = y + (n + 1) by omega])

/-- The geometry check gives the bounds of R302. -/
theorem unfGeometry_ok {s t : State} {g : Geometry} (h : unfGeometry s = .ok g t) :
    t = s ∧ g = geometry s ∧ 1 ≤ s.unfBpp.toNat ∧ s.unfBpp.toNat ≤ Config.unfBppMax
      ∧ s.unfHeight.toNat * (g.lb + 1) ≤ s.srcLen.toNat ∧ s.unfHeight.toNat * g.lb ≤ s.dstCap.toNat := by
  unfold unfGeometry at h
  split at h
  · exact nomatch h
  · split at h
    · exact nomatch h
    · cases h
      rename_i h1 h2
      refine ⟨rfl, rfl, ?_, ?_, ?_, ?_⟩ <;> omega

end Machine
end Sys2Proof
end

