-- ==== Sys2Proof/Laws/Source.lean ====
section
/-! SUPPORT. What stands in the stream depends on the source bytes alone, and a command that writes only its output
region, which the region check keeps disjoint from the source, leaves it as it is (R93, R95). -/

namespace Sys2Proof
namespace Machine

/-- The source region is the same and holds the same bytes. -/
structure SameSource (s t : State) : Prop where
  base : t.srcBase = s.srcBase
  len : t.srcLen = s.srcLen
  bytes : ∀ i, i < s.srcLen.toNat → srcByte t i = srcByte s i

theorem SameSource.refl (s : State) : SameSource s s := ⟨rfl, rfl, fun _ _ => rfl⟩

theorem SameSource.symm {s t : State} (h : SameSource s t) : SameSource t s :=
  ⟨h.base.symm, h.len.symm, fun i hi => (h.bytes i (by rwa [h.len] at hi)).symm⟩

/-- The regions of a command that passed its check share no byte. -/
theorem not_inOutput_of_ready {b : Bool} {s : State} (h : regionsBad b s = false) {i : Nat}
    (hi : i < s.srcLen.toNat) : inOutput s (s.srcBase.toNat + i) = false := by
  obtain ⟨_, _, _, h4, _⟩ := regions_of_ready h
  simp only [overlap, Bool.and_eq_false_iff, decide_eq_false_iff_not, Nat.not_lt] at h4
  simp only [inOutput, Bool.and_eq_false_iff, decide_eq_false_iff_not, Nat.not_le, Nat.not_lt]
  omega

/-- Memory that reads the same outside the output region holds the same source. -/
theorem sameSource_setMem {b : Bool} {s : State} (h : regionsBad b s = false) {m : Memory}
    (hm : ∀ a, inOutput s a = false → m.read a = s.mem.read a) : SameSource s (s.setMem m) :=
  ⟨rfl, rfl, fun _ hi => hm _ (not_inOutput_of_ready h hi)⟩

section Congr

variable {s t : State}

theorem bitAt_congr (h : SameSource s t) {p : Nat} (hp : p < 8 * s.srcLen.toNat) : bitAt t p = bitAt s p := by
  simp only [bitAt, h.bytes (p / 8) (by omega)]

theorem fieldAt_congr (h : SameSource s t) {p n : Nat} (hp : p + n ≤ 8 * s.srcLen.toNat) :
    fieldAt t p n = fieldAt s p n := by
  induction n generalizing p with
  | zero => rfl
  | succ n ih => simp only [fieldAt, bitAt_congr h (show p < 8 * s.srcLen.toNat by omega), ih (p := p + 1) (by omega)]

theorem symFrom_congr (h : SameSource s t) (T : List Nat) (N : Nat) {n node p : Nat}
    (hp : p + n ≤ 8 * s.srcLen.toNat) : symFrom T N t n node p = symFrom T N s n node p := by
  induction n generalizing node p with
  | zero => rfl
  | succ n ih =>
    simp only [symFrom, bitAt_congr h (show p < 8 * s.srcLen.toNat by omega)]
    split
    · rfl
    · exact ih (by omega)

theorem symAt_congr (h : SameSource s t) (T : List Nat) (N p : Nat) : symAt T N t p = symAt T N s p := by
  simp only [symAt, h.len]
  by_cases hp : p ≤ 8 * s.srcLen.toNat
  · exact symFrom_congr h T N (by omega)
  · rw [show 8 * s.srcLen.toNat - p = 0 by omega]; rfl

end Congr

theorem symFrom_some {T : List Nat} {N : Nat} {s : State} {n node p v q : Nat}
    (h : symFrom T N s n node p = some (v, q)) : p < q ∧ q ≤ p + n ∧ v < N := by
  induction n generalizing node p with
  | zero => exact nomatch h
  | succ n ih =>
    rw [symFrom] at h; split at h
    · cases h; exact ⟨by omega, by omega, by assumption⟩
    · have := ih h; omega

/-- A symbol that stands in the stream takes at least one bit, and all its bits lie in the source. -/
theorem symAt_some {T : List Nat} {N : Nat} {s : State} {p v q : Nat} (h : symAt T N s p = some (v, q)) :
    p < q ∧ q ≤ 8 * s.srcLen.toNat ∧ v < N := by
  have hf := symFrom_some h
  refine ⟨hf.1, ?_, hf.2.2⟩
  by_cases hp : p ≤ 8 * s.srcLen.toNat
  · omega
  · rw [symAt, show 8 * s.srcLen.toNat - p = 0 by omega] at h; exact nomatch h

section Congr

variable {s t : State}

theorem tokenAt_congr (h : SameSource s t) (Tll Td : List Nat) {a : Token} {p q : Nat}
    (ht : tokenAt Tll Td s a p q) : tokenAt Tll Td t a p q := by
  cases a with
  | literal b => exact ⟨ht.1, by rw [symAt_congr h]; exact ht.2⟩
  | copy len dist =>
    obtain ⟨sym, p1, dsym, p2, h1, h2, h3, h4, h5, h6, h7, h8, h9⟩ := ht
    have hp := symAt_some h5
    refine ⟨sym, p1, dsym, p2, by rw [symAt_congr h]; exact h1, h2, h3, ?_, by rw [symAt_congr h]; exact h5, h6,
      ?_, by rw [h.len]; exact h8, h9⟩
    · rw [h4, fieldAt_congr h (by omega)]
    · rw [h7, fieldAt_congr h h8]

theorem tokensTo_congr (h : SameSource s t) (Tll Td : List Nat) {ts : List Token} {p q : Nat}
    (ht : tokensTo Tll Td s ts p q) : tokensTo Tll Td t ts p q := by
  induction ts generalizing p with
  | nil => exact ht
  | cons a ts ih => obtain ⟨p1, h1, h2⟩ := ht; exact ⟨p1, tokenAt_congr h _ _ h1, ih h2⟩

theorem tokensAt_congr (h : SameSource s t) (Tll Td : List Nat) {ts : List Token} {p q : Nat}
    (ht : tokensAt Tll Td s ts p q) : tokensAt Tll Td t ts p q := by
  obtain ⟨p1, h1, h2⟩ := ht
  exact ⟨p1, tokensTo_congr h _ _ h1, by rw [symAt_congr h]; exact h2⟩

theorem lengthsAt_congr (h : SameSource s t) (Tcl : List Nat) {syms lens : List Nat} {p : Nat} {out : List Nat}
    {q : Nat} (ht : lengthsAt Tcl s syms lens p out q) : lengthsAt Tcl t syms lens p out q := by
  induction syms generalizing lens p with
  | nil => exact ht
  | cons sym syms ih =>
    obtain ⟨p1, h1, h2, h3, h4, h5⟩ := ht
    refine ⟨p1, by rw [symAt_congr h]; exact h1, h2, h3, by rw [h.len]; exact h4, ?_⟩
    rw [fieldAt_congr h h4]; exact ih h5

theorem clLengthsAt_congr (h : SameSource s t) {order : List Nat} {p : Nat} (cl : List Nat)
    (hp : p + 3 * order.length ≤ 8 * s.srcLen.toNat) : clLengthsAt t order p cl = clLengthsAt s order p cl := by
  induction order generalizing p cl with
  | nil => rfl
  | cons k order ih =>
    simp only [List.length_cons] at hp
    simp only [clLengthsAt, fieldAt_congr h (show p + 3 ≤ 8 * s.srcLen.toNat by omega)]
    exact ih _ (by omega)

theorem dynTreesAt_congr (h : SameSource s t) {T : DynTables} {p q : Nat} (ht : dynTreesAt s T p q) :
    dynTreesAt t T p q := by
  obtain ⟨hlit, hdist, hclen, syms, lens, h1, h2, h3, h4, h5, h6, h7⟩ := ht
  refine ⟨hlit, hdist, hclen, syms, lens, ?_, ?_, ?_, by rw [h.len]; exact h4, ?_, lengthsAt_congr h _ h6, h7⟩
  · rw [h1, fieldAt_congr h (by omega)]
  · rw [h2, fieldAt_congr h (by omega)]
  · rw [h3, fieldAt_congr h (by omega)]
  · rw [clLengthsAt_congr h, h5]
    simp only [List.length_take]; omega

theorem halfAt_congr (h : SameSource s t) {i : Nat} (hi : i + 2 ≤ s.srcLen.toNat) : halfAt t i = halfAt s i := by
  simp only [halfAt, h.bytes i (by omega), h.bytes (i + 1) (by omega)]

theorem srcBytes_congr (h : SameSource s t) {i n : Nat} (hi : i + n ≤ s.srcLen.toNat) :
    srcBytes t i n = srcBytes s i n := by
  simp only [srcBytes]
  exact List.map_congr_left fun k hk => h.bytes _ (by have := List.mem_range.1 hk; omega)

theorem bodyAt_congr (h : SameSource s t) {cap : Nat} {out : List Byte} {p : Nat} {b : Block} {out' : List Byte}
    {q : Nat} (hb : bodyAt s cap out p b out' q) : bodyAt t cap out p b out' q := by
  cases b with
  | stored =>
    simp only [bodyAt] at hb ⊢
    have e1 := halfAt_congr h (i := (p + 7) / 8) (by omega)
    have e2 := halfAt_congr h (i := (p + 7) / 8 + 2) (by omega)
    rw [e1, e2, h.len, srcBytes_congr h (by omega)]; exact hb
  | fixed ts => exact ⟨tokensAt_congr h _ _ hb.1, hb.2⟩
  | dynamic T ts =>
    obtain ⟨p1, h1, h2, h3⟩ := hb
    exact ⟨p1, dynTreesAt_congr h h1, tokensAt_congr h _ _ h2, h3⟩

theorem blockAt_congr (h : SameSource s t) {cap : Nat} {out : List Byte} {p : Nat} {final : Bool} {b : Block}
    {out' : List Byte} {q : Nat} (hb : blockAt s cap out p final b out' q) : blockAt t cap out p final b out' q := by
  obtain ⟨h1, h2, h3, h4⟩ := hb
  exact ⟨by rw [h.len]; exact h1, by rw [fieldAt_congr h (by omega)]; exact h2,
    by rw [fieldAt_congr h (by omega)]; exact h3, bodyAt_congr h h4⟩

theorem blocksAt_congr (h : SameSource s t) {cap : Nat} {out : List Byte} {p : Nat} {bs : List Block}
    {out' : List Byte} {q : Nat} (hb : blocksAt s cap out p bs out' q) : blocksAt t cap out p bs out' q := by
  induction bs generalizing out p with
  | nil => exact hb
  | cons b bs ih =>
    rcases hb with ⟨h1, h2⟩ | ⟨out1, p1, h1, h2⟩
    · exact .inl ⟨h1, blockAt_congr h h2⟩
    · exact .inr ⟨out1, p1, blockAt_congr h h1, ih h2⟩

end Congr

end Machine
end Sys2Proof
end

