-- ==== Sys2Proof/Laws/Quiet.lean ====
section
/-! SUPPORT. What each procedure of the inflate side returns when no access can err and nothing is raced: the
symbol that stands in the stream, the copied bytes, the trees of a dynamic header, the output of a block and of a
chain of blocks. One lemma per procedure; callers cite it and unfold nothing. -/

namespace Sys2Proof
namespace Machine

/-! ### Setters -/

@[simp] theorem setBitpos_self (s : State) : s.setBitpos s.bitpos.toNat = s := by simp [State.setBitpos]
@[simp] theorem setOutpos_self (s : State) : s.setOutpos s.outpos.toNat = s := by simp [State.setOutpos]
@[simp] theorem setBitpos_setBitpos (p q : Nat) (s : State) : (s.setBitpos p).setBitpos q = s.setBitpos q := rfl
@[simp] theorem setMem_self (s : State) : s.setMem s.mem = s := rfl

theorem quiet_setBitpos {s : State} (h : Quiet s) (p : Nat) : Quiet (s.setBitpos p) := h
theorem quiet_setOutpos {s : State} (h : Quiet s) (p : Nat) : Quiet (s.setOutpos p) := h
theorem quiet_setMem {s : State} (h : Quiet s) (m : Memory) : Quiet (s.setMem m) := h

theorem quiet_of_sameOperands {s t : State} (h : SameOperands s t) (hq : Quiet s) : Quiet t := by
  refine ⟨h.busErrors.trans hq.1, h.raced.trans hq.2.1, ?_⟩
  have hc (r : Rival) : clashes t r = clashes s r := by
    simp only [clashes, h.srcBase, h.srcLen, h.dstBase, h.dstCap]
  simp only [rivalsApart, h.rivals, hc]; exact hq.2.2

theorem toNat_setBitpos {s : State} {p : Nat} (h : p < 2 ^ 32) : (s.setBitpos p).bitpos.toNat = p := by
  simp only [State.setBitpos_bitpos, BitVec.toNat_ofNat]; omega

theorem toNat_setOutpos {s : State} {p : Nat} (h : p < 2 ^ 32) : (s.setOutpos p).outpos.toNat = p := by
  simp only [State.setOutpos_outpos, BitVec.toNat_ofNat]; omega

/-! ### Symbols -/

/-- Every entry of the table leads to a symbol or to a node of the table (R59). -/
def TableFine (t : TreeSel) (s : State) : Prop := ∀ j, treeEntry t j s ≤ 2 * numcodesOf t - 2

theorem treeEntry_eq (t : TreeSel) (s : State) (j : Nat) : treeEntry t j s = (tableAt t s).getD j 0 := by
  have h (l : List (BitVec 10)) : (l.getD j 0#10).toNat = (l.map BitVec.toNat).getD j 0 := by
    simp only [List.getD_eq_getElem?_getD, List.getElem?_map]
    cases l[j]? <;> simp
  cases t with
  | ram r => cases r <;> exact h _
  | fixedLL => rfl
  | fixedD => rfl

theorem getD_le_of_all {l : List Nat} {b : Nat} (h : (l.all fun v => decide (v ≤ b)) = true) (j : Nat) :
    l.getD j 0 ≤ b := by
  rw [List.getD_eq_getElem?_getD]
  by_cases hj : j < l.length
  · rw [List.getElem?_eq_getElem hj]
    exact of_decide_eq_true (List.all_eq_true.1 h _ (List.getElem_mem hj))
  · simp [List.getElem?_eq_none (Nat.le_of_not_lt hj)]

theorem fixedLL_range : (fixedLL.all fun v => decide (v ≤ 574)) = true := by decide +kernel
theorem fixedD_range : (fixedD.all fun v => decide (v ≤ 62)) = true := by decide +kernel

theorem tableFine_fixedLL (s : State) : TableFine .fixedLL s := fun j => getD_le_of_all fixedLL_range j
theorem tableFine_fixedD (s : State) : TableFine .fixedD s := fun j => getD_le_of_all fixedD_range j

/-- A tree that is built is fine where the valid trees are in range. -/
theorem tableFine_of_built {s : State} (h : TreesInRange s) {t : TreeSel} (hb : treeBuilt t s = true) :
    TableFine t s := by
  cases t with
  | ram r =>
    intro j
    have := h r j hb
    cases r <;> exact this
  | fixedLL => exact tableFine_fixedLL s
  | fixedD => exact tableFine_fixedD s

theorem numcodesOf_pos (t : TreeSel) : 2 ≤ numcodesOf t := by
  cases t with
  | ram r => cases r <;> decide
  | fixedLL => decide
  | fixedD => decide

/-- The walk gives the symbol that stands in the stream, or takes every bit and fails (R205). -/
theorem walk_quiet {t : TreeSel} {n node : Nat} {s : State} (hq : Quiet s) (hf : TableFine t s)
    (hn : s.bitpos.toNat + n = 8 * s.srcLen.toNat) (hl : s.srcLen.toNat ≤ Config.srcLenMax) :
    walk t n node s =
      match symFrom (tableAt t s) (numcodesOf t) s n node s.bitpos.toNat with
      | some (v, q) => .ok v (s.setBitpos q)
      | none => raise .symbolExhausted (s.setBitpos (8 * s.srcLen.toNat)) := by
  induction n generalizing s node with
  | zero => rw [walk, symFrom, ← hn, Nat.add_zero, setBitpos_self]
  | succ n ih =>
    rw [walk, if_neg (by omega), readBits_quiet hq, Res.andThen_ok, symFrom]
    have hN := numcodesOf_pos t
    have hfield : fieldAt s s.bitpos.toNat 1 = bitAt s s.bitpos.toNat := by simp [fieldAt]
    have hentry (p : Nat) (j : Nat) : treeEntry t j (s.setBitpos p) = (tableAt t s).getD j 0 := by
      rw [treeEntry_eq]; cases t with
      | ram r => cases r <;> rfl
      | fixedLL => rfl
      | fixedD => rfl
    have hle := hf (2 * node + bitAt s s.bitpos.toNat)
    rw [treeEntry_eq] at hle
    simp only [hfield, hentry]
    split
    · rfl
    · rw [if_neg (by omega)]
      simp only [Config.srcLenMax] at hl
      have hp : (s.setBitpos (s.bitpos.toNat + 1)).bitpos.toNat = s.bitpos.toNat + 1 :=
        toNat_setBitpos (by omega)
      have hfs : TableFine t (s.setBitpos (s.bitpos.toNat + 1)) := fun j => by
        have := hf j; rw [treeEntry_eq] at this; rw [hentry]; exact this
      have := ih (s := s.setBitpos (s.bitpos.toNat + 1))
        (node := (tableAt t s).getD (2 * node + bitAt s s.bitpos.toNat) 0 - numcodesOf t)
        hq hfs (by rw [hp]; simp only [State.setBitpos_srcLen]; omega) hl
      rw [this, hp]
      have hs : symFrom (tableAt t (s.setBitpos (s.bitpos.toNat + 1))) (numcodesOf t)
          (s.setBitpos (s.bitpos.toNat + 1)) = symFrom (tableAt t s) (numcodesOf t) s := by
        have ht : tableAt t (s.setBitpos (s.bitpos.toNat + 1)) = tableAt t s := by
          cases t with
          | ram r => cases r <;> rfl
          | fixedLL => rfl
          | fixedD => rfl
        rw [ht]
        funext n node p
        clear * -
        induction n generalizing node p with
        | zero => rfl
        | succ n ih => simp only [symFrom, ih]; rfl
      rw [hs]
      rfl

/-- `DecodeSymbol` of a built tree (R205). -/
theorem decodeSymbol_quiet {t : TreeSel} {s : State} (hq : Quiet s) (hb : treeBuilt t s = true) (hf : TableFine t s)
    (hp : s.bitpos.toNat ≤ 8 * s.srcLen.toNat) (hl : s.srcLen.toNat ≤ Config.srcLenMax) :
    decodeSymbol t s =
      match symAt (tableAt t s) (numcodesOf t) s s.bitpos.toNat with
      | some (v, q) => .ok v (s.setBitpos q)
      | none => raise .symbolExhausted (s.setBitpos (8 * s.srcLen.toNat)) := by
  rw [decodeSymbol, if_pos hb, walk_quiet hq hf (by simp only [bitsLeft]; omega) hl]
  rfl

theorem decodeSymbol_some {t : TreeSel} {s : State} (hq : Quiet s) (hb : treeBuilt t s = true) (hf : TableFine t s)
    (hl : s.srcLen.toNat ≤ Config.srcLenMax) {v q : Nat}
    (h : symAt (tableAt t s) (numcodesOf t) s s.bitpos.toNat = some (v, q)) :
    decodeSymbol t s = .ok v (s.setBitpos q) := by
  have := symAt_some h
  rw [decodeSymbol_quiet hq hb hf (by omega) hl, h]

/-! ### Copies -/

theorem sameOutside_refl (s : State) (i j : Nat) : sameOutside s s.mem i j := fun _ _ => rfl

/-- The copier: `k` bytes are done, `n` are left, and the back pointer stands at `start - dist + k mod dist` (R259,
R260). -/
theorem lzLoop_quiet {s : State} (hq : Quiet s) {start dist k : Nat} (n : Nat) (hd : 1 ≤ dist) (hs : dist ≤ start)
    (ho : s.outpos.toNat = start + k) (hc : start + k + n ≤ s.dstCap.toNat) :
    ∃ m, lzLoop start dist n (start - dist + k % dist) s = .ok () ((s.setMem m).setOutpos (start + k + n))
      ∧ (∀ j, j < n → m.read (s.dstBase.toNat + (start + k + j)) = outByte s (start - dist + (k + j) % dist))
      ∧ sameOutside s m (start + k) (start + k + n) := by
  induction n generalizing k s with
  | zero => exact ⟨s.mem, by rw [lzLoop, Nat.add_zero, ← ho, setMem_self, setOutpos_self], by simp, fun _ _ => rfl⟩
  | succ n ih =>
    have hcap := s.dstCap.isLt
    have hmod := Nat.mod_lt k (show 0 < dist by omega)
    have hback : (if start ≤ start - dist + k % dist + 1 then start - dist else start - dist + k % dist + 1)
        = start - dist + (k + 1) % dist := by
      have hsucc : (k + 1) % dist = if k % dist + 1 = dist then 0 else k % dist + 1 := by
        rw [Nat.add_mod]
        split
        · rename_i h
          by_cases h1 : dist = 1
          · subst h1; omega
          · rw [Nat.mod_eq_of_lt (show 1 < dist by omega), h, Nat.mod_self]
        · by_cases h1 : dist = 1
          · subst h1; omega
          · rw [Nat.mod_eq_of_lt (show 1 < dist by omega), Nat.mod_eq_of_lt (by omega)]
      rw [hsucc]; split <;> split <;> omega
    rw [lzLoop, dst_quiet hq, Res.andThen_ok, dstWrite_quiet hq, Res.andThen_ok, hback]
    set u := (s.setMem (s.mem.write (s.dstBase.toNat + s.outpos.toNat)
      (outByte s (start - dist + k % dist)))).setOutpos (start + k + 1) with hu
    have hstep : State.setOutpos ((s.setMem (s.mem.write (s.dstBase.toNat + s.outpos.toNat)
        (outByte s (start - dist + k % dist)))).outpos.toNat + 1)
        (s.setMem (s.mem.write (s.dstBase.toNat + s.outpos.toNat) (outByte s (start - dist + k % dist)))) = u := by
      rw [hu, State.setMem_outpos, ho]
    rw [hstep]
    have huo : u.outpos.toNat = start + (k + 1) := by rw [hu, toNat_setOutpos (by omega)]; omega
    obtain ⟨m, h1, h2, h3⟩ := ih (s := u) (k := k + 1) hq huo (by show _ ≤ s.dstCap.toNat; omega)
    have hum (a : Nat) : u.mem.read a =
        if a = s.dstBase.toNat + (start + k) then outByte s (start - dist + k % dist) else s.mem.read a := by
      rw [hu]; simp [ho]
    have hub : u.dstBase = s.dstBase := rfl
    refine ⟨m, ?_, ?_, ?_⟩
    · rw [h1, hu, show start + (k + 1) + n = start + k + (n + 1) by omega]; rfl
    · intro j hj
      cases j with
      | zero =>
        have := h3 (s.dstBase.toNat + (start + k)) (.inl (by rw [hub]; omega))
        rw [Nat.add_zero, this, hum, if_pos rfl, Nat.add_zero]
      | succ j =>
        have h2' := h2 j (by omega)
        rw [hub, show start + (k + 1) + j = start + k + (j + 1) by omega,
          show k + 1 + j = k + (j + 1) by omega] at h2'
        rw [h2']
        have hlt := Nat.mod_lt (k + (j + 1)) (show 0 < dist by omega)
        show u.mem.read (u.dstBase.toNat + _) = _
        rw [hum, hub, if_neg (by omega)]; rfl
    · intro a ha
      rw [h3 a (by rw [hub]; omega), hum, if_neg (by omega)]

/-- The LZ77 copy in closed form (R260). -/
theorem lzCopy_quiet {s : State} (hq : Quiet s) {length dist : Nat} (hd : 1 ≤ dist) (hs : dist ≤ s.outpos.toNat)
    (hc : s.outpos.toNat + length ≤ s.dstCap.toNat) :
    ∃ m, lzCopy length dist s = .ok () ((s.setMem m).setOutpos (s.outpos.toNat + length))
      ∧ (∀ j, j < length →
          m.read (s.dstBase.toNat + (s.outpos.toNat + j)) = outByte s (s.outpos.toNat - dist + j % dist))
      ∧ sameOutside s m s.outpos.toNat (s.outpos.toNat + length) := by
  have := lzLoop_quiet hq (start := s.outpos.toNat) (k := 0) length hd hs rfl (by simpa using hc)
  simpa only [Nat.zero_mod, Nat.add_zero, Nat.zero_add, lzCopy] using this

/-- The stored copy (R252): the source bytes in order. -/
theorem storedCopy_quiet {s : State} (hq : Quiet s) (hr : regionsBad false s = false) {start : Nat} (n k : Nat)
    (hsrc : start + k + n ≤ s.srcLen.toNat) (hc : s.outpos.toNat + k + n ≤ s.dstCap.toNat) :
    ∃ m, storedCopy start n k s = .ok () (s.setMem m)
      ∧ (∀ j, j < n → m.read (s.dstBase.toNat + (s.outpos.toNat + k + j)) = srcByte s (start + k + j))
      ∧ sameOutside s m (s.outpos.toNat + k) (s.outpos.toNat + k + n) := by
  induction n generalizing k s with
  | zero => exact ⟨s.mem, rfl, by simp, fun _ _ => rfl⟩
  | succ n ih =>
    rw [storedCopy, src_quiet hq, Res.andThen_ok, dstWrite_quiet hq, Res.andThen_ok]
    have hss : SameSource s (s.setMem (s.mem.write (s.dstBase.toNat + (s.outpos.toNat + k))
        (srcByte s (start + k)))) := by
      refine sameSource_setMem hr fun a ha => ?_
      rw [Memory.read_write, if_neg]
      rintro rfl
      simp only [inOutput, Bool.and_eq_false_iff, decide_eq_false_iff_not] at ha
      omega
    obtain ⟨m, h1, h2, h3⟩ := ih (s := s.setMem (s.mem.write (s.dstBase.toNat + (s.outpos.toNat + k))
      (srcByte s (start + k)))) hq hr (k + 1) (by simp only [State.setMem_srcLen]; omega)
      (by simp only [State.setMem_outpos, State.setMem_dstCap]; omega)
    refine ⟨m, h1, ?_, ?_⟩
    · intro j hj
      cases j with
      | zero =>
        have := h3 (s.dstBase.toNat + (s.outpos.toNat + k))
          (.inl (by simp only [State.setMem_dstBase, State.setMem_outpos]; omega))
        rw [Nat.add_zero, this]; simp
      | succ j =>
        have h2' := h2 j (by omega)
        rw [hss.bytes _ (by omega)] at h2'
        simp only [State.setMem_dstBase, State.setMem_outpos] at h2'
        rw [show s.outpos.toNat + k + (j + 1) = s.outpos.toNat + (k + 1) + j by omega, h2']
        congr 1; omega
    · intro a ha
      rw [h3 a (by simp only [State.setMem_dstBase, State.setMem_outpos]; omega), State.setMem_mem,
        Memory.read_write, if_neg (by omega)]

end Machine
end Sys2Proof
end

