-- ==== Sys2Proof/Laws/Blocks.lean ====
section
/-! SUPPORT. What a Huffman body, a dynamic header, a block and a chain of blocks do in a quiet state, from what
stands in the stream (R230 to R239, R250 to R259, R282). -/

namespace Sys2Proof
namespace Machine

/-- Memory, output position and bit cursor moved on together. -/
@[simps]
def State.advance (m : Memory) (n q : Nat) (s : State) : State :=
  { s with mem := m, outpos := BitVec.ofNat 32 n, bitpos := BitVec.ofNat 32 q }

theorem sameSource_setBitpos (s : State) (q : Nat) : SameSource s (s.setBitpos q) := ⟨rfl, rfl, fun _ _ => rfl⟩

theorem regionsBad_false_congr {s t : State} (h : SameOperands s t) : regionsBad false t = regionsBad false s := by
  simp [regionsBad, h.srcBase, h.srcLen, h.dstBase, h.dstCap]

theorem sameOperands_advance (m : Memory) (n q : Nat) (s : State) : SameOperands s (s.advance m n q) := by
  constructor <;> rfl

theorem tableAt_advance (t : TreeSel) (m : Memory) (n q : Nat) (s : State) :
    tableAt t (s.advance m n q) = tableAt t s := by
  cases t with
  | ram r => cases r <;> rfl
  | fixedLL => rfl
  | fixedD => rfl

theorem treeBuilt_advance (t : TreeSel) (m : Memory) (n q : Nat) (s : State) :
    treeBuilt t (s.advance m n q) = treeBuilt t s := by
  cases t with
  | ram r => cases r <;> rfl
  | fixedLL => rfl
  | fixedD => rfl

theorem tableFine_advance {t : TreeSel} {s : State} (h : TableFine t s) (m : Memory) (n q : Nat) :
    TableFine t (s.advance m n q) := fun j => by
  rw [treeEntry_eq, tableAt_advance, ← treeEntry_eq]; exact h j

/-- A tree that stands ready to decode with: its table, and that it is built and fine. -/
structure TreeReady (t : TreeSel) (T : List Nat) (N : Nat) (s : State) : Prop where
  table : tableAt t s = T
  size : numcodesOf t = N
  built : treeBuilt t s = true
  fine : TableFine t s

theorem TreeReady.advance {t : TreeSel} {T : List Nat} {N : Nat} {s : State} (h : TreeReady t T N s) (m : Memory)
    (n q : Nat) : TreeReady t T N (s.advance m n q) :=
  ⟨by rw [tableAt_advance, h.table], h.size, by rw [treeBuilt_advance, h.built], tableFine_advance h.fine m n q⟩

theorem advance_setBitpos (s : State) (q : Nat) : s.setBitpos q = s.advance s.mem s.outpos.toNat q := by
  simp [State.advance, State.setBitpos]

theorem TreeReady.setBitpos {t : TreeSel} {T : List Nat} {N : Nat} {s : State} (h : TreeReady t T N s) (q : Nat) :
    TreeReady t T N (s.setBitpos q) := by
  rw [advance_setBitpos]; exact h.advance _ _ _

theorem decodeSymbol_ready {t : TreeSel} {T : List Nat} {N : Nat} {s : State} (hq : Quiet s)
    (h : TreeReady t T N s) (hl : s.srcLen.toNat ≤ Config.srcLenMax) {v q : Nat}
    (hv : symAt T N s s.bitpos.toNat = some (v, q)) : decodeSymbol t s = .ok v (s.setBitpos q) :=
  decodeSymbol_some hq h.built h.fine hl (by rw [h.table, h.size]; exact hv)

theorem treeReady_fixedLL (s : State) : TreeReady .fixedLL fixedLL 288 s := ⟨rfl, rfl, rfl, tableFine_fixedLL s⟩
theorem treeReady_fixedD (s : State) : TreeReady .fixedD fixedD 32 s := ⟨rfl, rfl, rfl, tableFine_fixedD s⟩

/-! ### The output list -/

theorem length_expandToken_le (out : List Byte) (t : Token) : out.length ≤ (expandToken out t).length := by
  cases t <;> simp [expandToken]

theorem length_expandTokens_le (out : List Byte) (ts : List Token) :
    out.length ≤ (expandTokens out ts).length := by
  induction ts generalizing out with
  | nil => exact le_rfl
  | cons t ts ih => exact (length_expandToken_le out t).trans (ih _)

theorem length_expandToken_fits {cap : Nat} {out : List Byte} {t : Token} (h : tokenFits cap out t) :
    (expandToken out t).length ≤ cap := by
  cases t with
  | literal b => simpa [expandToken, tokenFits] using h
  | copy n d => simpa [expandToken] using h.2

theorem getD_append_left {out ext : List Byte} {k : Nat} (h : k < out.length) :
    (out ++ ext).getD k 0#8 = out.getD k 0#8 := by
  simp [List.getD_eq_getElem?_getD, List.getElem?_append_left h]

theorem getD_append_right {out ext : List Byte} {k : Nat} :
    (out ++ ext).getD (out.length + k) 0#8 = ext.getD k 0#8 := by
  rw [List.getD_eq_getElem?_getD, List.getElem?_append_right (Nat.le_add_right _ _), Nat.add_sub_cancel_left,
    List.getD_eq_getElem?_getD]

/-- The output after an extension: the bytes before are kept, the bytes after are the extension's. -/
theorem holdsOutput_append {s : State} {m0 m : Memory} {out ext : List Byte} (h0 : holdsOutput s m0 out)
    (hk : ∀ k, k < out.length → m.read (s.dstBase.toNat + k) = m0.read (s.dstBase.toNat + k))
    (he : ∀ k, k < ext.length → m.read (s.dstBase.toNat + (out.length + k)) = ext.getD k 0#8) :
    holdsOutput s m (out ++ ext) := by
  intro k hlt
  by_cases h : k < out.length
  · rw [hk k h, h0 k h, getD_append_left h]
  · obtain ⟨j, rfl⟩ := Nat.exists_eq_add_of_le (Nat.le_of_not_lt h)
    rw [List.length_append] at hlt
    rw [he j (by omega), getD_append_right]

theorem length_expandTokens_fits {cap : Nat} {out : List Byte} {ts : List Token} (h : tokensFit cap out ts)
    (ho : out.length ≤ cap) : (expandTokens out ts).length ≤ cap := by
  induction ts generalizing out with
  | nil => exact ho
  | cons t ts ih => exact ih h.2 (length_expandToken_fits h.1)

/-- Memory that agrees outside the bytes an advance wrote holds the same source. -/
theorem sameSource_advance {s : State} (hr : regionsBad false s = false) {m : Memory} {i n q : Nat}
    (h : sameOutside s m i n) (hn : n ≤ s.dstCap.toNat) : SameSource s (s.advance m n q) := by
  have := sameSource_setMem (m := m) hr fun a ha => h a (by
    simp only [inOutput, Bool.and_eq_false_iff, decide_eq_false_iff_not] at ha; omega)
  exact ⟨this.base, this.len, this.bytes⟩

/-! ### Tokens -/

theorem literal_quiet {s : State} (hq : Quiet s) {sym : Nat} (h : s.outpos.toNat < s.dstCap.toNat) :
    literal sym s = .ok () ((s.setMem (s.mem.write (s.dstBase.toNat + s.outpos.toNat) (BitVec.ofNat 8 sym))).setOutpos
      (s.outpos.toNat + 1)) := by
  rw [literal, if_neg (by omega), dstWrite_quiet hq]; rfl

theorem checkedCopy_quiet {s : State} {length dist : Nat} (hs : dist ≤ s.outpos.toNat)
    (hc : s.outpos.toNat + length ≤ s.dstCap.toNat) : checkedCopy length dist s = lzCopy length dist s := by
  rw [checkedCopy, if_neg (by omega), if_neg (by omega)]

theorem distanceBase_pos : ∀ k, k ≤ 29 → 1 ≤ distanceBase.getD k 0 := by decide

/-- A back-reference whose bits stand in the stream is its copy (R256 to R259). -/
theorem backRef_quiet {td : TreeSel} {Td : List Nat} {s : State} (hq : Quiet s)
    (hd : TreeReady td Td 32 s) (hl : s.srcLen.toNat ≤ Config.srcLenMax) {sym dsym p2 e d : Nat}
    (he : lengthExtra.getD (sym - 257) 0 = e) (hde : distanceExtra.getD dsym 0 = d)
    (h5 : symAt Td 32 s (s.bitpos.toNat + e) = some (dsym, p2)) (h6 : dsym ≤ 29)
    (h8 : p2 + d ≤ 8 * s.srcLen.toNat) :
    backRef sym td s =
      checkedCopy (lengthBase.getD (sym - 257) 0 + fieldAt s s.bitpos.toNat e)
        (distanceBase.getD dsym 0 + fieldAt s p2 d) (s.setBitpos (p2 + d)) := by
  simp only [Config.srcLenMax] at hl
  have hp := symAt_some h5
  rw [backRef, readLength, he, checkedRead_quiet hq (by omega), Res.andThen_ok, Res.andThen_ok, readDistance]
  have hb1 : (s.setBitpos (s.bitpos.toNat + e)).bitpos.toNat = s.bitpos.toNat + e := toNat_setBitpos (by omega)
  rw [decodeSymbol_ready (quiet_setBitpos hq _) (hd.setBitpos _) (by simpa [Config.srcLenMax] using hl)
    (v := dsym) (q := p2) (by rw [hb1, symAt_congr (sameSource_setBitpos s _)]; exact h5), Res.andThen_ok,
    if_neg (by omega), hde]
  have hb2 : ((s.setBitpos (s.bitpos.toNat + e)).setBitpos p2).bitpos.toNat = p2 := toNat_setBitpos (by omega)
  rw [checkedRead_quiet (quiet_setBitpos (quiet_setBitpos hq _) _) (by rw [hb2]; exact h8), hb2,
    setBitpos_setBitpos, fieldAt_congr (sameSource_setBitpos s p2) h8]
  rfl

/-- One token: a literal. -/
theorem literal_reaches {s : State} (hq : Quiet s) {out : List Byte} {b : Nat}
    (ho : out.length = s.outpos.toNat) (hm : holdsOutput s s.mem out) (h : out.length < s.dstCap.toNat) :
    ∃ m, literal b s = .ok () ((s.setMem m).setOutpos (out.length + 1))
      ∧ holdsOutput s m (expandToken out (.literal b)) ∧ sameOutside s m out.length (out.length + 1) := by
  refine ⟨_, by rw [literal_quiet hq (by omega), ← ho], ?_, ?_⟩
  · refine holdsOutput_append hm (fun k hk => ?_) fun k hk => ?_
    · rw [Memory.read_write, if_neg (by omega)]
    · simp only [List.length_singleton, Nat.lt_one_iff] at hk
      subst hk; simp
  · intro a ha
    rw [Memory.read_write, if_neg (by omega)]

/-- One token: a copy. -/
theorem copy_reaches {s : State} (hq : Quiet s) {out : List Byte} {n d : Nat} (hd : 1 ≤ d)
    (ho : out.length = s.outpos.toNat) (hm : holdsOutput s s.mem out) (hf : tokenFits s.dstCap.toNat out (.copy n d)) :
    ∃ m, checkedCopy n d s = .ok () ((s.setMem m).setOutpos (out.length + n))
      ∧ holdsOutput s m (expandToken out (.copy n d)) ∧ sameOutside s m out.length (out.length + n) := by
  obtain ⟨h1, h2⟩ := hf
  obtain ⟨m, e1, e2, e3⟩ := lzCopy_quiet hq (length := n) (dist := d) hd (by omega) (by omega)
  rw [← ho] at e1 e2 e3
  refine ⟨m, by rw [checkedCopy_quiet (by omega) (by omega), e1], ?_, e3⟩
  refine holdsOutput_append hm (fun k hk => e3 _ (.inl (by omega))) fun k hk => ?_
  simp only [List.length_map, List.length_range] at hk
  have hlt := Nat.mod_lt k (show 0 < d by omega)
  rw [e2 k hk, List.getD_eq_getElem?_getD, List.getElem?_map, List.getElem?_range hk]
  exact hm _ (by omega)

theorem tokenAt_end {Tll Td : List Nat} {s : State} {a : Token} {p q : Nat} (h : tokenAt Tll Td s a p q) :
    p < q ∧ q ≤ 8 * s.srcLen.toNat := by
  cases a with
  | literal b => have := symAt_some h.2; omega
  | copy n d =>
    obtain ⟨sym, p1, dsym, p2, h1, _, _, _, h5, _, _, h8, rfl⟩ := h
    have := symAt_some h1
    have := symAt_some h5
    omega

theorem tokensTo_end {Tll Td : List Nat} {s : State} {ts : List Token} {p q : Nat} (h : tokensTo Tll Td s ts p q) :
    p ≤ q ∧ (p ≤ 8 * s.srcLen.toNat → q ≤ 8 * s.srcLen.toNat) := by
  induction ts generalizing p with
  | nil => obtain rfl : q = p := h; omega
  | cons a ts ih =>
    obtain ⟨p1, h1, h2⟩ := h
    have := tokenAt_end h1
    have := ih h2; omega

theorem tokensAt_end {Tll Td : List Nat} {s : State} {ts : List Token} {p q : Nat}
    (h : tokensAt Tll Td s ts p q) : p < q ∧ q ≤ 8 * s.srcLen.toNat := by
  obtain ⟨p1, h1, h2⟩ := h
  have := tokensTo_end h1
  have := symAt_some h2; omega

/-- One token of a Huffman body is expanded (R253 to R259). -/
theorem huffmanLoop_token {tll td : TreeSel} {Tll Td : List Nat} {a : Token} {s : State} {out : List Byte}
    {p1 fuel : Nat} (hq : Quiet s) (hl : s.srcLen.toNat ≤ Config.srcLenMax) (hll : TreeReady tll Tll 288 s)
    (hd : TreeReady td Td 32 s) (ho : out.length = s.outpos.toNat) (hm : holdsOutput s s.mem out)
    (ht : tokenAt Tll Td s a s.bitpos.toNat p1) (hfit : tokenFits s.dstCap.toNat out a) :
    ∃ m, huffmanLoop tll td (fuel + 1) s = huffmanLoop tll td fuel (s.advance m (expandToken out a).length p1)
      ∧ holdsOutput s m (expandToken out a) ∧ sameOutside s m out.length (expandToken out a).length := by
  have hl' := hl
  simp only [Config.srcLenMax] at hl'
  cases a with
  | literal b =>
    obtain ⟨hb, h1⟩ := ht
    obtain ⟨m, e1, e2, e3⟩ := literal_reaches (s := s.setBitpos p1) (quiet_setBitpos hq p1) (b := b) ho hm hfit
    have hlen : (expandToken out (.literal b)).length = out.length + 1 := by simp [expandToken]
    refine ⟨m, ?_, e2, by rw [hlen]; exact e3⟩
    rw [huffmanLoop, decodeSymbol_ready hq hll hl h1, Res.andThen_ok, if_pos hb, e1, Res.andThen_ok, hlen]
    rfl
  | copy n d =>
    obtain ⟨sym, p1, dsym, p2, h1, h2, h3, h4, h5, h6, h7, h8, rfl⟩ := ht
    have hp := symAt_some h1
    have hp2 := symAt_some h5
    have hd1 := distanceBase_pos dsym h6
    generalize he : lengthExtra.getD (sym - 257) 0 = e at *
    generalize hde : distanceExtra.getD dsym 0 = de at *
    have hb1 : (s.setBitpos p1).bitpos.toNat = p1 := toNat_setBitpos (by omega)
    have hback := backRef_quiet (s := s.setBitpos p1) (quiet_setBitpos hq p1) (hd.setBitpos p1) hl he hde
      (by rw [hb1, symAt_congr (sameSource_setBitpos s p1)]; exact h5) h6 h8
    rw [hb1, fieldAt_congr (sameSource_setBitpos s p1) (by omega), fieldAt_congr (sameSource_setBitpos s p1) h8,
      setBitpos_setBitpos, ← h4, ← h7] at hback
    obtain ⟨m, e1, e2, e3⟩ := copy_reaches (s := s.setBitpos (p2 + de)) (quiet_setBitpos hq _) (n := n) (d := d)
      (by omega) ho hm hfit
    have hlen : (expandToken out (.copy n d)).length = out.length + n := by simp [expandToken]
    refine ⟨m, ?_, e2, by rw [hlen]; exact e3⟩
    rw [huffmanLoop, decodeSymbol_ready hq hll hl h1, Res.andThen_ok, if_neg (by omega), if_neg (by omega),
      if_pos h3, hback, e1, Res.andThen_ok, hlen]
    rfl

/-- A Huffman body: the tokens that stand in the stream are expanded, and the loop goes on behind them (R253 to
R259). -/
theorem huffmanLoop_tokens {tll td : TreeSel} {Tll Td : List Nat} {ts : List Token} {s : State} {out : List Byte}
    {q fuel : Nat} (hq : Quiet s) (hr : regionsBad false s = false) (hll : TreeReady tll Tll 288 s)
    (hd : TreeReady td Td 32 s) (hf : 8 * s.srcLen.toNat ≤ s.bitpos.toNat + fuel)
    (ho : out.length = s.outpos.toNat) (hm : holdsOutput s s.mem out)
    (ht : tokensTo Tll Td s ts s.bitpos.toNat q) (hfit : tokensFit s.dstCap.toNat out ts) :
    ∃ m k, huffmanLoop tll td fuel s = huffmanLoop tll td k (s.advance m (expandTokens out ts).length q)
      ∧ 8 * s.srcLen.toNat ≤ q + k ∧ holdsOutput s m (expandTokens out ts)
      ∧ sameOutside s m out.length (expandTokens out ts).length := by
  have hl := (regions_of_ready hr).1
  have hl' := hl
  simp only [Config.srcLenMax] at hl'
  have hcap := s.dstCap.isLt
  induction ts generalizing s out fuel with
  | nil =>
    obtain rfl : q = s.bitpos.toNat := ht
    exact ⟨s.mem, fuel, by simp [State.advance, expandTokens, ho], hf, hm, fun _ _ => rfl⟩
  | cons a ts ih =>
    obtain ⟨p1, h1, h2⟩ := ht
    have hp := tokenAt_end h1
    obtain ⟨fuel, rfl⟩ : ∃ k, fuel = k + 1 := ⟨fuel - 1, by omega⟩
    obtain ⟨m, e1, e2, e3⟩ := huffmanLoop_token (fuel := fuel) hq hl hll hd ho hm h1 hfit.1
    have hlen := length_expandToken_fits hfit.1
    have hle := length_expandToken_le out a
    have hle2 : (expandToken out a).length ≤ (expandTokens out (a :: ts)).length :=
      length_expandTokens_le (expandToken out a) ts
    set u := s.advance m (expandToken out a).length p1 with hu
    have hub : u.bitpos.toNat = p1 := by
      simp only [hu, State.advance_bitpos, BitVec.toNat_ofNat]; omega
    have huo : u.outpos.toNat = (expandToken out a).length := by
      simp only [hu, State.advance_outpos, BitVec.toNat_ofNat]; omega
    have hss := sameSource_advance (q := p1) hr e3 hlen
    obtain ⟨m', k, g1, gk, g2, g3⟩ := ih (s := u) (out := expandToken out a) (fuel := fuel) hq
      (by rw [regionsBad_false_congr (sameOperands_advance _ _ _ _)]; exact hr) (hll.advance _ _ _)
      (hd.advance _ _ _) (by rw [hub]; show 8 * s.srcLen.toNat ≤ _; omega) huo.symm e2
      (by rw [hub]; exact tokensTo_congr hss _ _ h2) hfit.2 hl hl' hcap
    refine ⟨m', k, by rw [e1, g1]; rfl, gk, g2, fun b hb => ?_⟩
    have hb' : b < u.dstBase.toNat + (expandToken out a).length
        ∨ u.dstBase.toNat + (expandTokens (expandToken out a) ts).length ≤ b := by
      change b < s.dstBase.toNat + _ ∨ s.dstBase.toNat + (expandTokens out (a :: ts)).length ≤ b
      omega
    rw [g3 b hb']
    exact e3 b (by omega)

/-- A Huffman body that ends (R253 to R259). -/
theorem huffmanLoop_quiet {tll td : TreeSel} {Tll Td : List Nat} {ts : List Token} {s : State} {out : List Byte}
    {q fuel : Nat} (hq : Quiet s) (hr : regionsBad false s = false) (hll : TreeReady tll Tll 288 s)
    (hd : TreeReady td Td 32 s) (hf : 8 * s.srcLen.toNat ≤ s.bitpos.toNat + fuel)
    (ho : out.length = s.outpos.toNat) (hm : holdsOutput s s.mem out)
    (ht : tokensAt Tll Td s ts s.bitpos.toNat q) (hfit : tokensFit s.dstCap.toNat out ts)
    (hc : out.length ≤ s.dstCap.toNat) :
    ∃ m, huffmanLoop tll td fuel s = .ok () (s.advance m (expandTokens out ts).length q)
      ∧ holdsOutput s m (expandTokens out ts) ∧ sameOutside s m out.length (expandTokens out ts).length := by
  obtain ⟨p1, h1, h2⟩ := ht
  have hl := (regions_of_ready hr).1
  have hl' := hl
  simp only [Config.srcLenMax] at hl'
  have hp := symAt_some h2
  obtain ⟨m, k, e1, hk, e2, e3⟩ := huffmanLoop_tokens hq hr hll hd hf ho hm h1 hfit
  obtain ⟨k, rfl⟩ : ∃ j, k = j + 1 := ⟨k - 1, by omega⟩
  refine ⟨m, ?_, e2, e3⟩
  have hss := sameSource_advance (q := p1) hr e3 (length_expandTokens_fits hfit hc)
  have hub : (s.advance m (expandTokens out ts).length p1).bitpos.toNat = p1 := by
    simp only [State.advance_bitpos, BitVec.toNat_ofNat]; omega
  have hdec := decodeSymbol_ready (s := s.advance m (expandTokens out ts).length p1) (v := 256) (q := q) hq
    (hll.advance m _ p1) hl (by rw [hub, symAt_congr hss]; exact h2)
  rw [e1, huffmanLoop, hdec, Res.andThen_ok, if_neg (by omega), if_pos rfl]
  rfl

end Machine
end Sys2Proof
end

