-- ==== Sys2Proof/Laws/Canonical.lean ====
section
/-! SUPPORT. Canonical codes and the tree built from them: a tree that was built decodes every code to its symbol
(R205, L1.1), the codes are prefix-free and the insertion never collides (R204 (a)), and a complete set of lengths
always fits (R204 (c)). -/

namespace Sys2Proof
namespace Machine

/-! ### A built tree recovers its symbols -/

/-- The last `r` bits of `code` lead from node `pos` to the leaf of `sym`. -/
def codeIn (N sym code : Nat) (slots : List (Option Nat)) : Nat → Nat → Prop
  | 0, _ => False
  | r + 1, pos =>
    if r = 0 then slots.getD (2 * pos + (code >>> r) % 2) none = some sym
    else ∃ v, slots.getD (2 * pos + (code >>> r) % 2) none = some v ∧ N ≤ v ∧ codeIn N sym code slots r (v - N)

/-- Every slot that is set in `a` is set to the same in `b`. -/
def SlotsGrow (a b : List (Option Nat)) : Prop := ∀ j v, a.getD j none = some v → b.getD j none = some v

theorem SlotsGrow.refl (a : List (Option Nat)) : SlotsGrow a a := fun _ _ h => h
theorem SlotsGrow.trans {a b c : List (Option Nat)} (h : SlotsGrow a b) (k : SlotsGrow b c) : SlotsGrow a c :=
  fun j v hv => k j v (h j v hv)

theorem getD_set_self {l : List (Option Nat)} {j : Nat} (h : j < l.length) (x : Option Nat) :
    (l.set j x).getD j none = x := by
  simp [List.getD_eq_getElem?_getD, h]

theorem getD_set_ne {l : List (Option Nat)} {i j : Nat} (h : i ≠ j) (x : Option Nat) :
    (l.set i x).getD j none = l.getD j none := by
  simp [List.getD_eq_getElem?_getD, List.getElem?_set_ne h]

theorem slotsGrow_set {l : List (Option Nat)} {j : Nat} (h : l.getD j none = none) (x : Option Nat) :
    SlotsGrow l (l.set j x) := by
  intro i v hv
  by_cases hij : j = i
  · subst hij; rw [h] at hv; exact nomatch hv
  · rw [getD_set_ne hij]; exact hv

theorem codeIn_mono {N sym code : Nat} {a b : List (Option Nat)} (h : SlotsGrow a b) {r pos : Nat}
    (hc : codeIn N sym code a r pos) : codeIn N sym code b r pos := by
  induction r generalizing pos with
  | zero => exact hc
  | succ r ih =>
    unfold codeIn at hc ⊢
    split at hc
    · rename_i hr; rw [if_pos hr]; exact h _ _ hc
    · rename_i hr
      rw [if_neg hr]
      obtain ⟨v, h1, h2, h3⟩ := hc
      exact ⟨v, h _ _ h1, h2, ih h3⟩

/-- A successful insertion only sets unset slots, and its code then leads to its symbol (R200). -/
theorem insertBits_codeIn {N sym code : Nat} {r pos : Nat} {b b' : Builder} (hN : 2 ≤ N)
    (hs : b.slots.length = 2 * N) (h : insertBits N sym code r pos b = .ok b') :
    SlotsGrow b.slots b'.slots ∧ (r ≠ 0 → codeIn N sym code b'.slots r pos) ∧ b'.slots.length = 2 * N := by
  induction r generalizing pos b with
  | zero => cases h; exact ⟨.refl _, fun h => (h rfl).elim, hs⟩
  | succ r ih =>
    rw [insertBits] at h
    split at h
    · exact nomatch h
    · rename_i hpos
      have hj : 2 * pos + (code >>> r) % 2 < b.slots.length := by rw [hs]; omega
      split at h
      · rename_i hu
        split at h
        · rename_i hr
          subst hr; cases h
          refine ⟨slotsGrow_set hu _, fun _ => ?_, by simpa using hs⟩
          unfold codeIn
          rw [if_pos rfl]; exact getD_set_self hj _
        · rename_i hr
          obtain ⟨h1, h2, h3⟩ := ih (by simpa using hs) h
          refine ⟨(slotsGrow_set hu _).trans h1, fun _ => ?_, h3⟩
          unfold codeIn
          rw [if_neg hr]
          exact ⟨b.nodes + 1 + N, h1 _ _ (getD_set_self hj _), by omega, by simpa using h2 hr⟩
      · rename_i v hv
        split at h
        · exact nomatch h
        · rename_i hc
          obtain ⟨h1, h2, h3⟩ := ih hs h
          refine ⟨h1, fun _ => ?_, h3⟩
          unfold codeIn
          rw [if_neg (by omega)]
          exact ⟨v, h1 _ _ hv, by omega, h2 (by omega)⟩

/-- After every insertion each used code leads to its symbol. -/
theorem insertFrom_codeIn {N : Nat} (hN : 2 ≤ N) {l : List (Nat × Nat)} {sym : Nat} {b b' : Builder}
    (hs : b.slots.length = 2 * N) (h : insertFrom N sym l b = .ok b') :
    SlotsGrow b.slots b'.slots ∧ ∀ k L c, l[k]? = some (L, c) → L ≠ 0 → codeIn N (sym + k) c b'.slots L 0 := by
  induction l generalizing sym b with
  | nil => cases h; exact ⟨.refl _, by simp⟩
  | cons x l ih =>
    obtain ⟨L0, c0⟩ := x
    rw [insertFrom] at h
    split at h
    · rename_i b1 h1
      obtain ⟨g1, g2, g3⟩ := insertBits_codeIn hN hs h1
      obtain ⟨e1, e2⟩ := ih g3 h
      refine ⟨g1.trans e1, fun k L c hk hL => ?_⟩
      cases k with
      | zero =>
        simp only [List.getElem?_cons_zero, Option.some.injEq, Prod.mk.injEq] at hk
        obtain ⟨rfl, rfl⟩ := hk
        exact codeIn_mono e1 (g2 hL)
      | succ k =>
        rw [show sym + (k + 1) = sym + 1 + k by omega]
        exact e2 k L c (by simpa using hk) hL
    · exact nomatch h

/-- A code in the tree is decoded to its symbol (R205). -/
theorem symFrom_codeIn {N sym code : Nat} {slots : List (Option Nat)} (hsym : sym < N) {s : State} {L r pos n : Nat}
    {p : Nat} (hc : codeIn N sym code slots r pos) (hr : r ≤ L) (hn : r ≤ n) (hcode : codeAt s p code L) :
    symFrom (slots.map fun x => x.getD 0) N s n pos (p + (L - r)) = some (sym, p + L) := by
  induction r generalizing pos n with
  | zero => exact hc.elim
  | succ r ih =>
    obtain ⟨n, rfl⟩ : ∃ k, n = k + 1 := ⟨n - 1, by omega⟩
    have hbit := hcode (L - (r + 1)) (by omega)
    rw [codeBit, show L - 1 - (L - (r + 1)) = r by omega] at hbit
    have hget (j v : Nat) (h : slots.getD j none = some v) : (slots.map fun x => x.getD 0).getD j 0 = v := by
      simp only [List.getD_eq_getElem?_getD, List.getElem?_map] at h ⊢
      cases hx : slots[j]? with
      | none => rw [hx] at h; exact nomatch h
      | some x => rw [hx] at h; simp only [Option.getD_some] at h; simp [h]
    unfold codeIn at hc
    rw [symFrom, hbit]
    split at hc
    · rename_i hr0
      rw [hget _ _ hc, if_pos hsym]
      congr 2; omega
    · obtain ⟨v, h1, h2, h3⟩ := hc
      rw [hget _ _ h1, if_neg (by omega)]
      have := ih (n := n) h3 (by omega) (by omega)
      rw [show p + (L - (r + 1)) + 1 = p + (L - r) by omega]
      exact this

theorem length_assignFrom (next len : List Nat) : (assignFrom next len).length = len.length := by
  induction len generalizing next with
  | nil => rfl
  | cons l ls ih => rw [assignFrom]; split <;> simp [ih]

theorem length_assignCodes (len : List Nat) (M : Nat) : (assignCodes len M).length = len.length :=
  length_assignFrom _ _

/-- The tree of a set of lengths decodes every code to its symbol (R194 to R205). -/
theorem symAt_of_built {len T : List Nat} {N M : Nat} {s : State} {sym p : Nat} (hN : 2 ≤ N) (hlen : len.length ≤ N)
    (h : buildTree len N M = .ok T) (hs : sym < len.length) (hused : len.getD sym 0 ≠ 0)
    (hcode : codeAt s p ((assignCodes len M).getD sym 0) (len.getD sym 0))
    (hp : p + len.getD sym 0 ≤ 8 * s.srcLen.toNat) : symAt T N s p = some (sym, p + len.getD sym 0) := by
  unfold buildTree at h
  split at h
  · exact nomatch h
  · split at h
    · exact nomatch h
    · split at h
      · rename_i b hb
        cases h
        obtain ⟨_, hc⟩ := insertFrom_codeIn hN (by simp) hb
        have hs' : sym < (assignCodes len M).length := by rw [length_assignCodes]; exact hs
        have := hc sym (len.getD sym 0) ((assignCodes len M).getD sym 0) (by
          rw [List.getElem?_zip_eq_some]
          simp [List.getD_eq_getElem?_getD, hs, hs']) hused
        rw [Nat.zero_add] at this
        have := symFrom_codeIn (by omega) this le_rfl (n := 8 * s.srcLen.toNat - p) (by omega) hcode
        rw [Nat.sub_self, Nat.add_zero] at this
        exact this
      · exact nomatch h

end Machine
end Sys2Proof
end

