-- ==== Sys2Proof/Laws/Corrupt.lean ====
section
/-! SUPPORT. `TREE_WALK_CORRUPT` is unreachable where the valid trees are in range (R205): no procedure raises it. And
no procedure is refused: only the region check refuses. -/

namespace Sys2Proof
namespace Machine

/-- A procedure returns or fails, so that it is never refused; and it does not fail with `TREE_WALK_CORRUPT` where
`G` holds, which callers take to be that the valid trees are in range, nor with `BAD_FILTER_TYPE` unless `B` holds. -/
def Res.Ends {α : Type} (G B : Prop) : Res α → Prop
  | .ok _ _ => True
  | .fail f _ => (G → f ≠ .cause .treeWalkCorrupt) ∧ (B ∨ ∃ c, f = .cause c)
  | .refuse _ => False

variable {G B : Prop}

theorem ends_raise {α : Type} {c : Cause} (h : c ≠ .treeWalkCorrupt) (s : State) :
    (raise c s : Res α).Ends G B := by
  exact ⟨fun _ => by simpa using h, .inr ⟨c, rfl⟩⟩

theorem Res.Ends.andThen {α β : Type} {r : Res α} {f : α → State → Res β} (h : r.Ends G B)
    (hf : ∀ a t, r = .ok a t → (f a t).Ends G B) : (r.andThen f).Ends G B := by
  cases r with
  | ok a t => exact hf a t rfl
  | fail f t => exact h
  | refuse x => exact h.elim

/-- After another procedure, through the state it leaves. -/
theorem Res.Ends.after {α β : Type} {s : State} {r : Res α} {f : α → State → Res β} (h : r.Ends G B)
    (hr : r.Ensures (Runs s)) (hg : G → TreesGood s)
    (hf : ∀ a t, InBounds t → (G → TreesGood t) → r = .ok a t → (f a t).Ends G B) : (r.andThen f).Ends G B :=
  h.andThen fun a t ht => by
    rw [ht] at hr
    exact hf a t hr.bounds (fun k => hr.trees (hg k)) ht

theorem busAccess_ends (write : Bool) (a : Nat) (s : State) : (busAccess write a s).Ends G B := by
  unfold busAccess; split
  · split
    · split
      · exact ends_raise (by decide) _
      · trivial
    · split
      · exact ends_raise (by decide) _
      · trivial
  · trivial

theorem dmaRead_ends (a : Nat) (s : State) : (dmaRead a s).Ends G B :=
  (busAccess_ends _ _ _).andThen fun _ _ _ => by
    split
    · trivial
    · split <;> trivial

theorem src_ends (i : Nat) (s : State) : (src i s).Ends G B := dmaRead_ends _ s

theorem dst_ends (i : Nat) (s : State) : (dst i s).Ends G B := dmaRead_ends _ s

theorem dstWrite_ends (i : Nat) (v : Byte) (s : State) : (dstWrite i v s).Ends G B :=
  (busAccess_ends _ _ _).andThen fun _ _ _ => by split <;> trivial

theorem streamBit_ends (p : Nat) (s : State) : (streamBit p s).Ends G B :=
  (src_ends _ _).andThen fun _ _ _ => trivial

theorem bitsFrom_ends (p n : Nat) (s : State) : (bitsFrom p n s).Ends G B := by
  induction n generalizing p s with
  | zero => trivial
  | succ n ih =>
    exact (streamBit_ends _ _).andThen fun _ t _ =>
      (ih _ _).andThen fun _ _ _ => trivial

theorem readBits_ends (n : Nat) (s : State) : (readBits n s).Ends G B :=
  (bitsFrom_ends _ _ _).andThen fun _ _ _ => trivial

theorem checkedRead_ends (n : Nat) (s : State) : (checkedRead n s).Ends G B := by
  unfold checkedRead; split
  · exact ends_raise (by decide) _
  · exact readBits_ends n s

theorem drawn_readBits {n : Nat} {s t : State} {v : Nat} (h : readBits n s = .ok v t) :
    ∃ d y, t = { s.setBitpos (s.bitpos.toNat + n) with draws := d, merging := y } := by
  obtain ⟨w, x, hw, h⟩ := Res.andThen_eq_ok h
  have hd := bitsFrom_drawn s.bitpos.toNat n s
  rw [hw] at hd
  obtain ⟨d, y, rfl⟩ := hd
  cases h; exact ⟨d, y, rfl⟩

/-- The walk cannot leave a table whose entries are in range (R204 (e), R205). -/
theorem walk_ends {t : TreeSel} (n node : Nat) {s : State} (hf : G → TableFine t s) :
    (walk t n node s).Ends G B := by
  induction n generalizing node s with
  | zero => exact ends_raise (by decide) _
  | succ n ih =>
    rw [walk]; split
    · exact ends_raise (by decide) _
    · refine (readBits_ends 1 s).andThen fun b u hu => ?_
      obtain ⟨d, y, rfl⟩ := drawn_readBits hu
      have hent (j : Nat) :
          treeEntry t j { s.setBitpos (s.bitpos.toNat + 1) with draws := d, merging := y } = treeEntry t j s := by
        cases t with
        | ram r => cases r <;> rfl
        | fixedLL => rfl
        | fixedD => rfl
      split
      · trivial
      · split
        · rename_i h2
          refine ⟨fun k => ?_, .inr ⟨_, rfl⟩⟩
          have h1 := hf k (2 * node + b)
          have h3 := numcodesOf_pos t
          rw [hent] at h2
          omega
        · exact ih _ fun k j => by rw [hent]; exact hf k j

theorem decodeSymbol_ends (t : TreeSel) {s : State} (hg : G → TreesGood s) : (decodeSymbol t s).Ends G B := by
  unfold decodeSymbol; split
  · rename_i hb
    exact walk_ends _ _ fun k => tableFine_of_built (hg k).range hb
  · exact ends_raise (by decide) _

theorem insertBits_error {N sym code r pos : Nat} {b : Builder} {e : Cause}
    (h : insertBits N sym code r pos b = .error e) : e = .treeNodesExhausted ∨ e = .oversubscribed := by
  induction r generalizing pos b with
  | zero => exact nomatch h
  | succ r ih =>
    rw [insertBits] at h
    split at h
    · cases h; exact .inl rfl
    · split at h
      · split at h
        · exact nomatch h
        · exact ih h
      · split at h
        · cases h; exact .inr rfl
        · exact ih h

theorem insertFrom_error {N : Nat} {l : List (Nat × Nat)} {sym : Nat} {b : Builder} {e : Cause}
    (h : insertFrom N sym l b = .error e) : e = .treeNodesExhausted ∨ e = .oversubscribed := by
  induction l generalizing sym b with
  | nil => exact nomatch h
  | cons x l ih =>
    obtain ⟨L, c⟩ := x
    rw [insertFrom] at h
    split at h
    · exact ih h
    · rename_i h1; cases h; exact insertBits_error h1

/-- The causes a build can fail with (R195, R197, R200). -/
theorem buildTree_error {len : List Nat} {N M : Nat} {e : Cause} (h : buildTree len N M = .error e) :
    e = .lengthTooLong ∨ e = .treeNodesExhausted ∨ e = .oversubscribed := by
  unfold buildTree at h
  split at h
  · cases h; exact .inl rfl
  · split at h
    · cases h; exact .inr (.inr rfl)
    · split at h
      · exact nomatch h
      · rename_i h1; cases h; exact .inr (insertFrom_error h1)

theorem treeCommit_ends (t : RamTree) (len : List Nat) (s : State) : (treeCommit t len s).Ends G B := by
  unfold treeCommit; split
  · rename_i h
    exact ends_raise (by rcases buildTree_error h with rfl | rfl | rfl <;> decide) _
  · trivial

theorem readClLengths_ends (order cl : List Nat) (s : State) : (readClLengths order cl s).Ends G B := by
  induction order generalizing cl s with
  | nil => trivial
  | cons k order ih => exact (checkedRead_ends _ _).andThen fun _ _ _ => ih _ _

theorem readRun_ends (sym : Nat) (lens : List Nat) (s : State) : (readRun sym lens s).Ends G B := by
  unfold readRun; split
  · split
    · exact ends_raise (by decide) _
    · exact (checkedRead_ends _ _).andThen fun _ _ _ => trivial
  · split <;> exact (checkedRead_ends _ _).andThen fun _ _ _ => trivial

theorem readLengths_ends (total fuel : Nat) (lens : List Nat) {s : State} (hb : InBounds s)
    (hg : G → TreesGood s) : (readLengths total fuel lens s).Ends G B := by
  induction fuel generalizing lens s with
  | zero => trivial
  | succ fuel ih =>
    rw [readLengths]; split
    · refine (decodeSymbol_ends _ hg).after (decodeSymbol_runs hb _) hg fun sym t ht hgt _ => ?_
      split
      · exact ih _ ht hgt
      · refine (readRun_ends _ _ _).after (readRun_runs ht _ _) hgt fun r u hu hgu _ => ?_
        split
        · exact ends_raise (by decide) _
        · exact ih _ hu hgu
    · trivial

theorem readDynTrees_ends {s : State} (hb : InBounds s) (hg : G → TreesGood s) : (readDynTrees s).Ends G B := by
  have hc : (readCounts s).Ends G B :=
    (checkedRead_ends _ _).andThen fun _ _ _ => (checkedRead_ends _ _).andThen fun _ _ _ =>
      (checkedRead_ends _ _).andThen fun _ _ _ => trivial
  refine hc.after (readCounts_runs hb) hg fun c t1 h1 g1 _ => ?_
  refine (readClLengths_ends _ _ _).after (readClLengths_runs h1 _ _) g1 fun cl t2 h2 g2 hcl => ?_
  refine (treeCommit_ends _ _ _).after (treeCommit_runs h2 .cl ?_) g2 fun _ t3 h3 g3 _ => ?_
  · rw [readClLengths_length hcl]; simp [numcodes]
  · refine (readLengths_ends _ _ _ h3 g3).andThen fun lens t4 _ => ?_
    unfold buildDynTrees; split
    · exact ends_raise (by decide) _
    · exact (treeCommit_ends _ _ _).andThen fun _ _ _ => treeCommit_ends _ _ _

theorem storedCopy_ends (start n k : Nat) (s : State) : (storedCopy start n k s).Ends G B := by
  induction n generalizing k s with
  | zero => trivial
  | succ n ih =>
    exact (src_ends _ _).andThen fun _ _ _ => (dstWrite_ends _ _ _).andThen fun _ _ _ => ih _ _

theorem src16_ends (p : Nat) (s : State) : (src16 p s).Ends G B :=
  (src_ends _ _).andThen fun _ _ _ => (src_ends _ _).andThen fun _ _ _ => trivial

theorem storedBody_ends (s : State) : (storedBody s).Ends G B := by
  unfold storedBody storedFrom; split
  · exact ends_raise (by decide) _
  · refine (src16_ends _ _).andThen fun _ _ _ => (src16_ends _ _).andThen fun _ _ _ => ?_
    split
    · exact ends_raise (by decide) _
    · split
      · exact ends_raise (by decide) _
      · split
        · exact ends_raise (by decide) _
        · exact (storedCopy_ends _ _ _ _).andThen fun _ _ _ => trivial

theorem literal_ends (sym : Nat) (s : State) : (literal sym s).Ends G B := by
  unfold literal; split
  · exact ends_raise (by decide) _
  · exact (dstWrite_ends _ _ _).andThen fun _ _ _ => trivial

theorem lzLoop_ends (start dist n back : Nat) (s : State) : (lzLoop start dist n back s).Ends G B := by
  induction n generalizing back s with
  | zero => trivial
  | succ n ih =>
    exact (dst_ends _ _).andThen fun _ _ _ => (dstWrite_ends _ _ _).andThen fun _ _ _ => ih _ _

theorem checkedCopy_ends (length dist : Nat) (s : State) : (checkedCopy length dist s).Ends G B := by
  unfold checkedCopy; split
  · exact ends_raise (by decide) _
  · split
    · exact ends_raise (by decide) _
    · exact lzLoop_ends _ _ _ _ _

theorem backRef_ends {s : State} (hb : InBounds s) (hg : G → TreesGood s) {sym : Nat} {td : TreeSel} {r : Res Unit}
    (h : backRef sym td s = r) : r.Ends G B := by
  subst h; unfold backRef
  generalize h1 : readLength sym s = r
  refine Res.Ends.after (s := s) ?_ (readLength_runs hb h1) hg fun length t ht hgt _ => ?_
  · subst h1; unfold readLength
    generalize lengthExtra.getD (sym - 257) 0 = n
    exact (checkedRead_ends _ _).andThen fun _ _ _ => trivial
  · refine Res.Ends.andThen ?_ fun dist u _ => checkedCopy_ends length dist u
    unfold readDistance
    refine (decodeSymbol_ends _ hgt).andThen fun dsym u _ => ?_
    split
    · exact ends_raise (by decide) _
    · generalize distanceExtra.getD dsym 0 = n
      exact (checkedRead_ends _ _).andThen fun _ _ _ => trivial

theorem huffmanLoop_ends (tll td : TreeSel) (fuel : Nat) {s : State} (hb : InBounds s) (hg : G → TreesGood s) :
    (huffmanLoop tll td fuel s).Ends G B := by
  induction fuel generalizing s with
  | zero =>
    rw [huffmanLoop]
    exact (decodeSymbol_ends _ hg).andThen fun _ _ _ => ends_raise (by decide) _
  | succ fuel ih =>
    rw [huffmanLoop]
    refine (decodeSymbol_ends _ hg).after (decodeSymbol_runs hb tll) hg fun sym t ht hgt _ => ?_
    split
    · exact (literal_ends sym t).after (literal_runs ht sym) hgt fun _ _ h g _ => ih h g
    · split
      · trivial
      · split
        · generalize h1 : backRef sym td t = r
          exact (backRef_ends ht hgt h1).after (backRef_runs ht h1) hgt fun _ _ h g _ => ih h g
        · exact ends_raise (by decide) _

theorem blockBody_ends {s : State} (hb : InBounds s) (hg : G → TreesGood s) (btype : Nat) :
    (blockBody btype s).Ends G B := by
  unfold blockBody; split
  · exact storedBody_ends s
  · split
    · exact huffmanLoop_ends _ _ _ hb hg
    · split
      · exact (readDynTrees_ends hb hg).after (readDynTrees_runs hb) hg fun _ _ h g _ =>
          huffmanLoop_ends _ _ _ h g
      · exact ends_raise (by decide) _

theorem inflateOne_ends {s : State} (hb : InBounds s) (hg : G → TreesGood s) : (inflateOne s).Ends G B := by
  refine (checkedRead_ends _ _).after (checkedRead_runs hb 1) hg fun bfinal t ht g1 _ => ?_
  refine (checkedRead_ends _ _).after (checkedRead_runs ht 2) g1 fun btype u hu g2 _ => ?_
  have h1 := runs_setHeader hu bfinal btype
  exact (blockBody_ends h1.bounds (fun k => h1.trees (g2 k)) btype).andThen fun _ _ _ => trivial

theorem inflateLoop_ends (fuel : Nat) {s : State} (hb : InBounds s) (hg : G → TreesGood s) :
    (inflateLoop fuel s).Ends G B := by
  induction fuel generalizing s with
  | zero =>
    rw [inflateLoop]
    exact (inflateOne_ends hb hg).andThen fun _ _ _ => ends_raise (by decide) _
  | succ fuel ih =>
    rw [inflateLoop]
    refine (inflateOne_ends hb hg).after (inflateOne_runs hb) hg fun _ t ht g _ => ?_
    split
    · trivial
    · exact ih ht g

theorem neighbour_ends (b : Bool) (k : Nat) (s : State) : (neighbour b k s).Ends G B := by
  unfold neighbour; split
  · exact (dst_ends _ _).andThen fun _ _ _ => trivial
  · trivial

theorem unfilterBytes_ends (g : Geometry) (ft y n i : Nat) (s : State) :
    (unfilterBytes g ft y n i s).Ends G B := by
  induction n generalizing i s with
  | zero => trivial
  | succ n ih =>
    refine Res.Ends.andThen ?_ fun _ _ _ => ih _ _
    exact (src_ends _ _).andThen fun _ _ _ => (neighbour_ends _ _ _).andThen fun _ _ _ =>
      (neighbour_ends _ _ _).andThen fun _ _ _ => (neighbour_ends _ _ _).andThen fun _ _ _ =>
        dstWrite_ends _ _ _

theorem unfilterLine_ends (hB : B) (g : Geometry) (y : Nat) (s : State) : (unfilterLine g y s).Ends G B := by
  unfold unfilterLine; split
  · trivial
  · refine (src_ends _ _).andThen fun ft t _ => ?_
    split
    · exact ⟨fun _ h => (nomatch h), .inl hB⟩
    · exact unfilterBytes_ends _ _ _ _ _ _

theorem unfilterLines_ends (hB : B) (g : Geometry) (n y : Nat) (s : State) : (unfilterLines g n y s).Ends G B := by
  induction n generalizing y s with
  | zero => trivial
  | succ n ih => exact (unfilterLine_ends hB _ _ _).andThen fun _ _ _ => ih _ _

end Machine
end Sys2Proof
end

