-- ==== Sys2Proof/Laws/Commands.lean ====
section
/-! SUPPORT. What a command can do, said once for all twelve (R93, R175, R335): each one is `finish` of a procedure
whose effect is one relation. The frames and the invariant follow from it. -/

namespace Sys2Proof
namespace Machine

/-- What a command can have done when it ends, before completion or the failure entry. -/
structure Effect (s t : State) : Prop where
  operands : SameOperands s t
  error : SameError s t
  phase : t.phase = s.phase
  done : t.done = s.done
  err : t.err = s.err
  bytes : WritesOnlyOutput s t
  mem_wf : s.mem.wf = true → t.mem.wf = true
  trees : TreesGood s → TreesGood t

theorem Effect.refl (s : State) : Effect s s :=
  ⟨.refl s, .refl s, rfl, rfl, rfl, fun _ _ => rfl, id, id⟩

theorem effect_of_runs {s t : State} (h : Runs s t) : Effect s t where
  operands := h.keeps.operands
  error := h.keeps.error
  phase := h.keeps.phase
  done := h.keeps.done
  err := h.keeps.err
  bytes a ha := h.bytes a (by
    simp only [inOutput, Bool.and_eq_false_iff, decide_eq_false_iff_not] at ha; omega)
  mem_wf := h.mem_wf
  trees := h.trees

theorem effect_of_paints {s t : State} (hd : s.dstBase.toNat + s.dstCap.toNat ≤ Config.addrSpace)
    (h : Paints s t) : Effect s t where
  operands := h.keeps.operands
  error := h.keeps.error
  phase := h.keeps.phase
  done := h.keeps.done
  err := h.keeps.err
  bytes := h.bytes
  mem_wf := h.mem_wf hd
  trees hg := hg.congr h.trees

theorem Effect.setResult {s t : State} (h : Effect s t) (v : Nat) : Effect s (t.setResult v) where
  operands := h.operands.trans (by constructor <;> rfl)
  error := h.error.trans (by constructor <;> rfl)
  phase := h.phase
  done := h.done
  err := h.err
  bytes := h.bytes
  mem_wf := h.mem_wf
  trees hg := (h.trees hg).congr (by constructor <;> rfl)

/-- A procedure ends with this effect; never refused, not with `TREE_WALK_CORRUPT` where the trees are in range, and not
with `BAD_FILTER_TYPE` unless `B`. -/
def Res.Acts (s : State) (B : Prop) (r : Res Unit) : Prop := r.Ensures (Effect s) ∧ r.Ends (TreesGood s) B

/-- The same of a command; it is refused only for a region that is no plain memory (R100). -/
def Res.ActsIfPlain (s : State) (B : Prop) (r : Res Unit) : Prop :=
  Res.Acts s B r ∨ r = .refuse .sideEffectRegion ∧ regionsPlain s = false

variable {B : Prop}

theorem acts_raise {c : Cause} (h : c ≠ .treeWalkCorrupt) (s : State) : Res.Acts s B (raise c s) :=
  ⟨Effect.refl s, ends_raise h s⟩

/-- What a passed region check gives the inflate side. -/
theorem inBounds_of_ready {s : State} (h : Ready true s) : InBounds s := by
  obtain ⟨h1, _, h3, _, h5⟩ := regions_of_ready h.1
  obtain ⟨h6, h7⟩ := h5 rfl
  exact ⟨h1, h3, h6, h7⟩

theorem sameTrees_symm_setMerging (x : Option Merging) (s : State) : SameTrees (s.setMerging x) s := by
  constructor <;> rfl

/-- The effect of a command does not depend on the model's field `merging`. -/
theorem Effect.ofSetMerging {s t : State} {x y : Option Merging} (h : Effect (s.setMerging x) t) :
    Effect s (t.setMerging y) where
  operands := (procKeeps_setMerging x s).operands.trans (h.operands.trans (procKeeps_setMerging y t).operands)
  error := (procKeeps_setMerging x s).error.trans (h.error.trans (procKeeps_setMerging y t).error)
  phase := h.phase
  done := h.done
  err := h.err
  bytes := h.bytes
  mem_wf := h.mem_wf
  trees hg := (h.trees (hg.congr (sameTrees_setMerging x s))).congr (sameTrees_setMerging y t)

theorem acts_runAccesses {s : State} {body : State → Res Unit}
    (hf : ∀ x, Res.Acts (s.setMerging x) B (body (s.setMerging x))) : Res.Acts s B (runAccesses body s) := by
  obtain ⟨x, hx⟩ := runAccesses_cases body s
  obtain ⟨h1, h2⟩ := hf x
  rw [hx]
  cases hr : body (s.setMerging x) with
  | ok u t => rw [hr] at h1; exact ⟨h1.ofSetMerging, trivial⟩
  | fail f t =>
    rw [hr] at h1 h2
    exact ⟨h1.ofSetMerging, fun hg => h2.1 (hg.congr (sameTrees_setMerging x s)), h2.2⟩
  | refuse r => rw [hr] at h2; exact h2.elim

/-- A command that begins with the region check (R95). -/
theorem acts_overRegions {b : Bool} {s : State} {body : State → Res Unit}
    (hf : ∀ u, Ready b u → Res.Acts u B (body u)) : Res.ActsIfPlain s B (overRegions b body s) := by
  unfold overRegions regionCheck
  split
  · exact .inl (acts_raise (by decide) s)
  · rename_i h1
    split
    · rename_i h2
      exact .inl (acts_runAccesses fun x => hf _ ⟨eq_false_of_ne_true h1, h2⟩)
    · rename_i h2
      exact .inr ⟨rfl, by simpa using h2⟩

theorem acts_of_runs {s : State} {r : Res Unit} (h : r.Ensures (Runs s)) (hc : r.Ends (TreesGood s) B) :
    Res.Acts s B r := ⟨h.mono fun _ => effect_of_runs, hc⟩

/-- A command that ends by writing `RESULT`. -/
theorem acts_result {s : State} {r : Res Nat} (h : r.Ensures (Runs s)) (hc : r.Ends (TreesGood s) B) :
    Res.Acts s B (r.andThen fun v s => .ok () (s.setResult v)) := by
  refine ⟨?_, hc.andThen fun _ _ _ => trivial⟩
  cases r with
  | ok v t => exact (effect_of_runs h).setResult v
  | fail f t => exact effect_of_runs h
  | refuse x => trivial

/-- The start of a stream puts the machine in bounds, whatever the cursors were (R280). -/
theorem inBounds_streamStart {s : State} (h : Ready false s) : InBounds (streamStart s) := by
  obtain ⟨h1, _, h3, _⟩ := regions_of_ready h.1
  exact ⟨h1, h3, Nat.zero_le _, Nat.zero_le _⟩

theorem effect_streamStart (s : State) : Effect s (streamStart s) where
  operands := by constructor <;> rfl
  error := by constructor <;> rfl
  phase := rfl
  done := rfl
  err := rfl
  bytes _ _ := rfl
  mem_wf := id
  trees hg := hg.congr (by constructor <;> rfl)

theorem effect_of_stream {s t : State} (h : Runs (streamStart s) t) : Effect s t := by
  have h1 := effect_streamStart s
  have h2 := effect_of_runs h
  exact ⟨h1.operands.trans h2.operands, h1.error.trans h2.error, h2.phase, h2.done, h2.err,
    fun a ha => h2.bytes a ha, h2.mem_wf, fun hg => h2.trees (h1.trees hg)⟩

theorem readZlibHeader_runs {s : State} (hr : Ready false s) :
    (readZlibHeader s).Ensures (Runs (streamStart s)) := by
  have hb := inBounds_streamStart hr
  unfold readZlibHeader
  split
  · exact Runs.refl hb
  · refine Res.Ensures.runs (src_runs hb 0) fun b0 t ht h1 _ => ?_
    refine Res.Ensures.andThen Runs.trans (src_drawn 1 t |>.mono fun _ => runs_of_drawn ht) fun b1 u h2 _ => ?_
    have hu := h2.bounds
    split
    · exact Runs.refl hu
    · split
      · exact Runs.refl hu
      · split
        · exact Runs.refl hu
        · split
          · exact Runs.refl hu
          · rename_i hlen _ _ _ _
            have hlen2 : u.srcLen = s.srcLen := h2.keeps.operands.srcLen.trans h1.keeps.operands.srcLen
            have hb16 : u.bitpos.toNat ≤ 16 := by
              have hd1 := src_drawn 0 (streamStart s)
              have hd2 := src_drawn 1 t
              simp_all
              obtain ⟨d, x, rfl⟩ := hd1
              obtain ⟨d', x', rfl⟩ := hd2
              show (0 : Nat) % _ ≤ 16
              omega
            exact runs_setBitpos hu hb16 (by rw [hlen2]; omega)

theorem readZlibHeader_ends {G : Prop} (s : State) : (readZlibHeader s).Ends G B := by
  unfold readZlibHeader; split
  · exact ends_raise (by decide) _
  · refine (src_ends _ _).andThen fun _ _ _ => (src_ends _ _).andThen fun _ _ _ => ?_
    split
    · exact ends_raise (by decide) _
    · split
      · exact ends_raise (by decide) _
      · split
        · exact ends_raise (by decide) _
        · split
          · exact ends_raise (by decide) _
          · trivial

theorem acts_stream {s : State} {r : Res Unit} (h : r.Ensures (Runs (streamStart s)))
    (hc : r.Ends (TreesGood s) B) : Res.Acts s B r := ⟨h.mono fun _ => effect_of_stream, hc⟩

theorem inflateBlocks_runs {s t : State} (h : Runs s t) : (inflateBlocks t).Ensures (Runs s) :=
  (inflateLoop_runs h.bounds _).mono fun _ hu => h.trans hu

theorem acts_unfilter {s : State} {f : Geometry → State → Res Unit}
    (hf : ∀ g, s.unfHeight.toNat * g.lb ≤ s.dstCap.toNat → (f g s).Ensures (Paints s) ∧ (f g s).Ends (TreesGood s) B)
    (hr : Ready false s) : Res.Acts s B ((unfGeometry s).andThen f) := by
  have hd := (regions_of_ready hr.1).2.2.1
  cases hu : unfGeometry s with
  | ok g t =>
    obtain ⟨rfl, rfl, _, _, _, h6⟩ := unfGeometry_ok hu
    obtain ⟨h1, h2⟩ := hf (geometry t) h6
    exact ⟨h1.mono fun _ => effect_of_paints hd, h2⟩
  | fail x t =>
    unfold unfGeometry at hu
    split at hu
    · cases hu; exact acts_raise (by decide) _
    · split at hu
      · cases hu; exact acts_raise (by decide) _
      · exact nomatch hu
  | refuse x =>
    unfold unfGeometry at hu
    split at hu
    · exact nomatch hu
    · split at hu <;> exact nomatch hu

/-- Every command is `finish` of a procedure with that effect (R170, R174). -/
theorem exec_acts (i : Instr) (s : State) : ∃ r, exec i s = finish r
    ∧ Res.ActsIfPlain s (i = .unfilterLine ∨ i = .unfilterImage) r := by
  cases i with
  | nop => exact ⟨.ok () s, rfl, .inl ⟨Effect.refl s, trivial⟩⟩
  | paeth => exact ⟨.ok () (s.setResult _), rfl, .inl ⟨(Effect.refl s).setResult _, trivial⟩⟩
  | buildTree t =>
    refine ⟨_, rfl, .inl ⟨?_, treeCommit_ends _ _ _⟩⟩
    unfold treeCommit
    split
    · have h1 : Effect s (spoilTable t (s.setValid t false)) := by
        refine ⟨?_, ?_, rfl, rfl, rfl, fun _ _ => rfl, id, fun hg => ?_⟩
        · exact (procKeeps_setValid t false s).operands.trans (procKeeps_spoilTable t _).operands
        · exact (procKeeps_setValid t false s).error.trans (procKeeps_spoilTable t _).error
        · have := treesGood_setTable_invalid (treesGood_setValid_false hg t) (valid_setValid t false s)
            ((List.range (2 * numcodes t)).map (Config.freeEntry s.draws))
          exact this.congr (sameTrees_tick _)
      exact h1
    · rename_i l hl
      refine ⟨?_, ?_, rfl, rfl, rfl, fun _ _ => rfl, id, fun hg =>
        treesGood_commit hg (by rw [length_lenramLengths]) hl⟩
      · exact (procKeeps_setTable t _ s).operands.trans (procKeeps_setValid t true _).operands
      · exact (procKeeps_setTable t _ s).error.trans (procKeeps_setValid t true _).error
  | readBits n =>
    refine ⟨_, rfl, ?_⟩
    split
    · exact .inl (acts_raise (by decide) s)
    · exact acts_overRegions fun u hr =>
        acts_result (checkedRead_runs (inBounds_of_ready hr) _) (checkedRead_ends _ _)
  | decodeSymbol t =>
    exact ⟨_, rfl, acts_overRegions fun u hr => acts_result (decodeSymbol_runs (inBounds_of_ready hr) t)
      (decodeSymbol_ends t id)⟩
  | readDynTrees =>
    exact ⟨_, rfl, acts_overRegions fun u hr => acts_of_runs (readDynTrees_runs (inBounds_of_ready hr))
      (readDynTrees_ends (inBounds_of_ready hr) id)⟩
  | lzCopy =>
    refine ⟨_, rfl, acts_overRegions fun u hr => ?_⟩
    unfold copyArgs; split
    · exact acts_of_runs (checkedCopy_runs (inBounds_of_ready hr) _ _) (checkedCopy_ends _ _ _)
    · exact acts_raise (by decide) u
  | inflateBlock =>
    exact ⟨_, rfl, acts_overRegions fun u hr => acts_of_runs (inflateOne_runs (inBounds_of_ready hr))
      (inflateOne_ends (inBounds_of_ready hr) id)⟩
  | zlibHeader =>
    exact ⟨_, rfl, acts_overRegions fun u hr => acts_stream (readZlibHeader_runs hr) (readZlibHeader_ends u)⟩
  | inflateZlib =>
    refine ⟨_, rfl, acts_overRegions fun u hr => acts_stream ?_ ?_⟩
    · exact Res.Ensures.andThen Runs.trans (readZlibHeader_runs hr) fun _ t ht _ =>
        inflateBlocks_runs (Runs.refl ht.bounds)
    · refine (readZlibHeader_ends u).andThen fun _ t hz => ?_
      have h1 := readZlibHeader_runs hr
      rw [hz] at h1
      exact inflateLoop_ends _ h1.bounds fun hg => h1.trees ((effect_streamStart u).trees hg)
  | unfilterLine =>
    refine ⟨_, rfl, acts_overRegions fun u hr => acts_unfilter (fun g h6 => ?_) hr⟩
    split
    · exact ⟨Paints.refl u, ends_raise (by decide) u⟩
    · rename_i hy
      have h1 : (u.arg0.toNat + 1) * g.lb ≤ u.unfHeight.toNat * g.lb := Nat.mul_le_mul_right _ (by omega)
      rw [Nat.add_mul, Nat.one_mul] at h1
      exact ⟨unfilterLine_paints (by omega), unfilterLine_ends (.inl rfl) _ _ _⟩
  | unfilterImage =>
    refine ⟨_, rfl, acts_overRegions fun u hr => acts_unfilter (fun g h6 => ?_) hr⟩
    exact ⟨unfilterLines_paints _ _ (by simpa using h6), unfilterLines_ends (.inr rfl) _ _ _ _⟩

/-- No command leaves a run of merged accesses over: the model's field `merging` is as before. -/
theorem exec_merging {i : Instr} {s t : State} (h : exec i s = .next t) : t.merging = s.merging := by
  have key {r : Res Unit} (hr : r.Ensures fun t => t.merging = s.merging) (h : finish r = .next t) :
      t.merging = s.merging := by
    rcases finish_next h with ⟨u, rfl, rfl⟩ | ⟨f, u, rfl, rfl⟩ <;> exact hr
  cases i with
  | nop => exact key (r := .ok () s) rfl h
  | paeth => exact key (r := .ok () (s.setResult _)) rfl h
  | buildTree t => refine key ?_ h; unfold treeCommit; split <;> rfl
  | readBits n =>
    refine key ?_ h; split
    · rfl
    · exact overRegions_merging _ _ _
  | decodeSymbol t => exact key (overRegions_merging _ _ _) h
  | readDynTrees => exact key (overRegions_merging _ _ _) h
  | lzCopy => exact key (overRegions_merging _ _ _) h
  | inflateBlock => exact key (overRegions_merging _ _ _) h
  | zlibHeader => exact key (overRegions_merging _ _ _) h
  | inflateZlib => exact key (overRegions_merging _ _ _) h
  | unfilterLine => exact key (overRegions_merging _ _ _) h
  | unfilterImage => exact key (overRegions_merging _ _ _) h

/-- How a command ends in a next state (R170, R171, R333), and what it did before that. -/
theorem exec_next {i : Instr} {s t : State} (h : exec i s = .next t) :
    ∃ u, Effect s u ∧ (t = u.complete ∨ ∃ f, t = u.enterFailure f ∧ (TreesGood s → f ≠ .cause .treeWalkCorrupt)
      ∧ ((i = .unfilterLine ∨ i = .unfilterImage) ∨ ∃ c, f = .cause c)) := by
  obtain ⟨r, hr, ⟨he, hc⟩ | ⟨rfl, _⟩⟩ := exec_acts i s
  case inr => rw [hr] at h; exact nomatch h
  rw [hr] at h
  rcases finish_next h with ⟨u, rfl, rfl⟩ | ⟨f, u, rfl, rfl⟩
  · exact ⟨u, he, .inl rfl⟩
  · exact ⟨u, he, .inr ⟨f, rfl, hc⟩⟩

/-- Over plain regions every command ends in a next state (R100, R179). -/
theorem exec_ends {i : Instr} {s : State} (h : regionsPlain s = true) : ∃ t, exec i s = .next t := by
  obtain ⟨r, hr, ⟨_, hc⟩ | ⟨_, hp⟩⟩ := exec_acts i s
  · cases r with
    | ok u t => exact ⟨_, hr⟩
    | fail f t => exact ⟨_, hr⟩
    | refuse x => exact hc.elim
  · rw [h] at hp; exact nomatch hp

end Machine
end Sys2Proof
end

