-- ==== Sys2Proof/Laws/Complete.lean ====
section
/-! SUPPORT. The canonical codes of a set of lengths that is not oversubscribed are prefix-free, so the insertion
fails for want of nodes only (R204 (a)), and a complete set never does (R204 (c)). -/

namespace Sys2Proof
namespace Machine

/-! ### Canonical codes -/

/-- The first code of length `l` that is not assigned. -/
def endCode (len : List Nat) (l : Nat) : Nat := firstCode len l + blcount len l

theorem firstCode_succ (len : List Nat) (l : Nat) : firstCode len (l + 1) = 2 * endCode len l := by
  simp only [firstCode, endCode, Nat.shiftLeft_eq]; ring

theorem endCode_succ (len : List Nat) (l : Nat) : endCode len (l + 1) = 2 * endCode len l + blcount len (l + 1) := by
  rw [endCode, firstCode_succ]

theorem endCode_zero (len : List Nat) : endCode len 0 = 0 := by simp [endCode, firstCode, blcount]

theorem endCode_mul_le (len : List Nat) (l k : Nat) : endCode len l * 2 ^ k ≤ endCode len (l + k) := by
  induction k with
  | zero => simp
  | succ k ih =>
    rw [← Nat.add_assoc, endCode_succ, Nat.pow_succ, ← Nat.mul_assoc]; omega

theorem endCode_mul_le_first (len : List Nat) (l k : Nat) :
    endCode len l * 2 ^ (k + 1) ≤ firstCode len (l + (k + 1)) := by
  rw [← Nat.add_assoc, firstCode_succ, Nat.pow_succ, ← Nat.mul_assoc]
  have := endCode_mul_le len l k; omega

theorem kraft_eq (len : List Nat) (M : Nat) : kraft len M = endCode len M := by
  unfold kraft
  induction M with
  | zero => simp [endCode_zero]
  | succ M ih =>
    rw [List.range_succ, List.map_append, List.sum_append, endCode_succ, ← ih]
    simp only [List.map_singleton, List.sum_singleton, Nat.sub_self, Nat.pow_zero, Nat.mul_one]
    congr 1
    rw [← List.sum_map_mul_left]
    congr 1
    refine List.map_congr_left fun k hk => ?_
    have := List.mem_range.1 hk
    rw [show M + 1 - (k + 1) = M - (k + 1) + 1 by omega, Nat.pow_succ]; ring

theorem endCode_le {len : List Nat} {M : Nat} (hk : kraft len M ≤ 2 ^ M) {l : Nat} (hl : l ≤ M) :
    endCode len l ≤ 2 ^ l := by
  have h1 := endCode_mul_le len l (M - l)
  rw [Nat.add_sub_cancel' hl, ← kraft_eq len M] at h1
  have h2 : 2 ^ l * 2 ^ (M - l) = 2 ^ M := by rw [← Nat.pow_add, Nat.add_sub_cancel' hl]
  exact Nat.le_of_mul_le_mul_right (by omega : endCode len l * 2 ^ (M - l) ≤ 2 ^ l * 2 ^ (M - l)) (by positivity)

theorem assignFrom_getD {next len : List Nat} {s : Nat} (hs : s < len.length) (h0 : len.getD s 0 ≠ 0)
    (hn : ∀ l ∈ len, l < next.length) :
    (assignFrom next len).getD s 0 = next.getD (len.getD s 0) 0 + (len.take s).count (len.getD s 0) := by
  induction len generalizing next s with
  | nil => simp at hs
  | cons a ls ih =>
    cases s with
    | zero =>
      simp only [List.getD_cons_zero] at h0
      rw [assignFrom, if_neg h0]; simp
    | succ s =>
      simp only [List.getD_cons_succ, List.length_cons, Nat.add_lt_add_iff_right] at hs h0
      rw [assignFrom]
      split
      · rename_i ha
        rw [List.getD_cons_succ, ih hs h0 fun l hl => hn l (by simp [hl]), List.getD_cons_succ, List.take_succ_cons,
          List.count_cons_of_ne]
        omega
      · rw [List.getD_cons_succ, ih hs h0 fun l hl => by simpa using hn l (by simp [hl]), List.getD_cons_succ,
          List.take_succ_cons]
        have ha := hn a (by simp)
        by_cases hla : a = ls.getD s 0
        · rw [← hla, List.count_cons_self, List.getD_eq_getElem?_getD, List.getElem?_set_self ha]
          simp only [Option.getD_some]; omega
        · rw [List.count_cons_of_ne hla, List.getD_eq_getElem?_getD, List.getElem?_set_ne hla,
            ← List.getD_eq_getElem?_getD]

theorem mem_of_getD {l : List Nat} {s : Nat} (h : s < l.length) : l.getD s 0 ∈ l := by
  rw [List.getD_eq_getElem?_getD, List.getElem?_eq_getElem h]; exact List.getElem_mem h

/-- The code of a used symbol (R199): the first code of its length plus the used symbols of that length before it. -/
theorem assignCodes_getD {len : List Nat} {M s : Nat} (hs : s < len.length) (h0 : len.getD s 0 ≠ 0)
    (hM : ∀ l ∈ len, l ≤ M) : (assignCodes len M).getD s 0
      = firstCode len (len.getD s 0) + (len.take s).count (len.getD s 0) := by
  rw [assignCodes, assignFrom_getD hs h0 fun l hl => by simpa using Nat.lt_succ_of_le (hM l hl)]
  have := hM _ (mem_of_getD hs)
  congr 1
  rw [List.getD_eq_getElem?_getD, List.getElem?_map, List.getElem?_range (by omega)]
  rfl

theorem count_take_lt {len : List Nat} {s t : Nat} (hst : s < t) (ht : t ≤ len.length) :
    (len.take s).count (len.getD s 0) < (len.take t).count (len.getD s 0) := by
  have h1 : len.take (s + 1) = len.take s ++ [len.getD s 0] := by
    rw [List.take_add_one, List.getD_eq_getElem?_getD, List.getElem?_eq_getElem (by omega)]; rfl
  have h2 : (len.take (s + 1)).Sublist (len.take t) := (List.take_prefix_take_left (by omega)).sublist
  have := h2.count_le (len.getD s 0)
  rw [h1, List.count_append, List.count_singleton_self] at this
  omega

theorem code_bounds {len : List Nat} {M s : Nat} (hs : s < len.length) (h0 : len.getD s 0 ≠ 0)
    (hM : ∀ l ∈ len, l ≤ M) : firstCode len (len.getD s 0) ≤ (assignCodes len M).getD s 0
      ∧ (assignCodes len M).getD s 0 < endCode len (len.getD s 0) := by
  rw [assignCodes_getD hs h0 hM, endCode, blcount, if_neg h0]
  have := count_take_lt hs (le_refl len.length)
  rw [List.take_length] at this
  omega

/-- The codes are prefix-free (R204 (a)). -/
theorem code_prefixFree {len : List Nat} {M s t : Nat} (hs : s < len.length) (ht : t < len.length) (hst : s ≠ t)
    (h0 : len.getD s 0 ≠ 0) (hM : ∀ l ∈ len, l ≤ M) (hle : len.getD s 0 ≤ len.getD t 0) :
    (assignCodes len M).getD t 0 >>> (len.getD t 0 - len.getD s 0) ≠ (assignCodes len M).getD s 0 := by
  intro he
  rcases Nat.eq_or_lt_of_le hle with heq | hlt
  · rw [← heq, Nat.sub_self, Nat.shiftRight_zero, assignCodes_getD ht (by omega) hM,
      assignCodes_getD hs h0 hM, ← heq] at he
    rcases Nat.lt_or_gt_of_ne hst with h | h
    · have := count_take_lt h (by omega : t ≤ len.length); omega
    · have := count_take_lt h (by omega : s ≤ len.length)
      rw [← heq] at this; omega
  · have hb := code_bounds hs h0 hM
    have hc := code_bounds ht (by omega) hM
    have h1 := endCode_mul_le_first len (len.getD s 0) (len.getD t 0 - len.getD s 0 - 1)
    rw [show len.getD t 0 - len.getD s 0 - 1 + 1 = len.getD t 0 - len.getD s 0 by omega,
      show len.getD s 0 + (len.getD t 0 - len.getD s 0) = len.getD t 0 by omega] at h1
    have h2 : endCode len (len.getD s 0) ≤ (assignCodes len M).getD t 0 >>> (len.getD t 0 - len.getD s 0) := by
      rw [Nat.shiftRight_eq_div_pow, Nat.le_div_iff_mul_le (by positivity)]; omega
    omega

/-! ### The shape of a tree under construction -/

/-- A partial tree over the codes `cd` of lengths `ln`: symbols below `k` have their leaf, and each node stands for
a proper prefix (its depth and value) of the code of a symbol below `k'`. -/
structure Shape (N k k' : Nat) (ln cd : Nat → Nat) (path : Nat → Nat × Nat) (b : Builder) : Prop where
  size : b.slots.length = 2 * N
  root : path 0 = (0, 0)
  slot : ∀ node, node ≤ b.nodes → ∀ bit, bit < 2 → ∀ v, b.slots.getD (2 * node + bit) none = some v →
    (v < N ∧ v < k ∧ ln v = (path node).1 + 1 ∧ cd v = 2 * (path node).2 + bit)
      ∨ (N ≤ v ∧ v - N ≠ 0 ∧ v - N ≤ b.nodes ∧ path (v - N) = ((path node).1 + 1, 2 * (path node).2 + bit))
  pre : ∀ node, node ≤ b.nodes → node ≠ 0 →
    ∃ w, w < k' ∧ ln w ≠ 0 ∧ (path node).1 < ln w ∧ cd w >>> (ln w - (path node).1) = (path node).2
  parent : ∀ node, node ≤ b.nodes → node ≠ 0 →
    ∃ par bit, par ≤ b.nodes ∧ bit < 2 ∧ b.slots.getD (2 * par + bit) none = some (node + N)
  inj : ∀ i j, i ≤ b.nodes → j ≤ b.nodes → path i = path j → i = j
  fresh : ∀ j, 2 * (b.nodes + 1) ≤ j → b.slots.getD j none = none

/-- Codes are prefix-free among the symbols below `n`. -/
def PrefixFree (n : Nat) (ln cd : Nat → Nat) : Prop :=
  ∀ s t, s < n → t < n → s ≠ t → ln s ≠ 0 → ln s ≤ ln t → cd t >>> (ln t - ln s) ≠ cd s

theorem shiftRight_succ_bit (c r : Nat) : 2 * (c >>> (r + 1)) + (c >>> r) % 2 = c >>> r := by
  rw [Nat.shiftRight_succ]; omega

/-- One insertion from node `pos` on: it ends well-shaped, or the node slots run out. -/
theorem insertBits_shape {N sym : Nat} {ln cd : Nat → Nat} (hN : 2 ≤ N) (hs : sym < N) (hused : ln sym ≠ 0)
    (hpf : PrefixFree N ln cd) {r pos : Nat} {b : Builder} {path : Nat → Nat × Nat} (hr : r ≤ ln sym)
    (hr0 : r ≠ 0) (hb : Shape N sym (sym + 1) ln cd path b) (hpos : pos ≤ b.nodes)
    (hpath : path pos = (ln sym - r, cd sym >>> r)) :
    (insertBits N sym (cd sym) r pos b = .error .treeNodesExhausted
      ∧ ∃ path' b', Shape N sym (sym + 1) ln cd path' b' ∧ N - 2 < b'.nodes)
    ∨ ∃ path' b', insertBits N sym (cd sym) r pos b = .ok b' ∧ Shape N (sym + 1) (sym + 1) ln cd path' b' := by
  induction r generalizing pos b path with
  | zero => exact (hr0 rfl).elim
  | succ r ih =>
    have hbit : (cd sym >>> r) % 2 < 2 := Nat.mod_lt _ (by omega)
    have hval : 2 * (path pos).2 + (cd sym >>> r) % 2 = cd sym >>> r := by
      rw [hpath]; exact shiftRight_succ_bit _ _
    have hdep : (path pos).1 + 1 = ln sym - r := by rw [hpath]; simp only; omega
    rw [insertBits]
    by_cases hp : N - 2 < pos
    · rw [if_pos hp]; exact .inl ⟨rfl, path, b, hb, by omega⟩
    · rw [if_neg hp]
      have hj : 2 * pos + (cd sym >>> r) % 2 < b.slots.length := by rw [hb.size]; omega
      cases hx : b.slots.getD (2 * pos + (cd sym >>> r) % 2) none with
      | none =>
        by_cases hr1 : r = 0
        · subst hr1
          refine .inr ⟨path, _, if_pos rfl, ?_⟩
          refine ⟨by simpa using hb.size, hb.root, ?_, hb.pre, ?_, hb.inj, ?_⟩
          · intro node hn bit hb2 v hv
            by_cases hjj : 2 * pos + (cd sym >>> 0) % 2 = 2 * node + bit
            · have h1 : node = pos := by omega
              have h2 : bit = (cd sym >>> 0) % 2 := by omega
              subst h1 h2
              rw [getD_set_self hj] at hv
              cases hv
              exact .inl ⟨hs, by omega, by rw [hdep]; rfl, by rw [hval]; rfl⟩
            · rw [getD_set_ne hjj] at hv
              rcases hb.slot node hn bit hb2 v hv with ⟨h1, h2, h3⟩ | h
              · exact .inl ⟨h1, by omega, h3⟩
              · exact .inr h
          · intro node hn h0
            obtain ⟨par, bit, h1, h2, h3⟩ := hb.parent node hn h0
            exact ⟨par, bit, h1, h2, slotsGrow_set hx _ _ _ h3⟩
          · intro j hjf
            rw [getD_set_ne (by simp only at hjf; omega)]; exact hb.fresh j hjf
        · simp only [if_neg hr1]
          set n := b.nodes + 1 with hn
          have hne : ∀ i, i ≤ b.nodes → path i ≠ (ln sym - r, cd sym >>> r) := by
            intro i hi he
            by_cases hi0 : i = 0
            · rw [hi0, hb.root] at he
              have := congrArg Prod.fst he
              simp only at this; omega
            · obtain ⟨par, bit, h1, h2, h3⟩ := hb.parent i hi hi0
              rcases hb.slot par h1 bit h2 _ h3 with ⟨h4, _⟩ | ⟨_, _, _, h5⟩
              · omega
              · rw [Nat.add_sub_cancel, he] at h5
                have e1 := congrArg Prod.fst h5
                have e2 := congrArg Prod.snd h5
                simp only at e1 e2
                have hpp : path par = path pos := by
                  apply Prod.ext
                  · omega
                  · omega
                have := hb.inj par pos h1 hpos hpp
                subst this
                rw [show bit = (cd sym >>> r) % 2 by omega, hx] at h3
                exact nomatch h3
          let path' : Nat → Nat × Nat := fun i => if i = n then (ln sym - r, cd sym >>> r) else path i
          have hold {i : Nat} (hi : i ≤ b.nodes) : path' i = path i := if_neg (by omega)
          have hnewp : path' n = (ln sym - r, cd sym >>> r) := if_pos rfl
          refine ih (path := path') (by omega) hr1 ?_ le_rfl hnewp
          refine ⟨by simpa using hb.size, by rw [hold (by omega)]; exact hb.root, ?_, ?_, ?_, ?_, ?_⟩
          · intro node hnode bit hb2 v hv
            by_cases hjj : 2 * pos + (cd sym >>> r) % 2 = 2 * node + bit
            · have h1 : node = pos := by omega
              have h2 : bit = (cd sym >>> r) % 2 := by omega
              subst h1 h2
              rw [getD_set_self hj] at hv
              cases hv
              refine .inr ⟨by omega, by omega, by simp only; omega, ?_⟩
              rw [Nat.add_sub_cancel, hnewp, hold hpos, hdep, hval]
            · rw [getD_set_ne hjj] at hv
              have hnn : node ≤ b.nodes := by
                by_contra hc
                rw [hb.fresh _ (by omega)] at hv; exact nomatch hv
              rcases hb.slot node hnn bit hb2 v hv with h | ⟨h1, h2, h3, h4⟩
              · rw [hold hnn]; exact .inl h
              · rw [hold hnn, hold h3]; exact .inr ⟨h1, h2, by simp only; omega, h4⟩
          · intro node hnode h0
            by_cases hnn : node = n
            · subst hnn
              rw [hnewp]
              exact ⟨sym, by omega, hused, by simp only; omega, by
                simp only; congr 1; omega⟩
            · have hle : node ≤ b.nodes := by simp only at hnode; omega
              rw [hold hle]; exact hb.pre node hle h0
          · intro node hnode h0
            by_cases hnn : node = n
            · subst hnn
              exact ⟨pos, _, by simp only; omega, hbit, getD_set_self hj _⟩
            · have hle : node ≤ b.nodes := by simp only at hnode; omega
              obtain ⟨par, bit, h1, h2, h3⟩ := hb.parent node hle h0
              exact ⟨par, bit, by simp only; omega, h2, slotsGrow_set hx _ _ _ h3⟩
          · intro i j hi hj' he
            simp only at hi hj'
            by_cases hin : i = n <;> by_cases hjn : j = n
            · omega
            · subst hin
              rw [hnewp, hold (by omega)] at he
              exact (hne j (by omega) he.symm).elim
            · subst hjn
              rw [hnewp, hold (by omega)] at he
              exact (hne i (by omega) he).elim
            · rw [hold (by omega), hold (by omega)] at he
              exact hb.inj i j (by omega) (by omega) he
          · intro j hjf
            simp only at hjf
            rw [getD_set_ne (by omega)]; exact hb.fresh j (by omega)
      | some v =>
        rcases hb.slot pos hpos _ hbit v hx with ⟨h1, h2, h3, h4⟩ | ⟨h1, h2, h3, h4⟩
        · -- the leaf of an earlier symbol: its code would be a prefix of this one
          exfalso
          rw [hdep] at h3
          rw [hval] at h4
          refine hpf v sym h1 hs (by omega) (by omega) (by omega) ?_
          rw [h3, h4]; congr 1; omega
        · rw [hdep, hval] at h4
          by_cases hr1 : r = 0
          · -- an inner node where this code ends: this code would be a prefix of a longer one
            exfalso
            obtain ⟨w, e1, e2, e3, e4⟩ := hb.pre (v - N) h3 h2
            rw [h4] at e3 e4
            subst hr1
            simp only [Nat.sub_zero, Nat.shiftRight_zero] at e3 e4
            have hws : sym ≠ w := by rintro rfl; omega
            exact hpf sym w hs (by omega) hws hused (by omega) e4
          · simp only [hr1, false_or, if_neg (by omega : ¬ v < N)]
            exact ih (by omega) hr1 hb h3 h4

theorem Shape.mono {N k k' : Nat} {ln cd : Nat → Nat} {path : Nat → Nat × Nat} {b : Builder}
    (h : Shape N k k' ln cd path b) {j j' : Nat} (hk : k ≤ j) (hk' : k' ≤ j') : Shape N j j' ln cd path b :=
  ⟨h.size, h.root, fun node hn bit hb v hv => (h.slot node hn bit hb v hv).imp
    (fun ⟨h1, h2, h3⟩ => ⟨h1, by omega, h3⟩) id,
    fun node hn h0 => by obtain ⟨w, h1, h2⟩ := h.pre node hn h0; exact ⟨w, by omega, h2⟩, h.parent, h.inj, h.fresh⟩

/-- All insertions: they end well-shaped, or the node slots run out. -/
theorem insertFrom_shape {N n : Nat} {ln cd : Nat → Nat} (hN : 2 ≤ N) (hn : n ≤ N) (hpf : PrefixFree N ln cd)
    (hlt : ∀ s, s < n → ln s ≠ 0 → cd s < 2 ^ ln s) {l : List (Nat × Nat)} {sym : Nat} {b : Builder} {path : Nat → Nat × Nat} (hl : sym + l.length = n)
    (hlc : ∀ k, k < l.length → l[k]? = some (ln (sym + k), cd (sym + k))) (hb : Shape N sym sym ln cd path b) :
    (insertFrom N sym l b = .error .treeNodesExhausted
      ∧ ∃ path' b', Shape N n n ln cd path' b' ∧ N - 2 < b'.nodes)
    ∨ ∃ path' b', insertFrom N sym l b = .ok b' ∧ Shape N n n ln cd path' b' := by
  induction l generalizing sym b path with
  | nil => exact .inr ⟨path, b, rfl, hb.mono (by simp at hl; omega) (by simp at hl; omega)⟩
  | cons x l ih =>
    simp only [List.length_cons] at hl
    have h0 := hlc 0 (by simp)
    simp only [List.getElem?_cons_zero, Option.some.injEq, Nat.add_zero] at h0
    subst h0
    have hrest : ∀ k, k < l.length → l[k]? = some (ln (sym + 1 + k), cd (sym + 1 + k)) := fun k hk => by
      have := hlc (k + 1) (by simpa using hk)
      rw [show sym + 1 + k = sym + (k + 1) by omega]; simpa using this
    rw [insertFrom]
    by_cases hu : ln sym = 0
    · rw [hu, insertBits]
      exact ih (by omega) hrest (hb.mono (by omega) (by omega))
    · rcases insertBits_shape hN (by omega) hu hpf le_rfl hu (hb.mono le_rfl (Nat.le_succ sym)) (Nat.zero_le _)
        (by
          rw [hb.root, Nat.sub_self, Nat.shiftRight_eq_div_pow, Nat.div_eq_of_lt (hlt sym (by omega) hu)]) with ⟨h1, path', b', h2, h3⟩ | ⟨path', b', h1, h2⟩
      · rw [h1]; exact .inl ⟨rfl, path', b', h2.mono (by omega) (by omega), h3⟩
      · rw [h1]; exact ih (by omega) hrest h2

/-! ### Counting -/

/-- Unassigned code values of length `d`. -/
def freeCodes (len : List Nat) (d : Nat) : Nat := 2 ^ d - endCode len d

theorem sum_freeCodes {len : List Nat} {M : Nat} (hk : kraft len M ≤ 2 ^ M) {m : Nat} (hm : m ≤ M) :
    (∑ d ∈ Finset.range m, freeCodes len d) + 1
      = (∑ l ∈ Finset.range m, blcount len (l + 1)) + freeCodes len m := by
  induction m with
  | zero => simp [freeCodes, endCode_zero]
  | succ m ih =>
    rw [Finset.sum_range_succ, Finset.sum_range_succ]
    have h1 := ih (by omega)
    have h2 := endCode_le hk (show m ≤ M by omega)
    have h3 := endCode_le hk hm
    have h4 := endCode_succ len m
    simp only [freeCodes] at h1 ⊢
    rw [Nat.pow_succ] at *
    omega

theorem sum_blcount_le (len : List Nat) (m : Nat) : ∑ l ∈ Finset.range m, blcount len (l + 1) ≤ len.length := by
  have h (l : Nat) : blcount len (l + 1) = len.count (l + 1) := if_neg (by omega)
  simp only [h]
  induction len with
  | nil => simp
  | cons a ls ih =>
    simp only [List.count_cons, Finset.sum_add_distrib, List.length_cons]
    have h1 : ∑ l ∈ Finset.range m, (if (a == l + 1) = true then 1 else 0) ≤ 1 := by
      rw [← Finset.sum_filter, Finset.sum_const, smul_eq_mul, Nat.mul_one, Finset.card_le_one]
      intro i hi j hj
      simp only [Finset.mem_filter, beq_iff_eq] at hi hj
      omega
    have h2 := ih (fun l => if_neg (by omega))
    omega

/-- A well-shaped tree has at most as many nodes as there are unassigned values below the greatest length. -/
theorem shape_nodes_le {N n M : Nat} {len : List Nat} {path : Nat → Nat × Nat} {b : Builder} (hM : ∀ l ∈ len, l ≤ M)
    (hk : kraft len M ≤ 2 ^ M) (hM1 : 1 ≤ M) (hn : n ≤ len.length)
    (h : Shape N n n (fun s => len.getD s 0) (fun s => (assignCodes len M).getD s 0) path b) :
    b.nodes + 1 ≤ ∑ d ∈ Finset.range M, freeCodes len d := by
  have hcard : ∑ d ∈ Finset.range M, freeCodes len d
      = ((Finset.range M).sigma fun d => Finset.Ico (endCode len d) (2 ^ d)).card := by
    rw [Finset.card_sigma]; simp [freeCodes]
  rw [hcard, ← Finset.card_range (b.nodes + 1)]
  refine Finset.card_le_card_of_injOn (fun i => ⟨(path i).1, (path i).2⟩) ?_ ?_
  · intro i hi
    have hi := Finset.mem_range.1 hi
    simp only [Finset.coe_sigma, Set.mem_sigma_iff, Finset.coe_range, Set.mem_Iio, Finset.coe_Ico, Set.mem_Ico]
    by_cases h0 : i = 0
    · rw [h0, h.root]; simp [endCode_zero]; omega
    · obtain ⟨w, h1, h2, h3, h4⟩ := h.pre i (by omega) h0
      have hw : w < len.length := by omega
      have hle := hM _ (mem_of_getD hw)
      have hb := code_bounds hw h2 hM
      have he := endCode_le hk hle
      have hmul := endCode_mul_le_first len (path i).1 (len.getD w 0 - (path i).1 - 1)
      rw [show len.getD w 0 - (path i).1 - 1 + 1 = len.getD w 0 - (path i).1 by omega,
        show (path i).1 + (len.getD w 0 - (path i).1) = len.getD w 0 by omega] at hmul
      rw [Nat.shiftRight_eq_div_pow] at h4
      refine ⟨by omega, ?_, ?_⟩
      · rw [← h4, Nat.le_div_iff_mul_le (by positivity)]; omega
      · rw [← h4, Nat.div_lt_iff_lt_mul (by positivity), ← Nat.pow_add,
          show (path i).1 + (len.getD w 0 - (path i).1) = len.getD w 0 by omega]
        omega
  · intro i hi j hj he
    have hi := Finset.mem_range.1 hi
    have hj := Finset.mem_range.1 hj
    simp only [Sigma.mk.injEq, heq_eq_eq] at he
    exact h.inj i j (by omega) (by omega) (Prod.ext he.1 he.2)

/-- A set of lengths that is neither too long nor oversubscribed builds, or runs out of nodes; a complete one
builds (R204 (a), (c)). -/
theorem buildTree_outcome {len : List Nat} {N M : Nat} (hN : 2 ≤ N) (hlen : len.length ≤ N) (hM1 : 1 ≤ M)
    (hM : ∀ l ∈ len, l ≤ M) (hk : kraft len M ≤ 2 ^ M) :
    ((∃ T, buildTree len N M = .ok T) ∨ buildTree len N M = .error .treeNodesExhausted)
      ∧ (kraft len M = 2 ^ M → ∃ T, buildTree len N M = .ok T) := by
  have hany : (len.any fun l => decide (M < l)) = false := by
    rw [List.any_eq_false]; intro l hl; have := hM l hl; simp; omega
  have hpf : PrefixFree N (fun s => len.getD s 0) (fun s => (assignCodes len M).getD s 0) := by
    intro s t _ _ hst h0 hle
    have hused {s : Nat} (h : len.getD s 0 ≠ 0) : s < len.length := by
      by_contra hc
      rw [List.getD_eq_getElem?_getD, List.getElem?_eq_none (Nat.le_of_not_lt hc)] at h; exact h rfl
    exact code_prefixFree (hused h0) (hused (s := t) (by simp only at h0 hle ⊢; omega)) hst h0 hM hle
  have hlt : ∀ s, s < len.length → len.getD s 0 ≠ 0 → (assignCodes len M).getD s 0 < 2 ^ len.getD s 0 := by
    intro s hs h0
    have := code_bounds hs h0 hM
    have := endCode_le hk (hM _ (mem_of_getD hs))
    omega
  have hlc : ∀ k, k < (len.zip (assignCodes len M)).length → (len.zip (assignCodes len M))[k]?
      = some (len.getD (0 + k) 0, (assignCodes len M).getD (0 + k) 0) := by
    intro k hk'
    simp only [List.length_zip, length_assignCodes, Nat.min_self] at hk'
    rw [List.getElem?_zip_eq_some]
    simp [List.getD_eq_getElem?_getD, hk', length_assignCodes]
  have hshape : Shape N 0 0 (fun s => len.getD s 0) (fun s => (assignCodes len M).getD s 0) (fun _ => (0, 0))
      ⟨List.replicate (2 * N) none, 0⟩ := by
    have hnone (j : Nat) : (List.replicate (2 * N) (none : Option Nat)).getD j none = none := by
      simp only [List.getD_eq_getElem?_getD, List.getElem?_replicate]; split <;> rfl
    refine ⟨by simp, rfl, fun node _ bit _ v hv => ?_, fun node hn h0 => ?_, fun node hn h0 => ?_,
      fun i j hi hj _ => ?_, fun j _ => hnone j⟩
    · rw [hnone] at hv; exact nomatch hv
    · simp only [Nat.le_zero] at hn; omega
    · simp only [Nat.le_zero] at hn; omega
    · simp only [Nat.le_zero] at hi hj; omega
  have hins := insertFrom_shape hN hlen hpf hlt (l := len.zip (assignCodes len M)) (sym := 0)
    (by simp [length_assignCodes]) hlc hshape
  have hbuild : buildTree len N M
      = match insertFrom N 0 (len.zip (assignCodes len M)) ⟨List.replicate (2 * N) none, 0⟩ with
        | .ok b => .ok (b.slots.map fun x => x.getD 0)
        | .error e => .error e := by
    cases hi : insertFrom N 0 (len.zip (assignCodes len M)) ⟨List.replicate (2 * N) none, 0⟩ <;>
      simp only [buildTree, hany, if_neg (show ¬ 2 ^ M < kraft len M by omega), hi, Bool.false_eq_true, if_false]
  rcases hins with ⟨h1, path', b', h2, h3⟩ | ⟨path', b', h1, _⟩
  · refine ⟨.inr (by rw [hbuild, h1]), fun hc => ?_⟩
    exfalso
    have hcount := shape_nodes_le hM hk hM1 le_rfl h2
    have hsum := sum_freeCodes hk (le_refl M)
    have hbl := sum_blcount_le len M
    rw [freeCodes, ← kraft_eq, hc, Nat.sub_self] at hsum
    omega
  · have hok : ∃ T, buildTree len N M = .ok T := ⟨_, by rw [hbuild, h1]⟩
    exact ⟨.inl hok, fun _ => hok⟩

end Machine
end Sys2Proof
end

