-- ==== Sys2Proof/Laws/Stream.lean ====
section
/-! SUPPORT. What the dynamic-tree reader, a block and a chain of blocks do in a quiet state, from what stands in
the stream (R230 to R239, R250 to R252, R282). -/

namespace Sys2Proof
namespace Machine

/-! ### Committed trees -/

theorem map_toNat_ofNat {l : List Nat} {N : Nat} (hN : N ≤ 512) (h : ∀ v ∈ l, v ≤ 2 * N - 2) :
    (l.map (BitVec.ofNat 10)).map BitVec.toNat = l := by
  rw [List.map_map]
  refine (List.map_congr_left fun v hv => ?_).trans (List.map_id l)
  have := h v hv
  simp only [Function.comp, BitVec.toNat_ofNat, id]
  omega

/-- A built table stands ready once it is in its RAM and valid. -/
theorem treeReady_of_built {r : RamTree} {len T : List Nat} {s : State} (hlen : len.length ≤ numcodes r)
    (h : buildTree len (numcodes r) (maxbitlen r) = .ok T)
    (ht : tableAt (.ram r) s = (T.map (BitVec.ofNat 10)).map BitVec.toNat) (hv : valid r s = true) :
    TreeReady (.ram r) T (numcodes r) s := by
  have hb := numcodes_bounds r
  obtain ⟨h1, h2⟩ := buildTree_ok hb.1 hlen h
  have htab : tableAt (.ram r) s = T := by rw [ht, map_toNat_ofNat (N := numcodes r) (by omega) h2]
  refine ⟨htab, rfl, hv, fun j => ?_⟩
  rw [treeEntry_eq, htab, List.getD_eq_getElem?_getD]
  by_cases hj : j < T.length
  · rw [List.getElem?_eq_getElem hj]; exact h2 _ (List.getElem_mem hj)
  · simp [List.getElem?_eq_none (Nat.le_of_not_lt hj)]

/-! ### The dynamic-tree reader -/

theorem readClLengths_quiet {order cl : List Nat} {s : State} (hq : Quiet s)
    (h : s.bitpos.toNat + 3 * order.length ≤ 8 * s.srcLen.toNat) (hl : s.srcLen.toNat ≤ Config.srcLenMax) :
    readClLengths order cl s
      = .ok (clLengthsAt s order s.bitpos.toNat cl) (s.setBitpos (s.bitpos.toNat + 3 * order.length)) := by
  simp only [Config.srcLenMax] at hl
  induction order generalizing cl s with
  | nil => simp [readClLengths, clLengthsAt]
  | cons k order ih =>
    simp only [List.length_cons] at h
    have hb : (s.setBitpos (s.bitpos.toNat + 3)).bitpos.toNat = s.bitpos.toNat + 3 := toNat_setBitpos (by omega)
    rw [readClLengths, checkedRead_quiet hq (by omega), Res.andThen_ok,
      ih (quiet_setBitpos hq _) (by rw [hb]; simp only [State.setBitpos_srcLen]; omega) hl, hb, clLengthsAt,
      clLengthsAt_congr (sameSource_setBitpos s _) _ (by omega), setBitpos_setBitpos, List.length_cons]
    congr 2; omega

theorem length_expandLength (lens : List Nat) (sym x : Nat) :
    lens.length + 1 ≤ (expandLength lens sym x).length := by
  unfold expandLength; split
  · simp
  · split
    · simp only [List.length_append, List.length_replicate]; omega
    · split <;> simp only [List.length_append, List.length_replicate] <;> omega

theorem lengthsAt_length {Tcl : List Nat} {s : State} {syms lens : List Nat} {p : Nat} {out : List Nat} {q : Nat}
    (h : lengthsAt Tcl s syms lens p out q) : lens.length + syms.length ≤ out.length ∧ p ≤ q := by
  induction syms generalizing lens p with
  | nil => obtain ⟨rfl, rfl⟩ := h; simp
  | cons sym syms ih =>
    obtain ⟨p1, h1, _, _, _, h5⟩ := h
    have := ih h5
    have := length_expandLength lens sym (fieldAt s p1 (repeatBits sym))
    have := symAt_some h1
    simp only [List.length_cons]; omega

/-- One code-length symbol extends the array as R234 to R237 say. -/
theorem readLengths_step {Tcl : List Nat} {total fuel sym p1 : Nat} {lens : List Nat} {s : State} (hq : Quiet s)
    (hc : TreeReady (.ram .cl) Tcl 19 s) (hl : s.srcLen.toNat ≤ Config.srcLenMax) (hlt : lens.length < total)
    (h1 : symAt Tcl 19 s s.bitpos.toNat = some (sym, p1)) (h2 : sym ≤ 18) (h3 : sym = 16 → lens ≠ [])
    (h4 : p1 + repeatBits sym ≤ 8 * s.srcLen.toNat)
    (hle : (expandLength lens sym (fieldAt s p1 (repeatBits sym))).length ≤ total) :
    readLengths total (fuel + 1) lens s =
      readLengths total fuel (expandLength lens sym (fieldAt s p1 (repeatBits sym)))
        (s.setBitpos (p1 + repeatBits sym)) := by
  have hl' := hl
  simp only [Config.srcLenMax] at hl'
  have hp := symAt_some h1
  have hb1 : (s.setBitpos p1).bitpos.toNat = p1 := toNat_setBitpos (by omega)
  have read {n : Nat} (hn : p1 + n ≤ 8 * s.srcLen.toNat) :
      checkedRead n (s.setBitpos p1) = .ok (fieldAt s p1 n) (s.setBitpos (p1 + n)) := by
    rw [checkedRead_quiet (quiet_setBitpos hq _) (by rw [hb1]; exact hn), hb1,
      fieldAt_congr (sameSource_setBitpos s p1) hn, setBitpos_setBitpos]
  rw [readLengths, if_pos hlt, decodeSymbol_ready hq hc hl h1, Res.andThen_ok]
  by_cases hs : sym ≤ 15
  · have hr : repeatBits sym = 0 := by
      rw [repeatBits, if_neg (by omega), if_neg (by omega), if_neg (by omega)]
    rw [if_pos hs, hr, Nat.add_zero, expandLength, if_pos hs]
  · rw [if_neg hs]
    rcases (show sym = 16 ∨ sym = 17 ∨ sym = 18 by omega) with rfl | rfl | rfl
    · have hlen : lens.length ≠ 0 := by simpa using h3 rfl
      change p1 + 2 ≤ _ at h4
      change (lens ++ List.replicate (3 + fieldAt s p1 2) (lens.getD (lens.length - 1) 0)).length ≤ total at hle
      rw [List.length_append, List.length_replicate] at hle
      rw [readRun, if_pos rfl, if_neg hlen, read h4, Res.andThen_ok, Res.andThen_ok,
        if_neg (by simp only; omega)]
      rfl
    · change p1 + 3 ≤ _ at h4
      change (lens ++ List.replicate (3 + fieldAt s p1 3) 0).length ≤ total at hle
      rw [List.length_append, List.length_replicate] at hle
      rw [readRun, if_neg (by decide), if_pos rfl, read h4, Res.andThen_ok, Res.andThen_ok,
        if_neg (by simp only; omega)]
      rfl
    · change p1 + 7 ≤ _ at h4
      change (lens ++ List.replicate (11 + fieldAt s p1 7) 0).length ≤ total at hle
      rw [List.length_append, List.length_replicate] at hle
      rw [readRun, if_neg (by decide), if_neg (by decide), read h4, Res.andThen_ok, Res.andThen_ok,
        if_neg (by simp only; omega)]
      rfl

theorem readLengths_quiet {Tcl : List Nat} {syms lens out : List Nat} {total fuel q : Nat} {s : State}
    (hq : Quiet s) (hc : TreeReady (.ram .cl) Tcl 19 s) (hl : s.srcLen.toNat ≤ Config.srcLenMax)
    (hp : s.bitpos.toNat ≤ 8 * s.srcLen.toNat)
    (h : lengthsAt Tcl s syms lens s.bitpos.toNat out q) (ho : out.length = total)
    (hf : total ≤ lens.length + fuel) : readLengths total fuel lens s = .ok out (s.setBitpos q) := by
  induction syms generalizing lens s fuel with
  | nil =>
    obtain ⟨rfl, rfl⟩ := h
    cases fuel with
    | zero => simp [readLengths]
    | succ f => rw [readLengths, if_neg (by omega)]; simp
  | cons sym syms ih =>
    have hlen := (lengthsAt_length h).1
    simp only [List.length_cons] at hlen
    obtain ⟨p1, h1, h2, h3, h4, h5⟩ := h
    have hle := (lengthsAt_length h5).1
    obtain ⟨f, rfl⟩ : ∃ k, fuel = k + 1 := ⟨fuel - 1, by omega⟩
    have hstep := length_expandLength lens sym (fieldAt s p1 (repeatBits sym))
    have hl' := hl
    simp only [Config.srcLenMax] at hl'
    have hb : (s.setBitpos (p1 + repeatBits sym)).bitpos.toNat = p1 + repeatBits sym := toNat_setBitpos (by omega)
    rw [readLengths_step hq hc hl (by omega) h1 h2 h3 h4 (by omega),
      ih (quiet_setBitpos hq _) (hc.setBitpos _) hl (by rw [hb]; exact h4)
        (by rw [hb]; exact lengthsAt_congr (sameSource_setBitpos s _) _ h5) (by omega), setBitpos_setBitpos]

theorem lengthsAt_le {Tcl : List Nat} {s : State} {syms lens : List Nat} {p : Nat} {out : List Nat} {q : Nat}
    (h : lengthsAt Tcl s syms lens p out q) (hp : p ≤ 8 * s.srcLen.toNat) : q ≤ 8 * s.srcLen.toNat := by
  induction syms generalizing lens p with
  | nil => obtain ⟨_, rfl⟩ := h; exact hp
  | cons sym syms ih => obtain ⟨p1, _, _, _, h4, h5⟩ := h; exact ih h5 h4

theorem length_clLengthsAt (s : State) (order : List Nat) (p : Nat) (cl : List Nat) :
    (clLengthsAt s order p cl).length = cl.length := by
  induction order generalizing p cl with
  | nil => rfl
  | cons k order ih => rw [clLengthsAt, ih, List.length_set]

/-- The tree RAMs after a dynamic header whose tables were built. -/
theorem setTables_eq {T : DynTables} (h1 : T.cl.length = 38) (h2 : T.ll.length = 576) (h3 : T.d.length = 64)
    (q : Nat) (s : State) :
    (((((((s.setTable .cl (T.cl.map (BitVec.ofNat 10))).setValid .cl true).setBitpos q).setTable .ll
      (T.ll.map (BitVec.ofNat 10))).setValid .ll true).setTable .d (T.d.map (BitVec.ofNat 10))).setValid .d true)
      = withTrees T (s.setBitpos q) := by
  simp [State.setTable, State.setValid, State.setBitpos, withTrees, tableOf_of_length, h1, h2, h3]

theorem fieldAt_five_lt (s : State) (p : Nat) : fieldAt s p 5 < 32 := fieldAt_lt s p 5
theorem fieldAt_four_lt (s : State) (p : Nat) : fieldAt s p 4 < 16 := fieldAt_lt s p 4

/-- The dynamic-tree reader (R230 to R239). -/
theorem readDynTrees_quiet {T : DynTables} {q : Nat} {s : State} (hq : Quiet s)
    (hl : s.srcLen.toNat ≤ Config.srcLenMax) (h : dynTreesAt s T s.bitpos.toNat q) :
    readDynTrees s = .ok () (withTrees T (s.setBitpos q)) ∧ q ≤ 8 * s.srcLen.toNat ∧ s.bitpos.toNat ≤ q := by
  have hl' := hl
  simp only [Config.srcLenMax] at hl'
  obtain ⟨hlit, hdist, hclen, syms, lens, e1, e2, e3, h4, h5, h6, h7, h8, h9, h10⟩ := h
  have f1 := fieldAt_five_lt s s.bitpos.toNat
  have f2 := fieldAt_five_lt s (s.bitpos.toNat + 5)
  have f3 := fieldAt_four_lt s (s.bitpos.toNat + 10)
  set p := s.bitpos.toNat with hp
  have read {a n : Nat} (hn : p + a + n ≤ 8 * s.srcLen.toNat) :
      checkedRead n (s.setBitpos (p + a)) = .ok (fieldAt s (p + a) n) (s.setBitpos (p + a + n)) := by
    have hb : (s.setBitpos (p + a)).bitpos.toNat = p + a := toNat_setBitpos (by omega)
    rw [checkedRead_quiet (quiet_setBitpos hq _) (by rw [hb]; exact hn), hb,
      fieldAt_congr (sameSource_setBitpos s _) hn, setBitpos_setBitpos]
  have hcounts : readCounts s = .ok ⟨hlit, hdist, hclen⟩ (s.setBitpos (p + 14)) := by
    rw [readCounts, checkedRead_quiet hq (by omega), Res.andThen_ok, ← hp, read (by omega), Res.andThen_ok,
      read (a := 5 + 5) (by omega), Res.andThen_ok, e1, e2, e3]
  have hb14 : (s.setBitpos (p + 14)).bitpos.toNat = p + 14 := toNat_setBitpos (by omega)
  have hord : (clclOrder.take hclen).length = hclen := by
    rw [List.length_take, show clclOrder.length = 19 from rfl]; omega
  have hcl : readClLengths (clclOrder.take hclen) (List.replicate 19 0) (s.setBitpos (p + 14))
      = .ok (clLengthsAt s (clclOrder.take hclen) (p + 14) (List.replicate 19 0))
        (s.setBitpos (p + 14 + 3 * hclen)) := by
    rw [readClLengths_quiet (quiet_setBitpos hq _) (by rw [hb14, hord]; exact h4) hl, hb14, hord,
      clLengthsAt_congr (sameSource_setBitpos s _) _ (by rw [hord]; exact h4), setBitpos_setBitpos]
  have hcllen : (clLengthsAt s (clclOrder.take hclen) (p + 14) (List.replicate 19 0)).length ≤ numcodes .cl := by
    rw [length_clLengthsAt, List.length_replicate]; exact le_rfl
  have k1 := (buildTree_ok (by decide) hcllen h5).1
  have k2 := (buildTree_ok (by decide) (length_litlenPart_le (by omega) lens) h9).1
  have k3 := (buildTree_ok (by decide) (length_distPart_le (by omega) lens) h10).1
  have hb := toNat_setBitpos (s := s) (p := p + 14 + 3 * hclen) (by omega)
  set u := ((s.setBitpos (p + 14 + 3 * hclen)).setTable .cl (T.cl.map (BitVec.ofNat 10))).setValid .cl true with hu
  have hcommit : treeCommit .cl (clLengthsAt s (clclOrder.take hclen) (p + 14) (List.replicate 19 0))
      (s.setBitpos (p + 14 + 3 * hclen)) = .ok () u := treeCommit_ok h5
  have hready : TreeReady (.ram .cl) T.cl 19 u := by
    refine treeReady_of_built (r := .cl) hcllen h5 ?_ rfl
    show (tableOf 38 (T.cl.map (BitVec.ofNat 10))).map BitVec.toNat = _
    rw [tableOf_of_length (by rw [List.length_map, k1]; rfl)]
  have hus : SameSource s u := ⟨rfl, rfl, fun _ _ => rfl⟩
  have hlens : readLengths (hlit + hdist) (hlit + hdist) [] u = .ok lens (u.setBitpos q) :=
    readLengths_quiet hq hready hl (by change (s.setBitpos _).bitpos.toNat ≤ _; rw [hb]; exact h4)
      (by change lengthsAt _ _ _ _ (s.setBitpos _).bitpos.toNat _ _; rw [hb]; exact lengthsAt_congr hus _ h6)
      h7 (by simp)
  have hqq := lengthsAt_le h6 h4
  have hpq := (lengthsAt_length h6).2
  refine ⟨?_, hqq, by omega⟩
  rw [readDynTrees, hcounts, Res.andThen_ok, hcl, Res.andThen_ok, hcommit, Res.andThen_ok, hlens, Res.andThen_ok,
    buildDynTrees, if_neg h8, litlenPart, distPart, treeCommit_ok (t := .ll) h9, Res.andThen_ok,
    treeCommit_ok (t := .d) h10, hu]
  rw [setTables_eq k1 k2 k3]
  rfl

/-! ### Blocks -/

theorem treesReady_withTrees {T : DynTables} {p q : Nat} {s u : State} (h : dynTreesAt s T p q) :
    TreeReady (.ram .ll) T.ll 288 (withTrees T u) ∧ TreeReady (.ram .d) T.d 32 (withTrees T u) := by
  obtain ⟨hlit, hdist, hclen, syms, lens, e1, e2, e3, h4, h5, h6, h7, h8, h9, h10⟩ := h
  have f1 := fieldAt_five_lt s p
  have f2 := fieldAt_five_lt s (p + 5)
  exact ⟨treeReady_of_built (r := .ll) (length_litlenPart_le (by omega) lens) h9 rfl rfl,
    treeReady_of_built (r := .d) (length_distPart_le (by omega) lens) h10 rfl rfl⟩

theorem src16_quiet {s : State} (hq : Quiet s) (p : Nat) : src16 p s = .ok (halfAt s p) s := by
  rw [src16, src_quiet hq, Res.andThen_ok, src_quiet hq, Res.andThen_ok]; rfl

/-- What a body leaves behind, besides the state it names. -/
structure Wrote (s : State) (m : Memory) (out out' : List Byte) (p q : Nat) : Prop where
  holds : holdsOutput s m out'
  outside : sameOutside s m out.length out'.length
  fits : out'.length ≤ s.dstCap.toNat
  grows : out.length ≤ out'.length
  forward : p ≤ q
  inside : q ≤ 8 * s.srcLen.toNat

/-- The stored body (R252). -/
theorem storedBody_quiet {s : State} {out out' : List Byte} {q : Nat} (hq : Quiet s)
    (hr : regionsBad false s = false) (ho : out.length = s.outpos.toNat) (hm : holdsOutput s s.mem out)
    (h : bodyAt s s.dstCap.toNat out s.bitpos.toNat .stored out' q) :
    ∃ m, storedBody s = .ok () (s.advance m out'.length q) ∧ Wrote s m out out' s.bitpos.toNat q := by
  obtain ⟨h1, h2, h3, rfl, rfl⟩ := h
  have hl := (regions_of_ready hr).1
  simp only [Config.srcLenMax] at hl
  generalize hp : (s.bitpos.toNat + 7) / 8 = p at *
  have hss := sameSource_setBitpos s (8 * p)
  have e1 : halfAt (s.setBitpos (8 * p)) p = halfAt s p := halfAt_congr hss (by omega)
  have e2 : halfAt (s.setBitpos (8 * p)) (p + 2) = halfAt s (p + 2) := halfAt_congr hss (by omega)
  obtain ⟨m, g1, g2, g3⟩ := storedCopy_quiet (s := s.setBitpos (8 * p)) (quiet_setBitpos hq _)
    (by simpa [regionsBad] using hr) (start := p + 4) (halfAt s p) 0 (by simp only [State.setBitpos_srcLen]; omega)
    (by simp only [State.setBitpos_outpos, State.setBitpos_dstCap]; omega)
  simp only [State.setBitpos_outpos, Nat.add_zero, ← ho] at g1 g2 g3
  have hlen : (out ++ srcBytes s (p + 4) (halfAt s p)).length = out.length + halfAt s p := by
    simp [srcBytes]
  refine ⟨m, ?_, ?_, ?_, by rw [hlen]; omega, by rw [hlen]; omega, by omega, by omega⟩
  · rw [storedBody, hp, storedFrom, if_neg (by simp only [State.setBitpos_srcLen]; omega),
      src16_quiet (quiet_setBitpos hq _), Res.andThen_ok, e1, src16_quiet (quiet_setBitpos hq _), Res.andThen_ok, e2,
      if_neg (by omega), if_neg (by simp only [State.setBitpos_srcLen]; omega),
      if_neg (by simp only [State.setBitpos_dstCap, State.setBitpos_outpos]; omega), g1, Res.andThen_ok, hlen, ho]
    rfl
  · refine holdsOutput_append hm (fun k hk => g3 _ (.inl ?_)) fun k hk => ?_
    · show s.dstBase.toNat + k < s.dstBase.toNat + out.length; omega
    · simp only [srcBytes, List.length_map, List.length_range] at hk
      have := g2 k hk
      simp only [State.setBitpos_dstBase] at this
      rw [this, hss.bytes _ (by omega)]
      simp [srcBytes, List.getD_eq_getElem?_getD, hk]
  · rw [hlen]; exact g3

theorem huffmanBody_quiet {tll td : TreeSel} {Tll Td : List Nat} {s : State} {out : List Byte} {ts : List Token}
    {q : Nat} (hq : Quiet s) (hr : regionsBad false s = false) (hll : TreeReady tll Tll 288 s)
    (hd : TreeReady td Td 32 s) (ho : out.length = s.outpos.toNat) (hc : out.length ≤ s.dstCap.toNat)
    (hm : holdsOutput s s.mem out) (ht : tokensAt Tll Td s ts s.bitpos.toNat q)
    (hfit : tokensFit s.dstCap.toNat out ts) :
    ∃ m, huffmanBody tll td s = .ok () (s.advance m (expandTokens out ts).length q)
      ∧ Wrote s m out (expandTokens out ts) s.bitpos.toNat q := by
  have he := tokensAt_end ht
  obtain ⟨m, e1, e2, e3⟩ := huffmanLoop_quiet (fuel := bitsLeft s) hq hr hll hd
    (by simp only [bitsLeft]; omega) ho hm ht hfit hc
  exact ⟨m, e1, e2, e3, length_expandTokens_fits hfit hc, length_expandTokens_le _ _, by omega, he.2⟩

/-- The body of a block (R251). -/
theorem blockBody_quiet {s : State} {out out' : List Byte} {b : Block} {q : Nat} (hq : Quiet s)
    (hr : regionsBad false s = false) (ho : out.length = s.outpos.toNat) (hc : out.length ≤ s.dstCap.toNat)
    (hm : holdsOutput s s.mem out) (h : bodyAt s s.dstCap.toNat out s.bitpos.toNat b out' q) :
    ∃ m, blockBody b.btype s = .ok () ((b.trees s).advance m out'.length q)
      ∧ Wrote s m out out' s.bitpos.toNat q := by
  cases b with
  | stored =>
    obtain ⟨m, e1, e2⟩ := storedBody_quiet hq hr ho hm h
    exact ⟨m, by rw [show Block.stored.btype = 0 from rfl, blockBody, if_pos rfl, e1]; rfl, e2⟩
  | fixed ts =>
    obtain ⟨h1, h2, rfl⟩ := h
    obtain ⟨m, e1, e2⟩ := huffmanBody_quiet hq hr (treeReady_fixedLL s) (treeReady_fixedD s) ho hc hm h1 h2
    exact ⟨m, by
      rw [show (Block.fixed ts).btype = 1 from rfl, blockBody, if_neg (by decide), if_pos rfl, e1]; rfl, e2⟩
  | dynamic T ts =>
    obtain ⟨p1, h1, h2, h3, rfl⟩ := h
    have hl := (regions_of_ready hr).1
    have hl' := hl
    simp only [Config.srcLenMax] at hl'
    obtain ⟨g1, g2, g3⟩ := readDynTrees_quiet hq hl h1
    have hready := treesReady_withTrees (u := s.setBitpos p1) h1
    have hb : (withTrees T (s.setBitpos p1)).bitpos.toNat = p1 := toNat_setBitpos (s := s) (by omega)
    have hss : SameSource s (withTrees T (s.setBitpos p1)) := ⟨rfl, rfl, fun _ _ => rfl⟩
    obtain ⟨m, e1, e2⟩ := huffmanBody_quiet (s := withTrees T (s.setBitpos p1)) (out := out) (ts := ts) (q := q)
      hq (by simpa [regionsBad, withTrees] using hr) hready.1 hready.2 ho hc hm
      (by rw [hb]; exact tokensAt_congr hss _ _ h2) h3
    refine ⟨m, ?_, e2.holds, e2.outside, e2.fits, e2.grows, ?_, e2.inside⟩
    · rw [show (Block.dynamic T ts).btype = 2 from rfl, blockBody, if_neg (by decide), if_neg (by decide), if_pos rfl, g1, Res.andThen_ok, e1]; rfl
    · have := e2.forward; rw [hb] at this; omega

/-- A block (R250, R251, R263). -/
theorem inflateOne_quiet {s : State} {out out' : List Byte} {final : Bool} {b : Block} {q : Nat} (hq : Quiet s)
    (hr : regionsBad false s = false) (ho : out.length = s.outpos.toNat) (hc : out.length ≤ s.dstCap.toNat)
    (hm : holdsOutput s s.mem out) (h : blockAt s s.dstCap.toNat out s.bitpos.toNat final b out' q) :
    ∃ m, inflateOne s
        = .ok () { (b.trees s).advance m out'.length q with
            bfinal := final, btype := BitVec.ofNat 2 b.btype, streamEnd := final }
      ∧ Wrote s m out out' (s.bitpos.toNat + 3) q := by
  obtain ⟨h1, h2, h3, h4⟩ := h
  have hl := (regions_of_ready hr).1
  simp only [Config.srcLenMax] at hl
  have hb1 : (s.setBitpos (s.bitpos.toNat + 1)).bitpos.toNat = s.bitpos.toNat + 1 := toNat_setBitpos (by omega)
  have hb3 : (s.setBitpos (s.bitpos.toNat + 3)).bitpos.toNat = s.bitpos.toNat + 3 := toNat_setBitpos (by omega)
  set u := (s.setBitpos (s.bitpos.toNat + 3)).setHeader final.toNat b.btype with hu
  have hub : u.bitpos.toNat = s.bitpos.toNat + 3 := hb3
  have hss : SameSource s u := ⟨rfl, rfl, fun _ _ => rfl⟩
  obtain ⟨m, e1, e2⟩ := blockBody_quiet (s := u) (b := b) (out := out) (out' := out') (q := q) hq
    (by simpa [regionsBad, hu] using hr) ho hc hm (by rw [hub]; exact bodyAt_congr hss h4)
  refine ⟨m, ?_, e2.holds, e2.outside, e2.fits, e2.grows, by have := e2.forward; rwa [hub] at this, e2.inside⟩
  rw [inflateOne, checkedRead_quiet hq (by omega), Res.andThen_ok, checkedRead_quiet (quiet_setBitpos hq _)
    (by rw [hb1]; simp only [State.setBitpos_srcLen]; omega), hb1, Res.andThen_ok, setBitpos_setBitpos,
    fieldAt_congr (sameSource_setBitpos s _) (by omega), h2, h3, show s.bitpos.toNat + 1 + 2 = s.bitpos.toNat + 3 from rfl,
    ← hu, e1, Res.andThen_ok]
  cases final <;> cases b <;> rfl

theorem sameOperands_block (b : Block) (s : State) (m : Memory) (n q : Nat) (f : Bool) (ty : BitVec 2) (e : Bool) :
    ProcKeeps s { (b.trees s).advance m n q with bfinal := f, btype := ty, streamEnd := e } := by
  cases b <;> refine ⟨?_, ?_, rfl, rfl, rfl, rfl⟩ <;> constructor <;> rfl

/-- What a chain of blocks leaves in the registers and in host memory. -/
def afterBlocks (bs : List Block) (m : Memory) (n q : Nat) (s : State) : State :=
  { blocksTrees bs s with
    mem := m
    outpos := BitVec.ofNat 32 n
    bitpos := BitVec.ofNat 32 q
    bfinal := true
    btype := BitVec.ofNat 2 (lastBtype bs)
    streamEnd := true }

/-- The trees of later blocks do not depend on what an earlier block left elsewhere. -/
theorem blocksTrees_update (bs : List Block) (s : State) (m m' : Memory) (n p n' q : Word) (f f' e e' : Bool)
    (ty ty' : BitVec 2) :
    { blocksTrees bs { s with mem := m, outpos := n, bitpos := p, bfinal := f, btype := ty, streamEnd := e } with
        mem := m', outpos := n', bitpos := q, bfinal := f', btype := ty', streamEnd := e' }
      = { blocksTrees bs s with
        mem := m', outpos := n', bitpos := q, bfinal := f', btype := ty', streamEnd := e' } := by
  induction bs generalizing s with
  | nil => rfl
  | cons b bs ih =>
    cases b with
    | stored => exact ih s
    | fixed ts => exact ih s
    | dynamic T ts => exact ih (withTrees T s)

/-- A chain of blocks, the last one final (R282). -/
theorem inflateLoop_quiet {bs : List Block} {s : State} {out out' : List Byte} {q fuel : Nat} (hq : Quiet s)
    (hr : regionsBad false s = false) (ho : out.length = s.outpos.toNat) (hc : out.length ≤ s.dstCap.toNat)
    (hm : holdsOutput s s.mem out) (hf : 8 * s.srcLen.toNat ≤ s.bitpos.toNat + fuel)
    (h : blocksAt s s.dstCap.toNat out s.bitpos.toNat bs out' q) :
    ∃ m, inflateLoop fuel s = .ok () (afterBlocks bs m out'.length q s)
      ∧ Wrote s m out out' s.bitpos.toNat q := by
  induction bs generalizing s out fuel with
  | nil => exact h.elim
  | cons b bs ih =>
    have hl := (regions_of_ready hr).1
    simp only [Config.srcLenMax] at hl
    have hcap := s.dstCap.isLt
    rcases h with ⟨rfl, h⟩ | ⟨out1, p1, h, h'⟩
    · obtain ⟨m, e1, e2⟩ := inflateOne_quiet hq hr ho hc hm h
      have hfw := e2.forward
      have hin := e2.inside
      obtain ⟨f, rfl⟩ : ∃ k, fuel = k + 1 := ⟨fuel - 1, by omega⟩
      exact ⟨m, by rw [inflateLoop, e1, Res.andThen_ok, if_pos rfl]; rfl,
        e2.holds, e2.outside, e2.fits, e2.grows, by omega, e2.inside⟩
    · obtain ⟨m, e1, e2⟩ := inflateOne_quiet hq hr ho hc hm h
      have hfw := e2.forward
      have hin := e2.inside
      obtain ⟨f, rfl⟩ : ∃ k, fuel = k + 1 := ⟨fuel - 1, by omega⟩
      have hk := sameOperands_block b s m out1.length p1 false (BitVec.ofNat 2 b.btype) false
      set u : State := { (b.trees s).advance m out1.length p1 with
        bfinal := false, btype := BitVec.ofNat 2 b.btype, streamEnd := false } with hu
      have hfit := e2.fits
      have hub : u.bitpos.toNat = p1 := by
        show (BitVec.ofNat 32 p1).toNat = p1
        rw [BitVec.toNat_ofNat]; omega
      have huo : u.outpos.toNat = out1.length := by
        show (BitVec.ofNat 32 out1.length).toNat = out1.length
        rw [BitVec.toNat_ofNat]; omega
      have hum : u.mem = m := rfl
      have hko := hk.operands
      have hss : SameSource s u := by
        have := sameSource_advance (q := p1) hr e2.outside hfit
        exact ⟨hko.srcBase, hko.srcLen, fun i hi => by
          have := this.bytes i hi
          simp only [srcByte, hko.srcBase, hum] at this ⊢; exact this⟩
      obtain ⟨m2, g1, g7⟩ := ih (s := u) (out := out1) (fuel := f)
        (quiet_of_sameOperands hko hq) (by rw [regionsBad_false_congr hko]; exact hr) huo.symm
        (by rw [hko.dstCap]; exact hfit) (fun k hk' => by rw [hum, hko.dstBase]; exact e2.holds k hk')
        (by rw [hub, hko.srcLen]; omega) (by rw [hub, hko.dstCap]; exact blocksAt_congr hss h')
      have hne : bs ≠ [] := by rintro rfl; exact h'.elim
      have hlast : lastBtype (b :: bs) = lastBtype bs := by
        cases bs with
        | nil => exact absurd rfl hne
        | cons c cs => rfl
      have hafter : afterBlocks bs m2 out'.length q u = afterBlocks (b :: bs) m2 out'.length q s := by
        rw [afterBlocks, afterBlocks, hlast]
        exact blocksTrees_update bs (b.trees s) _ _ _ _ _ _ _ _ _ _ _ _
      refine ⟨m2, ?_, fun k hk' => ?_, fun a ha => ?_, ?_, e2.grows.trans g7.grows, ?_, ?_⟩
      · rw [inflateLoop, e1, Res.andThen_ok, if_neg (by simp), ← hafter]; exact g1
      · have := g7.holds k hk'; rwa [hko.dstBase] at this
      · have hgr1 := e2.grows
        have hgr2 := g7.grows
        have := g7.outside a (by rw [hko.dstBase]; omega)
        rw [this, hum, e2.outside a (by omega)]
      · have := g7.fits; rwa [hko.dstCap] at this
      · have := g7.forward; rw [hub] at this; omega
      · have := g7.inside; rwa [hko.srcLen] at this

/-- `ZlibHeader` on a valid header (R280). -/
theorem readZlibHeader_quiet {s : State} (hq : Quiet s) (h : headerValid s) :
    readZlibHeader s = .ok () ((streamStart s).setBitpos 16) := by
  obtain ⟨h1, h2, h3, h4, h5⟩ := h
  have e (i : Nat) : srcByte (streamStart s) i = srcByte s i := rfl
  have hq' : Quiet (streamStart s) := hq
  rw [readZlibHeader, if_neg (by omega), src_quiet hq', Res.andThen_ok, src_quiet hq', Res.andThen_ok, e, e,
    if_neg (by omega), if_neg, if_neg, if_neg (by rw [h5]; simp)]
  · have : (BitVec.extractLsb' 4 4 (srcByte s 0)).toNat = (srcByte s 0).toNat / 16 % 16 := by
      simp [BitVec.extractLsb', Nat.shiftRight_eq_div_pow]
    omega
  · have : BitVec.extractLsb' 0 4 (srcByte s 0) = 8#4 := by
      apply BitVec.eq_of_toNat_eq
      simp [BitVec.extractLsb', h3]
    simp [this]

end Machine
end Sys2Proof
end

