-- ==== Sys2Proof/Laws/Failures.lean ====
section
/-! SUPPORT. Where a Huffman body, a dynamic tree header, a block and a chain of blocks fail in a quiet state, and what
they leave, from what stands in the stream (R205, R230 to R239, R250 to R258, R282). -/

namespace Sys2Proof
namespace Machine

/-! ### The source is enough -/

section Congr

variable {s t : State}

theorem distanceFails_congr (h : SameSource s t) {cap : Nat} {out : List Byte} {len dsym p : Nat} {c : Cause} {q : Nat}
    (hf : distanceFails s cap out len dsym p c q) : distanceFails t cap out len dsym p c q := by
  unfold distanceFails at hf ⊢
  rw [h.len]
  rcases hf with hf | hf | ⟨h1, h2, hf⟩
  · exact .inl hf
  · exact .inr (.inl hf)
  · rw [fieldAt_congr h h2]; exact .inr (.inr ⟨h1, h2, hf⟩)

theorem copyFails_congr (h : SameSource s t) {Td : List Nat} {cap : Nat} {out : List Byte} {base e p : Nat} {c : Cause}
    {q : Nat} (hf : copyFails Td s cap out base e p c q) : copyFails Td t cap out base e p c q := by
  unfold copyFails at hf ⊢
  rw [h.len, symAt_congr h]
  rcases hf with hf | hf | ⟨dsym, p1, h1, hf⟩
  · exact .inl hf
  · exact .inr (.inl hf)
  · have := symAt_some h1
    rw [fieldAt_congr h (by omega)]
    exact .inr (.inr ⟨dsym, p1, h1, distanceFails_congr h hf⟩)

theorem tokenFails_congr (h : SameSource s t) {Tll Td : List Nat} {cap : Nat} {out : List Byte} {p : Nat} {c : Cause}
    {q : Nat} (hf : tokenFails Tll Td s cap out p c q) : tokenFails Tll Td t cap out p c q := by
  unfold tokenFails at hf ⊢
  rw [h.len, symAt_congr h]
  rcases hf with hf | ⟨sym, p1, h1, hf | hf | ⟨h2, h3, hf⟩⟩
  · exact .inl hf
  · exact .inr ⟨sym, p1, h1, .inl hf⟩
  · exact .inr ⟨sym, p1, h1, .inr (.inl hf)⟩
  · exact .inr ⟨sym, p1, h1, .inr (.inr ⟨h2, h3, copyFails_congr h hf⟩)⟩

theorem huffmanFails_congr (h : SameSource s t) {Tll Td : List Nat} {cap : Nat} {out : List Byte} {p : Nat}
    {f : BlockFailure} (hf : huffmanFails Tll Td s cap out p f) : huffmanFails Tll Td t cap out p f := by
  obtain ⟨ts, p1, h1, h2, h3, h4⟩ := hf
  exact ⟨ts, p1, tokensTo_congr h _ _ h1, h2, h3, tokenFails_congr h h4⟩

theorem storedFails_congr (h : SameSource s t) {cap n p : Nat} {c : Cause} (hf : storedFails s cap n p c) :
    storedFails t cap n p c := by
  unfold storedFails at hf ⊢
  rw [h.len]
  rcases hf with hf | ⟨h1, hf⟩
  · exact .inl hf
  · rw [halfAt_congr h (by omega), halfAt_congr h (by omega)]
    exact .inr ⟨h1, hf⟩

theorem hclenAt_congr (h : SameSource s t) {p : Nat} (hp : p + 14 ≤ 8 * s.srcLen.toNat) : hclenAt t p = hclenAt s p := by
  rw [hclenAt, fieldAt_congr h (by omega), hclenAt]

theorem hlitAt_congr (h : SameSource s t) {p : Nat} (hp : p + 14 ≤ 8 * s.srcLen.toNat) : hlitAt t p = hlitAt s p := by
  rw [hlitAt, fieldAt_congr h (by omega), hlitAt]

theorem hdistAt_congr (h : SameSource s t) {p : Nat} (hp : p + 14 ≤ 8 * s.srcLen.toNat) :
    hdistAt t p = hdistAt s p := by
  rw [hdistAt, fieldAt_congr h (by omega), hdistAt]

theorem clTreeAt_congr (h : SameSource s t) {p : Nat} {r : Except Cause (List Nat)} (hc : clTreeAt s p r) :
    clTreeAt t p r := by
  obtain ⟨h1, h2⟩ := hc
  have e := hclenAt_congr (p := p) h (by omega)
  refine ⟨by rw [e, h.len]; exact h1, ?_⟩
  rw [e, clLengthsAt_congr h]
  · exact h2
  · simp only [List.length_take]; omega

theorem lensAt_congr (h : SameSource s t) {p : Nat} {Tcl lens : List Nat} {q : Nat}
    (hp : p + 14 ≤ 8 * s.srcLen.toNat) (hl : lensAt s p Tcl lens q) : lensAt t p Tcl lens q := by
  obtain ⟨syms, hs⟩ := hl
  exact ⟨syms, by rw [hclenAt_congr h hp]; exact lengthsAt_congr h _ hs⟩

theorem lengthFails_congr (h : SameSource s t) {Tcl : List Nat} {total : Nat} {lens : List Nat} {p : Nat} {c : Cause}
    {q : Nat} (hf : lengthFails Tcl s total lens p c q) : lengthFails Tcl t total lens p c q := by
  unfold lengthFails at hf ⊢
  rw [h.len, symAt_congr h]
  rcases hf with hf | ⟨sym, p1, h1, hf | hf | ⟨h2, h3, hf⟩⟩
  · exact .inl hf
  · exact .inr ⟨sym, p1, h1, .inl hf⟩
  · exact .inr ⟨sym, p1, h1, .inr (.inl hf)⟩
  · exact .inr ⟨sym, p1, h1, .inr (.inr ⟨h2, h3, by rw [fieldAt_congr h h3]; exact hf⟩)⟩

theorem dynFails_congr (h : SameSource s t) {p : Nat} {c : Cause} {q : Nat} {k : TreeStage}
    (hf : dynFails s p c q k) : dynFails t p c q k := by
  have len := h.len
  cases k with
  | kept =>
    obtain ⟨n, w, h1, h2, h3, h4⟩ := hf
    refine ⟨n, w, ?_, by rw [len]; exact h2, by rw [len]; exact h3, h4⟩
    rcases h1 with h1 | h1 | h1 | ⟨k, k1, k2, k3⟩
    · exact .inl h1
    · exact .inr (.inl h1)
    · exact .inr (.inr (.inl h1))
    · exact .inr (.inr (.inr ⟨k, by rw [hclenAt_congr h (by omega)]; exact k1, k2, k3⟩))
  | clFailed =>
    have := hf.1.1
    exact ⟨clTreeAt_congr h hf.1, by rw [hclenAt_congr h (by omega)]; exact hf.2⟩
  | cl Tcl =>
    obtain ⟨h1, lens, p1, h2, h3⟩ := hf
    have hp : p + 14 ≤ 8 * s.srcLen.toNat := by have := h1.1; omega
    refine ⟨clTreeAt_congr h h1, lens, p1, lensAt_congr h hp h2, ?_⟩
    rw [hlitAt_congr h hp, hdistAt_congr h hp]
    rcases h3 with ⟨h3, h4⟩ | h3
    · exact .inl ⟨h3, lengthFails_congr h h4⟩
    · exact .inr h3
  | llFailed Tcl =>
    obtain ⟨h1, lens, h2, h3⟩ := hf
    have hp : p + 14 ≤ 8 * s.srcLen.toNat := by have := h1.1; omega
    refine ⟨clTreeAt_congr h h1, lens, lensAt_congr h hp h2, ?_⟩
    rw [hlitAt_congr h hp, hdistAt_congr h hp]; exact h3
  | dFailed Tcl Tll =>
    obtain ⟨h1, lens, h2, h3⟩ := hf
    have hp : p + 14 ≤ 8 * s.srcLen.toNat := by have := h1.1; omega
    refine ⟨clTreeAt_congr h h1, lens, lensAt_congr h hp h2, ?_⟩
    rw [hlitAt_congr h hp, hdistAt_congr h hp]; exact h3
  | all T => exact hf.elim

theorem bodyFails_congr (h : SameSource s t) {cap : Nat} {out : List Byte} {p ty : Nat} {f : BlockFailure}
    (hf : bodyFails s cap out p ty f) : bodyFails t cap out p ty f := by
  rcases hf with ⟨h1, h2, h3, h4, h5⟩ | ⟨h1, h2, h3⟩ | ⟨h1, h2, h3⟩ | ⟨h1, T, p1, h2, h3, h4⟩ | hf
  · exact .inl ⟨h1, h2, h3, h4, storedFails_congr h h5⟩
  · exact .inr (.inl ⟨h1, h2, huffmanFails_congr h h3⟩)
  · exact .inr (.inr (.inl ⟨h1, h2, dynFails_congr h h3⟩))
  · exact .inr (.inr (.inr (.inl ⟨h1, T, p1, dynTreesAt_congr h h2, h3, huffmanFails_congr h h4⟩)))
  · exact .inr (.inr (.inr (.inr hf)))

theorem blockFails_congr (h : SameSource s t) {cap : Nat} {out : List Byte} {p : Nat} {f : BlockFailure}
    (hf : blockFails s cap out p f) : blockFails t cap out p f := by
  unfold blockFails at hf ⊢
  cases hh : f.header with
  | none => rw [hh] at hf; simp only [h.len]; exact hf
  | some x =>
    rw [hh] at hf
    obtain ⟨h1, h2, h3, h4⟩ := hf
    exact ⟨by rw [h.len]; exact h1, by rw [fieldAt_congr h (by omega)]; exact h2,
      by rw [fieldAt_congr h (by omega)]; exact h3, bodyFails_congr h h4⟩

theorem blocksTo_congr (h : SameSource s t) {cap : Nat} {out : List Byte} {p : Nat} {bs : List Block}
    {out' : List Byte} {q : Nat} (hb : blocksTo s cap out p bs out' q) : blocksTo t cap out p bs out' q := by
  induction bs generalizing out p with
  | nil => exact hb
  | cons b bs ih =>
    obtain ⟨out1, p1, h1, h2⟩ := hb
    exact ⟨out1, p1, blockAt_congr h h1, ih h2⟩

end Congr

/-! ### A Huffman body -/

theorem decodeSymbol_none {t : TreeSel} {T : List Nat} {N : Nat} {s : State} (hq : Quiet s)
    (h : TreeReady t T N s) (hl : s.srcLen.toNat ≤ Config.srcLenMax) (hp : s.bitpos.toNat ≤ 8 * s.srcLen.toNat)
    (hv : symAt T N s s.bitpos.toNat = none) :
    decodeSymbol t s = raise .symbolExhausted (s.setBitpos (8 * s.srcLen.toNat)) := by
  rw [decodeSymbol_quiet hq h.built h.fine hp hl, h.table, h.size, hv]

/-- After a distance symbol (R257, R258). -/
theorem distance_fails {s u : State} {out : List Byte} {len dsym q : Nat} {c : Cause} {td : TreeSel} (hq : Quiet s)
    (ho : out.length = s.outpos.toNat) (hf : distanceFails s s.dstCap.toNat out len dsym s.bitpos.toNat c q)
    (hu : decodeSymbol td u = .ok dsym s) :
    (readDistance td u).andThen (fun dist s => checkedCopy len dist s) = raise c (s.setBitpos q) := by
  rw [readDistance, hu, Res.andThen_ok]
  unfold distanceFails at hf
  generalize distanceExtra.getD dsym 0 = e at *
  generalize distanceBase.getD dsym 0 = b at *
  rcases hf with ⟨h1, rfl, rfl⟩ | ⟨h1, h2, rfl, rfl⟩ | ⟨h1, h2, rfl, hf⟩
  · rw [if_pos (by omega), setBitpos_self]; rfl
  · rw [if_neg (by omega), checkedRead_exhausted h2, setBitpos_self]; rfl
  · rw [if_neg (by omega), checkedRead_quiet hq h2, Res.andThen_ok, Res.andThen_ok, checkedCopy]
    simp only [State.setBitpos_outpos, State.setBitpos_dstCap]
    rcases hf with ⟨hf, rfl⟩ | ⟨hf1, hf2, rfl⟩
    · rw [if_pos (by omega)]
    · rw [if_neg (by omega), if_pos (by omega)]

/-- After a length symbol (R256 to R258). -/
theorem copy_fails {td : TreeSel} {Td : List Nat} {s : State} {out : List Byte} {sym base e q : Nat} {c : Cause}
    (hq : Quiet s) (hd : TreeReady td Td 32 s) (hl : s.srcLen.toNat ≤ Config.srcLenMax)
    (ho : out.length = s.outpos.toNat) (hb : lengthBase.getD (sym - 257) 0 = base)
    (he : lengthExtra.getD (sym - 257) 0 = e)
    (hf : copyFails Td s s.dstCap.toNat out base e s.bitpos.toNat c q) :
    backRef sym td s = raise c (s.setBitpos q) := by
  have hl' := hl
  simp only [Config.srcLenMax] at hl'
  rw [backRef, readLength, hb, he]
  rcases hf with ⟨h1, rfl, rfl⟩ | ⟨h1, h2, rfl, rfl⟩ | ⟨dsym, p1, h1, hf⟩
  · rw [checkedRead_exhausted h1, setBitpos_self]; rfl
  · have hb1 : (s.setBitpos (s.bitpos.toNat + e)).bitpos.toNat = s.bitpos.toNat + e := toNat_setBitpos (by omega)
    rw [checkedRead_quiet hq h1, Res.andThen_ok, Res.andThen_ok, readDistance,
      decodeSymbol_none (quiet_setBitpos hq _) (hd.setBitpos _) hl (by rw [hb1]; exact h1)
        (by rw [hb1, symAt_congr (sameSource_setBitpos s _)]; exact h2)]
    rfl
  · have hp := symAt_some h1
    have hb1 : (s.setBitpos (s.bitpos.toNat + e)).bitpos.toNat = s.bitpos.toNat + e := toNat_setBitpos (by omega)
    have hb2 : ((s.setBitpos (s.bitpos.toNat + e)).setBitpos p1).bitpos.toNat = p1 := toNat_setBitpos (by omega)
    have hdec := decodeSymbol_ready (quiet_setBitpos hq (s.bitpos.toNat + e)) (hd.setBitpos _) hl
      (v := dsym) (q := p1) (by rw [hb1, symAt_congr (sameSource_setBitpos s _)]; exact h1)
    rw [checkedRead_quiet hq (by omega), Res.andThen_ok, Res.andThen_ok]
    have hss : SameSource s ((s.setBitpos (s.bitpos.toNat + e)).setBitpos p1) := ⟨rfl, rfl, fun _ _ => rfl⟩
    exact distance_fails (s := (s.setBitpos (s.bitpos.toNat + e)).setBitpos p1) (out := out) hq ho
      (by rw [hb2]; exact distanceFails_congr hss hf) hdec

/-- What stands at the cursor fails the body (R253). -/
theorem huffmanLoop_fails {tll td : TreeSel} {Tll Td : List Nat} {s : State} {out : List Byte} {c : Cause} {q fuel : Nat}
    (hq : Quiet s) (hl : s.srcLen.toNat ≤ Config.srcLenMax) (hll : TreeReady tll Tll 288 s) (hd : TreeReady td Td 32 s)
    (hp : s.bitpos.toNat ≤ 8 * s.srcLen.toNat) (hfu : 8 * s.srcLen.toNat ≤ s.bitpos.toNat + fuel)
    (ho : out.length = s.outpos.toNat) (hf : tokenFails Tll Td s s.dstCap.toNat out s.bitpos.toNat c q) :
    huffmanLoop tll td fuel s = raise c (s.setBitpos q) := by
  have hl' := hl
  simp only [Config.srcLenMax] at hl'
  rcases hf with ⟨h1, rfl, rfl⟩ | ⟨sym, p1, h1, hf⟩
  · cases fuel <;> rw [huffmanLoop, decodeSymbol_none hq hll hl hp h1] <;> rfl
  · have hs := symAt_some h1
    obtain ⟨fuel, rfl⟩ : ∃ k, fuel = k + 1 := ⟨fuel - 1, by omega⟩
    rw [huffmanLoop, decodeSymbol_ready hq hll hl h1, Res.andThen_ok]
    rcases hf with ⟨h2, h3, rfl, rfl⟩ | ⟨h2, rfl, rfl⟩ | ⟨h2, h3, hf⟩
    · rw [if_pos h2, literal, if_pos (by simp only [State.setBitpos_dstCap, State.setBitpos_outpos]; omega)]; rfl
    · rw [if_neg (by omega), if_neg (by omega), if_neg (by omega)]
    · have hb1 : (s.setBitpos p1).bitpos.toNat = p1 := toNat_setBitpos (by omega)
      generalize hb : lengthBase.getD (sym - 257) 0 = base at hf
      generalize he : lengthExtra.getD (sym - 257) 0 = e at hf
      rw [if_neg (by omega), if_neg (by omega), if_pos h3,
        copy_fails (quiet_setBitpos hq p1) (hd.setBitpos p1) hl ho hb he
          (by rw [hb1]; exact copyFails_congr (sameSource_setBitpos s p1) hf)]
      rfl

/-- What a failing procedure leaves of the output: the bytes before the failing step. -/
structure Left (s : State) (m : Memory) (out out' : List Byte) : Prop where
  holds : holdsOutput s m out'
  outside : sameOutside s m out.length out'.length
  fits : out'.length ≤ s.dstCap.toNat
  grows : out.length ≤ out'.length

theorem Left.refl {s : State} {out : List Byte} (hm : holdsOutput s s.mem out) (hc : out.length ≤ s.dstCap.toNat) :
    Left s s.mem out out := ⟨hm, fun _ _ => rfl, hc, le_rfl⟩

/-- A Huffman body that fails, after some tokens (R253 to R258). -/
theorem huffmanBody_fails {tll td : TreeSel} {Tll Td : List Nat} {s : State} {out : List Byte} {f : BlockFailure}
    (hq : Quiet s) (hr : regionsBad false s = false) (hll : TreeReady tll Tll 288 s) (hd : TreeReady td Td 32 s)
    (hp : s.bitpos.toNat ≤ 8 * s.srcLen.toNat) (ho : out.length = s.outpos.toNat) (hc : out.length ≤ s.dstCap.toNat)
    (hm : holdsOutput s s.mem out) (hf : huffmanFails Tll Td s s.dstCap.toNat out s.bitpos.toNat f) :
    ∃ m, huffmanBody tll td s = raise f.cause (s.advance m f.out.length f.pos) ∧ Left s m out f.out := by
  obtain ⟨ts, p1, h1, h2, h3, h4⟩ := hf
  have hl := (regions_of_ready hr).1
  have hl' := hl
  simp only [Config.srcLenMax] at hl'
  have hcap := s.dstCap.isLt
  have hp1 := (tokensTo_end h1).2 hp
  obtain ⟨m, k, e1, hk, e2, e3⟩ := huffmanLoop_tokens (fuel := bitsLeft s) hq hr hll hd
    (by simp only [bitsLeft]; omega) ho hm h1 h2
  have hfit := length_expandTokens_fits h2 hc
  rw [← h3] at e1 e2 e3 hfit
  have hub : (s.advance m f.out.length p1).bitpos.toNat = p1 := by
    simp only [State.advance_bitpos, BitVec.toNat_ofNat]; omega
  have huo : (s.advance m f.out.length p1).outpos.toNat = f.out.length := by
    simp only [State.advance_outpos, BitVec.toNat_ofNat]; omega
  have hss := sameSource_advance (q := p1) hr e3 hfit
  have hfail := huffmanLoop_fails (s := s.advance m f.out.length p1) (out := f.out) (fuel := k) hq hl
    (hll.advance m _ p1) (hd.advance m _ p1) (by rw [hub]; exact hp1) (by rw [hub]; exact hk) huo.symm
    (by rw [hub]; exact tokenFails_congr hss h4)
  refine ⟨m, by rw [huffmanBody, e1, hfail]; rfl, e2, e3, hfit, ?_⟩
  rw [h3]; exact length_expandTokens_le _ _

/-! ### The dynamic tree header -/

theorem headerField_read {s : State} {p a n : Nat} (hl : s.srcLen.toNat ≤ Config.srcLenMax) (hq : Quiet s)
    (hn : p + a + n ≤ 8 * s.srcLen.toNat) :
    checkedRead n (s.setBitpos (p + a)) = .ok (fieldAt s (p + a) n) (s.setBitpos (p + a + n)) := by
  simp only [Config.srcLenMax] at hl
  have hb : (s.setBitpos (p + a)).bitpos.toNat = p + a := toNat_setBitpos (by omega)
  rw [checkedRead_quiet (quiet_setBitpos hq _) (by rw [hb]; exact hn), hb,
    fieldAt_congr (sameSource_setBitpos s _) hn, setBitpos_setBitpos]

theorem field_exhausted {s : State} {p a n : Nat} (hl : s.srcLen.toNat ≤ Config.srcLenMax)
    (hn : p + a ≤ 8 * s.srcLen.toNat) (hx : 8 * s.srcLen.toNat < p + a + n) :
    checkedRead n (s.setBitpos (p + a)) = raise .bitsExhausted (s.setBitpos (p + a)) := by
  simp only [Config.srcLenMax] at hl
  have hb : (s.setBitpos (p + a)).bitpos.toNat = p + a := toNat_setBitpos (by omega)
  exact checkedRead_exhausted (by rw [hb]; exact hx)

theorem readCounts_quiet {s : State} {p : Nat} (hl : s.srcLen.toNat ≤ Config.srcLenMax) (hq : Quiet s)
    (hp : s.bitpos.toNat = p) (hn : p + 14 ≤ 8 * s.srcLen.toNat) :
    readCounts s = .ok ⟨hlitAt s p, hdistAt s p, hclenAt s p⟩ (s.setBitpos (p + 14)) := by
  rw [readCounts, checkedRead_quiet hq (by omega), Res.andThen_ok, hp, headerField_read hl hq (by omega),
    Res.andThen_ok, headerField_read (a := 5 + 5) hl hq (by omega), Res.andThen_ok]
  rfl

theorem readClLengths_exhausted {order cl : List Nat} {k : Nat} {s : State} (hq : Quiet s)
    (hl : s.srcLen.toNat ≤ Config.srcLenMax) (hk : k < order.length)
    (h1 : s.bitpos.toNat + 3 * k ≤ 8 * s.srcLen.toNat) (h2 : 8 * s.srcLen.toNat < s.bitpos.toNat + 3 * k + 3) :
    readClLengths order cl s = raise .bitsExhausted (s.setBitpos (s.bitpos.toNat + 3 * k)) := by
  have hl' := hl
  simp only [Config.srcLenMax] at hl'
  induction order generalizing cl s k with
  | nil => simp at hk
  | cons x order ih =>
    cases k with
    | zero => rw [readClLengths, checkedRead_exhausted (by omega), Nat.mul_zero, Nat.add_zero, setBitpos_self]; rfl
    | succ k =>
      have hb : (s.setBitpos (s.bitpos.toNat + 3)).bitpos.toNat = s.bitpos.toNat + 3 := toNat_setBitpos (by omega)
      rw [readClLengths, checkedRead_quiet hq (by omega), Res.andThen_ok,
        ih (s := s.setBitpos (s.bitpos.toNat + 3)) (k := k) (quiet_setBitpos hq _) hl (by simpa using hk)
          (by rw [hb]; show _ ≤ 8 * s.srcLen.toNat; omega) (by rw [hb]; show 8 * s.srcLen.toNat < _; omega) hl',
        hb, setBitpos_setBitpos]
      congr 2; omega

/-- The run-length loop up to an array that is not full, or is just full (R233 to R237). -/
theorem readLengths_to {Tcl : List Nat} {syms lens out : List Nat} {total fuel q : Nat} {s : State}
    (hq : Quiet s) (hc : TreeReady (.ram .cl) Tcl 19 s) (hl : s.srcLen.toNat ≤ Config.srcLenMax)
    (h : lengthsAt Tcl s syms lens s.bitpos.toNat out q) (ho : out.length ≤ total)
    (hf : total ≤ lens.length + fuel) :
    ∃ k, readLengths total fuel lens s = readLengths total k out (s.setBitpos q) ∧ total ≤ out.length + k := by
  induction syms generalizing lens s fuel with
  | nil =>
    obtain ⟨rfl, rfl⟩ := h
    exact ⟨fuel, by rw [setBitpos_self], hf⟩
  | cons sym syms ih =>
    have hlen := (lengthsAt_length h).1
    simp only [List.length_cons] at hlen
    obtain ⟨p1, h1, h2, h3, h4, h5⟩ := h
    have hle := (lengthsAt_length h5).1
    obtain ⟨f, rfl⟩ : ∃ k, fuel = k + 1 := ⟨fuel - 1, by omega⟩
    have hstep := length_expandLength lens sym (fieldAt s p1 (repeatBits sym))
    have hl' := hl
    simp only [Config.srcLenMax] at hl'
    have hb : (s.setBitpos (p1 + repeatBits sym)).bitpos.toNat = p1 + repeatBits sym := toNat_setBitpos (by omega)
    obtain ⟨k, e1, e2⟩ := ih (s := s.setBitpos (p1 + repeatBits sym)) (fuel := f) (quiet_setBitpos hq _)
      (hc.setBitpos _) hl (by rw [hb]; exact lengthsAt_congr (sameSource_setBitpos s _) _ h5) (by omega)
    exact ⟨k, by rw [readLengths_step hq hc hl (by omega) h1 h2 h3 h4 (by omega), e1, setBitpos_setBitpos], e2⟩

theorem readLengths_fails {Tcl : List Nat} {total fuel : Nat} {lens : List Nat} {c : Cause} {q : Nat} {s : State}
    (hq : Quiet s) (hc : TreeReady (.ram .cl) Tcl 19 s) (hl : s.srcLen.toNat ≤ Config.srcLenMax)
    (hp : s.bitpos.toNat ≤ 8 * s.srcLen.toNat) (hlt : lens.length < total) (hfu : total ≤ lens.length + fuel)
    (hf : lengthFails Tcl s total lens s.bitpos.toNat c q) :
    readLengths total fuel lens s = raise c (s.setBitpos q) := by
  have hl' := hl
  simp only [Config.srcLenMax] at hl'
  obtain ⟨fuel, rfl⟩ : ∃ k, fuel = k + 1 := ⟨fuel - 1, by omega⟩
  rw [readLengths, if_pos hlt]
  rcases hf with ⟨h1, rfl, rfl⟩ | ⟨sym, p1, h1, hf⟩
  · rw [decodeSymbol_none hq hc hl hp h1]; rfl
  · have hs := symAt_some h1
    have hb1 : (s.setBitpos p1).bitpos.toNat = p1 := toNat_setBitpos (by omega)
    have read {n : Nat} (hn : p1 + n ≤ 8 * s.srcLen.toNat) :
        checkedRead n (s.setBitpos p1) = .ok (fieldAt s p1 n) (s.setBitpos (p1 + n)) := by
      rw [checkedRead_quiet (quiet_setBitpos hq _) (by rw [hb1]; exact hn), hb1,
        fieldAt_congr (sameSource_setBitpos s p1) hn, setBitpos_setBitpos]
    rw [decodeSymbol_ready hq hc hl h1, Res.andThen_ok]
    rcases hf with ⟨rfl, rfl, rfl, rfl⟩ | ⟨h2, h3, rfl, rfl⟩ | ⟨h2, h3, h4, rfl, rfl⟩
    · rfl
    · have hsym : 16 ≤ sym := by
        by_contra hx
        rw [repeatBits, if_neg (by omega), if_neg (by omega), if_neg (by omega)] at h3
        omega
      rw [if_neg (by omega)]
      have stop {n : Nat} (hn : 8 * s.srcLen.toNat < q + n) :
          checkedRead n (s.setBitpos q) = raise .bitsExhausted (s.setBitpos q) :=
        checkedRead_exhausted (by rw [hb1]; exact hn)
      rcases (show sym = 16 ∨ sym = 17 ∨ sym = 18 by omega) with rfl | rfl | rfl
      · rw [readRun, if_pos rfl, if_neg (by simpa using h2 rfl), stop (n := 2) h3]; rfl
      · rw [readRun, if_neg (by decide), if_pos rfl, stop (n := 3) h3]; rfl
      · rw [readRun, if_neg (by decide), if_neg (by decide), stop (n := 7) h3]; rfl
    · have hsym : 16 ≤ sym := by
        by_contra hx
        rw [expandLength, if_pos (by omega)] at h4
        simp at h4; omega
      rw [if_neg (by omega)]
      rcases (show sym = 16 ∨ sym = 17 ∨ sym = 18 by omega) with rfl | rfl | rfl
      · change total < (lens ++ List.replicate (3 + fieldAt s p1 2) (lens.getD (lens.length - 1) 0)).length at h4
        rw [List.length_append, List.length_replicate] at h4
        rw [readRun, if_pos rfl, if_neg (by simpa using h2 rfl), read (n := 2) h3, Res.andThen_ok, Res.andThen_ok,
          if_pos (by simp only; omega)]
        rfl
      · change total < (lens ++ List.replicate (3 + fieldAt s p1 3) 0).length at h4
        rw [List.length_append, List.length_replicate] at h4
        rw [readRun, if_neg (by decide), if_pos rfl, read (n := 3) h3, Res.andThen_ok, Res.andThen_ok,
          if_pos (by simp only; omega)]
        rfl
      · change total < (lens ++ List.replicate (11 + fieldAt s p1 7) 0).length at h4
        rw [List.length_append, List.length_replicate] at h4
        rw [readRun, if_neg (by decide), if_neg (by decide), read (n := 7) h3, Res.andThen_ok, Res.andThen_ok,
          if_pos (by simp only; omega)]
        rfl

/-- What a failed build leaves: one RAM, one valid bit and the draw counter. -/
theorem spoilTable_eq (s : State) :
    spoilTable .cl (s.setValid .cl false)
        = { s with treeCL := (spoilTable .cl s).treeCL, clValid := false, draws := s.draws + 1 }
      ∧ spoilTable .ll (s.setValid .ll false)
        = { s with treeLL := (spoilTable .ll s).treeLL, llValid := false, draws := s.draws + 1 }
      ∧ spoilTable .d (s.setValid .d false)
        = { s with treeD := (spoilTable .d s).treeD, dValid := false, draws := s.draws + 1 } := by
  refine ⟨?_, ?_, ?_⟩ <;> simp [spoilTable, State.setTable, State.setValid, State.tick]

/-- Building the literal/length tree changes its table and its valid bit. -/
theorem commit_ll_eq {l : List (BitVec 10)} (hl : l.length = 576) (s : State) :
    (s.setTable .ll l).setValid .ll true = { s with treeLL := l, llValid := true } := by
  simp [State.setTable, State.setValid, tableOf_of_length hl]

theorem spoilTable_ll_congr {s u : State} (h : s.draws = u.draws) :
    (spoilTable .ll s).treeLL = (spoilTable .ll u).treeLL := by simp [spoilTable, h]

theorem length_spoilTable (s : State) :
    (spoilTable .cl s).treeCL.length = 38 ∧ (spoilTable .ll s).treeLL.length = 576
      ∧ (spoilTable .d s).treeD.length = 64 := by
  refine ⟨?_, ?_, ?_⟩ <;> simp [spoilTable]

/-- The dynamic tree reader fails (R230 to R239). -/
theorem readDynTrees_fails {s : State} {c : Cause} {q : Nat} {k : TreeStage} (hq : Quiet s)
    (hl : s.srcLen.toNat ≤ Config.srcLenMax) (hp : s.bitpos.toNat ≤ 8 * s.srcLen.toNat)
    (hf : dynFails s s.bitpos.toNat c q k) :
    ∃ l d, l.length = k.size ∧ readDynTrees s = raise c ((k.state l d s).setBitpos q) := by
  have hl' := hl
  simp only [Config.srcLenMax] at hl'
  generalize hpp : s.bitpos.toNat = p at *
  have hcl4 : hclenAt s p ≤ 19 := by have := fieldAt_four_lt s (p + 10); simp only [hclenAt]; omega
  have hlit : hlitAt s p ≤ 288 := by have := fieldAt_five_lt s p; simp only [hlitAt]; omega
  have hdist : hdistAt s p ≤ 32 := by have := fieldAt_five_lt s (p + 5); simp only [hdistAt]; omega
  have hord : (clclOrder.take (hclenAt s p)).length = hclenAt s p := by
    rw [List.length_take, show clclOrder.length = 19 from rfl]; omega
  -- the header, once its fields are in the source
  have header (h4 : p + 14 + 3 * hclenAt s p ≤ 8 * s.srcLen.toNat) : readDynTrees s =
      (treeCommit .cl (clLengthsAt s (clclOrder.take (hclenAt s p)) (p + 14) (List.replicate 19 0))
        (s.setBitpos (p + 14 + 3 * hclenAt s p))).andThen fun _ u =>
          (readLengths (hlitAt s p + hdistAt s p) (hlitAt s p + hdistAt s p) [] u).andThen fun lens u =>
            buildDynTrees ⟨hlitAt s p, hdistAt s p, hclenAt s p⟩ lens u := by
    have hb14 : (s.setBitpos (p + 14)).bitpos.toNat = p + 14 := toNat_setBitpos (by omega)
    rw [readDynTrees, readCounts_quiet hl hq hpp (by omega), Res.andThen_ok,
      readClLengths_quiet (quiet_setBitpos hq _) (by rw [hb14, hord]; exact h4) hl, hb14, hord,
      clLengthsAt_congr (sameSource_setBitpos s _) _ (by rw [hord]; omega), setBitpos_setBitpos, Res.andThen_ok]
  -- the state with the code-length tree built
  have built {Tcl : List Nat} (h : clTreeAt s p (.ok Tcl)) (x : Nat) :
      treeCommit .cl (clLengthsAt s (clclOrder.take (hclenAt s p)) (p + 14) (List.replicate 19 0))
        (s.setBitpos x) = .ok () (((TreeStage.cl Tcl).state [] 0 s).setBitpos x)
      ∧ TreeReady (.ram .cl) Tcl 19 (((TreeStage.cl Tcl).state [] 0 s).setBitpos x) := by
    have hcllen : (clLengthsAt s (clclOrder.take (hclenAt s p)) (p + 14) (List.replicate 19 0)).length ≤ numcodes .cl := by
      rw [length_clLengthsAt, List.length_replicate]; exact le_rfl
    have k1 : (Tcl.map (BitVec.ofNat 10)).length = 38 := by
      rw [List.length_map, (buildTree_ok (by decide) hcllen h.2).1]; rfl
    refine ⟨?_, treeReady_of_built (r := .cl) hcllen h.2 rfl rfl⟩
    rw [treeCommit_ok (t := .cl) h.2]
    simp [State.setTable, State.setValid, State.setBitpos, TreeStage.state, tableOf_of_length k1]
  -- the loop up to `lens`
  have loop {Tcl lens : List Nat} {p1 : Nat} (h : clTreeAt s p (.ok Tcl)) (h2 : lensAt s p Tcl lens p1)
      (h3 : lens.length ≤ hlitAt s p + hdistAt s p) : ∃ n,
      readLengths (hlitAt s p + hdistAt s p) (hlitAt s p + hdistAt s p) []
        (((TreeStage.cl Tcl).state [] 0 s).setBitpos (p + 14 + 3 * hclenAt s p))
        = readLengths (hlitAt s p + hdistAt s p) n lens (((TreeStage.cl Tcl).state [] 0 s).setBitpos p1)
      ∧ hlitAt s p + hdistAt s p ≤ lens.length + n ∧ p1 ≤ 8 * s.srcLen.toNat := by
    obtain ⟨syms, hs⟩ := h2
    have hin := lengthsAt_le hs h.1
    have h41 := h.1
    set u := (TreeStage.cl Tcl).state [] 0 s
    set v := u.setBitpos (p + 14 + 3 * hclenAt s p) with hv
    have hss : SameSource s v := ⟨rfl, rfl, fun _ _ => rfl⟩
    have hb : v.bitpos.toNat = p + 14 + 3 * hclenAt s p := toNat_setBitpos (by omega)
    have hqv : Quiet v := hq
    obtain ⟨n, e1, e2⟩ := readLengths_to (fuel := hlitAt s p + hdistAt s p) hqv (built h _).2 hl
      (by rw [hb]; exact lengthsAt_congr hss _ hs) h3 (by simp)
    exact ⟨n, by rw [e1, hv, setBitpos_setBitpos], e2, hin⟩
  -- the loop when `lens` is full
  have full {Tcl lens : List Nat} {p1 : Nat} (h : clTreeAt s p (.ok Tcl)) (h2 : lensAt s p Tcl lens p1)
      (h3 : lens.length = hlitAt s p + hdistAt s p) :
      readDynTrees s = buildDynTrees ⟨hlitAt s p, hdistAt s p, hclenAt s p⟩ lens
        (((TreeStage.cl Tcl).state [] 0 s).setBitpos p1) := by
    obtain ⟨n, e1, _, _⟩ := loop h h2 (by omega)
    rw [header h.1, (built h _).1, Res.andThen_ok, e1]
    cases n with
    | zero => rfl
    | succ n => rw [readLengths, if_neg (by omega)]; rfl
  cases k with
  | kept =>
    obtain ⟨n, w, h1, h2, h3, rfl, rfl⟩ := hf
    refine ⟨[], 0, rfl, ?_⟩
    show _ = raise _ (s.setBitpos _)
    rcases h1 with ⟨rfl, rfl⟩ | ⟨rfl, rfl⟩ | ⟨rfl, rfl⟩ | ⟨j, h4, rfl, rfl⟩
    · rw [readDynTrees, readCounts, checkedRead_exhausted (by omega), Nat.add_zero, ← hpp, setBitpos_self]; rfl
    · rw [readDynTrees, readCounts, checkedRead_quiet hq (by omega), Res.andThen_ok, hpp, field_exhausted hl h2 h3]; rfl
    · rw [readDynTrees, readCounts, checkedRead_quiet hq (by omega), Res.andThen_ok, hpp,
        headerField_read hl hq (by omega), Res.andThen_ok, field_exhausted (a := 5 + 5) hl h2 h3]; rfl
    · have hb14 : (s.setBitpos (p + 14)).bitpos.toNat = p + 14 := toNat_setBitpos (by omega)
      rw [readDynTrees, readCounts_quiet hl hq hpp (by omega), Res.andThen_ok,
        readClLengths_exhausted (k := j) (quiet_setBitpos hq _) hl (by rw [hord]; exact h4)
          (by rw [hb14]; show _ ≤ 8 * s.srcLen.toNat; omega) (by rw [hb14]; show 8 * s.srcLen.toNat < _; omega),
        hb14, setBitpos_setBitpos, show p + 14 + 3 * j = p + (14 + 3 * j) by omega]
      rfl
  | clFailed =>
    obtain ⟨⟨h1, h2⟩, rfl⟩ := hf
    refine ⟨(spoilTable .cl s).treeCL, s.draws + 1, (length_spoilTable s).1, ?_⟩
    rw [header h1, treeCommit_error (t := .cl) h2, (spoilTable_eq _).1]; rfl
  | cl Tcl =>
    obtain ⟨h1, lens, p1, h2, h3⟩ := hf
    refine ⟨[], 0, rfl, ?_⟩
    rcases h3 with ⟨h3, h4⟩ | ⟨h3, h4, rfl, rfl⟩
    · obtain ⟨n, e1, e2, e3⟩ := loop h1 h2 (by omega)
      set u := ((TreeStage.cl Tcl).state [] 0 s).setBitpos p1 with hu
      have hss : SameSource s u := ⟨rfl, rfl, fun _ _ => rfl⟩
      have hb : u.bitpos.toNat = p1 := toNat_setBitpos (by omega)
      have hqu : Quiet u := hq
      have hfail := readLengths_fails (fuel := n) hqu (built h1 p1).2 hl (by rw [hb]; exact e3) h3 e2
        (by rw [hb]; exact lengthFails_congr hss h4)
      rw [header h1.1, (built h1 _).1, Res.andThen_ok, e1, hfail]
      rfl
    · rw [full h1 h2 h3, buildDynTrees, if_pos h4]
  | llFailed Tcl =>
    obtain ⟨h1, lens, h2, h3, h4, h5⟩ := hf
    refine ⟨(spoilTable .ll s).treeLL, s.draws + 1, (length_spoilTable s).2.1, ?_⟩
    rw [full h1 h2 h3, buildDynTrees, if_neg h4, litlenPart, treeCommit_error (t := .ll) h5, (spoilTable_eq _).2.1,
      spoilTable_ll_congr (s := ((TreeStage.cl Tcl).state [] 0 s).setBitpos q) (u := s) rfl]
    generalize (spoilTable .ll s).treeLL = l
    rfl
  | dFailed Tcl Tll =>
    obtain ⟨h1, lens, h2, h3, h4, h5, h6⟩ := hf
    have k2 : (Tll.map (BitVec.ofNat 10)).length = 576 := by
      rw [List.length_map, (buildTree_ok (by decide) (length_litlenPart_le hlit lens) h5).1]
    refine ⟨(spoilTable .d s).treeD, s.draws + 1, (length_spoilTable s).2.2, ?_⟩
    rw [full h1 h2 h3, buildDynTrees, if_neg h4, litlenPart, treeCommit_ok (t := .ll) h5, Res.andThen_ok, distPart,
      treeCommit_error (t := .d) h6, (spoilTable_eq _).2.2, commit_ll_eq k2]
    rfl
  | all T => exact hf.elim

/-! ### Blocks -/

theorem storedBody_fails {s : State} {n p : Nat} {c : Cause} (hq : Quiet s) (hn : n = s.outpos.toNat)
    (hp : p = (s.bitpos.toNat + 7) / 8) (hf : storedFails s s.dstCap.toNat n p c) :
    storedBody s = raise c (s.setBitpos (8 * p)) := by
  have hss := sameSource_setBitpos s (8 * p)
  rw [storedBody, ← hp, storedFrom]
  rcases hf with ⟨h1, rfl⟩ | ⟨h1, hf⟩
  · rw [if_pos (by simp only [State.setBitpos_srcLen]; omega)]
  · have e1 : halfAt (s.setBitpos (8 * p)) p = halfAt s p := halfAt_congr hss (by omega)
    have e2 : halfAt (s.setBitpos (8 * p)) (p + 2) = halfAt s (p + 2) := halfAt_congr hss (by omega)
    rw [if_neg (by simp only [State.setBitpos_srcLen]; omega),
      src16_quiet (quiet_setBitpos hq _), Res.andThen_ok, e1, src16_quiet (quiet_setBitpos hq _), Res.andThen_ok, e2]
    simp only [State.setBitpos_srcLen, State.setBitpos_dstCap, State.setBitpos_outpos]
    rcases hf with ⟨h2, rfl⟩ | ⟨h2, hf⟩
    · rw [if_pos h2]
    · rw [if_neg (by omega)]
      rcases hf with ⟨h3, rfl⟩ | ⟨h3, h4, rfl⟩
      · rw [if_pos h3]
      · rw [if_neg (by omega), if_pos (by omega)]

theorem stage_setBitpos (k : TreeStage) (l : List (BitVec 10)) (d p : Nat) (s : State) :
    (k.state l d s).setBitpos p = k.state l d (s.setBitpos p) := by cases k <;> rfl

/-- The body of a block fails (R251 to R253). -/
theorem blockBody_fails {s : State} {out : List Byte} {ty : Nat} {f : BlockFailure} (hq : Quiet s)
    (hr : regionsBad false s = false) (hp : s.bitpos.toNat ≤ 8 * s.srcLen.toNat) (ho : out.length = s.outpos.toNat)
    (hc : out.length ≤ s.dstCap.toNat) (hm : holdsOutput s s.mem out)
    (hf : bodyFails s s.dstCap.toNat out s.bitpos.toNat ty f) :
    ∃ m l d, l.length = f.trees.size
      ∧ blockBody ty s = raise f.cause ((f.trees.state l d s).advance m f.out.length f.pos) ∧ Left s m out f.out := by
  have hl := (regions_of_ready hr).1
  have hl' := hl
  simp only [Config.srcLenMax] at hl'
  rcases hf with ⟨rfl, h2, h3, h4, h5⟩ | ⟨rfl, h2, h3⟩ | ⟨rfl, h2, h3⟩ | ⟨rfl, T, p1, h2, h3, h4⟩ | ⟨rfl, h2, h3, h4, h5⟩
  · refine ⟨s.mem, [], 0, by rw [h2]; rfl, ?_, by rw [h3]; exact .refl hm hc⟩
    rw [blockBody, if_pos rfl, storedBody_fails hq ho rfl h5, h2, h3, h4, ho]
    exact congrArg _ (advance_setBitpos s _)
  · obtain ⟨m, e1, e2⟩ := huffmanBody_fails hq hr (treeReady_fixedLL s) (treeReady_fixedD s) hp ho hc hm h3
    exact ⟨m, [], 0, by rw [h2]; rfl, by rw [blockBody, if_neg (by decide), if_pos rfl, e1, h2]; rfl, e2⟩
  · obtain ⟨l, d, e1, e2⟩ := readDynTrees_fails hq hl hp h3
    refine ⟨s.mem, l, d, e1, ?_, by rw [h2]; exact .refl hm hc⟩
    rw [blockBody, if_neg (by decide), if_neg (by decide), if_pos rfl, e2, h2, ho]
    show raise _ _ = _
    congr 1
    cases f.trees <;> simp [TreeStage.state, State.setBitpos, State.advance, withTrees]
  · obtain ⟨g1, g2, g3⟩ := readDynTrees_quiet hq hl h2
    have hready := treesReady_withTrees (u := s.setBitpos p1) h2
    set u := withTrees T (s.setBitpos p1) with hu
    have hb : u.bitpos.toNat = p1 := toNat_setBitpos (s := s) (by omega)
    have hss : SameSource s u := ⟨rfl, rfl, fun _ _ => rfl⟩
    have hqu : Quiet u := hq
    obtain ⟨m, e1, e2⟩ := huffmanBody_fails (s := u) (out := out) (f := f) hqu hr hready.1 hready.2
      (by rw [hb]; exact g2) ho hc hm (by rw [hb]; exact huffmanFails_congr hss h4)
    refine ⟨m, [], 0, by rw [h3]; rfl, ?_, e2.holds, e2.outside, e2.fits, e2.grows⟩
    rw [blockBody, if_neg (by decide), if_neg (by decide), if_pos rfl, g1, Res.andThen_ok, e1, h3]
    rfl
  · refine ⟨s.mem, [], 0, by rw [h2]; rfl, ?_, by rw [h3]; exact .refl hm hc⟩
    rw [blockBody, if_neg (by decide), if_neg (by decide), if_neg (by decide), h2, h3, h4, h5, ho]
    show raise _ _ = raise _ _
    congr 1
    simp [TreeStage.state, State.advance]

/-- A block fails (R250 to R253). -/
theorem inflateOne_fails {s : State} {out : List Byte} {f : BlockFailure} (hq : Quiet s)
    (hr : regionsBad false s = false) (hp : s.bitpos.toNat ≤ 8 * s.srcLen.toNat) (ho : out.length = s.outpos.toNat)
    (hc : out.length ≤ s.dstCap.toNat) (hm : holdsOutput s s.mem out)
    (hf : blockFails s s.dstCap.toNat out s.bitpos.toNat f) :
    ∃ m l d, l.length = f.trees.size ∧ inflateOne s = raise f.cause (f.state l d m s) ∧ Left s m out f.out := by
  have hl := (regions_of_ready hr).1
  simp only [Config.srcLenMax] at hl
  have hb1 : (s.setBitpos (s.bitpos.toNat + 1)).bitpos.toNat = s.bitpos.toNat + 1 := toNat_setBitpos (by omega)
  obtain ⟨cause, pos, fout, header, trees⟩ := f
  cases header with
  | none =>
    obtain ⟨rfl, rfl, rfl, hf⟩ := hf
    refine ⟨s.mem, [], 0, rfl, ?_, .refl hm hc⟩
    rcases hf with ⟨h1, rfl⟩ | ⟨h1, h2, rfl⟩
    · rw [inflateOne, checkedRead_exhausted h1]
      show raise _ _ = raise _ _
      simp [BlockFailure.state, TreeStage.state, ho]
    · rw [inflateOne, checkedRead_quiet hq h1, Res.andThen_ok,
        checkedRead_exhausted (by rw [hb1]; show 8 * s.srcLen.toNat < _; omega)]
      show raise _ _ = raise _ _
      simp [BlockFailure.state, TreeStage.state, ho, State.setBitpos]
  | some x =>
    obtain ⟨final, ty⟩ := x
    obtain ⟨h1, h2, h3, h4⟩ := hf
    have hb3 : (s.setBitpos (s.bitpos.toNat + 3)).bitpos.toNat = s.bitpos.toNat + 3 := toNat_setBitpos (by omega)
    set u := (s.setBitpos (s.bitpos.toNat + 3)).setHeader final.toNat ty with hu
    have hub : u.bitpos.toNat = s.bitpos.toNat + 3 := hb3
    have hss : SameSource s u := ⟨rfl, rfl, fun _ _ => rfl⟩
    have hqu : Quiet u := hq
    obtain ⟨m, l, d, e1, e2, e3⟩ := blockBody_fails (s := u) (out := out) (ty := ty) hqu hr
      (by rw [hub]; exact h1) ho hc hm (by rw [hub]; exact bodyFails_congr hss h4)
    refine ⟨m, l, d, e1, ?_, e3.holds, e3.outside, e3.fits, e3.grows⟩
    rw [inflateOne, checkedRead_quiet hq (by omega), Res.andThen_ok, checkedRead_quiet (quiet_setBitpos hq _)
      (by rw [hb1]; simp only [State.setBitpos_srcLen]; omega), hb1, Res.andThen_ok, setBitpos_setBitpos,
      fieldAt_congr (sameSource_setBitpos s _) (by omega), h2, h3,
      show s.bitpos.toNat + 1 + 2 = s.bitpos.toNat + 3 from rfl, ← hu, e2]
    show raise _ _ = raise _ _
    congr 1
    cases final <;> cases trees <;> rfl

/-- The trees, header bits and `STREAM_END` after these blocks; where there is none, those before. -/
theorem midStream_cons (b : Block) (bs : List Block) (f : BlockFailure) (l : List (BitVec 10)) (d : Nat)
    (m m' : Memory) (n p : Nat) (s : State) :
    f.state l d m' (midStream bs { (b.trees s).advance m n p with
        bfinal := false, btype := BitVec.ofNat 2 b.btype, streamEnd := false })
      = f.state l d m' (midStream (b :: bs) s) := by
  have hlast : bs ≠ [] → lastBtype (b :: bs) = lastBtype bs := by
    intro h
    cases bs with
    | nil => exact absurd rfl h
    | cons c cs => rfl
  have key (u : State) (f' : Bool) (ty : BitVec 2) :
      f.state l d m' (midStream bs { u.advance m n p with bfinal := false, btype := ty, streamEnd := false })
        = f.state l d m' { blocksTrees bs u with
          streamEnd := false
          bfinal := false
          btype := if bs = [] then ty else BitVec.ofNat 2 (lastBtype bs) } := by
    have hbt (u v : State) (h : ∃ mm nn pp ff tt ee, v = { u with
        mem := mm, outpos := nn, bitpos := pp, bfinal := ff, btype := tt, streamEnd := ee }) :
        ∃ mm nn pp ff tt ee, blocksTrees bs v = { blocksTrees bs u with
          mem := mm, outpos := nn, bitpos := pp, bfinal := ff, btype := tt, streamEnd := ee } := by
      clear hlast f' ty
      induction bs generalizing u v with
      | nil => exact h
      | cons c cs ih =>
        obtain ⟨mm, nn, pp, ff, tt, ee, rfl⟩ := h
        exact ih _ _ (by cases c <;> exact ⟨_, _, _, _, _, _, rfl⟩)
    obtain ⟨mm, nn, pp, ff, tt, ee, h⟩ := hbt u { u.advance m n p with bfinal := false, btype := ty, streamEnd := false }
      ⟨_, _, _, _, _, _, rfl⟩
    simp only [midStream, h]
    obtain ⟨cause, pos, fout, header, trees⟩ := f
    cases header <;> cases trees <;> simp [BlockFailure.state, TreeStage.state, withTrees]
  rw [key _ false]
  congr 1
  simp only [midStream, blocksTrees, List.foldl_cons, reduceCtorEq, if_false]
  by_cases h : bs = []
  · subst h; rfl
  · rw [if_neg h, hlast h]

/-- A chain of blocks that fails: some blocks, none of them final, and then one that fails (R282). -/
theorem inflateLoop_fails {bs : List Block} {s : State} {out out1 : List Byte} {p1 fuel : Nat} {f : BlockFailure}
    (hq : Quiet s) (hr : regionsBad false s = false) (hp : s.bitpos.toNat ≤ 8 * s.srcLen.toNat)
    (ho : out.length = s.outpos.toNat) (hc : out.length ≤ s.dstCap.toNat) (hm : holdsOutput s s.mem out)
    (he : s.streamEnd = false) (hfu : 8 * s.srcLen.toNat ≤ s.bitpos.toNat + fuel)
    (hb : blocksTo s s.dstCap.toNat out s.bitpos.toNat bs out1 p1) (hf : blockFails s s.dstCap.toNat out1 p1 f) :
    ∃ m l d, l.length = f.trees.size ∧ inflateLoop fuel s = raise f.cause (f.state l d m (midStream bs s))
      ∧ Left s m out f.out := by
  induction bs generalizing s out fuel with
  | nil =>
    obtain ⟨rfl, rfl⟩ := hb
    obtain ⟨m, l, d, e1, e2, e3⟩ := inflateOne_fails hq hr hp ho hc hm hf
    refine ⟨m, l, d, e1, ?_, e3⟩
    have hmid : midStream [] s = s := by
      show ({ s with streamEnd := false } : State) = s
      rw [← he]
    rw [hmid]
    cases fuel <;> rw [inflateLoop, e2] <;> rfl
  | cons b bs ih =>
    obtain ⟨out2, p2, h, h'⟩ := hb
    have hl := (regions_of_ready hr).1
    simp only [Config.srcLenMax] at hl
    have hcap := s.dstCap.isLt
    obtain ⟨m, e1, e2⟩ := inflateOne_quiet hq hr ho hc hm h
    have hfw := e2.forward
    have hin := e2.inside
    obtain ⟨fuel, rfl⟩ : ∃ k, fuel = k + 1 := ⟨fuel - 1, by omega⟩
    have hk := sameOperands_block b s m out2.length p2 false (BitVec.ofNat 2 b.btype) false
    set u : State := { (b.trees s).advance m out2.length p2 with
      bfinal := false, btype := BitVec.ofNat 2 b.btype, streamEnd := false } with hu
    have hfit := e2.fits
    have hub : u.bitpos.toNat = p2 := by
      show (BitVec.ofNat 32 p2).toNat = p2
      rw [BitVec.toNat_ofNat]; omega
    have huo : u.outpos.toNat = out2.length := by
      show (BitVec.ofNat 32 out2.length).toNat = out2.length
      rw [BitVec.toNat_ofNat]; omega
    have hum : u.mem = m := rfl
    have hko := hk.operands
    have hss : SameSource s u := by
      have := sameSource_advance (q := p2) hr e2.outside hfit
      exact ⟨hko.srcBase, hko.srcLen, fun i hi => by
        have := this.bytes i hi
        simp only [srcByte, hko.srcBase, hum] at this ⊢; exact this⟩
    obtain ⟨m2, l, d, g1, g2, g3⟩ := ih (s := u) (out := out2) (fuel := fuel)
      (quiet_of_sameOperands hko hq) (by rw [regionsBad_false_congr hko]; exact hr) (by rw [hub, hko.srcLen]; exact hin)
      huo.symm (by rw [hko.dstCap]; exact hfit) (fun k hk' => by rw [hum, hko.dstBase]; exact e2.holds k hk') rfl
      (by rw [hub, hko.srcLen]; omega) (by rw [hub, hko.dstCap]; exact blocksTo_congr hss h')
      (by rw [hko.dstCap]; exact blockFails_congr hss hf)
    refine ⟨m2, l, d, g1, ?_, fun k hk' => ?_, fun a ha => ?_, ?_, e2.grows.trans g3.grows⟩
    · rw [inflateLoop, e1, Res.andThen_ok, if_neg (by simp), g2, hu, midStream_cons]
    · have := g3.holds k hk'; rwa [hko.dstBase] at this
    · have hgr1 := e2.grows
      have hgr2 := g3.grows
      have := g3.outside a (by rw [hko.dstBase]; omega)
      rw [this, hum, e2.outside a (by omega)]
    · have := g3.fits; rwa [hko.dstCap] at this

end Machine
end Sys2Proof
end

