-- ==== Sys2Proof/Laws/HostSide.lean ====
section
/-! SUPPORT. What a host action does in one step: accesses of the register port, resets and the bytes an aborted
command leaves. And what settling the races of a command does. -/

namespace Sys2Proof
namespace Machine

/-! ### The port -/

theorem toNat_regBase (s : State) : (regBase s).toNat = s.regPage.toNat * 2 ^ 14 := by
  rw [regBase, BitVec.toNat_append, Nat.shiftLeft_eq]
  simp

theorem toNat_portAt {s : State} {off : Nat} (h : off < 0x4000) :
    (portAt s off).toNat = s.regPage.toNat * 2 ^ 14 + off := by
  have := s.regPage.isLt
  rw [portAt, BitVec.toNat_add, toNat_regBase, BitVec.toNat_ofNat]
  omega

theorem regOffset_portAt {s : State} {off : Nat} (h : off < 0x4000) : regOffset s (portAt s off) = some off := by
  have h1 := toNat_portAt (s := s) h
  have h2 := toNat_regBase s
  rw [regOffset, if_pos ⟨by omega, by rw [Config.regSpan]; omega⟩]
  congr 1; omega

theorem servedOffset_portAt {s : State} {off : Nat} (h : off < 0x4000) (h4 : off % 4 = 0) :
    servedOffset s (portAt s off) .word = some off := by simp [servedOffset, regOffset_portAt h, h4]

/-- An access outside the register block, or not served in it (R98). -/
theorem regOffset_none {s : State} {addr : Word} (h : ¬ inRegisterBlock s addr) : regOffset s addr = none := by
  unfold regOffset; exact if_neg h

theorem regOffset_some {s : State} {addr : Word} (h : inRegisterBlock s addr) :
    ∃ off, regOffset s addr = some off ∧ off < 0x4000 ∧ off % 4 = addr.toNat % 4 ∧ addr = portAt s off := by
  have h' := h
  simp only [inRegisterBlock, toNat_regBase] at h'
  refine ⟨addr.toNat - (regBase s).toNat, if_pos h, ?_⟩
  rw [toNat_regBase]
  refine ⟨by omega, by omega, ?_⟩
  apply BitVec.eq_of_toNat_eq
  rw [toNat_portAt (by omega)]; omega

theorem servedOffset_none {s : State} {addr : Word} {width : Width} (h : inRegisterBlock s addr)
    (hn : width ≠ .word ∨ addr.toNat % 4 ≠ 0) : servedOffset s addr width = none := by
  obtain ⟨off, h1, _, h3, _⟩ := regOffset_some h
  rw [servedOffset, h1]
  simp only
  rw [if_neg]; rintro ⟨rfl, h4⟩
  rcases hn with hn | hn
  · exact hn rfl
  · omega

theorem servedOffset_eq_some {s : State} {addr : Word} {width : Width} {off : Nat}
    (h : servedOffset s addr width = some off) :
    width = .word ∧ off < 0x4000 ∧ off % 4 = 0 ∧ addr = portAt s off := by
  unfold servedOffset at h
  split at h
  · rename_i o ho
    split at h
    · rename_i h2
      cases h
      have hin : inRegisterBlock s addr := by
        by_contra hc; rw [regOffset_none hc] at ho; exact nomatch ho
      obtain ⟨off', h1, h3, _, h5⟩ := regOffset_some hin
      rw [ho] at h1; cases h1
      exact ⟨h2.1, h3, h2.2, h5⟩
    · exact nomatch h
  · exact nomatch h

/-! ### Steps of the host -/

/-- A step in which the host acts (all actions but `WAIT` while a command runs). -/
theorem stepWith_eq {a : HostAct} {s : State} (h : s.phase ≠ .busy ∨ a ≠ .wait) :
    stepWith a s = .next (hostAct a s) := by
  have : blockMoves { s with inputs := a :: s.inputs } = false := by
    rcases h with h | h
    · simp [blockMoves, h]
    · simp [blockMoves, h]
  rw [stepWith, step, this]; rfl

/-- A served write (R67, R70). -/
theorem hostWrites_eq {s : State} {off : Nat} (h : off < 0x4000) (h4 : off % 4 = 0) (w : Word) :
    hostWrites off w s = .next (servedWrite (regAt off) w s) := by
  rw [hostWrites, stepWith_eq (.inr (by simp))]
  simp only [hostAct, portWrite, servedOffset_portAt h h4]

/-- A served read (R68). -/
theorem hostReads_eq {s : State} {off : Nat} (h : off < 0x4000) (h4 : off % 4 = 0) :
    hostReads off s = .next (readReg (regAt off) s) := by
  rw [hostReads, stepWith_eq (.inr (by simp))]
  simp only [hostAct, portRead, servedOffset_portAt h h4, regOffset_portAt h]

theorem servedWrite_idle {r : Reg} {w : Word} {s : State} (h : s.phase ≠ .busy) :
    servedWrite r w s = writeReg r w s := by simp [servedWrite, h]

theorem servedWrite_busy {r : Reg} {w : Word} {s : State} (h : s.phase = .busy) (h1 : r ≠ .ctrl) (h2 : r ≠ .intStatus) :
    servedWrite r w s = { s with wign := true } := by simp [servedWrite, h, h1, h2]

theorem readReg_some {r : Reg} {s : State} {v : Word} (h : s.phase ≠ .busy ∨ readableWhileBusy r = true)
    (hv : regValue s r = some v) : readReg r s = { s with portData := v } := by
  unfold readReg
  rw [if_neg, hv]
  rcases h with h | h <;> simp [h]

theorem readReg_draw {r : Reg} {s : State} (h : s.phase = .busy ∧ readableWhileBusy r = false ∨ regValue s r = none) :
    readReg r s = { s with portData := Config.freeWord s.hostDraws, hostDraws := s.hostDraws + 1 } := by
  unfold readReg
  split
  · rfl
  · rename_i hb
    rcases h with h | h
    · simp [h.1, h.2] at hb
    · rw [h]; rfl

/-! ### The register map -/

theorem regAt_lenram {k : Nat} (h : k < 288) : regAt (0x400 + 4 * k) = .lenram k := by
  rw [regAt, if_neg (by omega), if_pos (by omega)]; congr 1; omega

theorem regAt_treeLL {j : Nat} (h : j < 576) : regAt (0x1000 + 4 * j) = .tree .ll j := by
  rw [regAt, if_neg (by omega), if_neg (by omega), if_pos (by omega)]; congr 1; omega

theorem regAt_treeD {j : Nat} (h : j < 64) : regAt (0x2000 + 4 * j) = .tree .d j := by
  rw [regAt, if_neg (by omega), if_neg (by omega), if_neg (by omega), if_pos (by omega)]; congr 1; omega

theorem regAt_treeCL {j : Nat} (h : j < 38) : regAt (0x2400 + 4 * j) = .tree .cl j := by
  rw [regAt, if_neg (by omega), if_neg (by omega), if_neg (by omega), if_neg (by omega), if_pos (by omega)]
  congr 1; omega

theorem regAt_reserved {off : Nat} (h4 : off % 4 = 0)
    (h : 0x054 ≤ off ∧ off ≤ 0x3FC ∨ 0x880 ≤ off ∧ off ≤ 0xFFC ∨ 0x1900 ≤ off ∧ off ≤ 0x1FFC
      ∨ 0x2100 ≤ off ∧ off ≤ 0x23FC ∨ 0x2498 ≤ off ∧ off ≤ 0x3FFC) : regAt off = .reserved := by
  rw [regAt, if_neg (by omega), if_neg (by omega), if_neg (by omega), if_neg (by omega), if_neg (by omega)]

/-- Only `CTRL` stands at 0x004, only `INT_STATUS` at 0x00C, and the four registers readable while `BUSY` below
0x010. -/
theorem regAt_other {off : Nat} (h4 : off % 4 = 0) :
    (off ≠ 0x004 → regAt off ≠ .ctrl) ∧ (off ≠ 0x00C → regAt off ≠ .intStatus)
      ∧ (0x010 ≤ off → readableWhileBusy (regAt off) = false) := by
  by_cases h : off < 0x54
  · have : off ∈ [0, 4, 8, 12, 16, 20, 24, 28, 32, 36, 40, 44, 48, 52, 56, 60, 64, 68, 72, 76, 80] := by
      simp; omega
    revert h4
    clear h
    revert off
    decide
  · rw [regAt, if_neg h]
    split
    · simp [readableWhileBusy]
    · split
      · simp [readableWhileBusy]
      · split
        · simp [readableWhileBusy]
        · split <;> simp [readableWhileBusy]

/-! ### Races -/

/-- Settling changes only the raced output bytes and the draw counter. -/
theorem settleBytes_effect (l : List Nat) (s : State) :
    ∃ m d, settleBytes l s = { s with mem := m, draws := d }
      ∧ (∀ a, inOutput s a = false → m.read a = s.mem.read a)
      ∧ ((∀ a ∈ l, a < Config.addrSpace) → s.mem.wf = true → m.wf = true) := by
  induction l generalizing s with
  | nil => exact ⟨s.mem, s.draws, rfl, fun _ _ => rfl, fun _ h => h⟩
  | cons a l ih =>
    rw [settleBytes]
    split
    · rename_i hin
      obtain ⟨m, d, h1, h2, h3⟩ := ih ((s.setMem (s.mem.write a (Config.freeByte s.draws))).tick)
      refine ⟨m, d, h1, fun b hb => ?_, fun hl hw => h3 (fun x hx => hl x (by simp [hx])) ?_⟩
      · rw [h2 b hb]
        have : b ≠ a := by rintro rfl; rw [hin] at hb; exact nomatch hb
        simp [this]
      · exact Memory.wf_write hw (hl a (by simp)) _
    · obtain ⟨m, d, h1, h2, h3⟩ := ih s
      exact ⟨m, d, h1, h2, fun hl => h3 fun x hx => hl x (by simp [hx])⟩

theorem settleRaces_effect (s : State) :
    ∃ m d, settleRaces s = { s with mem := m, draws := d, raced := [] }
      ∧ (∀ a, inOutput s a = false → m.read a = s.mem.read a)
      ∧ ((∀ a ∈ s.raced, a < Config.addrSpace) → s.mem.wf = true → m.wf = true) := by
  obtain ⟨m, d, h1, h2, h3⟩ := settleBytes_effect s.raced s
  exact ⟨m, d, by rw [settleRaces, h1], h2, h3⟩

/-- A raced output byte is finally a draw (R106 (3), R376). -/
theorem settleBytes_read (l : List Nat) (s : State) (a : Nat) (h : inOutput s a = true) :
    (∃ d, (settleBytes l s).mem.read a = Config.freeByte d) ∨ a ∉ l ∧ (settleBytes l s).mem.read a = s.mem.read a := by
  induction l generalizing s with
  | nil => exact .inr ⟨by simp, rfl⟩
  | cons b l ih =>
    rw [settleBytes]
    by_cases hb : a = b
    · subst hb
      rw [if_pos h]
      rcases ih ((s.setMem (s.mem.write a (Config.freeByte s.draws))).tick) h with h1 | ⟨_, h1⟩
      · exact .inl h1
      · exact .inl ⟨s.draws, by rw [h1]; simp⟩
    · split
      · rcases ih ((s.setMem (s.mem.write b (Config.freeByte s.draws))).tick) h with h1 | ⟨h2, h1⟩
        · exact .inl h1
        · exact .inr ⟨by simp [hb, h2], by rw [h1]; simp [hb]⟩
      · rcases ih s h with h1 | ⟨h2, h1⟩
        · exact .inl h1
        · exact .inr ⟨by simp [hb, h2], h1⟩

/-- The step of the block: what the command did, then completion or the failure entry, then the races settled. -/
theorem blockStep_next {s t : State} (h : blockStep s = .next t) :
    ∃ u v, Effect s u ∧ (v = u.complete ∨ ∃ f, v = u.enterFailure f ∧ (TreesGood s → f ≠ .cause .treeWalkCorrupt))
      ∧ t = settleRaces v := by
  unfold blockStep at h
  split at h
  · rename_i i hi
    cases he : exec i s with
    | next v =>
      rw [he] at h; cases h
      obtain ⟨u, h1, h2⟩ := exec_next he
      refine ⟨u, v, h1, ?_, rfl⟩
      rcases h2 with h2 | ⟨f, h2, h3, _⟩
      · exact .inl h2
      · exact .inr ⟨f, h2, h3⟩
    | fault x => rw [he] at h; exact nomatch h
    | refused x => rw [he] at h; exact nomatch h
  · cases h
    exact ⟨s, illegalCommand s, .refl s, .inr ⟨_, rfl, by simp⟩, rfl⟩

/-! ### Aborts -/

theorem mixFrom_read (new : Memory) (pick : Nat → Bool) (l : List Nat) (m : Memory) (a : Nat) :
    (mixFrom new pick l m).read a = m.read a ∨ (mixFrom new pick l m).read a = new.read a := by
  induction l generalizing m with
  | nil => exact .inl rfl
  | cons b l ih =>
    rw [mixFrom]
    rcases ih (if pick b then m.write b (new.read b) else m) with h | h
    · rw [h]
      split
      · rw [Memory.read_write]; split
        · rename_i hb; subst hb; exact .inr rfl
        · exact .inl rfl
      · exact .inl rfl
    · exact .inr h

theorem mixFrom_wf {new : Memory} {pick : Nat → Bool} {l : List Nat} {m : Memory} (hm : m.wf = true)
    (hl : ∀ a ∈ l, a < Config.addrSpace) : (mixFrom new pick l m).wf = true := by
  induction l generalizing m with
  | nil => exact hm
  | cons b l ih =>
    rw [mixFrom]
    refine ih ?_ fun a ha => hl a (by simp [ha])
    split
    · exact Memory.wf_write hm (hl b (by simp)) _
    · exact hm

theorem commandEnd_eq {s t : State} (h : blockStep s = .next t) : commandEnd s = t := by rw [commandEnd, h]

/-- A command that would not end in a next state leaves nothing. -/
theorem commandEnd_cases (s : State) : commandEnd s = s ∨ blockStep s = .next (commandEnd s) := by
  unfold commandEnd
  cases h : blockStep s with
  | next t => exact .inr rfl
  | fault x => exact .inl rfl
  | refused x => exact .inl rfl

end Machine
end Sys2Proof
end

