-- ==== Sys2Proof/Laws/Frames.lean ====
section
/-! SUPPORT. Which fields each procedure writes, as one relation each: a reader of the stream, the dynamic-tree reader,
the copier, and the unfilter. The frames of the commands follow from them. -/

namespace Sys2Proof
namespace Machine

/-! ### Relations -/

/-- Only the bit cursor, the draw counter and the note of merged accesses may have changed. -/
def Reads (s t : State) : Prop := ∃ p d w, t = { s with bitpos := p, draws := d, merging := w }

theorem Reads.refl (s : State) : Reads s s := ⟨_, _, _, rfl⟩

theorem Reads.trans {s t u : State} (h : Reads s t) (k : Reads t u) : Reads s u := by
  obtain ⟨p, d, w, rfl⟩ := h; obtain ⟨p', d', w', rfl⟩ := k; exact ⟨p', d', w', rfl⟩

theorem reads_setBitpos (p : Nat) (s : State) : Reads s (s.setBitpos p) := ⟨_, _, _, rfl⟩

theorem reads_of_drawn {s t : State} (h : Drawn s t) : Reads s t := by
  obtain ⟨d, w, rfl⟩ := h; exact ⟨_, d, w, rfl⟩

/-- Only what a reader changes and the tree RAMs with their valid bits may have changed. -/
def ReadsTrees (s t : State) : Prop :=
  ∃ p d w a b c x y z, t =
    { s with
      bitpos := p, draws := d, merging := w, treeLL := a, treeD := b, treeCL := c, llValid := x, dValid := y, clValid := z }

theorem ReadsTrees.trans {s t u : State} (h : ReadsTrees s t) (k : ReadsTrees t u) : ReadsTrees s u := by
  obtain ⟨p, d, w, a, b, c, x, y, z, rfl⟩ := h; obtain ⟨p', d', w', a', b', c', x', y', z', rfl⟩ := k
  exact ⟨p', d', w', a', b', c', x', y', z', rfl⟩

theorem readsTrees_of_reads {s t : State} (h : Reads s t) : ReadsTrees s t := by
  obtain ⟨p, d, w, rfl⟩ := h; exact ⟨p, d, w, _, _, _, _, _, _, rfl⟩

/-- Only the output bytes from offset `i` up to `j`, the output position, the draw counter and the note of merged
accesses may have changed. -/
def Stores (i j : Nat) (s t : State) : Prop :=
  ∃ m o d w, t = { s with mem := m, outpos := o, draws := d, merging := w } ∧ sameOutside s m i j

theorem Stores.refl (i j : Nat) (s : State) : Stores i j s s := ⟨s.mem, _, _, _, rfl, fun _ _ => rfl⟩

theorem Stores.trans {i j : Nat} {s t u : State} (h : Stores i j s t) (k : Stores i j t u) : Stores i j s u := by
  obtain ⟨m, o, d, w, rfl, h1⟩ := h; obtain ⟨m', o', d', w', rfl, k1⟩ := k
  exact ⟨m', o', d', w', rfl, fun a ha => (k1 a ha).trans (h1 a ha)⟩

theorem Stores.mono {i j i' j' : Nat} {s t : State} (h : Stores i j s t) (hi : i' ≤ i) (hj : j ≤ j') :
    Stores i' j' s t := by
  obtain ⟨m, o, d, w, rfl, h1⟩ := h
  exact ⟨m, o, d, w, rfl, fun a ha => h1 a (by omega)⟩

theorem stores_of_drawn {i j : Nat} {s t : State} (h : Drawn s t) : Stores i j s t := by
  obtain ⟨d, w, rfl⟩ := h; exact ⟨s.mem, _, d, w, rfl, fun _ _ => rfl⟩

theorem stores_setOutpos (i j p : Nat) (s : State) : Stores i j s (s.setOutpos p) :=
  ⟨s.mem, _, _, _, rfl, fun _ _ => rfl⟩

/-- The same, the output position kept. -/
def Fills (i j : Nat) (s t : State) : Prop :=
  ∃ m d w, t = { s with mem := m, draws := d, merging := w } ∧ sameOutside s m i j

theorem Fills.refl (i j : Nat) (s : State) : Fills i j s s := ⟨s.mem, _, _, rfl, fun _ _ => rfl⟩

theorem Fills.trans {i j : Nat} {s t u : State} (h : Fills i j s t) (k : Fills i j t u) : Fills i j s u := by
  obtain ⟨m, d, w, rfl, h1⟩ := h; obtain ⟨m', d', w', rfl, k1⟩ := k
  exact ⟨m', d', w', rfl, fun a ha => (k1 a ha).trans (h1 a ha)⟩

theorem Fills.mono {i j i' j' : Nat} {s t : State} (h : Fills i j s t) (hi : i' ≤ i) (hj : j ≤ j') :
    Fills i' j' s t := by
  obtain ⟨m, d, w, rfl, h1⟩ := h
  exact ⟨m, d, w, rfl, fun a ha => h1 a (by omega)⟩

theorem Fills.stores {i j : Nat} {s t : State} (h : Fills i j s t) : Stores i j s t := by
  obtain ⟨m, d, w, rfl, h1⟩ := h; exact ⟨m, _, d, w, rfl, h1⟩

theorem fills_of_drawn {i j : Nat} {s t : State} (h : Drawn s t) : Fills i j s t := by
  obtain ⟨d, w, rfl⟩ := h; exact ⟨s.mem, d, w, rfl, fun _ _ => rfl⟩

/-! ### Readers -/

theorem readBits_reads (n : Nat) (s : State) : (readBits n s).Ensures (Reads s) :=
  Res.Ensures.andThen Reads.trans ((bitsFrom_drawn _ n s).mono fun _ => reads_of_drawn) fun _ t _ _ =>
    reads_setBitpos _ t

theorem checkedRead_reads (n : Nat) (s : State) : (checkedRead n s).Ensures (Reads s) := by
  unfold checkedRead; split
  · exact Reads.refl s
  · exact readBits_reads n s

theorem walk_reads (t : TreeSel) (fuel pos : Nat) (s : State) : (walk t fuel pos s).Ensures (Reads s) := by
  induction fuel generalizing pos s with
  | zero => exact Reads.refl s
  | succ fuel ih =>
    unfold walk; split
    · exact Reads.refl s
    · refine Res.Ensures.andThen Reads.trans (readBits_reads 1 s) fun bit t _ _ => ?_
      split
      · exact Reads.refl t
      · split
        · exact Reads.refl t
        · exact ih _ t

theorem decodeSymbol_reads (t : TreeSel) (s : State) : (decodeSymbol t s).Ensures (Reads s) := by
  unfold decodeSymbol; split
  · exact walk_reads _ _ _ s
  · exact Reads.refl s

theorem readCounts_reads (s : State) : (readCounts s).Ensures (Reads s) :=
  Res.Ensures.andThen Reads.trans (checkedRead_reads 5 s) fun _ t _ _ =>
    Res.Ensures.andThen Reads.trans (checkedRead_reads 5 t) fun _ u _ _ =>
      Res.Ensures.andThen Reads.trans (checkedRead_reads 4 u) fun _ v _ _ => Reads.refl v

theorem readClLengths_reads (order cl : List Nat) (s : State) : (readClLengths order cl s).Ensures (Reads s) := by
  induction order generalizing cl s with
  | nil => exact Reads.refl s
  | cons k order ih =>
    exact Res.Ensures.andThen Reads.trans (checkedRead_reads 3 s) fun v t _ _ => ih _ t

theorem readRun_reads (sym : Nat) (lens : List Nat) (s : State) : (readRun sym lens s).Ensures (Reads s) := by
  have h (n : Nat) (f : Nat → Nat × Nat) :
      ((checkedRead n s).andThen fun x s => Res.ok (f x) s).Ensures (Reads s) :=
    Res.Ensures.andThen Reads.trans (checkedRead_reads n s) fun _ t _ _ => Reads.refl t
  unfold readRun; split
  · split
    · exact Reads.refl s
    · exact h 2 _
  · split
    · exact h 3 _
    · exact h 7 _

theorem readLengths_reads (total fuel : Nat) (lens : List Nat) (s : State) :
    (readLengths total fuel lens s).Ensures (Reads s) := by
  induction fuel generalizing lens s with
  | zero => exact Reads.refl s
  | succ fuel ih =>
    unfold readLengths; split
    · refine Res.Ensures.andThen Reads.trans (decodeSymbol_reads _ s) fun sym t _ _ => ?_
      split
      · exact ih _ t
      · refine Res.Ensures.andThen Reads.trans (readRun_reads _ _ t) fun run u _ _ => ?_
        split
        · exact Reads.refl u
        · exact ih _ u
    · exact Reads.refl s

theorem treeCommit_readsTrees (t : RamTree) (len : List Nat) (s : State) :
    (treeCommit t len s).Ensures (ReadsTrees s) := by
  unfold treeCommit; split
  · exact ⟨_, _, _, _, _, _, _, _, _, rfl⟩
  · exact ⟨_, _, _, _, _, _, _, _, _, rfl⟩

theorem readDynTrees_readsTrees (s : State) : (readDynTrees s).Ensures (ReadsTrees s) := by
  refine Res.Ensures.andThen ReadsTrees.trans ((readCounts_reads s).mono fun _ => readsTrees_of_reads)
    fun c t _ _ => ?_
  refine Res.Ensures.andThen ReadsTrees.trans ((readClLengths_reads _ _ t).mono fun _ => readsTrees_of_reads)
    fun cl t _ _ => ?_
  refine Res.Ensures.andThen ReadsTrees.trans (treeCommit_readsTrees _ _ t) fun _ t _ _ => ?_
  refine Res.Ensures.andThen ReadsTrees.trans ((readLengths_reads _ _ _ t).mono fun _ => readsTrees_of_reads)
    fun lens t _ _ => ?_
  unfold buildDynTrees; split
  · exact readsTrees_of_reads (Reads.refl t)
  · exact Res.Ensures.andThen ReadsTrees.trans (treeCommit_readsTrees _ _ t) fun _ t _ _ =>
      treeCommit_readsTrees _ _ t

/-! ### Writers -/

theorem dstWrite_fills {i j k : Nat} (hi : i ≤ k) (hj : k < j) (v : Byte) (s : State) :
    (dstWrite k v s).Ensures (Fills i j s) :=
  (dmaWrite_ensures (s.dstBase.toNat + k) v s).mono fun t ⟨u, ⟨d, w, hu⟩, ht⟩ => by
    subst hu; rcases ht with rfl | ⟨b, rfl⟩
    · exact ⟨s.mem, d, w, rfl, fun _ _ => rfl⟩
    · refine ⟨_, d, w, rfl, fun a ha => ?_⟩
      rw [Memory.read_write, if_neg (by omega)]

/-- The copier writes only the bytes of the copy (R259). -/
theorem lzLoop_stores {i j : Nat} (hj : j < 2 ^ 32) (start dist n back : Nat) (s : State)
    (h1 : i ≤ s.outpos.toNat) (h2 : s.outpos.toNat + n ≤ j) :
    (lzLoop start dist n back s).Ensures (Stores i j s) := by
  induction n generalizing back s with
  | zero => exact Stores.refl i j s
  | succ n ih =>
    refine Res.Ensures.andThen Stores.trans ((dst_drawn back s).mono fun _ => stores_of_drawn) fun b t _ hb => ?_
    have hd := dst_drawn back s
    rw [hb] at hd
    obtain ⟨d, w, rfl⟩ := hd
    refine Res.Ensures.andThen Stores.trans ((dstWrite_fills (i := i) (j := j) h1 (by omega) b _).mono
      fun _ => Fills.stores) fun _ u _ hu => ?_
    have hf := dstWrite_fills (i := i) (j := j) (k := s.outpos.toNat) h1 (by omega) b { s with draws := d, merging := w }
    rw [hu] at hf
    obtain ⟨m, d', w', rfl, _⟩ := hf
    have ho : (({ s with mem := m, draws := d', merging := w' } : State).setOutpos (s.outpos.toNat + 1)).outpos.toNat
        = s.outpos.toNat + 1 := by
      show (BitVec.ofNat 32 (s.outpos.toNat + 1)).toNat = _
      rw [BitVec.toNat_ofNat]; omega
    have hs := stores_setOutpos i j (s.outpos.toNat + 1) { s with mem := m, draws := d', merging := w' }
    exact (ih _ _ (by rw [ho]; omega) (by rw [ho]; omega)).mono fun _ => Stores.trans hs

theorem checkedCopy_stores (length dist : Nat) (s : State) :
    (checkedCopy length dist s).Ensures (Stores s.outpos.toNat (s.outpos.toNat + length) s) := by
  unfold checkedCopy; split
  · exact Stores.refl _ _ s
  · split
    · exact Stores.refl _ _ s
    · have := s.dstCap.isLt
      exact lzLoop_stores (by omega) _ _ _ _ _ le_rfl le_rfl

theorem unfilterByte_fills {i j : Nat} {g : Geometry} (ft : Nat) {y k : Nat} (h1 : i ≤ y * g.lb + k)
    (h2 : y * g.lb + k < j) (s : State) : (unfilterByte g ft y k s).Ensures (Fills i j s) :=
  Res.Ensures.andThen Fills.trans ((src_drawn _ s).mono fun _ => fills_of_drawn) fun _ t _ _ =>
    Res.Ensures.andThen Fills.trans ((neighbour_drawn _ _ t).mono fun _ => fills_of_drawn) fun _ t _ _ =>
      Res.Ensures.andThen Fills.trans ((neighbour_drawn _ _ t).mono fun _ => fills_of_drawn) fun _ t _ _ =>
        Res.Ensures.andThen Fills.trans ((neighbour_drawn _ _ t).mono fun _ => fills_of_drawn) fun _ t _ _ =>
          dstWrite_fills h1 h2 _ t

theorem unfilterBytes_fills {i j : Nat} {g : Geometry} (ft : Nat) {y : Nat} (n k : Nat) (h1 : i ≤ y * g.lb + k)
    (h2 : y * g.lb + k + n ≤ j) (s : State) : (unfilterBytes g ft y n k s).Ensures (Fills i j s) := by
  induction n generalizing k s with
  | zero => exact Fills.refl i j s
  | succ n ih =>
    exact Res.Ensures.andThen Fills.trans (unfilterByte_fills ft h1 (by omega) s) fun _ t _ _ =>
      ih (k + 1) (by omega) (by omega) t

theorem unfilterLine_fills (g : Geometry) (y : Nat) (s : State) :
    (unfilterLine g y s).Ensures (Fills (y * g.lb) (y * g.lb + g.lb) s) := by
  unfold unfilterLine; split
  · exact Fills.refl _ _ s
  · refine Res.Ensures.andThen Fills.trans ((src_drawn _ s).mono fun _ => fills_of_drawn) fun ft t _ _ => ?_
    split
    · exact Fills.refl _ _ t
    · exact unfilterBytes_fills _ _ 0 (by omega) (by omega) t

theorem unfilterLines_fills (g : Geometry) (n y : Nat) (s : State) :
    (unfilterLines g n y s).Ensures (Fills (y * g.lb) ((y + n) * g.lb) s) := by
  induction n generalizing y s with
  | zero => exact Fills.refl _ _ s
  | succ n ih =>
    have h1 : (y + 1) * g.lb = y * g.lb + g.lb := by rw [Nat.add_mul, Nat.one_mul]
    have h2 : (y + 1) * g.lb ≤ (y + (n + 1)) * g.lb := Nat.mul_le_mul_right _ (by omega)
    refine Res.Ensures.andThen Fills.trans ((unfilterLine_fills g y s).mono fun _ h => h.mono le_rfl (by omega))
      fun _ t _ _ => ?_
    refine (ih (y + 1) t).mono fun _ h => h.mono (by omega) ?_
    rw [show y + 1 + n = y + (n + 1) by omega]

end Machine
end Sys2Proof
end

