-- ==== Sys2Proof/Laws/Huffman.lean ====
section
/-! SUPPORT. The two constant trees are what `BuildTree` gives for the fixed code lengths (R207). The builder is
evaluated on a table packed into one number, ten bits a slot, which the kernel computes with; the packed builder
is proved to follow the clear one. -/

namespace Sys2Proof
namespace Machine

/-- A slot as ten bits: 0 is `UNSET`. -/
def packSlot : Option Nat → Nat
  | none => 0
  | some v => v + 1

/-- A table as one number, ten bits a slot, slot 0 least significant. -/
def packSlots : List (Option Nat) → Nat
  | [] => 0
  | x :: l => packSlot x + 1024 * packSlots l

/-- Slot `j` of a packed table. -/
def packGet (p j : Nat) : Nat := (p >>> (10 * j)) % 1024

theorem packGet_packSlots {l : List (Option Nat)} (h : ∀ x ∈ l, packSlot x < 1024) (j : Nat) :
    packGet (packSlots l) j = packSlot (l.getD j none) := by
  induction l generalizing j with
  | nil => simp [packGet, packSlots, packSlot]
  | cons x l ih =>
    have hx := h x (by simp)
    cases j with
    | zero => simp only [packGet, packSlots, Nat.mul_zero, Nat.shiftRight_zero, List.getD_cons_zero]; omega
    | succ j =>
      rw [List.getD_cons_succ, ← ih (fun y hy => h y (by simp [hy]))]
      simp only [packGet, packSlots]
      rw [show 10 * (j + 1) = 10 + 10 * j by omega, Nat.shiftRight_add]
      congr 2
      simp only [Nat.shiftRight_eq_div_pow]; omega

theorem packSlots_set {l : List (Option Nat)} {j : Nat} (hj : j < l.length) (hu : l.getD j none = none) (v : Nat) :
    packSlots (l.set j (some v)) = packSlots l + (v + 1) <<< (10 * j) := by
  induction l generalizing j with
  | nil => simp at hj
  | cons x l ih =>
    cases j with
    | zero =>
      simp only [List.getD_cons_zero] at hu
      subst hu
      simp [packSlots, packSlot]; omega
    | succ j =>
      simp only [List.getD_cons_succ] at hu
      simp only [List.set_cons_succ, packSlots, ih (by simpa using hj) hu, Nat.shiftLeft_eq]
      rw [show 10 * (j + 1) = 10 * j + 10 by omega, Nat.pow_add]
      ring

/-- `insertBits` on a packed table: the table and the node counter, or none on failure. -/
def insertBitsPacked (N sym code : Nat) : Nat → Nat → Nat × Nat → Option (Nat × Nat)
  | 0, _, b => some b
  | r + 1, pos, b =>
    if N - 2 < pos then none
    else
      match packGet b.1 (2 * pos + (code >>> r) % 2) with
      | 0 =>
        if r = 0 then some (b.1 + (sym + 1) <<< (10 * (2 * pos + (code >>> r) % 2)), b.2)
        else
          insertBitsPacked N sym code r (b.2 + 1)
            (b.1 + (b.2 + 1 + N + 1) <<< (10 * (2 * pos + (code >>> r) % 2)), b.2 + 1)
      | v + 1 => if r = 0 ∨ v < N then none else insertBitsPacked N sym code r (v - N) b

/-- `insertFrom` on a packed table. -/
def insertFromPacked (N : Nat) : Nat → List (Nat × Nat) → Nat × Nat → Option (Nat × Nat)
  | _, [], b => some b
  | sym, (l, c) :: rest, b =>
    match insertBitsPacked N sym c l 0 b with
    | some b' => insertFromPacked N (sym + 1) rest b'
    | none => none

/-- The packed table stands for the clear one. -/
structure Packs (N : Nat) (b : Builder) (p : Nat × Nat) : Prop where
  size : b.slots.length = 2 * N
  small : ∀ x ∈ b.slots, packSlot x < 1024
  slots : packSlots b.slots = p.1
  nodes : b.nodes = p.2

theorem Packs.set {N : Nat} {b : Builder} {p : Nat × Nat} (h : Packs N b p) {j v n : Nat} (hj : j < 2 * N)
    (hu : b.slots.getD j none = none) (hv : v < 1023) :
    Packs N { slots := b.slots.set j (some v), nodes := n } (p.1 + (v + 1) <<< (10 * j), n) where
  size := by simpa using h.size
  small x hx := by
    rcases List.mem_or_eq_of_mem_set hx with hx | rfl
    · exact h.small x hx
    · simp only [packSlot]; omega
  slots := by rw [packSlots_set (by rw [h.size]; exact hj) hu, h.slots]
  nodes := rfl

theorem insertBits_packed {N sym code : Nat} (h2 : 2 ≤ N) (hN : N ≤ 511) (hs : sym < N) {r pos : Nat}
    {b : Builder} {p p' : Nat × Nat} (hb : Packs N b p) (hn : pos ≤ N - 2 ∨ r = 0 → b.nodes ≤ N - 2)
    (h : insertBitsPacked N sym code r pos p = some p') :
    ∃ b', insertBits N sym code r pos b = .ok b' ∧ Packs N b' p' ∧ b'.nodes ≤ N - 2 := by
  induction r generalizing pos b p with
  | zero => cases h; exact ⟨b, rfl, hb, hn (.inr rfl)⟩
  | succ r ih =>
    rw [insertBitsPacked] at h
    rw [insertBits]
    split at h
    · exact nomatch h
    · rename_i hpos
      rw [if_neg hpos]
      have hn' := hn (.inl (by omega))
      have hj : 2 * pos + (code >>> r) % 2 < 2 * N := by omega
      have hg := packGet_packSlots hb.small (2 * pos + (code >>> r) % 2)
      rw [hb.slots] at hg
      split at h
      · rename_i h0
        rw [h0] at hg
        have hu : b.slots.getD (2 * pos + (code >>> r) % 2) none = none := by
          cases hx : b.slots.getD (2 * pos + (code >>> r) % 2) none with
          | none => rfl
          | some v => rw [hx] at hg; exact nomatch hg
        rw [hu]
        split at h
        · rename_i hr
          subst hr
          cases h
          have hp := hb.set (n := b.nodes) hj hu (v := sym) (by omega)
          refine ⟨{ slots := b.slots.set (2 * pos + (code >>> 0) % 2) (some sym), nodes := b.nodes }, rfl, ?_, hn'⟩
          rw [hb.nodes] at hp ⊢
          exact hp
        · rename_i hr
          simp only [hr, if_false]
          have hp := hb.set (n := b.nodes + 1) hj hu (v := b.nodes + 1 + N) (by omega)
          rw [hb.nodes] at hp
          obtain ⟨b', e1, e2, e3⟩ := ih hp (by simp only; rw [← hb.nodes]; omega) h
          exact ⟨b', by rw [hb.nodes]; exact e1, e2, e3⟩
      · rename_i v hv
        rw [hv] at hg
        have hu : b.slots.getD (2 * pos + (code >>> r) % 2) none = some v := by
          cases hx : b.slots.getD (2 * pos + (code >>> r) % 2) none with
          | none => rw [hx] at hg; exact nomatch hg
          | some w => rw [hx] at hg; simp only [packSlot] at hg; congr 1; omega
        rw [hu]
        split at h
        · exact nomatch h
        · rename_i hc
          simp only [hc, if_false]
          obtain ⟨b', e1, e2, e3⟩ := ih hb (fun _ => hn') h
          exact ⟨b', e1, e2, e3⟩

theorem insertFrom_packed {N : Nat} (h2 : 2 ≤ N) (hN : N ≤ 511) {l : List (Nat × Nat)} {sym : Nat}
    {b : Builder} {p p' : Nat × Nat} (hl : sym + l.length ≤ N) (hb : Packs N b p) (hn : b.nodes ≤ N - 2)
    (h : insertFromPacked N sym l p = some p') : ∃ b', insertFrom N sym l b = .ok b' ∧ Packs N b' p' := by
  induction l generalizing sym b p with
  | nil => cases h; exact ⟨b, rfl, hb⟩
  | cons c l ih =>
    obtain ⟨k, c⟩ := c
    simp only [List.length_cons] at hl
    rw [insertFromPacked] at h
    split at h
    · rename_i q hq
      obtain ⟨b1, e1, e2, e3⟩ := insertBits_packed h2 hN (by omega) hb (fun _ => hn) hq
      rw [insertFrom, e1]
      exact ih (by omega) e2 e3 h
    · exact nomatch h

/-- The entries of a packed table, `UNSET` read as 0 (R201). -/
def unpackTable (N p : Nat) : List Nat := (List.range (2 * N)).map fun j => packGet p j - 1

theorem unpackTable_packs {N : Nat} {b : Builder} {p : Nat × Nat} (h : Packs N b p) :
    unpackTable N p.1 = b.slots.map fun x => x.getD 0 := by
  apply List.ext_getElem
  · simp [unpackTable, h.size]
  · intro j h1 h2
    simp only [List.length_map] at h2
    simp only [unpackTable, List.getElem_map, List.getElem_range, ← h.slots, packGet_packSlots h.small,
      List.getD_eq_getElem?_getD, List.getElem?_eq_getElem h2, Option.getD_some]
    cases b.slots[j] <;> simp [packSlot]

/-- A build evaluated on a packed table is the build. -/
theorem buildTree_packed {len : List Nat} {N M : Nat} {p : Nat × Nat} (h2 : 2 ≤ N) (hN : N ≤ 511)
    (hlen : len.length ≤ N) (h : insertFromPacked N 0 (len.zip (assignCodes len M)) (0, 0) = some p)
    (hl : (len.any fun l => decide (M < l)) = false) (hk : kraft len M ≤ 2 ^ M) :
    buildTree len N M = .ok (unpackTable N p.1) := by
  have h0 : Packs N ⟨List.replicate (2 * N) none, 0⟩ (0, 0) := by
    refine ⟨by simp, ?_, ?_, rfl⟩
    · intro x hx; rw [List.eq_of_mem_replicate hx]; decide
    · generalize 2 * N = n
      induction n with
      | zero => rfl
      | succ n ih => simp only [List.replicate_succ, packSlots, ih, packSlot]
  obtain ⟨b, e1, e2⟩ := insertFrom_packed h2 hN (by simp only [List.length_zip]; omega) h0 (by simp) h
  rw [buildTree, hl, if_neg (by simp), if_neg (by omega), e1, unpackTable_packs e2]

/-- `FIXED_D` is the tree of R207. -/
theorem fixedD_built : buildTree fixedDLengths 32 15 = .ok fixedD := by decide +kernel

theorem fixedLL_inserted :
    (insertFromPacked 288 0 (fixedLLLengths.zip (assignCodes fixedLLLengths 15)) (0, 0)).map
      (fun p => unpackTable 288 p.1) = some fixedLL := by decide +kernel

theorem fixedLL_kraft : kraft fixedLLLengths 15 ≤ 2 ^ 15 := by decide +kernel

/-- `FIXED_LL` is the tree of R207. -/
theorem fixedLL_built : buildTree fixedLLLengths 288 15 = .ok fixedLL := by
  obtain ⟨p, hp, hf⟩ := Option.map_eq_some_iff.1 fixedLL_inserted
  rw [← hf]
  exact buildTree_packed (by decide) (by decide) (by decide +kernel) hp (by decide +kernel) fixedLL_kraft

end Machine
end Sys2Proof
end

