-- ==== Sys2Proof/Laws/Lines.lean ====
section
/-! SUPPORT. What the unfilter writes in a quiet state: every byte of a line, or of all lines, is reconstructed from
its filtered byte and its neighbours (R304 to R306). -/

namespace Sys2Proof
namespace Machine

theorem geometry_eq (s : State) : geometry s = ⟨bwOf s, lbOf s⟩ := rfl

theorem neighbour_quiet {s : State} (hq : Quiet s) (present : Bool) (k : Nat) :
    neighbour present k s = .ok (outOr0 s s.mem (present = true) k) s := by
  unfold neighbour outOr0; split
  · rw [dst_quiet hq]; rfl
  · rfl

/-- One byte (R304 to R306). -/
theorem unfilterByte_quiet {s : State} (hq : Quiet s) {ft y i bw lb : Nat} :
    unfilterByte ⟨bw, lb⟩ ft y i s = .ok () (s.setMem (s.mem.write (s.dstBase.toNat + (y * lb + i))
      (BitVec.ofNat 8 ((srcByte s (y * (lb + 1) + 1 + i)).toNat
        + predict ft (outOr0 s s.mem (bw ≤ i) (y * lb + i - bw)) (outOr0 s s.mem (0 < y) ((y - 1) * lb + i))
          (outOr0 s s.mem (0 < y ∧ bw ≤ i) ((y - 1) * lb + i - bw)))))) := by
  rw [unfilterByte, src_quiet hq, Res.andThen_ok, neighbour_quiet hq, Res.andThen_ok, neighbour_quiet hq,
    Res.andThen_ok, neighbour_quiet hq, Res.andThen_ok, dstWrite_quiet hq]
  simp [outOr0]

/-- What holds of the output after some bytes of line `y` are done stays so while later bytes are written. -/
theorem reconstructed_congr {s : State} {m m' : Memory} {y i : Nat}
    (hm : ∀ k, k ≤ y * lbOf s + i → m'.read (s.dstBase.toNat + k) = m.read (s.dstBase.toNat + k))
    (h : reconstructed s m y i) : reconstructed s m' y i := by
  have hab : (y - 1) * lbOf s + i ≤ y * lbOf s + i := by
    have := Nat.mul_le_mul_right (lbOf s) (Nat.sub_le y 1); omega
  have e (p : Prop) [Decidable p] (k : Nat) (hk : k ≤ y * lbOf s + i) : outOr0 s m' p k = outOr0 s m p k := by
    unfold outOr0; split
    · rw [hm k hk]
    · rfl
  unfold reconstructed at h ⊢
  rw [hm _ le_rfl, h, e _ _ (by omega), e _ _ hab, e _ _ (by omega)]

/-- A byte that was just written from its neighbours is reconstructed. -/
theorem reconstructed_write {s : State} {m : Memory} {y i : Nat} (hbw : 1 ≤ bwOf s) (hi : i < lbOf s) :
    reconstructed s (m.write (s.dstBase.toNat + (y * lbOf s + i))
      (BitVec.ofNat 8 ((srcByte s (y * (lbOf s + 1) + 1 + i)).toNat
        + predict (filterOf s y) (outOr0 s m (bwOf s ≤ i) (y * lbOf s + i - bwOf s))
          (outOr0 s m (0 < y) ((y - 1) * lbOf s + i))
          (outOr0 s m (0 < y ∧ bwOf s ≤ i) ((y - 1) * lbOf s + i - bwOf s))))) y i := by
  have hab : 0 < y → (y - 1) * lbOf s + i < y * lbOf s + i := fun hy => by
    have := Nat.mul_lt_mul_of_pos_right (Nat.sub_lt hy Nat.one_pos) (show 0 < lbOf s by omega)
    omega
  unfold reconstructed
  rw [Memory.read_write, if_pos rfl]
  have e (p : Prop) [Decidable p] (k : Nat) (v : Byte) (hk : p → k < y * lbOf s + i) :
      outOr0 s (m.write (s.dstBase.toNat + (y * lbOf s + i)) v) p k = outOr0 s m p k := by
    unfold outOr0; split
    · rename_i hp
      have := hk hp
      rw [Memory.read_write, if_neg (by omega)]
    · rfl
  rw [e _ _ _ (fun h => by omega), e _ _ _ hab, e _ _ _ (fun h => by have := hab h.1; omega)]

/-- Memory that reads as before outside the output region holds the same source bytes. -/
theorem srcByte_setMem {s : State} (hr : regionsBad false s = false) {m : Memory}
    (hm : ∀ a, inOutput s a = false → m.read a = s.mem.read a) {i : Nat} (hi : i < s.srcLen.toNat) :
    srcByte (s.setMem m) i = srcByte s i := (sameSource_setMem hr hm).bytes i hi

/-- The bytes of line `y` from `i` on (R306). -/
theorem unfilterBytes_quiet {s : State} (hq : Quiet s) (hr : regionsBad false s = false) (hbw : 1 ≤ bwOf s) {y : Nat}
    (hs : y * (lbOf s + 1) + (lbOf s + 1) ≤ s.srcLen.toNat) (hc : y * lbOf s + lbOf s ≤ s.dstCap.toNat)
    (n i : Nat) {m0 : Memory} (hout : ∀ a, inOutput s a = false → m0.read a = s.mem.read a) (hn : i + n = lbOf s) :
    ∃ m, unfilterBytes ⟨bwOf s, lbOf s⟩ (filterOf s y) y n i (s.setMem m0) = .ok () (s.setMem m)
      ∧ (∀ j, i ≤ j → j < lbOf s → reconstructed s m y j)
      ∧ (∀ a, (a < s.dstBase.toNat + (y * lbOf s + i) ∨ s.dstBase.toNat + (y * lbOf s + lbOf s) ≤ a) →
          m.read a = m0.read a) := by
  induction n generalizing i m0 with
  | zero => exact ⟨m0, rfl, fun j h1 h2 => by omega, fun _ _ => rfl⟩
  | succ n ih =>
    have hrec := reconstructed_write (s := s) (m := m0) (y := y) (i := i) hbw (by omega)
    rw [unfilterBytes, unfilterByte_quiet (quiet_setMem hq m0), srcByte_setMem hr hout (by omega), Res.andThen_ok]
    simp only [State.setMem_dstBase, State.setMem_mem]
    have eo (p : Prop) [Decidable p] (k : Nat) : outOr0 (s.setMem m0) m0 p k = outOr0 s m0 p k := rfl
    simp only [eo]
    set m1 := m0.write (s.dstBase.toNat + (y * lbOf s + i))
      (BitVec.ofNat 8 ((srcByte s (y * (lbOf s + 1) + 1 + i)).toNat
        + predict (filterOf s y) (outOr0 s m0 (bwOf s ≤ i) (y * lbOf s + i - bwOf s))
          (outOr0 s m0 (0 < y) ((y - 1) * lbOf s + i))
          (outOr0 s m0 (0 < y ∧ bwOf s ≤ i) ((y - 1) * lbOf s + i - bwOf s)))) with hm1
    have hread (a : Nat) (ha : a ≠ s.dstBase.toNat + (y * lbOf s + i)) : m1.read a = m0.read a := by
      rw [hm1, Memory.read_write, if_neg ha]
    obtain ⟨m, e1, e2, e3⟩ := ih (i + 1) (m0 := m1) (fun a ha => by
      rw [hread a, hout a ha]
      rintro rfl
      simp only [inOutput, Bool.and_eq_false_iff, decide_eq_false_iff_not] at ha
      omega) (by omega)
    refine ⟨m, e1, fun j h1 h2 => ?_, fun a ha => ?_⟩
    · by_cases hj : j = i
      · subst hj
        exact reconstructed_congr (fun k hk => e3 _ (.inl (by omega))) hrec
      · exact e2 j (by omega) h2
    · rw [e3 a (by omega), hread a (by omega)]

/-- A line (R306): all its bytes are reconstructed, and no other byte changes. -/
theorem unfilterLine_quiet {s : State} (hq : Quiet s) (hr : regionsBad false s = false) (hbw : 1 ≤ bwOf s) {y : Nat}
    (hs : y * (lbOf s + 1) + (lbOf s + 1) ≤ s.srcLen.toNat) (hc : y * lbOf s + lbOf s ≤ s.dstCap.toNat)
    {m0 : Memory} (hout : ∀ a, inOutput s a = false → m0.read a = s.mem.read a)
    (hft : lbOf s ≠ 0 → filterOf s y ≤ 4) :
    ∃ m, unfilterLine ⟨bwOf s, lbOf s⟩ y (s.setMem m0) = .ok () (s.setMem m)
      ∧ (∀ j, j < lbOf s → reconstructed s m y j)
      ∧ (∀ a, (a < s.dstBase.toNat + y * lbOf s ∨ s.dstBase.toNat + (y * lbOf s + lbOf s) ≤ a) →
          m.read a = m0.read a) := by
  by_cases hlb : lbOf s = 0
  · exact ⟨m0, by rw [unfilterLine, if_pos hlb], fun j h => by omega, fun _ _ => rfl⟩
  · have hft := hft hlb
    obtain ⟨m, e1, e2, e3⟩ := unfilterBytes_quiet hq hr hbw hs hc (lbOf s) 0 hout (by omega)
    refine ⟨m, ?_, fun j h => e2 j (by omega) h, e3⟩
    rw [unfilterLine, if_neg hlb, src_quiet (quiet_setMem hq m0), srcByte_setMem hr hout (i := y * (lbOf s + 1)) (by omega),
      Res.andThen_ok,
      if_neg (by simpa [filterOf] using hft)]
    exact e1

/-- A line whose filter type is bad ends the command before any byte of it is written (R306). -/
theorem unfilterLine_bad {s : State} (hq : Quiet s) (hr : regionsBad false s = false) {y : Nat}
    (hs : y * (lbOf s + 1) + (lbOf s + 1) ≤ s.srcLen.toNat) {m0 : Memory}
    (hout : ∀ a, inOutput s a = false → m0.read a = s.mem.read a) (hlb : lbOf s ≠ 0) (hft : 4 < filterOf s y) :
    unfilterLine ⟨bwOf s, lbOf s⟩ y (s.setMem m0) = .fail (.badFilter y (lbOf s)) (s.setMem m0) := by
  rw [unfilterLine, if_neg hlb, src_quiet (quiet_setMem hq m0), srcByte_setMem hr hout (i := y * (lbOf s + 1)) (by omega),
      Res.andThen_ok,
    if_pos (by simpa [filterOf] using hft)]

/-- `n` lines from `y` on (R308). -/
theorem unfilterLines_quiet {s : State} (hq : Quiet s) (hr : regionsBad false s = false) (hbw : 1 ≤ bwOf s)
    (n y : Nat) (hs : (y + n) * (lbOf s + 1) ≤ s.srcLen.toNat) (hc : (y + n) * lbOf s ≤ s.dstCap.toNat)
    {m0 : Memory} (hout : ∀ a, inOutput s a = false → m0.read a = s.mem.read a)
    (hft : lbOf s ≠ 0 → ∀ k, y ≤ k → k < y + n → filterOf s k ≤ 4) :
    ∃ m, unfilterLines ⟨bwOf s, lbOf s⟩ n y (s.setMem m0) = .ok () (s.setMem m)
      ∧ (∀ k, y ≤ k → k < y + n → ∀ j, j < lbOf s → reconstructed s m k j)
      ∧ (∀ a, (a < s.dstBase.toNat + y * lbOf s ∨ s.dstBase.toNat + (y + n) * lbOf s ≤ a) →
          m.read a = m0.read a) := by
  induction n generalizing y m0 with
  | zero => exact ⟨m0, rfl, fun k h1 h2 => by omega, fun _ _ => rfl⟩
  | succ n ih =>
    have h1 : (y + 1) * (lbOf s + 1) ≤ (y + (n + 1)) * (lbOf s + 1) := Nat.mul_le_mul_right _ (by omega)
    have h2 : (y + 1) * lbOf s ≤ (y + (n + 1)) * lbOf s := Nat.mul_le_mul_right _ (by omega)
    rw [Nat.add_mul, Nat.one_mul] at h1 h2
    obtain ⟨m1, e1, e2, e3⟩ := unfilterLine_quiet hq hr hbw (y := y) (by omega) (by omega) hout
      (fun h => hft h y le_rfl (by omega))
    have hyy : (y + 1) * lbOf s = y * lbOf s + lbOf s := by rw [Nat.add_mul, Nat.one_mul]
    obtain ⟨m, g1, g2, g3⟩ := ih (y + 1) (m0 := m1) (by rwa [show y + 1 + n = y + (n + 1) by omega])
      (by rwa [show y + 1 + n = y + (n + 1) by omega])
      (fun a ha => by
        rw [e3 a, hout a ha]
        simp only [inOutput, Bool.and_eq_false_iff, decide_eq_false_iff_not] at ha
        omega)
      (fun h k hk1 hk2 => hft h k (by omega) (by omega))
    rw [hyy, show y + 1 + n = y + (n + 1) by omega] at g3
    refine ⟨m, by rw [unfilterLines, e1, Res.andThen_ok, g1], fun k hk1 hk2 j hj => ?_, fun a ha => ?_⟩
    · by_cases hk : k = y
      · subst hk
        exact reconstructed_congr (fun i hi => g3 _ (.inl (by omega))) (e2 j hj)
      · exact g2 k (by omega) (by omega) j hj
    · rw [g3 a (by omega), e3 a (by omega)]

end Machine
end Sys2Proof
end

