-- ==== Sys2Proof/Laws/PerInstr.lean ====
section
/-! SUPPORT. The per-instruction family `ReservedBits`: in the word of every command the reserved bits 31:21 and 15:11
are 0 (R120, R121). -/

namespace Sys2Proof
namespace Laws
namespace ReservedBits

/-- The reserved bits of the command's word are 0. -/
def Statement (i : Instr) : Prop := encode i &&& 0xFFE0F800#32 = 0#32

theorem nop : Statement .nop := by unfold Statement; decide
theorem readBits (n : BitVec 5) : Statement (.readBits n) := by revert n; unfold Statement; decide
theorem buildTree (t : RamTree) : Statement (.buildTree t) := by cases t <;> (unfold Statement; decide)
theorem decodeSymbol (t : TreeSel) : Statement (.decodeSymbol t) := by
  cases t with
  | ram r => cases r <;> (unfold Statement; decide)
  | fixedLL => unfold Statement; decide
  | fixedD => unfold Statement; decide
theorem readDynTrees : Statement .readDynTrees := by unfold Statement; decide
theorem lzCopy : Statement .lzCopy := by unfold Statement; decide
theorem inflateBlock : Statement .inflateBlock := by unfold Statement; decide
theorem zlibHeader : Statement .zlibHeader := by unfold Statement; decide
theorem inflateZlib : Statement .inflateZlib := by unfold Statement; decide
theorem paeth : Statement .paeth := by unfold Statement; decide
theorem unfilterLine : Statement .unfilterLine := by unfold Statement; decide
theorem unfilterImage : Statement .unfilterImage := by unfold Statement; decide

end ReservedBits
end Laws
end Sys2Proof
end

