-- ==== Sys2Proof/Laws/Prefix.lean ====
section
/-! SUPPORT. What the stream holds up to bit `q` depends only on the source bytes below `(q + 7) / 8`: nothing behind the
end of a symbol, a header, a block or a chain of blocks is read (R283). -/

namespace Sys2Proof
namespace Machine

/-- The sources have the same place and length, and the same first `k` bytes. -/
structure SamePrefix (k : Nat) (s t : State) : Prop where
  base : t.srcBase = s.srcBase
  len : t.srcLen = s.srcLen
  bytes : ∀ i, i < k → srcByte t i = srcByte s i

variable {s t : State} {k : Nat}

theorem bitAt_prefix (h : SamePrefix k s t) {p : Nat} (hp : p < 8 * k) : bitAt t p = bitAt s p := by
  simp only [bitAt, h.bytes (p / 8) (by omega)]

theorem fieldAt_prefix (h : SamePrefix k s t) {p n : Nat} (hp : p + n ≤ 8 * k) : fieldAt t p n = fieldAt s p n := by
  induction n generalizing p with
  | zero => rfl
  | succ n ih => simp only [fieldAt, bitAt_prefix h (show p < 8 * k by omega), ih (p := p + 1) (by omega)]

theorem symFrom_prefix (h : SamePrefix k s t) {T : List Nat} {N n node p v q : Nat}
    (hs : symFrom T N s n node p = some (v, q)) (hq : q ≤ 8 * k) : symFrom T N t n node p = some (v, q) := by
  induction n generalizing node p with
  | zero => exact nomatch hs
  | succ n ih =>
    have hp := (symFrom_some hs).1
    rw [symFrom] at hs ⊢
    rw [bitAt_prefix h (by omega)]
    split at hs
    · rw [if_pos ‹_›]; exact hs
    · rw [if_neg ‹_›]; exact ih hs

theorem symAt_prefix (h : SamePrefix k s t) {T : List Nat} {N p v q : Nat} (hs : symAt T N s p = some (v, q))
    (hq : q ≤ 8 * k) : symAt T N t p = some (v, q) := by
  rw [symAt, h.len]; exact symFrom_prefix h hs hq

theorem tokenAt_prefix (h : SamePrefix k s t) {Tll Td : List Nat} {a : Token} {p q : Nat}
    (ht : tokenAt Tll Td s a p q) (hq : q ≤ 8 * k) : tokenAt Tll Td t a p q := by
  cases a with
  | literal b => exact ⟨ht.1, symAt_prefix h ht.2 hq⟩
  | copy len dist =>
    obtain ⟨sym, p1, dsym, p2, h1, h2, h3, h4, h5, h6, h7, h8, h9⟩ := ht
    have e2 := symAt_some h5
    refine ⟨sym, p1, dsym, p2, symAt_prefix h h1 (by omega), h2, h3, ?_, symAt_prefix h h5 (by omega), h6, ?_,
      by rw [h.len]; exact h8, h9⟩
    · rw [h4, fieldAt_prefix h (by omega)]
    · rw [h7, fieldAt_prefix h (by omega)]

theorem tokensTo_prefix (h : SamePrefix k s t) {Tll Td : List Nat} {ts : List Token} {p q : Nat}
    (ht : tokensTo Tll Td s ts p q) (hq : q ≤ 8 * k) : tokensTo Tll Td t ts p q := by
  induction ts generalizing p with
  | nil => exact ht
  | cons a ts ih =>
    obtain ⟨p1, h1, h2⟩ := ht
    have := (tokensTo_end h2).1
    exact ⟨p1, tokenAt_prefix h h1 (by omega), ih h2⟩

theorem tokensAt_prefix (h : SamePrefix k s t) {Tll Td : List Nat} {ts : List Token} {p q : Nat}
    (ht : tokensAt Tll Td s ts p q) (hq : q ≤ 8 * k) : tokensAt Tll Td t ts p q := by
  obtain ⟨p1, h1, h2⟩ := ht
  have := symAt_some h2
  exact ⟨p1, tokensTo_prefix h h1 (by omega), symAt_prefix h h2 hq⟩

theorem lengthsAt_prefix (h : SamePrefix k s t) {Tcl : List Nat} {syms lens : List Nat} {p : Nat} {out : List Nat}
    {q : Nat} (ht : lengthsAt Tcl s syms lens p out q) (hq : q ≤ 8 * k) : lengthsAt Tcl t syms lens p out q := by
  induction syms generalizing lens p with
  | nil => exact ht
  | cons sym syms ih =>
    obtain ⟨p1, h1, h2, h3, h4, h5⟩ := ht
    have := (lengthsAt_length h5).2
    refine ⟨p1, symAt_prefix h h1 (by omega), h2, h3, by rw [h.len]; exact h4, ?_⟩
    rw [fieldAt_prefix h (by omega)]; exact ih h5

theorem clLengthsAt_prefix (h : SamePrefix k s t) {order : List Nat} {p : Nat} (cl : List Nat)
    (hp : p + 3 * order.length ≤ 8 * k) : clLengthsAt t order p cl = clLengthsAt s order p cl := by
  induction order generalizing p cl with
  | nil => rfl
  | cons x order ih =>
    simp only [List.length_cons] at hp
    simp only [clLengthsAt, fieldAt_prefix h (show p + 3 ≤ 8 * k by omega)]
    exact ih _ (by omega)

/-- A dynamic tree header takes at least its fixed fields. -/
theorem dynTreesAt_end {T : DynTables} {p q : Nat} (ht : dynTreesAt s T p q) : p + 14 ≤ q := by
  obtain ⟨hlit, hdist, hclen, syms, lens, _, _, _, _, _, h6, _⟩ := ht
  have := (lengthsAt_length h6).2
  omega

theorem dynTreesAt_prefix (h : SamePrefix k s t) {T : DynTables} {p q : Nat} (ht : dynTreesAt s T p q)
    (hq : q ≤ 8 * k) : dynTreesAt t T p q := by
  obtain ⟨hlit, hdist, hclen, syms, lens, h1, h2, h3, h4, h5, h6, h7⟩ := ht
  have := (lengthsAt_length h6).2
  refine ⟨hlit, hdist, hclen, syms, lens, ?_, ?_, ?_, by rw [h.len]; exact h4, ?_, lengthsAt_prefix h h6 hq, h7⟩
  · rw [h1, fieldAt_prefix h (by omega)]
  · rw [h2, fieldAt_prefix h (by omega)]
  · rw [h3, fieldAt_prefix h (by omega)]
  · rw [clLengthsAt_prefix h, h5]
    simp only [List.length_take]; omega

theorem halfAt_prefix (h : SamePrefix k s t) {i : Nat} (hi : i + 2 ≤ k) : halfAt t i = halfAt s i := by
  simp only [halfAt, h.bytes i (by omega), h.bytes (i + 1) (by omega)]

theorem bodyAt_end {cap : Nat} {out : List Byte} {p : Nat} {b : Block} {out' : List Byte} {q : Nat}
    (hb : bodyAt s cap out p b out' q) : p < q := by
  cases b with
  | stored => simp only [bodyAt] at hb; omega
  | fixed ts => exact (tokensAt_end hb.1).1
  | dynamic T ts =>
    obtain ⟨p1, h1, h2, _⟩ := hb
    have := dynTreesAt_end h1
    have := tokensAt_end h2
    omega

theorem bodyAt_prefix (h : SamePrefix k s t) {cap : Nat} {out : List Byte} {p : Nat} {b : Block} {out' : List Byte}
    {q : Nat} (hb : bodyAt s cap out p b out' q) (hq : q ≤ 8 * k) : bodyAt t cap out p b out' q := by
  cases b with
  | stored =>
    simp only [bodyAt] at hb ⊢
    have e1 := halfAt_prefix h (i := (p + 7) / 8) (by omega)
    have e2 := halfAt_prefix h (i := (p + 7) / 8 + 2) (by omega)
    have e3 : srcBytes t ((p + 7) / 8 + 4) (halfAt s ((p + 7) / 8))
        = srcBytes s ((p + 7) / 8 + 4) (halfAt s ((p + 7) / 8)) :=
      List.map_congr_left fun j hj => h.bytes _ (by have := List.mem_range.1 hj; omega)
    rw [e1, e2, h.len, e3]; exact hb
  | fixed ts => exact ⟨tokensAt_prefix h hb.1 hq, hb.2⟩
  | dynamic T ts =>
    obtain ⟨p1, h1, h2, h3⟩ := hb
    have := tokensAt_end h2
    exact ⟨p1, dynTreesAt_prefix h h1 (by omega), tokensAt_prefix h h2 hq, h3⟩

theorem blockAt_end {cap : Nat} {out : List Byte} {p : Nat} {final : Bool} {b : Block} {out' : List Byte} {q : Nat}
    (hb : blockAt s cap out p final b out' q) : p + 3 < q := bodyAt_end hb.2.2.2

theorem blockAt_prefix (h : SamePrefix k s t) {cap : Nat} {out : List Byte} {p : Nat} {final : Bool} {b : Block}
    {out' : List Byte} {q : Nat} (hb : blockAt s cap out p final b out' q) (hq : q ≤ 8 * k) :
    blockAt t cap out p final b out' q := by
  have he := blockAt_end hb
  obtain ⟨h1, h2, h3, h4⟩ := hb
  exact ⟨by rw [h.len]; exact h1, by rw [fieldAt_prefix h (by omega)]; exact h2,
    by rw [fieldAt_prefix h (by omega)]; exact h3, bodyAt_prefix h h4 hq⟩

theorem blocksAt_end {cap : Nat} {out : List Byte} {p : Nat} {bs : List Block} {out' : List Byte} {q : Nat}
    (hb : blocksAt s cap out p bs out' q) : p + 3 < q := by
  induction bs generalizing out p with
  | nil => exact hb.elim
  | cons b bs ih =>
    rcases hb with ⟨_, h2⟩ | ⟨out1, p1, h1, h2⟩
    · exact blockAt_end h2
    · have := blockAt_end h1
      have := ih h2
      omega

theorem blocksAt_prefix (h : SamePrefix k s t) {cap : Nat} {out : List Byte} {p : Nat} {bs : List Block}
    {out' : List Byte} {q : Nat} (hb : blocksAt s cap out p bs out' q) (hq : q ≤ 8 * k) :
    blocksAt t cap out p bs out' q := by
  induction bs generalizing out p with
  | nil => exact hb
  | cons b bs ih =>
    rcases hb with ⟨h1, h2⟩ | ⟨out1, p1, h1, h2⟩
    · exact .inl ⟨h1, blockAt_prefix h h2 hq⟩
    · have := blocksAt_end h2
      exact .inr ⟨out1, p1, blockAt_prefix h h1 (by omega), ih h2⟩

theorem headerValid_prefix (h : SamePrefix k s t) (hk : 2 ≤ k) (hv : headerValid s) : headerValid t := by
  unfold headerValid at hv ⊢
  rw [h.len, h.bytes 0 (by omega), h.bytes 1 (by omega)]; exact hv

end Machine
end Sys2Proof
end

