-- ==== Sys2Proof/Tests/Slice0.lean ====
section
/-! SUPPORT. The model's own tests. The words and the expected values are those of `spec/95_test_vectors.md` and of the
worked rows of R241, R252, R282 and R301 to R308, none of them the model's answer. After them, one witness for each
obligation with hypotheses: a concrete state and operands that meet them. -/

namespace Sys2Proof
namespace Tests

set_option Elab.async false

open Machine

/-! ### Well-formedness and encoding -/

theorem test_wellFormed_bound : WellFormed (.readBits 16#5) ∧ ¬ WellFormed (.readBits 17#5) := by decide

theorem test_decode_nop : decode 0x00000000#32 = .ok .nop := by decide
theorem test_decode_readBits : decode 0x00100001#32 = .ok (.readBits 16#5) := by decide
theorem test_decode_buildTree :
    decode 0x00000002#32 = .ok (.buildTree .ll) ∧ decode 0x00000102#32 = .ok (.buildTree .d)
      ∧ decode 0x00000202#32 = .ok (.buildTree .cl) := by decide
theorem test_decode_decodeSymbol :
    decode 0x00000003#32 = .ok (.decodeSymbol (.ram .ll)) ∧ decode 0x00000103#32 = .ok (.decodeSymbol (.ram .d))
      ∧ decode 0x00000203#32 = .ok (.decodeSymbol (.ram .cl)) ∧ decode 0x00000303#32 = .ok (.decodeSymbol .fixedLL)
      ∧ decode 0x00000403#32 = .ok (.decodeSymbol .fixedD) := by decide
theorem test_decode_readDynTrees : decode 0x00000004#32 = .ok .readDynTrees := by decide
theorem test_decode_lzCopy : decode 0x00000005#32 = .ok .lzCopy := by decide
theorem test_decode_inflateBlock : decode 0x00000006#32 = .ok .inflateBlock := by decide
theorem test_decode_zlibHeader : decode 0x00000007#32 = .ok .zlibHeader := by decide
theorem test_decode_inflateZlib : decode 0x00000008#32 = .ok .inflateZlib := by decide
theorem test_decode_paeth : decode 0x00000010#32 = .ok .paeth := by decide
theorem test_decode_unfilterLine : decode 0x00000011#32 = .ok .unfilterLine := by decide
theorem test_decode_unfilterImage : decode 0x00000012#32 = .ok .unfilterImage := by decide

/-- L2.1. -/
theorem test_decode_rejects :
    decode 0x00000009#32 = .error .reservedOp ∧ decode 0x000000FF#32 = .error .reservedOp
      ∧ decode 0x00000100#32 = .error .unusedField ∧ decode 0x00010000#32 = .error .unusedField
      ∧ decode 0x80000000#32 = .error .unusedField ∧ decode 0x00010007#32 = .error .unusedField
      ∧ decode 0x00110001#32 = .error .bitCount ∧ decode 0x00000302#32 = .error .selector
      ∧ decode 0x00000503#32 = .error .selector := by decide

/-- `READ_BITS 7` and `DECODE_SYMBOL CL` of program P4. -/
theorem test_encode : encode (.readBits 7#5) = 0x00070001#32 ∧ encode (.decodeSymbol (.ram .cl)) = 0x00000203#32 := by
  decide

/-! ### Small states -/

/-- Store these bytes from address `a` on. -/
def put (m : Memory) (a : Nat) : List Nat → Memory
  | [] => m
  | v :: vs => put (m.write a (BitVec.ofNat 8 v)) (a + 1) vs

/-- The placement of `spec/95_test_vectors.md`: these source bytes at 0x100, the output region of 0x100 bytes at
0x10000, everything else as after reset. -/
def stateOf (bytes : List Nat) : State :=
  { State.reset with
    srcBase := 0x100#32
    srcLen := BitVec.ofNat 32 bytes.length
    dstBase := 0x10000#32
    dstCap := 0x100#32
    mem := put [] 0x100 bytes }

/-- The same with the bit cursor at `p`. -/
def stateAt (p : Nat) (bytes : List Nat) : State := { stateOf bytes with bitpos := BitVec.ofNat 32 p }

/-- The same with these code lengths in `LENRAM`. -/
def withLengths (l : List Nat) (s : State) : State :=
  { s with lenram := (l.map (BitVec.ofNat 4) ++ s.lenram).take 288 }

/-- Output `61 62 63`, `OUTPOS` 3, `DST_CAP` 16, length and distance as given (L2.6). -/
def copyState (length dist : Nat) : State :=
  { stateOf [] with
    mem := put [] 0x10000 [0x61, 0x62, 0x63]
    outpos := 3#32
    dstCap := 16#32
    arg0 := BitVec.ofNat 32 length
    arg1 := BitVec.ofNat 32 dist }

/-- An image of `w` by `h` pixels of `bpp` bits with this filtered data, line `y` selected (L2.10). -/
def image (w h bpp y : Nat) (bytes : List Nat) : State :=
  { stateOf bytes with
    unfWidth := BitVec.ofNat 32 w
    unfHeight := BitVec.ofNat 32 h
    unfBpp := BitVec.ofNat 32 bpp
    arg0 := BitVec.ofNat 32 y }

/-- The step that runs the command word `w` ends in a next state with this property. -/
def after (s : State) (w : Nat) (p : State → Bool) : Bool :=
  match step (s.withFetchWord 32 w) with
  | .next t => p t
  | .fault _ => false
  | .refused _ => false

/-- The first `n` output bytes. -/
def output (n : Nat) (t : State) : List Nat := (List.range n).map fun k => (outByte t k).toNat

/-- "Fail X at b/o" of `spec/95_test_vectors.md`. -/
def failsAt (code b o : Nat) (t : State) : Bool :=
  t.phase == .failed && t.err && t.errKind == 1#2 && t.errCause.toNat == code && t.errBitpos.toNat == b
    && t.errOutpos.toNat == o && t.outpos == 0#32

/-! ### One step of every command -/

theorem test_nop : after (stateOf []) 0x00000000 (fun t => statusWord t == 0#32 && intStatusWord t == 1#32) := by
  decide +kernel

/-- L2.1: a reserved operation code. -/
theorem test_illegal : after (stateOf [0x78, 0x01]) 0x00000013 (fun t => failsAt 1 0 0 t && intStatusWord t == 2#32) := by
  decide +kernel

theorem test_readBits : after (stateAt 4 [0xA5, 0x3C]) 0x00080001 (fun t => t.result == 0xCA#32 && t.bitpos == 12#32) := by
  decide +kernel
theorem test_readBits_exhausted :
    after (stateAt 8 [0xA5, 0x3C]) 0x00090001 (fun t => failsAt 3 8 0 t && t.bitpos == 8#32) := by decide +kernel

theorem test_buildTree :
    after (withLengths [2, 1, 3, 3] (stateOf [])) 0x00000202
      (fun t => t.treeCL.take 6 == [1#10, 20#10, 0#10, 21#10, 2#10, 3#10] && statusWord t == 0x400#32) := by
  decide +kernel
theorem test_buildTree_oversubscribed :
    after (withLengths [1, 1, 1] (stateOf [])) 0x00000202 (fun t => failsAt 6 0 0 t && !t.clValid) := by decide +kernel

theorem test_decodeSymbol : after (stateOf [0xFF, 0x01]) 0x00000303 (fun t => t.result == 255#32 && t.bitpos == 9#32) := by
  decide +kernel
theorem test_decodeSymbol_notBuilt : after (stateOf [0x00]) 0x00000003 (failsAt 8 0 0) := by decide +kernel

/-- The source of R241. -/
def dynSource : List Nat := [0x05, 0xC0, 0x81, 0x08, 0x00, 0x00, 0x00, 0x00, 0x20, 0xB6, 0xFD, 0xA5, 0x0E, 0x01]

theorem test_readDynTrees :
    after (stateAt 3 dynSource) 0x00000004
      (fun t => t.treeLL.take 2 == [65#10, 256#10] && t.bitpos == 101#32 && statusWord t == 0x700#32) := by
  decide +kernel
theorem test_readDynTrees_noPrevious :
    after (stateAt 3 [0x05, 0x00, 0x02, 0x09]) 0x00000004 (fun t => failsAt 21 30 0 t && statusWord t == 0x402#32) := by
  decide +kernel

theorem test_lzCopy :
    after (copyState 5 3) 0x00000005
      (fun t => output 8 t == [0x61, 0x62, 0x63, 0x61, 0x62, 0x63, 0x61, 0x62] && t.outpos == 8#32) := by decide +kernel
theorem test_lzCopy_tooFar : after (copyState 3 4) 0x00000005 (failsAt 20 0 3) := by decide +kernel

theorem test_inflateBlock :
    after { stateOf [0x4B, 0x4C, 0x02, 0x42, 0x00] with dstCap := 5#32 } 0x00000006
      (fun t => output 5 t == [0x61, 0x62, 0x61, 0x62, 0x61] && t.bitpos == 38#32 && statusWord t == 0x2C#32) := by
  decide +kernel
theorem test_inflateBlock_nlen :
    after (stateOf [0x01, 0x03, 0x00, 0xFE, 0xFF, 0x41, 0x42, 0x43]) 0x00000006
      (fun t => failsAt 15 8 0 t && statusWord t == 6#32 && output 3 t == [0, 0, 0]) := by decide +kernel

theorem test_zlibHeader :
    after { stateAt 5 [0x78, 0x01] with outpos := 2#32 } 0x00000007 (fun t => t.bitpos == 16#32 && t.outpos == 0#32) := by
  decide +kernel
theorem test_zlibHeader_method : after (stateOf [0x79, 0x18]) 0x00000007 (failsAt 11 0 0) := by decide +kernel

theorem test_inflateZlib :
    after (stateOf [0x78, 0x9C, 0xCB, 0x48, 0xCD, 0xC9, 0xC9, 0x07, 0x00, 0x06, 0x2C, 0x02, 0x15]) 0x00000008
      (fun t => output 5 t == [0x68, 0x65, 0x6C, 0x6C, 0x6F] && t.bitpos == 66#32 && statusWord t == 0x2C#32) := by
  decide +kernel
theorem test_inflateZlib_truncated :
    after (stateOf [0x78, 0x9C, 0xCB, 0x48, 0xCD, 0xC9, 0xC9, 0x07]) 0x00000008
      (fun t => failsAt 4 64 5 t && statusWord t == 0x0E#32) := by decide +kernel

/-- L2.9: the top byte is ignored, and the arithmetic does not wrap. -/
theorem test_paeth :
    after { stateOf [] with arg0 := 0xAB050703#32 } 0x00000010 (fun t => t.result == 5#32)
      && after { stateOf [] with arg0 := 0xABFF00FF#32 } 0x00000010 (fun t => t.result == 0#32) := by decide +kernel

theorem test_unfilterLine :
    after (image 2 2 8 1 [0x00, 0x01, 0x02, 0x01, 0x01, 0x01]) 0x00000011 (fun t => output 4 t == [0, 0, 1, 2]) := by
  decide +kernel
theorem test_unfilterLine_range : after (image 2 2 8 2 [0x00, 0x01, 0x02, 0x01, 0x01, 0x01]) 0x00000011 (failsAt 25 0 0) := by
  decide +kernel

theorem test_unfilterImage :
    after (image 2 2 24 0 [0x00, 0x0A, 0x14, 0x1E, 0x28, 0x32, 0x3C, 0x03, 0x01, 0x01, 0x01, 0x01, 0x01, 0x01]) 0x00000012
      (fun t => output 12 t == [0x0A, 0x14, 0x1E, 0x28, 0x32, 0x3C, 0x06, 0x0B, 0x10, 0x18, 0x1F, 0x27]) := by
  decide +kernel
theorem test_unfilterImage_badFilter :
    after (image 2 2 8 0 [0x00, 0x01, 0x02, 0x09, 0x01, 0x02]) 0x00000012
      (fun t => failsAt 24 24 2 t && output 4 t == [1, 2, 0, 0]) := by decide +kernel

/-! ### The port -/

/-- L2.11: `ID` reads, and `W ID` is ignored. -/
theorem test_port :
    hostReads 0x000 State.reset = .next { State.reset with portData := 0x4B464931#32 }
      ∧ hostWrites 0x000 0#32 State.reset = .next State.reset := ⟨rfl, rfl⟩

/-- L2.11: `W CTRL, 3` in `FAILED` resets and enables the interrupt. -/
theorem test_softReset :
    hostWrites 0x004 3#32 { State.reset with phase := .failed, err := true, srcBase := 5#32 }
      = .next { State.reset with irqEn := true } := rfl

/-! ### Witnesses: encoding and steps -/

/-- A command in progress, the host waiting for it. -/
def running (w : Nat) (s : State) : State := { s with phase := .busy, cmd := BitVec.ofNat 32 w, inputs := [.wait] }

/-- A failure with cause code 1 stored. -/
def failedState : State := { State.reset with phase := .failed, err := true, errKind := 1#2, errCause := 1#5 }

theorem witness_DecodeEncode : WellFormed (.readBits 16#5) ∧ WellFormed (.decodeSymbol .fixedD) ∧ WellFormed .unfilterImage := by
  decide

theorem witness_EncodeDecode : decode 0x00100001#32 = .ok (.readBits 16#5) := by decide

theorem witness_StepRunsDecoded :
    decode (running 0x12 (stateOf [])).cmd = .ok .unfilterImage ∧ blockMoves (running 0x12 (stateOf [])) = true
      ∧ (running 0x12 (stateOf [])).raced = [] ∧ decode State.reset.cmd = .ok .nop ∧ blockMoves State.reset = false
      ∧ blockMoves { running 0x09 (stateOf []) with inputs := [.hwReset] } = false := by
  decide

/-- A word for each condition of R121, R123 and R124, at the ends of the ranges. -/
def illegalWords : List Nat :=
  [0x09, 0x0F, 0x13, 0xFF, 0x00000803, 0x0000F802, 0x00200001, 0x80000000, 0x00000101, 0x00000700, 0x00010002]
    ++ [0x001F0012, 0x00110001, 0x001F0001, 0x00000302, 0x00000702, 0x00000503, 0x00000703]

theorem witness_IllegalWords :
    (∀ w ∈ illegalWords, (∀ i, decode (running w (stateOf [])).cmd ≠ .ok i) ∧ blockMoves (running w (stateOf [])) = true
        ∧ (running w (stateOf [])).raced = [])
      ∧ (∀ i, decode (running 0x09 { stateOf [] with raced := [0x10000] }).cmd ≠ .ok i)
      ∧ blockMoves (running 0x09 { stateOf [] with raced := [0x10000] }) = true := by
  have h : ∀ w ∈ illegalWords, (decode (running w (stateOf [])).cmd).isOk = false
      ∧ blockMoves (running w (stateOf [])) = true ∧ (running w (stateOf [])).raced = [] := by decide +kernel
  have no {w : Word} (hw : (decode w).isOk = false) (i : Instr) : decode w ≠ .ok i := by
    intro hi; rw [hi] at hw; exact nomatch hw
  exact ⟨fun w hw => ⟨no (h w hw).1, (h w hw).2⟩, no rfl, rfl⟩

/-- The step answers a next state. -/
def goes (o : Host.Outcome State Fault Refusal) : Bool :=
  match o with
  | .next _ => true
  | .fault _ => false
  | .refused _ => false

theorem goes_next {o : Host.Outcome State Fault Refusal} (h : goes o = true) : ∃ t, o = .next t := by
  cases o with
  | next t => exact ⟨t, rfl⟩
  | fault x => exact nomatch h
  | refused x => exact nomatch h

/-- A fixed block that stores four bytes (L1.4). -/
def blockRun : State := running 0x06 (stateOf [0x4B, 0x04, 0x02, 0x00])

theorem witness_StepWritesOnlyOutput : blockMoves blockRun = true ∧ ∃ t, step blockRun = .next t :=
  ⟨rfl, goes_next (by decide +kernel)⟩

/-! ### Witnesses: the port -/

theorem witness_CommandIssue : State.reset.phase = .idle ∧ failedState.phase = .failed ∧ blockRun.phase = .busy := by decide

theorem witness_FailedIsTerminal :
    failedState.phase = .failed ∧ ∃ t, stepWith .hwReset failedState = .next t ∧ t.phase ≠ .failed :=
  ⟨rfl, _, rfl, by decide⟩

theorem witness_WritesWhileBusy :
    blockRun.phase = .busy ∧ (2#32 : Word).getLsbD 0 = false ∧ (3#32 : Word).getLsbD 0 = true
      ∧ ∀ off ∈ [0x000, 0x008, 0x010, 0x400, 0x3FFC], off < 0x4000 ∧ off % 4 = 0 ∧ off ≠ 0x004 ∧ off ≠ 0x00C := by decide

theorem witness_RegisterWrites :
    State.reset.phase ≠ .busy ∧ failedState.phase ≠ .busy ∧ (2#32 : Word).getLsbD 0 = false ∧ 0 < 288 ∧ 287 < 288 := by decide

theorem witness_ReadOnlyRegisters :
    0x044 ∈ [0x000, 0x008, 0x014, 0x018, 0x01C, 0x020, 0x044] ∧ (575 < 576 ∧ 0x18FC = 0x1000 + 4 * 575)
      ∧ (63 < 64 ∧ 0x20FC = 0x2000 + 4 * 63) ∧ (37 < 38 ∧ 0x2494 = 0x2400 + 4 * 37)
      ∧ State.reset.phase ≠ .busy ∧ blockRun.phase = .busy := by decide

theorem witness_RegisterReads : State.reset.phase ≠ .busy ∧ failedState.phase ≠ .busy ∧ 287 < 288 := by decide

theorem witness_ReservedOffsets :
    State.reset.phase ≠ .busy
      ∧ ∀ off ∈ [0x054, 0x3FC, 0x880, 0xFFC, 0x1900, 0x1FFC, 0x2100, 0x23FC, 0x2498, 0x3FFC], off % 4 = 0
        ∧ (0x054 ≤ off ∧ off ≤ 0x3FC ∨ 0x880 ≤ off ∧ off ≤ 0xFFC ∨ 0x1900 ≤ off ∧ off ≤ 0x1FFC
          ∨ 0x2100 ≤ off ∧ off ≤ 0x23FC ∨ 0x2498 ≤ off ∧ off ≤ 0x3FFC) := by decide

/-- Three trees built: the two fixed ones and the code-length tree of L1.1. -/
def treesState : State :=
  { stateOf [0xD7, 0x00] with
    treeLL := fixedLL.map (BitVec.ofNat 10)
    treeD := fixedD.map (BitVec.ofNat 10)
    treeCL := [1#10, 20#10, 0#10, 21#10, 2#10, 3#10] ++ List.replicate 32 0#10
    llValid := true
    dValid := true
    clValid := true }

theorem witness_TreeWindows :
    treesState.phase ≠ .busy ∧ treesState.llValid = true ∧ treesState.dValid = true ∧ treesState.clValid = true
      ∧ State.reset.phase ≠ .busy ∧ State.reset.llValid = false ∧ State.reset.dValid = false ∧ State.reset.clValid = false
      ∧ 575 < 576 ∧ 63 < 64 ∧ 37 < 38 := by decide

theorem witness_ReadsWhileBusy :
    blockRun.phase = .busy ∧ ∀ off ∈ [0x010, 0x054, 0x3FFC], off < 0x4000 ∧ off % 4 = 0 ∧ 0x010 ≤ off := by decide

theorem witness_UnservedAccesses :
    (inRegisterBlock State.reset 0xFFFFC000#32 ∧ Width.half ≠ .word)
      ∧ (inRegisterBlock State.reset 0xFFFFC011#32 ∧ (0xFFFFC011#32 : Word).toNat % 4 ≠ 0)
      ∧ (inRegisterBlock State.reset 0xFFFFFFFF#32 ∧ Width.byte ≠ .word) := by
  unfold inRegisterBlock; decide

theorem witness_Interrupt :
    (∃ t, hostWrites 0x004 2#32 blockRun = .next t) ∧ (3#32 : Word).getLsbD 0 = true ∧ (3#32 : Word).getLsbD 1 = true
      ∧ ∃ t, hostWrites 0x00C 3#32 failedState = .next t :=
  ⟨⟨_, rfl⟩, by decide, by decide, _, rfl⟩

/-- A command runs, the host has raced the ends of the output region, and an instance runs that writes the second half
of the output region and reads what lies behind it. -/
def otherInstance : Rival where
  srcBase := 0x10100
  srcLen := 0x10
  dstBase := 0x10080
  dstCap := 0x80
def racedRun : State := { running 0x00 (stateOf []) with raced := [0x10000, 0x100FF], rivals := [otherInstance] }

/-- Addresses at the ends: of the register block, of the two regions, and of the regions of the other instance. -/
theorem witness_HostMemory :
    ((¬ inRegisterBlock State.reset 0#32) ∧ (¬ inRegisterBlock State.reset 0xFFFFBFFF#32) ∧ State.reset.phase ≠ .busy)
      ∧ (∀ a ∈ [0xFF, 0x104, 0xFFFF, 0x10100], (¬ inRegisterBlock blockRun (BitVec.ofNat 32 a)) ∧ blockRun.phase = .busy
        ∧ inSource blockRun (BitVec.ofNat 32 a : Word).toNat = false ∧ inOutput blockRun (BitVec.ofNat 32 a : Word).toNat = false)
      ∧ (∀ a ∈ [0x100, 0x103], (¬ inRegisterBlock blockRun (BitVec.ofNat 32 a)) ∧ inSource blockRun (BitVec.ofNat 32 a : Word).toNat = true
        ∧ inOutput blockRun (BitVec.ofNat 32 a : Word).toNat = false)
      ∧ (∀ a ∈ [0x10000, 0x100FF], (¬ inRegisterBlock racedRun (BitVec.ofNat 32 a)) ∧ racedRun.phase = .busy
        ∧ inOutput racedRun (BitVec.ofNat 32 a : Word).toNat = true ∧ (BitVec.ofNat 32 a : Word).toNat ∈ racedRun.raced ∧ racedRun.busErrors = false
        ∧ blockMoves racedRun = true)
      ∧ otherInstance ∈ racedRun.rivals ∧ clashes racedRun otherInstance = true
      ∧ (otherInstance.dstBase ≤ 0x10080 ∧ 0x100FF < otherInstance.dstBase + otherInstance.dstCap)
      ∧ (otherInstance.srcBase ≤ 0x10100 ∧ 0x1010F < otherInstance.srcBase + otherInstance.srcLen) := by
  unfold inRegisterBlock
  exact ⟨by decide, by decide, by decide, by decide, by decide, by decide, by decide, by decide⟩

theorem witness_HostMemory_step : ∃ t, step racedRun = .next t := ⟨_, rfl⟩

/-- A command that stores, one that touches no region, and an illegal word. -/
theorem witness_RacingRead :
    ∀ s ∈ [blockRun, running 0x00 (stateOf []), running 0x09 (stateOf []), racedRun],
      ((¬ inRegisterBlock s 0x10001#32) ∧ s.phase = .busy ∧ 0x10001 ∉ s.raced ∧ inOutput s 0x10001 = true)
        ∧ (¬ inRegisterBlock s 0x100FE#32) ∧ 0x100FE ∉ s.raced ∧ inOutput s 0x100FE = true := by
  unfold inRegisterBlock; decide

/-! ### Witnesses: resets and failures -/

theorem witness_HardwareReset : State.reset.phase ≠ .busy ∧ failedState.phase ≠ .busy := by decide

theorem witness_SoftReset : (1#32 : Word).getLsbD 0 = true ∧ (2#32 : Word).getLsbD 0 = false ∧ failedState.phase ≠ .busy := by
  decide

theorem witness_AbortedCommand :
    blockRun.phase = .busy ∧ blockRun.raced = [] ∧ ∃ t, stepWith .hwReset blockRun = .next t := ⟨rfl, rfl, _, rfl⟩

theorem witness_FailureEntry : Cause.illegalCmd ≠ .badFilterType ∧ Cause.busError ≠ .badFilterType := by decide

theorem witness_EveryCommandEnds : regionsPlain (stateOf [0x00]) = true := by decide

/-- The regions end at the top of the address space and touch (R95). -/
def edgeState : State :=
  { stateOf [] with
    srcBase := 0xE0000000#32
    srcLen := 0x1FFFFFFF#32
    dstBase := 0xFFFFFFFF#32
    dstCap := 1#32
    bitpos := 0xFFFFFFF8#32
    outpos := 1#32 }

/-- No condition of R95 holds of `edgeState`, and each of them holds of a state one step past the edge. -/
theorem witness_RegionCheck_pass :
    ¬ RegionFault true edgeState ∧ regionsPlain edgeState = true ∧ WellFormed (.readBits 0#5)
      ∧ checksRegions (.readBits 0#5) = some true ∧ checksRegions .zlibHeader = some false := by
  unfold RegionFault; decide
theorem witness_RegionCheck_srcLen : RegionFault false { edgeState with srcLen := 0x20000000#32 } := by
  unfold RegionFault; decide
theorem witness_RegionCheck_source : RegionFault false { stateOf [] with srcBase := 0xFFFFFFFF#32, srcLen := 2#32 } := by
  unfold RegionFault; decide
theorem witness_RegionCheck_output : RegionFault false { stateOf [] with dstBase := 0xFFFFFFFF#32, dstCap := 2#32 } := by
  unfold RegionFault; decide
theorem witness_RegionCheck_overlap : RegionFault false { stateOf [] with srcBase := 0x100FF#32, srcLen := 1#32 } := by
  unfold RegionFault; decide
theorem witness_RegionCheck_cursors :
    RegionFault true { edgeState with bitpos := 0xFFFFFFF9#32 } ∧ RegionFault true { edgeState with outpos := 2#32 } := by
  constructor <;> (unfold RegionFault; decide)

/-- A device behind the first source byte. -/
def deviceState : State := { stateOf [0xA5] with devices := [(0x100, 1)] }

theorem witness_SideEffectRegions :
    WellFormed .paeth ∧ WellFormed .inflateZlib ∧ checksRegions .inflateZlib = some false ∧ ¬ RegionFault false deviceState
      ∧ regionsPlain deviceState = false := by
  unfold RegionFault; decide

/-- The platform errs at reads of the second source byte. -/
def errState : State := { stateAt 4 [0xA5, 0x3C] with busErrors := true, errsRead := [0x101] }

/-- The platform errs at the write of byte 2 of the copy, and of byte 1 of line 1. -/
def errCopy : State := { copyState 5 3 with busErrors := true, errsWrite := [0x10005], errsRead := [0x10] }
def errLine : State :=
  { image 2 2 8 1 [0x00, 0x01, 0x02, 0x01, 0x01, 0x01] with busErrors := true, errsWrite := [0x10003], errsRead := [0x10] }

/-- The last bit of the read lies in the byte that errs; the first does so from bit 8 on; with merging, too. -/
theorem witness_BusError_readBits :
    ∀ s ∈ [errState, { errState with bitpos := 8#32 }, { errState with merges := true }],
      (5#5 : BitVec 5).toNat ≤ 16 ∧ Ready true s ∧ s.bitpos.toNat + (5#5 : BitVec 5).toNat ≤ 8 * s.srcLen.toNat
        ∧ s.busErrors = true ∧ 4 < (5#5 : BitVec 5).toNat ∧ s.srcBase.toNat + (s.bitpos.toNat + 4) / 8 ∈ s.errsRead := by
  decide

theorem witness_BusError_lzCopy :
    errCopy.busErrors = true ∧ errCopy.merges = false ∧ errCopy.raced = [] ∧ rivalsApart errCopy = true ∧ Ready true errCopy
      ∧ errCopy.arg0.toNat = 5 ∧ errCopy.arg1.toNat = 3 ∧ errCopy.arg1.toNat ≤ errCopy.outpos.toNat
      ∧ errCopy.outpos.toNat + errCopy.arg0.toNat ≤ errCopy.dstCap.toNat ∧ 2 < errCopy.arg0.toNat
      ∧ errCopy.dstBase.toNat + (errCopy.outpos.toNat + 2) ∈ errCopy.errsWrite
      ∧ (∀ k, k < 2 → errCopy.dstBase.toNat + (errCopy.outpos.toNat + k) ∉ errCopy.errsWrite)
      ∧ ∀ a ∈ errCopy.errsRead, inOutput errCopy a = false := by decide

theorem witness_BusError_unfilterLine :
    errLine.busErrors = true ∧ errLine.merges = false ∧ errLine.raced = [] ∧ rivalsApart errLine = true ∧ Ready false errLine
      ∧ geometryValid errLine ∧ errLine.arg0.toNat < errLine.unfHeight.toNat ∧ filterOf errLine errLine.arg0.toNat ≤ 4
      ∧ 1 < lbOf errLine ∧ errLine.dstBase.toNat + (errLine.arg0.toNat * lbOf errLine + 1) ∈ errLine.errsWrite
      ∧ (∀ k, k < 1 → errLine.dstBase.toNat + (errLine.arg0.toNat * lbOf errLine + k) ∉ errLine.errsWrite)
      ∧ ∀ a ∈ errLine.errsRead, inSource errLine a = false ∧ inOutput errLine a = false := by
  unfold geometryValid; decide +kernel

/-- The read errs at byte `r` and the write at byte `w` of a copy of 5 bytes from 3 back, with merged accesses. -/
def errMerged (r w : List Nat) : State :=
  { copyState 5 3 with busErrors := true, merges := true, errsRead := r, errsWrite := w }

/-- By R100: one wider access is one contiguous range, so a gap ends it. -/
theorem test_accessRange :
    lowest [10, 12, 11, 11, 8] 5 12 = 10 ∧ highest [10, 12, 11, 11, 14] 5 10 = 12 ∧ lowest [0, 1] 2 1 = 0 := by decide

/-- By R306: the byte of a pixel decides no step, so all accesses of the line follow whatever it is; the filter byte
decides whether any follows. -/
theorem test_accessesWith :
    (commonPrefix (accessesWith lineOf { errLine with errsRead := [0x105, 0x10001], errsWrite := [] } (some 0#8))
        (accessesWith lineOf { errLine with errsRead := [0x105, 0x10001], errsWrite := [] } (some 255#8))).map
          (fun x => (x.addr, x.errs))
        = [(0x103, false), (0x104, false), (0x10000, false), (0x10002, false), (0x105, true), (0x10002, false),
          (0x10001, true), (0x10000, false), (0x10003, false)]
      ∧ commonPrefix (accessesWith lineOf { errLine with errsRead := [0x103], errsWrite := [] } (some 0#8))
          (accessesWith lineOf { errLine with errsRead := [0x103], errsWrite := [] } (some 255#8))
        = [⟨false, 0x103, true⟩] := by
  decide +kernel

/-- The first and the last byte read, and the first and the last byte written. -/
theorem witness_BusError_lzCopy_merged :
    ∀ x ∈ [(errMerged [0x10000] [], 0), (errMerged [0x10002] [0x10004], 2), (errMerged [] [0x10003], 0),
        (errMerged [] [0x10007], 4)],
      x.1.busErrors = true ∧ Ready true x.1 ∧ 3 ≤ x.1.arg0.toNat ∧ x.1.arg0.toNat ≤ 258 ∧ 1 ≤ x.1.arg1.toNat
        ∧ x.1.arg1.toNat ≤ 32768 ∧ x.1.arg1.toNat ≤ x.1.outpos.toNat
        ∧ x.1.outpos.toNat + x.1.arg0.toNat ≤ x.1.dstCap.toNat ∧ x.2 < x.1.arg0.toNat
        ∧ (x.1.dstBase.toNat + (x.1.outpos.toNat - x.1.arg1.toNat + x.2 % x.1.arg1.toNat) ∈ x.1.errsRead
          ∨ x.1.dstBase.toNat + (x.1.outpos.toNat + x.2) ∈ x.1.errsWrite) := by decide

/-- A source in ROM, at the end of which the read ends, and reads that err just outside the source and in the output. -/
def romState : State :=
  { stateAt 4 [0xA5, 0x3C] with busErrors := true, errsRead := [0xFF, 0x102, 0x10000], errsWrite := [0x100, 0x101] }

/-- A source in ROM that errs at reads, too; reads that err just outside the bytes the copy reads, and writes that err
just outside those it writes. -/
def romCopy (length : Nat) : State :=
  { copyState length 3 with
    srcLen := 1#32
    busErrors := true
    errsRead := [0x100, 0xFFFF, 0x10003]
    errsWrite := [0x100, 0x10000, 0x10002, 0x10003 + length] }

theorem witness_BusError_readBits_completes :
    ∀ s ∈ [romState, { romState with merges := true }],
      s.busErrors = true ∧ s.raced = [] ∧ rivalsApart s = true ∧ (12#5 : BitVec 5).toNat ≤ 16 ∧ Ready true s
        ∧ s.bitpos.toNat + (12#5 : BitVec 5).toNat = 8 * s.srcLen.toNat
        ∧ ∀ i, i < (12#5 : BitVec 5).toNat → s.srcBase.toNat + (s.bitpos.toNat + i) / 8 ∉ s.errsRead := by
  decide

theorem witness_BusError_lzCopy_completes :
    ∀ s ∈ [romCopy 5, romCopy 13, { romCopy 13 with merges := true }],
      s.busErrors = true ∧ s.raced = [] ∧ rivalsApart s = true ∧ Ready true s ∧ 3 ≤ s.arg0.toNat ∧ s.arg0.toNat ≤ 258 ∧ 1 ≤ s.arg1.toNat ∧ s.arg1.toNat ≤ 32768
        ∧ s.arg1.toNat ≤ s.outpos.toNat ∧ s.outpos.toNat + s.arg0.toNat ≤ s.dstCap.toNat
        ∧ ∀ k, k < s.arg0.toNat →
          s.dstBase.toNat + (s.outpos.toNat - s.arg1.toNat + k % s.arg1.toNat) ∉ s.errsRead
            ∧ s.dstBase.toNat + (s.outpos.toNat + k) ∉ s.errsWrite := by decide

/-- By R344: the two bytes before the erring one are copied, that one is as it was, and the cursors are its step's; errors
at bytes that no access reaches change nothing, with merged accesses, too. -/
theorem test_busError :
    after errCopy 0x00000005 (fun t => failsAt 27 0 5 t && output 6 t == [0x61, 0x62, 0x63, 0x61, 0x62, 0])
      && after errLine 0x00000011 (fun t => failsAt 27 0 0 t && output 4 t == [0, 0, 1, 0])
      && after { romCopy 5 with merges := true } 0x00000005
        (fun t => t.phase == .idle && output 8 t == [0x61, 0x62, 0x63, 0x61, 0x62, 0x63, 0x61, 0x62])
      && after romState 0x000C0001 (fun t => t.phase == .idle && t.result == 0x3CA#32) := by decide +kernel

/-! ### Witnesses: the leaf commands -/

theorem witness_NopCompletes :
    (blockMoves (running 0 (stateOf [])) = true ∧ (running 0 (stateOf [])).raced = [] ∧ (running 0 (stateOf [])).cmd.toNat % 256 = 0)
      ∧ (blockMoves (running 0x100 (stateOf [])) = true ∧ (running 0x100 (stateOf [])).raced = []
        ∧ (running 0x100 (stateOf [])).cmd.toNat % 256 = 0)
      ∧ failedState.phase = .failed := by decide

theorem witness_ReadBits :
    Ready true (stateAt 4 [0xA5, 0x3C, 0x0F]) ∧ Quiet (stateAt 4 [0xA5, 0x3C, 0x0F])
      ∧ (stateAt 4 [0xA5, 0x3C, 0x0F]).bitpos.toNat + (16#5 : BitVec 5).toNat ≤ 8 * (stateAt 4 [0xA5, 0x3C, 0x0F]).srcLen.toNat
      ∧ (16#5 : BitVec 5).toNat ≤ 16
      ∧ Ready true (stateAt 8 [0xA5]) ∧ (1#5 : BitVec 5).toNat ≤ 16
      ∧ 8 * (stateAt 8 [0xA5]).srcLen.toNat < (stateAt 8 [0xA5]).bitpos.toNat + (1#5 : BitVec 5).toNat
      ∧ 16 < (17#5 : BitVec 5).toNat := by decide +kernel

/-- `BUILD_TREE` rows of L2.3: all lengths 0; `[5] = 1`; and `[0..3] = 2, 1, 3, 3`. -/
theorem witness_BuildTree :
    buildTree ((State.reset.lenram.take 288).map BitVec.toNat) 288 15 = .ok (List.replicate 576 0)
      ∧ buildTree (((withLengths [0, 0, 0, 0, 0, 1] State.reset).lenram.take 32).map BitVec.toNat) 32 15
        = .ok (5 :: List.replicate 63 0)
      ∧ buildTree (((withLengths [2, 1, 3, 3] State.reset).lenram.take 19).map BitVec.toNat) 19 7
        = .ok ([1, 20, 0, 21, 2, 3] ++ List.replicate 32 0)
      ∧ 288 ≤ (withLengths [2, 1, 3, 3] State.reset).lenram.length := by decide +kernel

/-- Rows of L2.3: a length of 8 in the code-length tree; three codes of length 1; two, which are complete; and 17 codes
of length 7, which do not exceed the sum. -/
theorem witness_BuildOutcome :
    (∃ l ∈ lenramLengths 19 (withLengths [8] State.reset), maxbitlen .cl < l)
      ∧ ((∀ l ∈ lenramLengths 19 (withLengths [1, 1, 1] State.reset), l ≤ maxbitlen .cl)
        ∧ 2 ^ maxbitlen .cl < usedWeight (lenramLengths 19 (withLengths [1, 1, 1] State.reset)) (maxbitlen .cl))
      ∧ ((∀ l ∈ lenramLengths 19 (withLengths [1, 1] State.reset), l ≤ maxbitlen .cl)
        ∧ usedWeight (lenramLengths 19 (withLengths [1, 1] State.reset)) (maxbitlen .cl) = 2 ^ maxbitlen .cl)
      ∧ ((∀ l ∈ lenramLengths 19 (withLengths (List.replicate 17 7) State.reset), l ≤ maxbitlen .cl)
        ∧ usedWeight (lenramLengths 19 (withLengths (List.replicate 17 7) State.reset)) (maxbitlen .cl) ≤ 2 ^ maxbitlen .cl)
      ∧ 288 ≤ (withLengths [8] State.reset).lenram.length := by decide +kernel

theorem witness_BuildFailure :
    buildTree (lenramLengths 288 (withLengths [1, 1, 1] State.reset)) 288 15 = .error .oversubscribed
      ∧ buildTree (lenramLengths 32 (withLengths [1, 1, 1] State.reset)) 32 15 = .error .oversubscribed
      ∧ buildTree (lenramLengths 19 (withLengths (List.replicate 17 7) State.reset)) 19 7 = .error .treeNodesExhausted := by
  decide +kernel

/-- The tree entries of a table that is all in range. -/
theorem ramEntry_le {l : List (BitVec 10)} {b : Nat} (h : (l.all fun v => decide (v.toNat ≤ b)) = true) (j : Nat) :
    (l.getD j 0#10).toNat ≤ b := by
  rw [List.getD_eq_getElem?_getD]
  by_cases hj : j < l.length
  · rw [List.getElem?_eq_getElem hj]
    exact of_decide_eq_true (List.all_eq_true.1 h _ (List.getElem_mem hj))
  · simp [List.getElem?_eq_none (Nat.le_of_not_lt hj)]

theorem treesInRange_treesState : TreesInRange treesState := by
  intro t j _
  cases t with
  | ll => exact ramEntry_le (l := treesState.treeLL) (b := 574) (by decide +kernel) j
  | d => exact ramEntry_le (l := treesState.treeD) (b := 62) (by decide +kernel) j
  | cl => exact ramEntry_le (l := treesState.treeCL) (b := 36) (by decide +kernel) j

theorem witness_DecodeSymbol :
    (Ready true (stateOf [0x00]) ∧ treeBuilt (.ram .ll) (stateOf [0x00]) = false)
      ∧ Ready true treesState ∧ treeBuilt (.ram .cl) treesState = true ∧ treeBuilt .fixedD treesState = true
      ∧ Quiet treesState ∧ TreesInRange treesState :=
  ⟨by decide, by decide, by decide, by decide, by decide, treesInRange_treesState⟩

/-- The code lengths of L1.1. -/
def fourLengths : List Nat := [2, 1, 3, 3] ++ List.replicate 15 0

/-- L1.1: symbol 3 has the code `111`, which stands at the start of `D7 00`. -/
theorem witness_CanonicalCodesDecode :
    Ready true treesState ∧ Quiet treesState ∧ fourLengths.length = numcodes .cl
      ∧ buildTree fourLengths (numcodes .cl) (maxbitlen .cl) = .ok ([1, 20, 0, 21, 2, 3] ++ List.replicate 32 0)
      ∧ tableAt (.ram .cl) treesState = [1, 20, 0, 21, 2, 3] ++ List.replicate 32 0 ∧ valid .cl treesState = true
      ∧ 3 < fourLengths.length ∧ fourLengths.getD 3 0 ≠ 0 ∧ canonicalCode fourLengths 3 = 0b111
      ∧ codeAt treesState treesState.bitpos.toNat (canonicalCode fourLengths 3) (fourLengths.getD 3 0)
      ∧ treesState.bitpos.toNat + fourLengths.getD 3 0 ≤ 8 * treesState.srcLen.toNat := by
  unfold codeAt; decide +kernel

/-- Rows of L2.4, and the last code of each row of R143 that they leave out: `10111111` (symbol 143) and `0010111`
(symbol 279). -/
theorem witness_FixedCodes :
    (Ready true (stateOf [0xFD]) ∧ Quiet (stateOf [0xFD]) ∧ codeAt (stateOf [0xFD]) 0 (0b00110000 + 143) 8)
      ∧ (Ready true (stateOf [0xFF, 0x01]) ∧ codeAt (stateOf [0xFF, 0x01]) 0 (0b110010000 + (255 - 144)) 9)
      ∧ (Ready true (stateOf [0x74]) ∧ codeAt (stateOf [0x74]) 0 (279 - 256) 7)
      ∧ (Ready true (stateOf [0xE3]) ∧ codeAt (stateOf [0xE3]) 0 (0b11000000 + (287 - 280)) 8)
      ∧ (Ready true (stateOf [0x1F]) ∧ codeAt (stateOf [0x1F]) 0 31 5)
      ∧ (stateOf [0xFD]).bitpos.toNat = 0 ∧ 0 + 8 ≤ 8 * (stateOf [0xFD]).srcLen.toNat := by
  unfold codeAt; decide +kernel

/-- `TREE_D` built from `[5] = 1`, and from no lengths (L2.3, L2.4). -/
def oneCode : State := { stateOf [0x01] with treeD := 5#10 :: List.replicate 63 0#10, dValid := true }
def noCode : State := { stateOf [0x00] with dValid := true }

/-- Rows of L2.4: `01` under the first tree, `00` under the second. -/
theorem witness_UnresolvedSlots :
    (Ready true oneCode ∧ Quiet oneCode ∧ buildTree ((List.replicate 32 0).set 5 1) 32 15 = .ok (5 :: List.replicate 63 0)
        ∧ tableAt (.ram .d) oneCode = 5 :: List.replicate 63 0 ∧ oneCode.dValid = true
        ∧ oneCode.bitpos.toNat < 8 * oneCode.srcLen.toNat ∧ bitAt oneCode oneCode.bitpos.toNat = 1)
      ∧ (Ready true noCode ∧ Quiet noCode ∧ buildTree (List.replicate 32 0) 32 15 = .ok (List.replicate 64 0)
        ∧ tableAt (.ram .d) noCode = List.replicate 64 0 ∧ noCode.dValid = true
        ∧ noCode.bitpos.toNat < 8 * noCode.srcLen.toNat) := by
  decide +kernel

/-! ### Witnesses: dynamic trees -/

/-- The tables of the header of R241: code-length symbols 18, 0 and 1, literal/length symbols 65 and 256, no distance. -/
def dynTables : DynTables where
  cl := [18, 20, 0, 1] ++ List.replicate 34 0
  ll := [65, 256] ++ List.replicate 574 0
  d := List.replicate 64 0

/-- The combined lengths of R241: 65 and 256 have length 1. -/
def dynLengths : List Nat := List.replicate 65 0 ++ [1] ++ List.replicate 190 0 ++ [1] ++ [0]

theorem dynTreesAt_dynSource : dynTreesAt (stateOf dynSource) dynTables 3 101 :=
  ⟨257, 1, 18, [18, 1, 18, 18, 1, 0], dynLengths, by decide +kernel, by decide +kernel, by decide +kernel, by decide +kernel,
    by decide +kernel,
    ⟨72, by decide +kernel, by decide, by decide, by decide +kernel,
      81, by decide +kernel, by decide, by decide, by decide +kernel,
      82, by decide +kernel, by decide, by decide, by decide +kernel,
      90, by decide +kernel, by decide, by decide, by decide +kernel,
      99, by decide +kernel, by decide, by decide, by decide +kernel,
      101, by decide +kernel, by decide, by decide, by decide +kernel, by decide +kernel, by decide +kernel⟩,
    by decide +kernel, by decide +kernel, by decide +kernel, by decide +kernel⟩

theorem witness_ReadDynTrees :
    Ready true (stateAt 3 dynSource) ∧ Quiet (stateAt 3 dynSource)
      ∧ dynTreesAt (stateAt 3 dynSource) dynTables (stateAt 3 dynSource).bitpos.toNat 101 :=
  ⟨by decide, by decide, by
    rw [show (stateAt 3 dynSource).bitpos.toNat = 3 by decide]
    exact dynTreesAt_congr (s := stateOf dynSource) (t := stateAt 3 dynSource) ⟨rfl, rfl, fun _ _ => rfl⟩ dynTreesAt_dynSource⟩

/-- The code-length tables of L2.5: 16 is `0`, 0 is `10`, 18 is `11`; and 18 is `0`, 0 is `10`, 1 is `11`. -/
def rowTable : List Nat := [16, 20, 0, 18] ++ List.replicate 34 0
def clTable : List Nat := [18, 20, 0, 1] ++ List.replicate 34 0

/-- The dynamic header of `src` stands at bit 3 and fails so. -/
def dynFailsAt (src : List Nat) (c : Cause) (q : Nat) (k : TreeStage) : Prop :=
  Ready true (stateAt 3 src) ∧ Quiet (stateAt 3 src) ∧ dynFails (stateAt 3 src) 3 c q k

/-- The first row of L2.5 truncated to 5 bytes: the eighth code length, at 38, does not fit. And a source of one byte,
where the first field does not. -/
theorem witness_ReadDynTreesFails_fields :
    dynFailsAt [0x05, 0xC0, 0x81, 0x08, 0x00] .bitsExhausted 38 .kept
      ∧ Ready true (stateAt 4 [0xA5]) ∧ dynFails (stateAt 4 [0xA5]) 4 .bitsExhausted 4 .kept :=
  ⟨⟨by decide, by decide, 35, 3, .inr (.inr (.inr ⟨7, by decide +kernel, rfl, rfl⟩)), by decide, by decide, rfl, rfl⟩,
    by decide, 0, 5, .inl ⟨rfl, rfl⟩, by decide, by decide, rfl, rfl⟩

/-- The row whose code-length tree is oversubscribed. -/
theorem witness_ReadDynTreesFails_cl : dynFailsAt [0x05, 0x00, 0x92, 0x00, 0x00] .oversubscribed 29 .clFailed :=
  ⟨by decide, by decide, ⟨by decide +kernel, by decide +kernel⟩, by decide +kernel⟩

/-- The run-length loop: a repeat code that comes first, extra bits that run out, a code that does, and a run past the
end. The second and the third are the first row cut short with another code. -/
theorem witness_ReadDynTreesFails_loop :
    dynFailsAt [0x05, 0x00, 0x02, 0x09] .repeatNoPrevious 30 (.cl rowTable)
      ∧ dynFailsAt [0x05, 0x00, 0x02, 0x69] .bitsExhausted 31 (.cl rowTable)
      ∧ dynFailsAt [0x05, 0x00, 0x02, 0xA9] .symbolExhausted 32 (.cl rowTable)
      ∧ dynFailsAt [0x05, 0x00, 0x02, 0xE9, 0xFF, 0x7F] .repeatOverflow 47 (.cl rowTable) :=
  ⟨⟨by decide, by decide, ⟨by decide +kernel, by decide +kernel⟩, [], 29, ⟨[], rfl, by decide +kernel⟩,
      .inl ⟨by decide +kernel, .inr ⟨16, 30, by decide +kernel, .inl ⟨rfl, rfl, rfl, rfl⟩⟩⟩⟩,
    ⟨by decide, by decide, ⟨by decide +kernel, by decide +kernel⟩, [], 29, ⟨[], rfl, by decide +kernel⟩,
      .inl ⟨by decide +kernel, .inr ⟨18, 31, by decide +kernel, .inr (.inl ⟨by decide, by decide +kernel, rfl, rfl⟩)⟩⟩⟩,
    ⟨by decide, by decide, ⟨by decide +kernel, by decide +kernel⟩, [0], 31,
      ⟨[0], 31, by decide +kernel, by decide, by decide, by decide +kernel, by decide +kernel, by decide +kernel⟩,
      .inl ⟨by decide +kernel, .inl ⟨by decide +kernel, rfl, by decide +kernel⟩⟩⟩,
    ⟨by decide, by decide, ⟨by decide +kernel, by decide +kernel⟩, List.replicate 138 0, 38,
      ⟨[18], 31, by decide +kernel, by decide, by decide, by decide +kernel, by decide +kernel, by decide +kernel⟩,
      .inl ⟨by decide +kernel, .inr ⟨18, 40, by decide +kernel,
        .inr (.inr ⟨by decide, by decide +kernel, by decide +kernel, rfl, by decide +kernel⟩)⟩⟩⟩⟩

/-- The row with no end-of-block code. -/
theorem witness_ReadDynTreesFails_noEnd : dynFailsAt [0x05, 0x00, 0x02, 0xE9, 0xFF, 0x6D] .noEndCode 47 (.cl rowTable) :=
  ⟨by decide, by decide, ⟨by decide +kernel, by decide +kernel⟩, List.replicate 258 0, 47,
    ⟨[18, 18], 31, by decide +kernel, by decide, by decide, by decide +kernel,
      40, by decide +kernel, by decide, by decide, by decide +kernel, by decide +kernel, by decide +kernel⟩,
    .inr ⟨by decide +kernel, by decide +kernel, rfl, rfl⟩⟩

/-- The row whose literal/length tree is oversubscribed, and the header of R241 with three distance codes of length 1. -/
theorem witness_ReadDynTreesFails_trees :
    dynFailsAt [0x05, 0xC0, 0x81, 0x08, 0x00, 0x00, 0x00, 0x00, 0xA0, 0xF7, 0x97, 0x3E] .oversubscribed 95 (.llFailed clTable)
      ∧ dynFailsAt [0x05, 0xC2, 0x81, 0x08, 0x00, 0x00, 0x00, 0x00, 0x20, 0xB6, 0xFD, 0xA5, 0xFE, 0x01] .oversubscribed 105
        (.dFailed clTable ([65, 256] ++ List.replicate 574 0)) :=
  ⟨⟨by decide, by decide, ⟨by decide +kernel, by decide +kernel⟩, [1, 1] ++ List.replicate 254 0 ++ [1, 0],
      ⟨[1, 1, 18, 18, 1, 0], 73, by decide +kernel, by decide, by decide, by decide +kernel,
        75, by decide +kernel, by decide, by decide, by decide +kernel,
        76, by decide +kernel, by decide, by decide, by decide +kernel,
        84, by decide +kernel, by decide, by decide, by decide +kernel,
        93, by decide +kernel, by decide, by decide, by decide +kernel,
        95, by decide +kernel, by decide, by decide, by decide +kernel, by decide +kernel, by decide +kernel⟩,
      by decide +kernel, by decide +kernel, by decide +kernel⟩,
    ⟨by decide, by decide, ⟨by decide +kernel, by decide +kernel⟩,
      List.replicate 65 0 ++ [1] ++ List.replicate 190 0 ++ [1, 1, 1, 1],
      ⟨[18, 1, 18, 18, 1, 1, 1, 1], 72, by decide +kernel, by decide, by decide, by decide +kernel,
        81, by decide +kernel, by decide, by decide, by decide +kernel,
        82, by decide +kernel, by decide, by decide, by decide +kernel,
        90, by decide +kernel, by decide, by decide, by decide +kernel,
        99, by decide +kernel, by decide, by decide, by decide +kernel,
        101, by decide +kernel, by decide, by decide, by decide +kernel,
        103, by decide +kernel, by decide, by decide, by decide +kernel,
        105, by decide +kernel, by decide, by decide, by decide +kernel, by decide +kernel, by decide +kernel⟩,
      by decide +kernel, by decide +kernel, by decide +kernel, by decide +kernel⟩⟩

/-! ### Witnesses: copies and blocks -/

/-- Rows of L2.6, and the ends of the ranges of R262. -/
theorem witness_LzCopy :
    (∀ s ∈ [copyState 2 1, copyState 259 1, copyState 3 0, copyState 3 32769], Ready true s ∧ Quiet s
        ∧ ¬ (3 ≤ s.arg0.toNat ∧ s.arg0.toNat ≤ 258 ∧ 1 ≤ s.arg1.toNat ∧ s.arg1.toNat ≤ 32768))
      ∧ (∀ s ∈ [copyState 3 4, copyState 258 32768], Ready true s ∧ Quiet s ∧ 3 ≤ s.arg0.toNat ∧ s.arg0.toNat ≤ 258
        ∧ 1 ≤ s.arg1.toNat ∧ s.arg1.toNat ≤ 32768 ∧ s.outpos.toNat < s.arg1.toNat)
      ∧ (∀ s ∈ [copyState 14 3, copyState 258 1], Ready true s ∧ Quiet s ∧ 3 ≤ s.arg0.toNat ∧ s.arg0.toNat ≤ 258
        ∧ 1 ≤ s.arg1.toNat ∧ s.arg1.toNat ≤ 32768 ∧ s.arg1.toNat ≤ s.outpos.toNat
        ∧ s.dstCap.toNat < s.outpos.toNat + s.arg0.toNat)
      ∧ (∀ s ∈ [copyState 13 3, copyState 3 1], Ready true s ∧ Quiet s ∧ 3 ≤ s.arg0.toNat ∧ s.arg0.toNat ≤ 258
        ∧ 1 ≤ s.arg1.toNat ∧ s.arg1.toNat ≤ 32768 ∧ s.arg1.toNat ≤ s.outpos.toNat
        ∧ s.outpos.toNat + s.arg0.toNat ≤ s.dstCap.toNat) := by decide +kernel

theorem witness_BlockHeader :
    (Ready true (stateAt 8 [0x07]) ∧ Quiet (stateAt 8 [0x07])
        ∧ 8 * (stateAt 8 [0x07]).srcLen.toNat < (stateAt 8 [0x07]).bitpos.toNat + 1)
      ∧ (Ready true (stateAt 6 [0x07]) ∧ (stateAt 6 [0x07]).bitpos.toNat + 1 ≤ 8 * (stateAt 6 [0x07]).srcLen.toNat
        ∧ 8 * (stateAt 6 [0x07]).srcLen.toNat < (stateAt 6 [0x07]).bitpos.toNat + 3)
      ∧ (Ready true (stateAt 0 [0x07]) ∧ Quiet (stateAt 0 [0x07])
        ∧ (stateAt 0 [0x07]).bitpos.toNat + 3 ≤ 8 * (stateAt 0 [0x07]).srcLen.toNat
        ∧ fieldAt (stateAt 0 [0x07]) ((stateAt 0 [0x07]).bitpos.toNat + 1) 2 = 3) := by decide +kernel

/-- The rows of L1.3 and L2.7: `LEN` bytes missing, a bad `NLEN`, data missing, output full, and a block that is
copied. -/
theorem witness_StoredBlock :
    (∀ s ∈ [stateOf [0x01, 0x00, 0x00, 0xFF], stateOf [0x01, 0x03, 0x00, 0xFE, 0xFF, 0x41, 0x42, 0x43],
        stateOf [0x01, 0x01, 0x00, 0xFE, 0xFF], { stateOf [0x01, 0x03, 0x00, 0xFC, 0xFF, 0x41, 0x42, 0x43] with dstCap := 2#32 },
        stateOf [0x01, 0x03, 0x00, 0xFC, 0xFF, 0x41, 0x42, 0x43]],
        Ready true s ∧ Quiet s ∧ s.bitpos.toNat + 3 ≤ 8 * s.srcLen.toNat ∧ fieldAt s (s.bitpos.toNat + 1) 2 = 0
          ∧ (s.bitpos.toNat + 3 + 7) / 8 = 1)
      ∧ (stateOf [0x01, 0x00, 0x00, 0xFF]).srcLen.toNat < 1 + 4
      ∧ (let s := stateOf [0x01, 0x03, 0x00, 0xFE, 0xFF, 0x41, 0x42, 0x43]
        1 + 4 ≤ s.srcLen.toNat ∧ halfAt s 1 + halfAt s 3 ≠ 0xFFFF)
      ∧ (let s := stateOf [0x01, 0x01, 0x00, 0xFE, 0xFF]
        1 + 4 ≤ s.srcLen.toNat ∧ halfAt s 1 + halfAt s 3 = 0xFFFF ∧ s.srcLen.toNat < 1 + 4 + halfAt s 1)
      ∧ (let s := { stateOf [0x01, 0x03, 0x00, 0xFC, 0xFF, 0x41, 0x42, 0x43] with dstCap := 2#32 }
        1 + 4 ≤ s.srcLen.toNat ∧ halfAt s 1 + halfAt s 3 = 0xFFFF ∧ 1 + 4 + halfAt s 1 ≤ s.srcLen.toNat
          ∧ s.dstCap.toNat < s.outpos.toNat + halfAt s 1)
      ∧ (let s := stateOf [0x01, 0x03, 0x00, 0xFC, 0xFF, 0x41, 0x42, 0x43]
        1 + 4 ≤ s.srcLen.toNat ∧ halfAt s 1 + halfAt s 3 = 0xFFFF ∧ 1 + 4 + halfAt s 1 ≤ s.srcLen.toNat
          ∧ s.outpos.toNat + halfAt s 1 ≤ s.dstCap.toNat) := by decide +kernel

/-- The block of `s` at its cursor fails so. -/
def blockFailsAt (s : State) (f : BlockFailure) : Prop :=
  Ready true s ∧ Quiet s ∧ blockFails s s.dstCap.toNat (outSoFar s) s.bitpos.toNat f

/-- The header does not fit in either field, and has type 3 (L2.7). -/
theorem witness_BlockFails_header :
    blockFailsAt (stateAt 8 [0x07]) ⟨.bitsExhausted, 8, [], none, .kept⟩
      ∧ blockFailsAt (stateAt 6 [0x07]) ⟨.bitsExhausted, 7, [], none, .kept⟩
      ∧ blockFailsAt (stateOf [0x07]) ⟨.badBtype, 3, [], some (true, 3), .kept⟩ := by
  unfold blockFailsAt blockFails bodyFails
  exact ⟨⟨by decide, by decide, rfl, by decide, rfl, .inl (by decide)⟩,
    ⟨by decide, by decide, rfl, by decide, rfl, .inr (by decide)⟩,
    ⟨by decide, by decide, by decide, by decide +kernel, by decide +kernel, .inr (.inr (.inr (.inr (by decide))))⟩⟩

/-- Rows of L2.7 and L1.3: a stored block with its `LEN` bytes missing, a bad `NLEN`, data missing, and no room. -/
theorem witness_BlockFails_stored :
    blockFailsAt (stateOf [0x01, 0x00, 0x00, 0xFF]) ⟨.storedInput, 8, [], some (true, 0), .kept⟩
      ∧ blockFailsAt (stateOf [0x01, 0x03, 0x00, 0xFE, 0xFF, 0x41, 0x42, 0x43]) ⟨.storedNlen, 8, [], some (true, 0), .kept⟩
      ∧ blockFailsAt (stateOf [0x01, 0x01, 0x00, 0xFE, 0xFF]) ⟨.storedInput, 8, [], some (true, 0), .kept⟩
      ∧ blockFailsAt { stateOf [0x01, 0x03, 0x00, 0xFC, 0xFF, 0x41, 0x42, 0x43] with outpos := 4#32, dstCap := 6#32 }
        ⟨.outputFull, 8, [0#8, 0#8, 0#8, 0#8], some (true, 0), .kept⟩ := by
  unfold blockFailsAt blockFails bodyFails storedFails
  exact ⟨⟨by decide, by decide, by decide, by decide +kernel, by decide +kernel, .inl (by decide +kernel)⟩,
    ⟨by decide, by decide, by decide, by decide +kernel, by decide +kernel, .inl (by decide +kernel)⟩,
    ⟨by decide, by decide, by decide, by decide +kernel, by decide +kernel, .inl (by decide +kernel)⟩,
    ⟨by decide, by decide, by decide, by decide +kernel, by decide +kernel, .inl (by decide +kernel)⟩⟩

/-- At the first symbol of a fixed block (L2.7): the source ends, a literal meets a full output, symbol 286, distance
symbol 30, and a distance before the start. -/
theorem witness_BlockFails_first :
    blockFailsAt (stateOf [0x03]) ⟨.symbolExhausted, 8, [], some (true, 1), .kept⟩
      ∧ blockFailsAt { stateOf [0x4B, 0x04] with dstCap := 0#32 } ⟨.outputFull, 11, [], some (true, 1), .kept⟩
      ∧ blockFailsAt (stateOf [0x1B, 0x03]) ⟨.badLitlenSymbol, 11, [], some (true, 1), .kept⟩
      ∧ blockFailsAt (stateOf [0x03, 0x3E]) ⟨.badDistSymbol, 15, [], some (true, 1), .kept⟩
      ∧ blockFailsAt (stateOf [0x03, 0x02]) ⟨.distTooFar, 15, [], some (true, 1), .kept⟩ :=
  ⟨⟨by decide, by decide, by decide, by decide +kernel, by decide +kernel, .inr (.inl ⟨rfl, rfl, [], 3, rfl, trivial, rfl,
      .inl ⟨by decide +kernel, rfl, by decide +kernel⟩⟩)⟩,
    ⟨by decide, by decide, by decide, by decide +kernel, by decide +kernel, .inr (.inl ⟨rfl, rfl, [], 3, rfl, trivial, rfl,
      .inr ⟨0x61, 11, by decide +kernel, .inl ⟨by decide, by decide, rfl, rfl⟩⟩⟩)⟩,
    ⟨by decide, by decide, by decide, by decide +kernel, by decide +kernel, .inr (.inl ⟨rfl, rfl, [], 3, rfl, trivial, rfl,
      .inr ⟨286, 11, by decide +kernel, .inr (.inl ⟨by decide, rfl, rfl⟩)⟩⟩)⟩,
    ⟨by decide, by decide, by decide, by decide +kernel, by decide +kernel, .inr (.inl ⟨rfl, rfl, [], 3, rfl, trivial, rfl,
      .inr ⟨257, 10, by decide +kernel, .inr (.inr ⟨by decide, by decide, .inr (.inr ⟨30, 15, by decide +kernel,
        .inl ⟨by decide, rfl, rfl⟩⟩)⟩)⟩⟩)⟩,
    ⟨by decide, by decide, by decide, by decide +kernel, by decide +kernel, .inr (.inl ⟨rfl, rfl, [], 3, rfl, trivial, rfl,
      .inr ⟨257, 10, by decide +kernel, .inr (.inr ⟨by decide, by decide, .inr (.inr ⟨0, 15, by decide +kernel,
        .inr (.inr ⟨by decide, by decide +kernel, by decide +kernel, .inl ⟨by decide +kernel, rfl⟩⟩)⟩)⟩)⟩⟩)⟩⟩

/-- Behind some tokens: the rows `4B 04 12` and `4B 4C 02 42 00` of L2.7; the first with distance symbol 6, whose two
extra bits do not fit; literal 144 and then symbol 281, whose five do not; and symbol 280 with one bit of a distance code
left. -/
theorem witness_BlockFails_tokens :
    blockFailsAt (stateOf [0x4B, 0x04, 0x12]) ⟨.distTooFar, 24, [0x61#8], some (true, 1), .kept⟩
      ∧ blockFailsAt { stateOf [0x4B, 0x4C, 0x02, 0x42, 0x00] with dstCap := 4#32 }
        ⟨.outputFull, 31, [0x61#8, 0x62#8], some (true, 1), .kept⟩
      ∧ blockFailsAt (stateOf [0x4B, 0x04, 0x32]) ⟨.bitsExhausted, 23, [0x61#8], some (true, 1), .kept⟩
      ∧ blockFailsAt (stateOf [0x9B, 0x30, 0x08]) ⟨.bitsExhausted, 20, [144#8], some (true, 1), .kept⟩
      ∧ blockFailsAt (stateOf [0x1B, 0x00]) ⟨.symbolExhausted, 16, [], some (true, 1), .kept⟩ :=
  ⟨⟨by decide, by decide, by decide, by decide +kernel, by decide +kernel, .inr (.inl ⟨rfl, rfl, [.literal 0x61], 11,
      ⟨11, ⟨by decide, by decide +kernel⟩, rfl⟩, ⟨(by decide : 0 < 0x100), trivial⟩, by decide +kernel,
      .inr ⟨257, 18, by decide +kernel, .inr (.inr ⟨by decide, by decide, .inr (.inr ⟨4, 23, by decide +kernel,
        .inr (.inr ⟨by decide, by decide +kernel, by decide +kernel, .inl ⟨by decide +kernel, rfl⟩⟩)⟩)⟩)⟩⟩)⟩,
    ⟨by decide, by decide, by decide, by decide +kernel, by decide +kernel, .inr (.inl ⟨rfl, rfl,
      [.literal 0x61, .literal 0x62], 19, ⟨11, ⟨by decide, by decide +kernel⟩, 19, ⟨by decide, by decide +kernel⟩, rfl⟩,
      ⟨(by decide : 0 < 4), (by decide : 1 < 4), trivial⟩, by decide +kernel,
      .inr ⟨257, 26, by decide +kernel, .inr (.inr ⟨by decide, by decide, .inr (.inr ⟨1, 31, by decide +kernel,
        .inr (.inr ⟨by decide, by decide +kernel, by decide +kernel,
          .inr ⟨by decide +kernel, by decide +kernel, rfl⟩⟩)⟩)⟩)⟩⟩)⟩,
    ⟨by decide, by decide, by decide, by decide +kernel, by decide +kernel, .inr (.inl ⟨rfl, rfl, [.literal 0x61], 11,
      ⟨11, ⟨by decide, by decide +kernel⟩, rfl⟩, ⟨(by decide : 0 < 0x100), trivial⟩, by decide +kernel,
      .inr ⟨257, 18, by decide +kernel, .inr (.inr ⟨by decide, by decide, .inr (.inr ⟨6, 23, by decide +kernel,
        .inr (.inl ⟨by decide, by decide +kernel, rfl, rfl⟩)⟩)⟩)⟩⟩)⟩,
    ⟨by decide, by decide, by decide, by decide +kernel, by decide +kernel, .inr (.inl ⟨rfl, rfl, [.literal 144], 12,
      ⟨12, ⟨by decide, by decide +kernel⟩, rfl⟩, ⟨(by decide : 0 < 0x100), trivial⟩, by decide +kernel,
      .inr ⟨281, 20, by decide +kernel, .inr (.inr ⟨by decide, by decide, .inl ⟨by decide +kernel, rfl, rfl⟩⟩)⟩⟩)⟩,
    ⟨by decide, by decide, by decide, by decide +kernel, by decide +kernel, .inr (.inl ⟨rfl, rfl, [], 3, rfl, trivial, rfl,
      .inr ⟨280, 11, by decide +kernel, .inr (.inr ⟨by decide, by decide,
        .inr (.inl ⟨by decide +kernel, by decide +kernel, rfl, by decide +kernel⟩)⟩)⟩⟩)⟩⟩

/-- A dynamic block whose header fails, and the full-size one of L2.5 whose first distance is too far. -/
def fullSource : List Nat := [0xFD, 0xDF, 0x81, 0x08, 0x00, 0x00, 0x00, 0x00, 0x20, 0x7F, 0xEB, 0x37, 0x51, 0x09]
def fullTables : DynTables where
  cl := clTable
  ll := [256, 257] ++ List.replicate 574 0
  d := List.replicate 64 0

theorem dynTreesAt_fullSource : dynTreesAt (stateOf fullSource) fullTables 3 107 :=
  ⟨288, 32, 18, [18, 18, 1, 1, 18, 18], List.replicate 256 0 ++ [1, 1] ++ List.replicate 62 0, by decide +kernel,
    by decide +kernel, by decide +kernel, by decide +kernel, by decide +kernel,
    ⟨72, by decide +kernel, by decide, by decide, by decide +kernel,
      80, by decide +kernel, by decide, by decide, by decide +kernel,
      89, by decide +kernel, by decide, by decide, by decide +kernel,
      91, by decide +kernel, by decide, by decide, by decide +kernel,
      92, by decide +kernel, by decide, by decide, by decide +kernel,
      100, by decide +kernel, by decide, by decide, by decide +kernel, by decide +kernel, by decide +kernel⟩,
    by decide +kernel, by decide +kernel, by decide +kernel, by decide +kernel⟩

theorem witness_BlockFails_dynamic :
    blockFailsAt (stateOf [0x05, 0x00, 0x02, 0x09]) ⟨.repeatNoPrevious, 30, [], some (true, 2), .cl rowTable⟩
      ∧ blockFailsAt (stateOf fullSource) ⟨.distTooFar, 109, [], some (true, 2), .all fullTables⟩ :=
  ⟨⟨by decide, by decide, by decide, by decide +kernel, by decide +kernel, .inr (.inr (.inl ⟨rfl, rfl,
      ⟨by decide +kernel, by decide +kernel⟩, [], 29, ⟨[], rfl, by decide +kernel⟩,
      .inl ⟨by decide +kernel, .inr ⟨16, 30, by decide +kernel, .inl ⟨rfl, rfl, rfl, rfl⟩⟩⟩⟩))⟩,
    ⟨by decide, by decide, by decide, by decide +kernel, by decide +kernel, .inr (.inr (.inr (.inl ⟨rfl, fullTables, 107,
      dynTreesAt_fullSource, rfl, [], 107, rfl, trivial, rfl,
      .inr ⟨257, 108, by decide +kernel, .inr (.inr ⟨by decide, by decide, .inr (.inr ⟨0, 109, by decide +kernel,
        .inr (.inr ⟨by decide, by decide +kernel, by decide +kernel, .inl ⟨by decide +kernel, rfl⟩⟩)⟩)⟩)⟩⟩)))⟩⟩

/-- The stored block of L1.3, the fixed block of L1.4 and the dynamic block of L2.5. -/
theorem witness_InflateBlock_stored :
    Ready true (stateOf [0x01, 0x03, 0x00, 0xFC, 0xFF, 0x41, 0x42, 0x43])
      ∧ Quiet (stateOf [0x01, 0x03, 0x00, 0xFC, 0xFF, 0x41, 0x42, 0x43])
      ∧ blockAt (stateOf [0x01, 0x03, 0x00, 0xFC, 0xFF, 0x41, 0x42, 0x43]) 0x100
        (outSoFar (stateOf [0x01, 0x03, 0x00, 0xFC, 0xFF, 0x41, 0x42, 0x43])) 0 true .stored [0x41#8, 0x42#8, 0x43#8] 64 := by
  unfold blockAt bodyAt; decide +kernel

theorem witness_InflateBlock_fixed :
    Ready true (stateOf [0x4B, 0x04, 0x02, 0x00]) ∧ Quiet (stateOf [0x4B, 0x04, 0x02, 0x00])
      ∧ blockAt (stateOf [0x4B, 0x04, 0x02, 0x00]) 0x100 (outSoFar (stateOf [0x4B, 0x04, 0x02, 0x00])) 0 true
        (.fixed [.literal 0x61, .copy 3 1]) [0x61#8, 0x61#8, 0x61#8, 0x61#8] 30 :=
  ⟨by decide, by decide, by decide, by decide +kernel, by decide +kernel,
    ⟨23, ⟨11, ⟨by decide, by decide +kernel⟩, 23, ⟨257, 18, 0, 23, by decide +kernel, by decide, by decide, by decide +kernel,
      by decide +kernel, by decide, by decide +kernel, by decide +kernel, by decide +kernel⟩, rfl⟩, by decide +kernel⟩,
    ⟨(by decide +kernel : _ < _), (by decide +kernel : _ ≤ _ ∧ _ ≤ _), trivial⟩, by decide +kernel⟩

theorem witness_InflateBlock_dynamic :
    Ready true (stateOf dynSource) ∧ Quiet (stateOf dynSource)
      ∧ blockAt (stateOf dynSource) 0x100 (outSoFar (stateOf dynSource)) 0 true
        (.dynamic dynTables [.literal 65, .literal 65, .literal 65]) [0x41#8, 0x41#8, 0x41#8] 105 :=
  ⟨by decide, by decide, by decide, by decide +kernel, by decide +kernel, 101, dynTreesAt_dynSource,
    ⟨104, ⟨102, ⟨by decide, by decide +kernel⟩, 103, ⟨by decide, by decide +kernel⟩, 104, ⟨by decide, by decide +kernel⟩,
      rfl⟩, by decide +kernel⟩,
    ⟨(by decide +kernel : _ < _), (by decide +kernel : _ < _), (by decide +kernel : _ < _), trivial⟩, by decide +kernel⟩

/-! ### Witnesses: streams -/

/-- Rows of L2.8: one source for each check of R280, and one that passes. -/
theorem witness_ZlibHeader :
    (∀ s ∈ [stateOf [0x78], stateOf [0x78, 0x9D], stateOf [0x79, 0x18], stateOf [0x88, 0x98], stateOf [0x78, 0xBB],
        stateOf [0x78, 0x01]], Ready false s ∧ Quiet s)
      ∧ (stateOf [0x78]).srcLen.toNat < 2 ∧ 2 ≤ (stateOf [0x78, 0x9D]).srcLen.toNat
      ∧ (srcByte (stateOf [0x78, 0x9D]) 0).toNat = 0x78 ∧ (srcByte (stateOf [0x78, 0x9D]) 1).toNat = 0x9D
      ∧ (0x78 * 256 + 0x9D) % 31 ≠ 0
      ∧ ((0x79 * 256 + 0x18) % 31 = 0 ∧ 0x79 % 16 ≠ 8)
      ∧ ((0x88 * 256 + 0x98) % 31 = 0 ∧ 0x88 % 16 = 8 ∧ 7 < 0x88 / 16)
      ∧ ((0x78 * 256 + 0xBB) % 31 = 0 ∧ 0x78 % 16 = 8 ∧ 0x78 / 16 ≤ 7 ∧ 0xBB / 32 % 2 = 1)
      ∧ ((0x78 * 256 + 0x01) % 31 = 0 ∧ 0x01 / 32 % 2 = 0) := by decide +kernel

/-- The source of program P2: the header, a stored block of `41 42`, and a final fixed block that copies 4 bytes from
distance 2, then the trailer. -/
def twoBlocks : State :=
  stateOf [0x78, 0x01, 0x00, 0x02, 0x00, 0xFD, 0xFF, 0x41, 0x42, 0x03, 0x41, 0x00, 0x05, 0x64, 0x01, 0x8A]

theorem headerValid_twoBlocks : headerValid twoBlocks := by unfold headerValid; decide +kernel

theorem blocksAt_twoBlocks :
    blocksAt twoBlocks 0x100 [] 16 [.stored, .fixed [.copy 4 2]] [0x41#8, 0x42#8, 0x41#8, 0x42#8, 0x41#8, 0x42#8] 94 :=
  .inr ⟨[0x41#8, 0x42#8], 72, by unfold blockAt bodyAt; decide +kernel,
    .inl ⟨rfl, by decide, by decide +kernel, by decide +kernel,
      ⟨87, ⟨87, ⟨258, 82, 1, 87, by decide +kernel, by decide, by decide, by decide +kernel, by decide +kernel, by decide,
        by decide +kernel, by decide +kernel, by decide +kernel⟩, rfl⟩, by decide +kernel⟩,
      ⟨(by decide +kernel : _ ≤ _ ∧ _ ≤ _), trivial⟩, by decide +kernel⟩⟩

theorem witness_InflateZlib :
    Ready false twoBlocks ∧ Quiet twoBlocks ∧ headerValid twoBlocks
      ∧ blocksAt twoBlocks twoBlocks.dstCap.toNat [] 16 [.stored, .fixed [.copy 4 2]]
        [0x41#8, 0x42#8, 0x41#8, 0x42#8, 0x41#8, 0x42#8] 94 :=
  ⟨by decide, by decide, headerValid_twoBlocks, blocksAt_twoBlocks⟩

/-- The header with nothing behind it (L2.8), and the source of program P2 cut behind the header of its second block. -/
def cutStream : State := stateOf [0x78, 0x01, 0x00, 0x02, 0x00, 0xFD, 0xFF, 0x41, 0x42, 0x03]

theorem witness_StreamFails_header :
    Ready false (stateOf [0x78, 0x01]) ∧ Quiet (stateOf [0x78, 0x01]) ∧ headerValid (stateOf [0x78, 0x01])
      ∧ blocksTo (stateOf [0x78, 0x01]) 0x100 [] 16 [] [] 16
      ∧ blockFails (stateOf [0x78, 0x01]) 0x100 [] 16 ⟨.bitsExhausted, 16, [], none, .kept⟩ := by
  unfold headerValid blocksTo blockFails
  exact ⟨by decide, by decide, by decide +kernel, ⟨rfl, rfl⟩, rfl, rfl, rfl, .inl (by decide)⟩

theorem witness_StreamFails_second :
    Ready false cutStream ∧ Quiet cutStream ∧ headerValid cutStream
      ∧ blocksTo cutStream 0x100 [] 16 [.stored] [0x41#8, 0x42#8] 72
      ∧ blockFails cutStream 0x100 [0x41#8, 0x42#8] 72
        ⟨.symbolExhausted, 80, [0x41#8, 0x42#8], some (true, 1), .kept⟩ :=
  ⟨by decide, by decide, by unfold headerValid; decide +kernel,
    ⟨_, _, by unfold blockAt bodyAt; decide +kernel, rfl, rfl⟩,
    ⟨by decide, by decide +kernel, by decide +kernel, .inr (.inl ⟨rfl, rfl, [], 75, rfl, trivial, rfl,
      .inl ⟨by decide +kernel, rfl, by decide +kernel⟩⟩)⟩⟩

/-- Another trailer. -/
theorem witness_TrailerIgnored :
    (Ready false twoBlocks ∧ Quiet twoBlocks ∧ headerValid twoBlocks
        ∧ blocksAt twoBlocks twoBlocks.dstCap.toNat [] 16 [.stored, .fixed [.copy 4 2]]
          [0x41#8, 0x42#8, 0x41#8, 0x42#8, 0x41#8, 0x42#8] 94)
      ∧ ∀ i, i < (94 + 7) / 8 →
        srcByte { twoBlocks with mem := twoBlocks.mem.write 0x10C 0xFF#8 } i = srcByte twoBlocks i :=
  ⟨witness_InflateZlib, by decide +kernel⟩

/-! ### Witnesses: the unfilter -/

theorem witness_PaethMinimises : 100 ≤ 255 ∧ 0 ≤ 255 ∧ 200 ≤ 255 ∧ 255 ≤ 255 := by decide

theorem witness_UnfilterFails :
    (Ready false (image 1 1 0 0 [0x00, 0x01]) ∧ Quiet (image 1 1 0 0 [0x00, 0x01])
        ∧ (image 1 1 0 0 [0x00, 0x01]).unfBpp.toNat = 0 ∧ Ready false (image 1 1 65 0 [0x00, 0x01])
        ∧ 64 < (image 1 1 65 0 [0x00, 0x01]).unfBpp.toNat)
      ∧ (let s := image 3 1 8 0 [0x00, 0x01, 0x02]
        Ready false s ∧ s.unfBpp.toNat ≤ 64 ∧ s.srcLen.toNat < s.unfHeight.toNat * (lbOf s + 1))
      ∧ (let s := { image 2 1 8 0 [0x00, 0x01, 0x02] with dstCap := 1#32 }
        Ready false s ∧ s.dstCap.toNat < s.unfHeight.toNat * lbOf s)
      ∧ (let s := image 2 2 8 2 [0x00, 0x01, 0x02, 0x01, 0x01, 0x01]
        Ready false s ∧ Quiet s ∧ s.unfHeight.toNat ≤ s.arg0.toNat)
      ∧ (let s := image 2 1 8 0 [0x05, 0x01, 0x02]
        Ready false s ∧ Quiet s ∧ s.arg0.toNat < s.unfHeight.toNat ∧ lbOf s ≠ 0 ∧ 4 < filterOf s s.arg0.toNat) := by
  decide +kernel

theorem witness_UnfilterFails_geometry :
    geometryValid (image 2 2 8 2 [0x00, 0x01, 0x02, 0x01, 0x01, 0x01]) ∧ geometryValid (image 2 1 8 0 [0x05, 0x01, 0x02]) := by
  unfold geometryValid; decide

/-- A Paeth line, lines of no bytes, and a bad filter byte below a good line. -/
def paethImage : State := image 2 2 8 1 [0x00, 0x01, 0x02, 0x04, 0x01, 0x01]
def emptyLines : State := image 0 2 32 1 [0x00, 0x00]
def badImage : State := image 2 2 8 0 [0x00, 0x01, 0x02, 0x09, 0x01, 0x02]

theorem witness_UnfilterLine :
    (Ready false paethImage ∧ Quiet paethImage ∧ geometryValid paethImage
        ∧ paethImage.arg0.toNat < paethImage.unfHeight.toNat ∧ filterOf paethImage paethImage.arg0.toNat ≤ 4)
      ∧ (Ready false emptyLines ∧ Quiet emptyLines ∧ geometryValid emptyLines
        ∧ emptyLines.arg0.toNat < emptyLines.unfHeight.toNat ∧ lbOf emptyLines = 0) := by
  unfold geometryValid; decide +kernel

theorem witness_UnfilterImage :
    (Ready false paethImage ∧ Quiet paethImage ∧ geometryValid paethImage ∧ ∀ y, y < 2 → filterOf paethImage y ≤ 4)
      ∧ (Ready false badImage ∧ Quiet badImage ∧ geometryValid badImage ∧ lbOf badImage ≠ 0
        ∧ 1 < badImage.unfHeight.toNat ∧ (∀ z, z < 1 → filterOf badImage z ≤ 4) ∧ 4 < filterOf badImage 1) := by
  unfold geometryValid; decide +kernel

/-! ### Witnesses: frames and the invariant -/

/-- The command completes in this state. -/
def completes (i : Instr) (s : State) : Bool :=
  match exec i s with
  | .next t => t.phase == .idle
  | .fault _ => false
  | .refused _ => false

theorem completes_next {i : Instr} {s : State} (h : completes i s = true) : ∃ t, exec i s = .next t ∧ t.phase = .idle := by
  unfold completes at h
  split at h
  · exact ⟨_, ‹_›, by simpa using h⟩
  · exact nomatch h
  · exact nomatch h

/-- Every command completes somewhere, and one fails. -/
theorem witness_frames :
    completes .nop State.reset && completes (.readBits 8#5) (stateAt 4 [0xA5, 0x3C]) && completes (.buildTree .d) State.reset
      && completes (.decodeSymbol .fixedLL) (stateOf [0x00]) && completes .readDynTrees (stateAt 3 dynSource)
      && completes .lzCopy (copyState 5 3) && completes .inflateBlock (stateOf [0x4B, 0x04, 0x02, 0x00])
      && completes .zlibHeader twoBlocks && completes .inflateZlib twoBlocks && completes .paeth State.reset
      && completes .unfilterLine (image 2 2 8 1 [0x00, 0x01, 0x02, 0x01, 0x01, 0x01])
      && completes .unfilterImage (image 2 2 8 0 [0x00, 0x01, 0x02, 0x01, 0x01, 0x01]) = true := by decide +kernel

theorem witness_CommandFrame : ∃ t, exec .lzCopy (copyState 5 3) = .next t ∧ t.phase = .idle :=
  completes_next (by decide +kernel)

theorem witness_StoredBytes :
    (∃ t, exec .readDynTrees (stateAt 3 dynSource) = .next t ∧ t.phase = .idle)
      ∧ (∃ t, exec .lzCopy (copyState 5 3) = .next t ∧ t.phase = .idle)
      ∧ (∃ t, exec .inflateBlock (stateOf [0x4B, 0x04, 0x02, 0x00]) = .next t ∧ t.phase = .idle)
      ∧ (∃ t, exec .inflateZlib twoBlocks = .next t ∧ t.phase = .idle)
      ∧ (∃ t, exec .unfilterLine (image 2 2 8 1 [0x00, 0x01, 0x02, 0x01, 0x01, 0x01]) = .next t ∧ t.phase = .idle)
      ∧ ∃ t, exec .unfilterImage (image 2 2 8 0 [0x00, 0x01, 0x02, 0x01, 0x01, 0x01]) = .next t ∧ t.phase = .idle :=
  ⟨completes_next (by decide +kernel), completes_next (by decide +kernel), completes_next (by decide +kernel),
    completes_next (by decide +kernel), completes_next (by decide +kernel), completes_next (by decide +kernel)⟩

/-- One command that completes and one that fails. -/
theorem witness_RegistersKept :
    (∃ t, exec .zlibHeader twoBlocks = .next t ∧ t.phase = .idle)
      ∧ ∃ t, exec .zlibHeader (stateOf [0x78]) = .next t ∧ t.phase = .failed :=
  ⟨completes_next (by decide +kernel), _, rfl, rfl⟩

theorem witness_Cursors :
    (∃ t, exec (.readBits 8#5) (stateAt 4 [0xA5, 0x3C]) = .next t ∧ t.phase = .idle)
      ∧ (∃ t, exec .lzCopy (copyState 5 3) = .next t ∧ t.phase = .idle)
      ∧ checksRegions (.readBits 8#5) = some true :=
  ⟨completes_next (by decide +kernel), completes_next (by decide +kernel), rfl⟩

/-- A command runs from a state the invariant holds of. -/
theorem witness_InvStep : Inv blockRun ∧ ∃ t, step blockRun = .next t := by
  refine ⟨⟨by decide, List.length_replicate, List.length_replicate, List.length_replicate, List.length_replicate,
    fun t j h => ?_, fun _ => ⟨rfl, rfl, rfl, rfl⟩, fun h => ?_, fun _ => rfl, fun a h => ?_, rfl⟩, goes_next (by decide +kernel)⟩
  · cases t <;> exact nomatch h
  · exact nomatch h
  · exact nomatch h

end Tests
end Sys2Proof
end

/-! SUPPORT. The invariant (O58, O59): a reset establishes it, the block's step keeps it by what every command can have
done when it ends, and the host's step by its actions. -/

namespace Sys2Proof
namespace Machine

/-! ### The invariant -/

theorem Cause.code_bounds (c : Cause) : 1 ≤ c.code.toNat ∧ c.code.toNat ≤ 27 := by cases c <;> decide

theorem Cause.code_ne_corrupt {c : Cause} (h : c ≠ .treeWalkCorrupt) : c.code ≠ Cause.treeWalkCorrupt.code := by
  revert h; cases c <;> decide

/-- The code of a failure is the code of a cause, and not of `TREE_WALK_CORRUPT` unless the failure is that one. -/
theorem Failure.code_eq {f : Failure} (h : f ≠ .cause .treeWalkCorrupt) :
    ∃ c : Cause, c ≠ .treeWalkCorrupt ∧ f.code = c.code := by
  cases f with
  | cause c => exact ⟨c, fun hc => h (by rw [hc]), rfl⟩
  | badFilter y lb => exact ⟨.badFilterType, by decide, rfl⟩

/-- The reset state meets the invariant whatever host memory, the host and the platform hold. -/
theorem inv_reset_with {t : State} (h : AtReset t) (hm : t.mem.wf = true) (hll : t.treeLL.length = 576)
    (hd : t.treeD.length = 64) (hcl : t.treeCL.length = 38) (hr : t.raced = []) (hg : t.merging = none) : Inv t where
  mem_wf := hm
  lenram_size := by rw [h.lenram]; exact List.length_replicate
  treeLL_size := hll
  treeD_size := hd
  treeCL_size := hcl
  trees r j hv := by
    cases r with
    | ll => exact absurd hv (by simp [valid, h.llValid])
    | d => exact absurd hv (by simp [valid, h.dValid])
    | cl => exact absurd hv (by simp [valid, h.clValid])
  no_error _ := ⟨h.errKind, h.errCause, h.errBitpos, h.errOutpos⟩
  error hp := absurd hp (by simp [h.phase])
  raced_busy _ := hr
  raced_lt a ha := by rw [hr] at ha; exact nomatch ha
  settled := hg

theorem Inv.treesGood {s : State} (h : Inv s) : TreesGood s := ⟨h.treeLL_size, h.treeD_size, h.treeCL_size, h.trees⟩

/-- Settling the races leaves canonical memory, where the raced bytes lie in the address space. -/
theorem settleRaces_mem_wf {s : State} (hr : ∀ a ∈ s.raced, a < Config.addrSpace) (hm : s.mem.wf = true) :
    (settleRaces s).mem.wf = true := by
  obtain ⟨m, d, h, -, hwf⟩ := settleRaces_effect s
  rw [h]; exact hwf hr hm

/-- What a command did before it completed or failed, as the invariant needs it. -/
theorem Inv.effect {s u : State} (h : Inv s) (he : Effect s u) :
    u.mem.wf = true ∧ u.lenram.length = 288 ∧ TreesGood u ∧ (∀ a ∈ u.raced, a < Config.addrSpace) :=
  ⟨he.mem_wf h.mem_wf, by rw [he.operands.lenram]; exact h.lenram_size, he.trees h.treesGood,
    by rw [he.operands.raced]; exact h.raced_lt⟩

theorem blockStep_merging {s t : State} (h : blockStep s = .next t) : t.merging = s.merging := by
  have settle (v : State) : (settleRaces v).merging = v.merging := by
    obtain ⟨m, d, hv, -⟩ := settleRaces_effect v
    rw [hv]
  unfold blockStep at h
  split at h
  · cases he : exec _ s with
    | next v => rw [he] at h; cases h; rw [settle, exec_merging he]
    | fault x => exact nomatch x
    | refused x => rw [he] at h; exact nomatch h
  · cases h; exact settle _

/-- The step of the block keeps the invariant. -/
theorem Inv.blockStep {s t : State} (h : Inv s) (hb : s.phase = .busy) (ht : blockStep s = .next t) : Inv t := by
  obtain ⟨u, v, he, hv, rfl⟩ := blockStep_next ht
  have hmerge := (blockStep_merging ht).trans h.settled
  obtain ⟨hwf, hlen, htrees, hraced⟩ : v.mem.wf = true ∧ v.lenram.length = 288 ∧ TreesGood v
      ∧ (∀ a ∈ v.raced, a < Config.addrSpace) := by
    obtain ⟨hwf, hlen, htrees, hraced⟩ := h.effect he
    rcases hv with rfl | ⟨f, rfl, -⟩ <;> exact ⟨hwf, hlen, htrees.congr (by constructor <;> rfl), hraced⟩
  have hmem := settleRaces_mem_wf hraced hwf
  obtain ⟨m, d, hs, -⟩ := settleRaces_effect v
  rw [hs] at hmem hmerge ⊢
  refine
    { mem_wf := hmem, lenram_size := hlen, treeLL_size := htrees.ll, treeD_size := htrees.d, treeCL_size := htrees.cl
      trees := htrees.range, no_error := fun hp => ?_, error := fun hp => ?_, raced_busy := fun _ => rfl
      raced_lt := fun a ha => (nomatch ha), settled := hmerge }
  · rcases hv with rfl | ⟨f, rfl, -⟩
    · obtain ⟨hkind, hcause, hbitpos, houtpos⟩ := h.no_error (by simp [hb])
      exact ⟨he.error.errKind.trans hkind, he.error.errCause.trans hcause, he.error.errBitpos.trans hbitpos,
        he.error.errOutpos.trans houtpos⟩
    · exact absurd rfl hp
  · rcases hv with rfl | ⟨f, rfl, hf⟩
    · exact nomatch hp
    · obtain ⟨c, hc, hcode⟩ := Failure.code_eq (hf h.treesGood)
      exact ⟨rfl, by simpa [hcode] using ⟨c.code_bounds.1, c.code_bounds.2, Cause.code_ne_corrupt hc⟩⟩

theorem commandEnd_mem_wf {s : State} (h : Inv s) (hb : s.phase = .busy) : (commandEnd s).mem.wf = true := by
  rcases commandEnd_cases s with hc | hc
  · rw [hc]; exact h.mem_wf
  · exact (h.blockStep hb hc).mem_wf

theorem abortedState_mem_wf {s : State} (h : Inv s) (hb : s.phase = .busy) : (abortedState s).mem.wf = true := by
  refine settleRaces_mem_wf h.raced_lt (mixFrom_wf h.mem_wf fun a ha => ?_)
  obtain ⟨c, hc, rfl⟩ := List.mem_map.1 ha
  rcases List.mem_append.1 hc with hc | hc
  · exact Memory.lt_of_wf h.mem_wf c hc
  · exact Memory.lt_of_wf (commandEnd_mem_wf h hb) c hc

theorem atReset_hardReset (s : State) : AtReset (hardReset s) := by constructor <;> rfl

theorem Inv.hardReset {s : State} (h : Inv s) : Inv (hardReset s) := by
  refine inv_reset_with (atReset_hardReset s) ?_ List.length_replicate List.length_replicate List.length_replicate
    rfl rfl
  show (if s.phase == .busy then abortedState s else s).mem.wf = true
  split
  · rename_i hb
    exact abortedState_mem_wf h (beq_iff_eq.1 hb)
  · exact h.mem_wf

theorem Inv.writeCtrl {s : State} (h : Inv s) (w : Word) : Inv (writeCtrl w s) := by
  unfold Machine.writeCtrl; split
  · exact { h.hardReset with }
  · exact { h with }

theorem Inv.writeCmd {s : State} (h : Inv s) (w : Word) : Inv (writeCmd w s) := by
  unfold Machine.writeCmd; split
  · exact { h with }
  · exact { h with
      no_error := fun _ => h.no_error ‹_›
      error := fun hp => nomatch hp
      raced_busy := fun hp => absurd rfl hp }

theorem Inv.writeReg {s : State} (h : Inv s) (r : Reg) (w : Word) : Inv (writeReg r w s) := by
  cases r with
  | ctrl => exact h.writeCtrl w
  | cmd => exact h.writeCmd w
  | lenram k => exact { h with lenram_size := List.length_set.trans h.lenram_size }
  | id | status | errKind | errCause | errBitpos | errOutpos | result | tree | reserved => exact h
  | intStatus | srcBase | srcLen | dstBase | dstCap | bitpos | outpos | arg0 | arg1 | unfWidth | unfHeight | unfBpp =>
    exact { h with }

theorem Inv.portWrite {s : State} (h : Inv s) (addr : Word) (width : Width) (w : Word) :
    Inv (portWrite addr width w s) := by
  unfold Machine.portWrite; split
  · unfold servedWrite; split
    · exact { h with }
    · exact h.writeReg _ w
  · exact h

theorem Inv.readReg {s : State} (h : Inv s) (r : Reg) : Inv (readReg r s) := by
  unfold Machine.readReg; split
  · exact { h with }
  · split <;> exact { h with }

theorem Inv.portRead {s : State} (h : Inv s) (addr : Word) (width : Width) : Inv (portRead addr width s) := by
  unfold Machine.portRead; split
  · exact h.readReg _
  · exact { h with }
  · exact h

theorem Inv.hostMemWrite {s : State} (h : Inv s) (addr : Word) (v : Byte) : Inv (hostMemWrite addr v s) := by
  unfold Machine.hostMemWrite; split
  · exact h
  · refine { h with mem_wf := Memory.wf_write h.mem_wf addr.isLt v, raced_busy := fun hp => ?_, raced_lt := ?_ }
    · have hidle : races s addr.toNat = false := by simp only [races]; simp_all
      simp only [hidle]; exact h.raced_busy hp
    · show ∀ a ∈ (if races s addr.toNat then addr.toNat :: s.raced else s.raced), a < Config.addrSpace
      split
      · exact List.forall_mem_cons.2 ⟨addr.isLt, h.raced_lt⟩
      · exact h.raced_lt

theorem Inv.hostMemRead {s : State} (h : Inv s) (addr : Word) : Inv (hostMemRead addr s) := by
  unfold Machine.hostMemRead; split
  · exact { h with }
  · split <;> exact { h with }

theorem Inv.hostAct {s : State} (h : Inv s) (a : HostAct) : Inv (hostAct a s) := by
  cases a with
  | regWrite addr width data => exact h.portWrite addr width data
  | regRead addr width => exact h.portRead addr width
  | memWrite addr v => exact h.hostMemWrite addr v
  | memRead addr => exact h.hostMemRead addr
  | wait => exact h.readReg .status
  | hwReset => exact h.hardReset
  | errMap reads writes =>
    show Inv (platformErrs reads writes s)
    unfold platformErrs; split
    · exact h
    · exact { h with }
  | rivals running => exact { h with }

theorem Inv.hostStep {s : State} (h : Inv s) : Inv (hostStep s) := by
  unfold Machine.hostStep; split
  · exact h
  · rename_i a rest _
    have hrest : Inv { s with inputs := rest } := { h with }
    exact hrest.hostAct a

theorem phase_of_blockMoves {s : State} (h : blockMoves s = true) : s.phase = .busy := by
  simp only [blockMoves, Bool.and_eq_true, beq_iff_eq] at h; exact h.1

/-- Settles O59: the block's step by what every command keeps, the host's by its actions. -/
theorem invStep : Obligations.InvStep := by
  intro s t h hstep
  unfold step at hstep
  split at hstep
  · exact h.blockStep (phase_of_blockMoves ‹_›) hstep
  · cases hstep; exact h.hostStep

/-- Settles O58: the reset state is one of the states a reset leaves. -/
theorem invReset : Obligations.InvReset := by
  refine inv_reset_with ?_ rfl List.length_replicate List.length_replicate List.length_replicate rfl rfl
  constructor <;> rfl

end Machine
end Sys2Proof

/-! SUPPORT. The register port (O8, O10 to O16, O18): one rule per kind of access, then the register map offset by
offset. -/

namespace Sys2Proof
namespace Machine

/-! ### The status words as numbers -/

theorem toNat_append_eq_add {m n : Nat} (x : BitVec m) (y : BitVec n) :
    (x ++ y).toNat = x.toNat * 2 ^ n + y.toNat := by
  rw [BitVec.toNat_append, ← Nat.shiftLeft_add_eq_or_of_lt y.isLt, Nat.shiftLeft_eq]

/-- `STATUS` by the weights of its fields (R34). -/
theorem statusWord_eq (s : State) :
    statusWord s = BitVec.ofNat 32
      (s.phase.code.toNat + 4 * s.bfinal.toNat + 8 * s.btype.toNat + 32 * s.streamEnd.toNat + 256 * s.llValid.toNat
        + 512 * s.dValid.toNat + 1024 * s.clValid.toNat) := by
  apply BitVec.eq_of_toNat_eq
  have hp := s.phase.code.isLt
  have hb := s.btype.isLt
  have h1 := Bool.toNat_lt s.bfinal
  have h2 := Bool.toNat_lt s.streamEnd
  have h3 := Bool.toNat_lt s.llValid
  have h4 := Bool.toNat_lt s.dValid
  have h5 := Bool.toNat_lt s.clValid
  simp only [statusWord, toNat_append_eq_add, BitVec.toNat_ofNat, BitVec.toNat_ofBool]
  omega

/-- `INT_STATUS` by the weights of its bits (R39). -/
theorem intStatusWord_eq (s : State) :
    intStatusWord s = BitVec.ofNat 32 (s.done.toNat + 2 * s.err.toNat + 4 * s.wign.toNat) := by
  apply BitVec.eq_of_toNat_eq
  have h1 := Bool.toNat_lt s.done
  have h2 := Bool.toNat_lt s.err
  have h3 := Bool.toNat_lt s.wign
  simp only [intStatusWord, toNat_append_eq_add, BitVec.toNat_ofNat, BitVec.toNat_ofBool]
  omega

/-- `CTRL` by the weight of its bit (R33). -/
theorem ctrlWord_eq (s : State) : ctrlWord s = BitVec.ofNat 32 (2 * s.irqEn.toNat) := by
  unfold ctrlWord
  cases s.irqEn <;> rfl

/-! ### Accesses of the port -/

/-- A write outside `BUSY` reaches the register (R70). -/
theorem hostWrites_idle {s t : State} {off : Nat} {w : Word} (hp : s.phase ≠ .busy) (h : off < 0x4000)
    (h4 : off % 4 = 0) (ht : writeReg (regAt off) w s = t) : hostWrites off w s = .next t := by
  rw [hostWrites_eq h h4, servedWrite_idle hp, ht]

/-- A write of anything but `CTRL` and `INT_STATUS` while `BUSY` (R67). -/
theorem hostWrites_busy {s : State} {off : Nat} (hp : s.phase = .busy) (h : off < 0x4000) (h4 : off % 4 = 0)
    (hc : off ≠ 0x004) (hi : off ≠ 0x00C) (w : Word) : hostWrites off w s = .next { s with wign := true } := by
  obtain ⟨hctrl, hint, -⟩ := regAt_other h4
  rw [hostWrites_eq h h4, servedWrite_busy hp (hctrl hc) (hint hi)]

/-- A write of `CTRL` takes effect in every state (R67, R70). -/
theorem hostWrites_ctrl (w : Word) (s : State) : hostWrites 0x004 w s = .next (writeCtrl w s) := by
  rw [hostWrites_eq (by decide) (by decide)]
  exact congrArg _ (if_neg fun h => h.2.1 rfl)

/-- So does a write of `INT_STATUS` (R39, R67). -/
theorem hostWrites_intStatus (w : Word) (s : State) : hostWrites 0x00C w s = .next (writeIntStatus w s) := by
  rw [hostWrites_eq (by decide) (by decide)]
  exact congrArg _ (if_neg fun h => h.2.2 rfl)

/-- Without `SRESET`, a write of `CTRL` sets `IRQ_EN` alone (R33). -/
theorem hostWrites_irqEn {w : Word} (h : w.getLsbD 0 = false) (s : State) :
    hostWrites 0x004 w s = .next { s with irqEn := w.getLsbD 1 } := by
  rw [hostWrites_ctrl, writeCtrl, h, if_neg Bool.false_ne_true]

/-- A read of a register whose value the spec fixes, outside `BUSY`. -/
theorem hostReads_idle {s : State} {off : Nat} {v : Word} (hp : s.phase ≠ .busy) (h : off < 0x4000) (h4 : off % 4 = 0)
    (hv : regValue s (regAt off) = some v) : hostReads off s = .next { s with portData := v } := by
  rw [hostReads_eq h h4, readReg_some (.inl hp) hv]

/-- A read of a register that is readable while `BUSY` (R68), in every state. -/
theorem hostReads_status {s : State} {off : Nat} {v : Word} (h : off < 0x010) (h4 : off % 4 = 0)
    (hv : regValue s (regAt off) = some v) : hostReads off s = .next { s with portData := v } := by
  have hreadable : ∀ o ∈ [0x000, 0x004, 0x008, 0x00C], readableWhileBusy (regAt o) = true := by decide
  rw [hostReads_eq (by omega) h4, readReg_some (.inr (hreadable off (by simp; omega))) hv]

/-- A read with an unspecified value (R60 to R62, R68). -/
theorem hostReads_draw {s : State} {off : Nat} (h : off < 0x4000) (h4 : off % 4 = 0)
    (hv : s.phase = .busy ∧ 0x010 ≤ off ∨ regValue s (regAt off) = none) :
    ∃ v, hostReads off s = .next { s with portData := v, hostDraws := s.hostDraws + 1 } := by
  refine ⟨Config.freeWord s.hostDraws, ?_⟩
  rw [hostReads_eq h h4, readReg_draw (hv.imp_left fun hb => ⟨hb.1, (regAt_other h4).2.2 hb.2⟩)]

/-! ### The obligations on the port -/

/-- Settles O8: `CMD` stands at 0x010, and is written by the lifecycle. -/
theorem commandIssue : Obligations.CommandIssue := by
  intro s w
  refine ⟨fun hp => ?_, fun hp => ?_, fun hp => ?_⟩
  · exact hostWrites_idle (by simp [hp]) (by decide) (by decide) (if_neg (by simp [hp]))
  · exact hostWrites_idle (by simp [hp]) (by decide) (by decide) (if_pos hp)
  · exact hostWrites_busy hp (by decide) (by decide) (by decide) (by decide) w

/-- Settles O10: `CTRL` and `INT_STATUS` are written in every state, any other register sets `WIGN`. -/
theorem writesWhileBusy : Obligations.WritesWhileBusy := by
  intro s w hp
  refine ⟨fun h0 => hostWrites_irqEn h0 s, fun h0 => ?_, hostWrites_intStatus w s, fun off h h4 hc hi =>
    hostWrites_busy hp h h4 hc hi w⟩
  refine ⟨{ hardReset s with irqEn := w.getLsbD 1 }, ?_, ?_, rfl⟩
  · rw [hostWrites_ctrl, writeCtrl, if_pos h0]
  · exact { atReset_hardReset s with irqEn := rfl }

/-- Settles O11: each RW register stands at its offset, and `LENRAM[k]` at 0x400 + 4k. -/
theorem registerWrites : Obligations.RegisterWrites := by
  intro s w hp
  refine ⟨fun h0 => hostWrites_irqEn h0 s,
    hostWrites_idle hp (by decide) (by decide) rfl, hostWrites_idle hp (by decide) (by decide) rfl,
    hostWrites_idle hp (by decide) (by decide) rfl, hostWrites_idle hp (by decide) (by decide) rfl,
    hostWrites_idle hp (by decide) (by decide) rfl, hostWrites_idle hp (by decide) (by decide) rfl,
    hostWrites_idle hp (by decide) (by decide) rfl, hostWrites_idle hp (by decide) (by decide) rfl,
    hostWrites_idle hp (by decide) (by decide) rfl, hostWrites_idle hp (by decide) (by decide) rfl,
    hostWrites_idle hp (by decide) (by decide) rfl,
    fun k hk => hostWrites_idle hp (by omega) (by omega) ?_⟩
  have hbits : w.extractLsb' 0 4 = BitVec.ofNat 4 (w.toNat % 16) := by
    apply BitVec.eq_of_toNat_eq; simp
  rw [regAt_lenram hk, writeReg, hbits]

/-- A register of R69: the host cannot write it. -/
def readOnly : Reg → Bool
  | .id | .status | .errKind | .errCause | .errBitpos | .errOutpos | .result | .tree _ _ => true
  | _ => false

theorem writeReg_readOnly {r : Reg} (h : readOnly r = true) (w : Word) (s : State) : writeReg r w s = s := by
  cases r with
  | id | status | errKind | errCause | errBitpos | errOutpos | result | tree => rfl
  | _ => exact nomatch h

/-- Settles O12: a write leaves a read-only register, and each of the listed offsets is one. -/
theorem readOnlyRegisters : Obligations.ReadOnlyRegisters := by
  intro s w off hoff
  obtain ⟨h, h4, hr⟩ : off < 0x4000 ∧ off % 4 = 0 ∧ readOnly (regAt off) = true := by
    rcases hoff with h | ⟨j, hj, rfl⟩ | ⟨j, hj, rfl⟩ | ⟨j, hj, rfl⟩
    · revert off; decide
    · exact ⟨by omega, by omega, by rw [regAt_treeLL hj]; rfl⟩
    · exact ⟨by omega, by omega, by rw [regAt_treeD hj]; rfl⟩
    · exact ⟨by omega, by omega, by rw [regAt_treeCL hj]; rfl⟩
  refine ⟨fun hp => ?_, fun hp => hostWrites_busy hp h h4 ?_ ?_ w⟩
  · exact hostWrites_idle hp h h4 (writeReg_readOnly hr w s)
  · rintro rfl; exact nomatch hr
  · rintro rfl; exact nomatch hr

/-- Settles O13: each register reads its value, the three status words by the weights of their fields. -/
theorem registerReads : Obligations.RegisterReads := by
  intro s hp
  have hstate : s.phase.code.toNat = if s.phase = .failed then 2 else 0 := by
    cases hs : s.phase with
    | idle => rfl
    | busy => exact absurd hs hp
    | failed => rfl
  refine ⟨hostReads_idle hp (by decide) (by decide) rfl,
    hostReads_idle hp (by decide) (by decide) (congrArg some (ctrlWord_eq s)),
    hostReads_idle hp (by decide) (by decide) ?_,
    hostReads_idle hp (by decide) (by decide) (congrArg some (intStatusWord_eq s)),
    hostReads_idle hp (by decide) (by decide) rfl, hostReads_idle hp (by decide) (by decide) rfl,
    hostReads_idle hp (by decide) (by decide) rfl, hostReads_idle hp (by decide) (by decide) rfl,
    hostReads_idle hp (by decide) (by decide) rfl, hostReads_idle hp (by decide) (by decide) rfl,
    hostReads_idle hp (by decide) (by decide) rfl, hostReads_idle hp (by decide) (by decide) rfl,
    hostReads_idle hp (by decide) (by decide) rfl, hostReads_idle hp (by decide) (by decide) rfl,
    hostReads_idle hp (by decide) (by decide) rfl, hostReads_idle hp (by decide) (by decide) rfl,
    hostReads_idle hp (by decide) (by decide) rfl, hostReads_idle hp (by decide) (by decide) rfl,
    hostReads_idle hp (by decide) (by decide) rfl, hostReads_idle hp (by decide) (by decide) rfl,
    hostReads_idle hp (by decide) (by decide) rfl,
    fun k hk => hostReads_idle hp (by omega) (by omega) ?_⟩
  · rw [← hstate]; exact congrArg some (statusWord_eq s)
  · rw [regAt_lenram hk]; rfl

/-- Settles O14: nothing stands at a reserved offset. -/
theorem reservedOffsets : Obligations.ReservedOffsets := by
  intro s off w hp h4 h
  have hr := regAt_reserved h4 h
  have hlt : off < 0x4000 := by omega
  exact ⟨hostReads_idle hp hlt h4 (by rw [hr]; rfl), hostWrites_idle hp hlt h4 (by rw [hr]; rfl)⟩

/-- A window entry of a valid tree reads as the RAM holds it, and one of another tree as a draw (R60 to R62). -/
theorem hostReads_tree {s : State} {t : RamTree} {off j : Nat} {e : BitVec 10} (hp : s.phase ≠ .busy)
    (h : off < 0x4000) (h4 : off % 4 = 0) (hr : regAt off = .tree t j) (he : ramEntry t j s = e.toNat) :
    (valid t s = true → hostReads off s = .next { s with portData := e.setWidth 32 })
      ∧ (valid t s = false → ∃ v, hostReads off s = .next { s with portData := v, hostDraws := s.hostDraws + 1 }) := by
  refine ⟨fun hv => hostReads_idle hp h h4 ?_, fun hv => hostReads_draw h h4 (.inr ?_)⟩
  · rw [hr, regValue, if_pos hv, he, BitVec.ofNat_toNat]
  · rw [hr, regValue, hv, if_neg Bool.false_ne_true]

/-- Settles O15: each window by its tree. -/
theorem treeWindows : Obligations.TreeWindows := by
  intro s hp
  have hll {j : Nat} (hj : j < 576) := hostReads_tree hp (by omega) (by omega) (regAt_treeLL hj) rfl
  have hd {j : Nat} (hj : j < 64) := hostReads_tree hp (by omega) (by omega) (regAt_treeD hj) rfl
  have hcl {j : Nat} (hj : j < 38) := hostReads_tree hp (by omega) (by omega) (regAt_treeCL hj) rfl
  exact ⟨fun hv j hj => (hll hj).1 hv, fun hv j hj => (hd hj).1 hv, fun hv j hj => (hcl hj).1 hv,
    fun hv j hj => (hll hj).2 hv, fun hv j hj => (hd hj).2 hv, fun hv j hj => (hcl hj).2 hv⟩

/-- Settles O16: the four registers below 0x010 read their values, any other offset reads a draw. -/
theorem readsWhileBusy : Obligations.ReadsWhileBusy := by
  intro s hp
  refine ⟨hostReads_status (by decide) (by decide) rfl,
    hostReads_status (by decide) (by decide) (congrArg some (ctrlWord_eq s)),
    hostReads_status (by decide) (by decide) ?_,
    hostReads_status (by decide) (by decide) (congrArg some (intStatusWord_eq s)),
    fun off h h4 hoff => hostReads_draw h h4 (.inl ⟨hp, hoff⟩)⟩
  refine (congrArg some (statusWord_eq s)).trans ?_
  rw [hp]; rfl

/-- Settles O18: the line is the equation of R340, and the acknowledgement leaves the lifecycle. -/
theorem interrupt : Obligations.Interrupt := by
  intro s w
  have hline (t : State) : irq t = true ↔ t.irqEn = true ∧ (t.done = true ∨ t.err = true) := by simp [irq]
  refine ⟨hline s, fun _ => rfl, fun t ht => ?_, hostWrites_intStatus w s, fun h0 h1 t ht => ?_⟩
  · rw [hostWrites_irqEn (by decide)] at ht
    cases ht
    simpa using hline { s with irqEn := (2#32 : Word).getLsbD 1 }
  · rw [hostWrites_intStatus] at ht
    cases ht
    exact ⟨by simp [irq, writeIntStatus, h0, h1], rfl⟩

end Machine
end Sys2Proof

/-! SUPPORT. What each command writes (O34, O56, O57): one footprint per command, and what every footprint leaves. -/

namespace Sys2Proof
namespace Machine

/-! ### A failed build -/

/-- `BUILD_TREE` where the lengths do not build: some table stands in the RAM, and its valid bit is 0 (R202, R203). -/
theorem exec_buildTree_error {t : RamTree} {s : State} {c : Cause}
    (h : buildTree (lenramLengths (numcodes t) s) (numcodes t) (maxbitlen t) = .error c) :
    ∃ l, exec (.buildTree t) s = .next (((s.setValid t false).setTable t l).tick.enterFailure (.cause c)) := 
  ⟨_, congrArg finish (treeCommit_error h)⟩

/-- Settles O34: the table in the RAM has the RAM's size whatever the build left. -/
theorem buildFailure : Obligations.BuildFailure := by
  intro s c
  refine ⟨fun h => ?_, fun h => ?_, fun h => ?_⟩
  · obtain ⟨l, hl⟩ := exec_buildTree_error (t := .ll) h
    exact ⟨tableOf 576 l, s.draws + 1, length_tableOf _ _, hl⟩
  · obtain ⟨l, hl⟩ := exec_buildTree_error (t := .d) h
    exact ⟨tableOf 64 l, s.draws + 1, length_tableOf _ _, hl⟩
  · obtain ⟨l, hl⟩ := exec_buildTree_error (t := .cl) h
    exact ⟨tableOf 38 l, s.draws + 1, length_tableOf _ _, hl⟩

/-! ### How procedures end -/

/-- Where a procedure returns the state satisfies `P`, and where it fails, `Q`. -/
def Res.EndsIn {α : Type} (P Q : State → Prop) : Res α → Prop
  | .ok _ s => P s
  | .fail _ s => Q s
  | .refuse _ => True

/-- A property of both ends, taken on to each. -/
theorem Res.Ensures.endsIn {α : Type} {R P Q : State → Prop} {r : Res α} (h : r.Ensures R) (hP : ∀ t, R t → P t)
    (hQ : ∀ t, R t → Q t) : r.EndsIn P Q := by
  cases r with
  | ok a t => exact hP t h
  | fail f t => exact hQ t h
  | refuse x => trivial

/-- A command over its regions ends as its operation does, or fails where it began (R95). -/
theorem overRegions_endsIn {P Q : State → Prop} {b : Bool} {body : State → Res Unit} {s : State} (hs : Q s)
    (hbody : ∀ x, Ready b (s.setMerging x) → (body (s.setMerging x)).EndsIn (fun t => P (t.setMerging s.merging))
      fun t => Q (t.setMerging s.merging)) : (overRegions b body s).EndsIn P Q := by
  cases hbad : regionsBad b s with
  | true => rw [overRegions_bad hbad]; exact hs
  | false =>
    cases hplain : regionsPlain s with
    | false => rw [overRegions_refuse hbad hplain]; trivial
    | true =>
      obtain ⟨x, hx⟩ := runAccesses_cases body s
      have h := hbody x ⟨hbad, hplain⟩
      rw [overRegions_ready ⟨hbad, hplain⟩, hx]
      cases hr : body (s.setMerging x) <;> rw [hr] at h <;> exact h

/-! ### What each command writes -/

/-- Neither cursor stands before where it stood. -/
def Forward (s t : State) : Prop := s.bitpos.toNat ≤ t.bitpos.toNat ∧ s.outpos.toNat ≤ t.outpos.toNat

/-- Both cursors stand in the regions of `s`. -/
def CursorsIn (s t : State) : Prop := t.bitpos.toNat ≤ 8 * s.srcLen.toNat ∧ t.outpos.toNat ≤ s.dstCap.toNat

theorem Forward.refl (s : State) : Forward s s := ⟨le_rfl, le_rfl⟩

theorem Runs.forward {s t : State} (h : Runs s t) : Forward s t := ⟨h.bitpos_mono, h.outpos_mono⟩

theorem Runs.cursorsIn {s t : State} (h : Runs s t) : CursorsIn s t :=
  ⟨by rw [← h.keeps.operands.srcLen]; exact h.bounds.bitpos_le,
    by rw [← h.keeps.operands.dstCap]; exact h.bounds.outpos_le⟩

/-- What `BUILD_TREE` writes: the table and the valid bit of its tree (R203). -/
def Rebuilds (r : RamTree) (s t : State) : Prop :=
  ∃ l v d w, t = { (s.setTable r l).setValid r v with draws := d, merging := w }

/-- What `ZLIB_HEADER` writes: the cursors and `STREAM_END` (R281). -/
def StartsStream (s t : State) : Prop :=
  ∃ p o e d w, t = { s with bitpos := p, outpos := o, streamEnd := e, draws := d, merging := w }

/-- The state in which a command completes or fails, by what it has written until then. `RESULT` is written after
that, where a command writes it. -/
def Footprint (i : Instr) (s t : State) : Prop :=
  match i with
  | .nop => Drawn s t
  | .readBits _ => Reads s t ∧ Forward s t
  | .buildTree r => Rebuilds r s t
  | .decodeSymbol _ => Reads s t ∧ Forward s t
  | .readDynTrees => ReadsTrees s t ∧ Forward s t
  | .lzCopy => (∃ j k, Stores j k s t) ∧ Forward s t
  | .inflateBlock => t.result = s.result ∧ Forward s t
  | .zlibHeader => StartsStream s t
  | .inflateZlib => t.result = s.result
  | .paeth => Drawn s t
  | .unfilterLine => ∃ j k, Fills j k s t
  | .unfilterImage => ∃ j k, Fills j k s t

/-- The commands that write `RESULT` when they complete (R193, R206, R301). -/
def writesResult : Instr → Bool
  | .readBits _ | .decodeSymbol _ | .paeth => true
  | _ => false

/-- The commands that leave the cursors in their regions: the inflate side, whose region check asks for it (R95), and
those that start a stream (R280). -/
def boundsCursors (i : Instr) : Bool := checksRegions i == some true || i == .zlibHeader || i == .inflateZlib

/-- The state in which a command completes: its footprint, `RESULT` where it writes it, and the cursors in bounds where
it checks them. -/
structure Completes (i : Instr) (s t : State) : Prop where
  footprint : ∃ u v, Footprint i s u ∧ t = u.setResult v
  result : writesResult i = false → t.result = s.result
  cursors : boundsCursors i = true → CursorsIn s t

theorem Footprint.ofSetMerging {i : Instr} {s t : State} {x y : Option Merging} (h : Footprint i (s.setMerging x) t) :
    Footprint i s (t.setMerging y) := by
  cases i with
  | nop | paeth => obtain ⟨d, w, rfl⟩ := h; exact ⟨d, y, rfl⟩
  | readBits | decodeSymbol => obtain ⟨⟨p, d, w, rfl⟩, hf⟩ := h; exact ⟨⟨p, d, y, rfl⟩, hf⟩
  | buildTree r => obtain ⟨l, v, d, w, rfl⟩ := h; exact ⟨l, v, d, y, rfl⟩
  | readDynTrees =>
    obtain ⟨⟨p, d, w, a, b, c, e, f, g, rfl⟩, hf⟩ := h
    exact ⟨⟨p, d, y, a, b, c, e, f, g, rfl⟩, hf⟩
  | lzCopy =>
    obtain ⟨⟨j, k, m, o, d, w, rfl, hm⟩, hf⟩ := h
    exact ⟨⟨j, k, m, o, d, y, rfl, hm⟩, hf⟩
  | inflateBlock | inflateZlib => exact h
  | zlibHeader => obtain ⟨p, o, e, d, w, rfl⟩ := h; exact ⟨p, o, e, d, y, rfl⟩
  | unfilterLine | unfilterImage =>
    obtain ⟨j, k, m, d, w, rfl, hm⟩ := h
    exact ⟨j, k, m, d, y, rfl, hm⟩

theorem Footprint.refl {i : Instr} (h : checksRegions i ≠ none) (s : State) : Footprint i s s := by
  cases i with
  | nop | buildTree | paeth => exact absurd rfl h
  | readBits | decodeSymbol => exact ⟨.refl s, .refl s⟩
  | readDynTrees => exact ⟨readsTrees_of_reads (.refl s), .refl s⟩
  | lzCopy => exact ⟨⟨0, 0, .refl 0 0 s⟩, .refl s⟩
  | inflateBlock => exact ⟨rfl, .refl s⟩
  | zlibHeader => exact ⟨_, _, _, _, _, rfl⟩
  | inflateZlib => rfl
  | unfilterLine | unfilterImage => exact ⟨0, 0, .refl 0 0 s⟩

/-- Until it completes, no command has written `RESULT`. -/
theorem Footprint.result {i : Instr} {s t : State} (h : Footprint i s t) : t.result = s.result := by
  cases i with
  | nop | paeth => obtain ⟨d, w, rfl⟩ := h; rfl
  | readBits | decodeSymbol => obtain ⟨⟨p, d, w, rfl⟩, -⟩ := h; rfl
  | buildTree => obtain ⟨l, v, d, w, rfl⟩ := h; rfl
  | readDynTrees => obtain ⟨⟨p, d, w, a, b, c, e, f, g, rfl⟩, -⟩ := h; rfl
  | lzCopy => obtain ⟨⟨j, k, m, o, d, w, rfl, -⟩, -⟩ := h; rfl
  | inflateBlock => exact h.1
  | zlibHeader => obtain ⟨p, o, e, d, w, rfl⟩ := h; rfl
  | inflateZlib => exact h
  | unfilterLine | unfilterImage => obtain ⟨j, k, m, d, w, rfl, -⟩ := h; rfl

theorem setResult_self (s : State) : s.setResult s.result.toNat = s := by simp [State.setResult]

theorem Footprint.completes {i : Instr} {s t : State} (h : Footprint i s t) (hc : boundsCursors i = true → CursorsIn s t) :
    Completes i s t := ⟨⟨t, _, h, (setResult_self t).symm⟩, fun _ => h.result, hc⟩

theorem Footprint.completes_setResult {i : Instr} {s t : State} (h : Footprint i s t) (hi : writesResult i = true)
    (hc : boundsCursors i = true → CursorsIn s t) (v : Nat) : Completes i s (t.setResult v) :=
  ⟨⟨t, v, h, rfl⟩, fun hn => absurd hi (by simp [hn]), hc⟩

theorem Completes.ofSetMerging {i : Instr} {s t : State} {x y : Option Merging} (h : Completes i (s.setMerging x) t) :
    Completes i s (t.setMerging y) := by
  obtain ⟨⟨u, v, hu, rfl⟩, hr, hc⟩ := h
  exact ⟨⟨u.setMerging y, v, hu.ofSetMerging, rfl⟩, hr, hc⟩

/-- A procedure ends as command `i` may. -/
abbrev Res.Prints (i : Instr) (s : State) (r : Res Unit) : Prop := r.EndsIn (Completes i s) (Footprint i s)

theorem Res.Ensures.prints {i : Instr} {s : State} {r : Res Unit}
    (h : r.Ensures fun t => Footprint i s t ∧ (boundsCursors i = true → CursorsIn s t)) : r.Prints i s :=
  h.endsIn (fun _ ht => ht.1.completes ht.2) fun _ ht => ht.1

/-- A command that ends by writing `RESULT`. -/
theorem Res.Ensures.prints_result {i : Instr} {s : State} {r : Res Nat} (hi : writesResult i = true)
    (h : r.Ensures fun t => Footprint i s t ∧ (boundsCursors i = true → CursorsIn s t)) :
    (r.andThen fun v s => .ok () (s.setResult v)).Prints i s := by
  cases r with
  | ok v t => exact h.1.completes_setResult hi h.2 v
  | fail f t => exact h.1
  | refuse x => trivial

/-- A command that begins with the region check. -/
theorem prints_overRegions {i : Instr} {b : Bool} {body : State → Res Unit} {s : State} (hi : checksRegions i ≠ none)
    (h : ∀ u, Ready b u → (body u).Prints i u) : (overRegions b body s).Prints i s :=
  overRegions_endsIn (.refl hi s) fun x hx => by
    have hb := h (s.setMerging x) hx
    cases hr : body (s.setMerging x) with
    | ok u t => rw [hr] at hb; exact Completes.ofSetMerging hb
    | fail f t => rw [hr] at hb; exact Footprint.ofSetMerging hb
    | refuse r => trivial

/-! ### The commands -/

theorem readZlibHeader_reads (s : State) : (readZlibHeader s).Ensures (Reads (streamStart s)) := by
  unfold readZlibHeader; split
  · exact .refl _
  · refine Res.Ensures.andThen Reads.trans ((src_drawn 0 _).mono fun _ => reads_of_drawn) fun b0 t _ _ => ?_
    refine Res.Ensures.andThen Reads.trans ((src_drawn 1 t).mono fun _ => reads_of_drawn) fun b1 u _ _ => ?_
    split
    · exact Reads.refl u
    · split
      · exact Reads.refl u
      · split
        · exact Reads.refl u
        · split
          · exact Reads.refl u
          · exact reads_setBitpos 16 u

theorem startsStream_of_reads {s t : State} (h : Reads (streamStart s) t) : StartsStream s t := by
  obtain ⟨p, d, w, rfl⟩ := h; exact ⟨p, _, _, d, w, rfl⟩

theorem treeCommit_rebuilds (r : RamTree) (len : List Nat) (s : State) : (treeCommit r len s).Ensures (Rebuilds r s) := by
  unfold treeCommit; split
  · exact ⟨_, _, _, _, rfl⟩
  · exact ⟨_, _, _, _, rfl⟩

/-- The geometry check writes nothing (R302). -/
theorem unfGeometry_keeps (s : State) : (unfGeometry s).Ensures fun t => t = s := by
  unfold unfGeometry; split
  · rfl
  · split <;> rfl

/-- An unfilter command stores bytes, and nothing else. -/
theorem unfGeometry_fills {s : State} {f : Geometry → State → Res Unit}
    (hf : ∀ g, ∃ j k, (f g s).Ensures (Fills j k s)) :
    ((unfGeometry s).andThen f).Ensures fun t => ∃ j k, Fills j k s t := by
  have hs := unfGeometry_keeps s
  cases hu : unfGeometry s with
  | ok g t =>
    rw [hu] at hs; cases hs
    obtain ⟨j, k, h⟩ := hf g
    exact h.mono fun _ ht => ⟨j, k, ht⟩
  | fail x t => rw [hu] at hs; cases hs; exact ⟨0, 0, .refl 0 0 s⟩
  | refuse x => trivial

theorem lineOf_fills (s : State) : (lineOf s).Ensures fun t => ∃ j k, Fills j k s t := by
  refine unfGeometry_fills fun g => ⟨s.arg0.toNat * g.lb, s.arg0.toNat * g.lb + g.lb, ?_⟩
  split
  · exact Fills.refl _ _ s
  · exact unfilterLine_fills g _ s

theorem imageOf_fills (s : State) : (imageOf s).Ensures fun t => ∃ j k, Fills j k s t :=
  unfGeometry_fills fun g => ⟨_, _, unfilterLines_fills g _ 0 s⟩

theorem copyArgs_stores (s : State) : (copyArgs s).Ensures fun t => ∃ j k, Stores j k s t := by
  unfold copyArgs; split
  · exact (checkedCopy_stores _ _ s).mono fun _ ht => ⟨_, _, ht⟩
  · exact ⟨0, 0, .refl 0 0 s⟩

theorem copyArgs_runs {s : State} (hb : InBounds s) : (copyArgs s).Ensures (Runs s) := by
  unfold copyArgs; split
  · exact checkedCopy_runs hb _ _
  · exact Runs.refl hb

/-- A procedure of the inflate side moves the cursors forward and keeps them in bounds. -/
theorem Res.Ensures.cursors {α : Type} {p : Prop} {s : State} {R : State → Prop} {r : Res α} (h : r.Ensures R)
    (k : r.Ensures (Runs s)) : r.Ensures fun t => (R t ∧ Forward s t) ∧ (p → CursorsIn s t) :=
  (h.and k).mono fun _ ht => ⟨⟨ht.1, ht.2.forward⟩, fun _ => ht.2.cursorsIn⟩

/-- Every command is `finish` of a procedure that writes only what Footprint says (R170, R174, R175). -/
theorem exec_prints (i : Instr) (s : State) : ∃ r, exec i s = finish r ∧ r.Prints i s := by
  cases i with
  | nop => exact ⟨.ok () s, rfl, Footprint.completes (i := .nop) (Drawn.refl s) nofun⟩
  | paeth =>
    exact ⟨.ok () (s.setResult _), rfl, Footprint.completes_setResult (i := .paeth) (Drawn.refl s) rfl nofun _⟩
  | buildTree r =>
    exact ⟨_, rfl, ((treeCommit_rebuilds r _ s).mono fun _ h => ⟨h, nofun⟩).prints⟩
  | readBits n =>
    refine ⟨_, rfl, ?_⟩
    split
    · exact Footprint.refl (i := .readBits n) nofun s
    · exact prints_overRegions nofun fun u hu =>
        ((checkedRead_reads _ u).cursors (checkedRead_runs (inBounds_of_ready hu) _)).prints_result rfl
  | decodeSymbol t =>
    exact ⟨_, rfl, prints_overRegions nofun fun u hu =>
        ((decodeSymbol_reads t u).cursors (decodeSymbol_runs (inBounds_of_ready hu) t)).prints_result rfl⟩
  | readDynTrees =>
    exact ⟨_, rfl, prints_overRegions nofun fun u hu =>
        ((readDynTrees_readsTrees u).cursors (readDynTrees_runs (inBounds_of_ready hu))).prints (i := .readDynTrees)⟩
  | lzCopy =>
    exact ⟨_, rfl, prints_overRegions nofun fun u hu =>
        ((copyArgs_stores u).cursors (copyArgs_runs (inBounds_of_ready hu))).prints (i := .lzCopy)⟩
  | inflateBlock =>
    refine ⟨_, rfl, prints_overRegions nofun fun u hu => ?_⟩
    have h := inflateOne_runs (inBounds_of_ready hu)
    exact ((h.mono fun _ k => k.keeps.result).cursors h).prints (i := .inflateBlock)
  | zlibHeader =>
    refine ⟨_, rfl, prints_overRegions nofun fun u hu => ?_⟩
    exact (((readZlibHeader_reads u).and (readZlibHeader_runs hu)).mono fun _ h =>
      ⟨startsStream_of_reads h.1, fun _ => h.2.cursorsIn⟩).prints
  | inflateZlib =>
    refine ⟨_, rfl, prints_overRegions nofun fun u hu => ?_⟩
    have h : ((readZlibHeader u).andThen fun _ s => inflateBlocks s).Ensures (Runs (streamStart u)) :=
      Res.Ensures.andThen Runs.trans (readZlibHeader_runs hu) fun _ t ht _ => inflateBlocks_runs (Runs.refl ht.bounds)
    exact (h.mono fun _ k => ⟨k.keeps.result, fun _ => k.cursorsIn⟩).prints
  | unfilterLine =>
    exact ⟨_, rfl, prints_overRegions nofun fun u _ =>
      ((lineOf_fills u).mono fun _ h => ⟨h, nofun⟩).prints⟩
  | unfilterImage =>
    exact ⟨_, rfl, prints_overRegions nofun fun u _ =>
      ((imageOf_fills u).mono fun _ h => ⟨h, nofun⟩).prints⟩

/-- How a command that ends in a next state ends, by its footprint. -/
theorem exec_footprint {i : Instr} {s t : State} (h : exec i s = .next t) :
    (∃ u, Completes i s u ∧ t = u.complete) ∨ ∃ f u, Footprint i s u ∧ t = u.enterFailure f := by
  obtain ⟨r, hr, hp⟩ := exec_prints i s
  rw [hr] at h
  rcases finish_next h with ⟨u, rfl, rfl⟩ | ⟨f, u, rfl, rfl⟩
  · exact .inl ⟨u, hp, rfl⟩
  · exact .inr ⟨f, u, hp, rfl⟩

/-! ### Which registers a footprint leaves -/

theorem Reads.sameTrees {s t : State} (h : Reads s t) : SameTrees s t := by
  obtain ⟨p, d, w, rfl⟩ := h; constructor <;> rfl

theorem Stores.sameTrees {s t : State} {j k : Nat} (h : Stores j k s t) : SameTrees s t := by
  obtain ⟨m, o, d, w, rfl, -⟩ := h; constructor <;> rfl

theorem StartsStream.sameTrees {s t : State} (h : StartsStream s t) : SameTrees s t := by
  obtain ⟨p, o, e, d, w, rfl⟩ := h; constructor <;> rfl

theorem ReadsTrees.sameBlockStatus {s t : State} (h : ReadsTrees s t) : SameBlockStatus s t := by
  obtain ⟨p, d, w, a, b, c, x, y, z, rfl⟩ := h; constructor <;> rfl

theorem Reads.sameBlockStatus {s t : State} (h : Reads s t) : SameBlockStatus s t :=
  (readsTrees_of_reads h).sameBlockStatus

theorem Stores.sameBlockStatus {s t : State} {j k : Nat} (h : Stores j k s t) : SameBlockStatus s t := by
  obtain ⟨m, o, d, w, rfl, -⟩ := h; constructor <;> rfl

/-- A command that reads no dynamic trees writes a tree RAM only as `BUILD_TREE` of that tree. -/
theorem Footprint.sameTrees_or_rebuilds {i : Instr} {s t : State} (h : Footprint i s t) (hdyn : i ≠ .readDynTrees)
    (hblock : i ≠ .inflateBlock) (hzlib : i ≠ .inflateZlib) :
    SameTrees s t ∨ ∃ r, i = .buildTree r ∧ Rebuilds r s t := by
  cases i with
  | nop | paeth => exact .inl (reads_of_drawn h).sameTrees
  | readBits | decodeSymbol => exact .inl h.1.sameTrees
  | buildTree r => exact .inr ⟨r, rfl, h⟩
  | readDynTrees => exact absurd rfl hdyn
  | lzCopy => obtain ⟨⟨j, k, hs⟩, -⟩ := h; exact .inl hs.sameTrees
  | inflateBlock => exact absurd rfl hblock
  | zlibHeader => exact .inl (StartsStream.sameTrees h)
  | inflateZlib => exact absurd rfl hzlib
  | unfilterLine | unfilterImage => obtain ⟨j, k, hs⟩ := h; exact .inl hs.stores.sameTrees

/-- A tree RAM and its valid bit change only under the commands that build that tree. -/
theorem Footprint.trees {i : Instr} {s t : State} (h : Footprint i s t) (hdyn : i ≠ .readDynTrees)
    (hblock : i ≠ .inflateBlock) (hzlib : i ≠ .inflateZlib) :
    (i ≠ .buildTree .ll → t.llValid = s.llValid ∧ t.treeLL = s.treeLL)
      ∧ (i ≠ .buildTree .d → t.dValid = s.dValid ∧ t.treeD = s.treeD)
      ∧ (i ≠ .buildTree .cl → t.clValid = s.clValid ∧ t.treeCL = s.treeCL) := by
  rcases h.sameTrees_or_rebuilds hdyn hblock hzlib with k | ⟨r, rfl, l, v, d, w, rfl⟩
  · exact ⟨fun _ => ⟨k.llValid, k.treeLL⟩, fun _ => ⟨k.dValid, k.treeD⟩, fun _ => ⟨k.clValid, k.treeCL⟩⟩
  · cases r <;> simp

theorem Footprint.sameBlockStatus {i : Instr} {s t : State} (h : Footprint i s t) (hblock : i ≠ .inflateBlock)
    (hzlib : i ≠ .inflateZlib) (hheader : i ≠ .zlibHeader) : SameBlockStatus s t := by
  cases i with
  | nop | paeth => exact (reads_of_drawn h).sameBlockStatus
  | readBits | decodeSymbol => exact h.1.sameBlockStatus
  | buildTree r => obtain ⟨l, v, d, w, rfl⟩ := h; exact ⟨rfl, rfl, rfl⟩
  | readDynTrees => exact h.1.sameBlockStatus
  | lzCopy => obtain ⟨⟨j, k, hs⟩, -⟩ := h; exact hs.sameBlockStatus
  | inflateBlock => exact absurd rfl hblock
  | zlibHeader => exact absurd rfl hheader
  | inflateZlib => exact absurd rfl hzlib
  | unfilterLine | unfilterImage => obtain ⟨j, k, hs⟩ := h; exact hs.stores.sameBlockStatus

/-- The block status changes only under the commands that inflate blocks, `STREAM_END` also under `ZLIB_HEADER`. -/
theorem Footprint.blockStatus {i : Instr} {s t : State} (h : Footprint i s t) (hblock : i ≠ .inflateBlock)
    (hzlib : i ≠ .inflateZlib) :
    t.bfinal = s.bfinal ∧ t.btype = s.btype ∧ (i ≠ .zlibHeader → t.streamEnd = s.streamEnd) := by
  by_cases hheader : i = .zlibHeader
  · subst hheader
    obtain ⟨p, o, e, d, w, rfl⟩ := h
    exact ⟨rfl, rfl, fun hn => absurd rfl hn⟩
  · have k := h.sameBlockStatus hblock hzlib hheader
    exact ⟨k.bfinal, k.btype, fun _ => k.streamEnd⟩

/-- The commands that read no stream leave the bit cursor. -/
theorem Footprint.bitpos {i : Instr} {s t : State} (h : Footprint i s t)
    (hi : i = .nop ∨ (∃ r, i = .buildTree r) ∨ i = .lzCopy ∨ i = .paeth ∨ i = .unfilterLine ∨ i = .unfilterImage) :
    t.bitpos = s.bitpos := by
  rcases hi with rfl | ⟨r, rfl⟩ | rfl | rfl | rfl | rfl
  · obtain ⟨d, w, rfl⟩ := h; rfl
  · obtain ⟨l, v, d, w, rfl⟩ := h; rfl
  · obtain ⟨⟨j, k, m, o, d, w, rfl, -⟩, -⟩ := h; rfl
  · obtain ⟨d, w, rfl⟩ := h; rfl
  · obtain ⟨j, k, m, d, w, rfl, -⟩ := h; rfl
  · obtain ⟨j, k, m, d, w, rfl, -⟩ := h; rfl

/-- Until it ends, a command that starts no stream moves the cursors only forward. -/
theorem Footprint.forward {i : Instr} {s t : State} (h : Footprint i s t) (hheader : i ≠ .zlibHeader)
    (hzlib : i ≠ .inflateZlib) : Forward s t := by
  cases i with
  | nop | paeth => obtain ⟨d, w, rfl⟩ := h; exact .refl s
  | readBits | decodeSymbol | readDynTrees | lzCopy | inflateBlock => exact h.2
  | buildTree r => obtain ⟨l, v, d, w, rfl⟩ := h; exact .refl s
  | zlibHeader => exact absurd rfl hheader
  | inflateZlib => exact absurd rfl hzlib
  | unfilterLine | unfilterImage => obtain ⟨j, k, m, d, w, rfl, -⟩ := h; exact .refl s

/-- Until it ends, a command that neither copies nor starts a stream leaves the output position. -/
theorem Footprint.outpos {i : Instr} {s t : State} (h : Footprint i s t) (hheader : i ≠ .zlibHeader)
    (hzlib : i ≠ .inflateZlib) (hblock : i ≠ .inflateBlock) (hcopy : i ≠ .lzCopy) : t.outpos = s.outpos := by
  cases i with
  | nop | paeth => obtain ⟨d, w, rfl⟩ := h; rfl
  | readBits | decodeSymbol => obtain ⟨⟨p, d, w, rfl⟩, -⟩ := h; rfl
  | buildTree r => obtain ⟨l, v, d, w, rfl⟩ := h; rfl
  | readDynTrees => obtain ⟨⟨p, d, w, a, b, c, x, y, z, rfl⟩, -⟩ := h; rfl
  | lzCopy => exact absurd rfl hcopy
  | inflateBlock => exact absurd rfl hblock
  | zlibHeader => exact absurd rfl hheader
  | inflateZlib => exact absurd rfl hzlib
  | unfilterLine | unfilterImage => obtain ⟨j, k, m, d, w, rfl, -⟩ := h; rfl

theorem writesResult_eq_false {i : Instr} (hbits : ∀ n, i ≠ .readBits n) (hsym : ∀ r, i ≠ .decodeSymbol r)
    (hpaeth : i ≠ .paeth) : writesResult i = false := by
  cases i with
  | readBits n => exact absurd rfl (hbits n)
  | decodeSymbol r => exact absurd rfl (hsym r)
  | paeth => exact absurd rfl hpaeth
  | _ => rfl

/-- Settles O56: what the footprint leaves, the end of the command leaves too; a failure writes no `RESULT`. -/
theorem registersKept : Obligations.RegistersKept := by
  intro i s t h
  rcases exec_footprint h with ⟨u, ⟨⟨w, v, hw, rfl⟩, hresult, -⟩, rfl⟩ | ⟨f, u, hu, rfl⟩
  · refine ⟨fun hi => hresult ?_, hw.trees, hw.blockStatus⟩
    rcases hi with hp | ⟨hbits, hsym, hpaeth⟩
    · exact nomatch hp
    · exact writesResult_eq_false hbits hsym hpaeth
  · exact ⟨fun _ => hu.result, hu.trees, hu.blockStatus⟩

/-- Settles O57: the end of a command moves no cursor, but for `OUTPOS` when it fails. -/
theorem cursors : Obligations.Cursors := by
  intro i s t h
  rcases exec_footprint h with ⟨u, ⟨⟨w, v, hw, rfl⟩, -, hcursors⟩, rfl⟩ | ⟨f, u, hu, rfl⟩
  · exact ⟨fun hh hz => (hw.forward hh hz).1, hw.bitpos, fun _ hh hz => (hw.forward hh hz).2, fun _ => hw.outpos,
      fun _ hi => hcursors (by simpa [boundsCursors, or_assoc] using hi)⟩
  · have hp : (u.enterFailure f).phase ≠ .idle := nofun
    exact ⟨fun hh hz => (hu.forward hh hz).1, hu.bitpos, fun hi => absurd hi hp, fun hi => absurd hi hp,
      fun hi => absurd hi hp⟩

end Machine
end Sys2Proof

/-! SUPPORT. Host memory and the regions (O7, O17, O19, O20, O27, O28, O54, O55): the two region checks, what a command
leaves of host memory, and the host's own accesses. -/

namespace Sys2Proof
namespace Machine

/-! ### The region check -/

theorem overlap_iff (a n b m : Nat) : overlap a n b m = true ↔ 0 < n ∧ 0 < m ∧ a < b + m ∧ b < a + n := by
  simp [overlap, and_assoc]

/-- The model's check is the one the rule states (R95). -/
theorem regionsBad_iff (b : Bool) (s : State) : regionsBad b s = true ↔ RegionFault b s := by
  simp only [regionsBad, Bool.or_eq_true, Bool.and_eq_true, decide_eq_true_eq, overlap_iff, or_assoc]
  rfl

theorem regionsBad_eq_false {b : Bool} {s : State} (h : ¬ RegionFault b s) : regionsBad b s = false :=
  eq_false_of_ne_true fun hb => h ((regionsBad_iff b s).1 hb)

/-- A command that touches host memory is an operation behind the region check (R95, R173). -/
theorem exec_overRegions {i : Instr} {b : Bool} (hw : WellFormed i) (hi : checksRegions i = some b) (s : State) :
    ∃ body, exec i s = finish (overRegions b body s) := by
  cases i with
  | readBits n =>
    cases hi
    have hn : ¬ Config.readBitsMax < n.toNat := Nat.not_lt.2 (of_decide_eq_true hw)
    exact ⟨_, congrArg finish (if_neg hn)⟩
  | nop | buildTree | paeth => exact nomatch hi
  | decodeSymbol | readDynTrees | lzCopy | inflateBlock | zlibHeader | inflateZlib | unfilterLine | unfilterImage =>
    cases hi; exact ⟨_, rfl⟩

/-- Settles O27: every command that touches host memory stands behind the check, which is the rule's. -/
theorem regionCheck_holds : Obligations.RegionCheck := by
  refine ⟨fun i b s hw hi hf => ?_, fun b s hf hp => regionCheck_ready ⟨regionsBad_eq_false hf, hp⟩, fun i => ?_⟩
  · obtain ⟨body, hbody⟩ := exec_overRegions hw hi s
    rw [hbody, overRegions_bad ((regionsBad_iff b s).2 hf)]; rfl
  · cases i <;> simp [checksRegions]

/-- Settles O28: the operation behind a passed check is refused where a region is no plain memory. -/
theorem sideEffectRegions : Obligations.SideEffectRegions := by
  intro i b s hw hi hf hp
  obtain ⟨body, hbody⟩ := exec_overRegions hw hi s
  rw [hbody, overRegions_refuse (regionsBad_eq_false hf) hp]; rfl

/-! ### What a command leaves of host memory -/

/-- Settles O54: the effect of every command, which its end does not touch. -/
theorem commandFrame : Obligations.CommandFrame := by
  intro i s t h
  obtain ⟨u, hu, rfl | ⟨f, rfl, -⟩⟩ := exec_next h
  · exact ⟨hu.operands.trans (by constructor <;> rfl), hu.bytes, exec_merging h⟩
  · exact ⟨hu.operands.trans (by constructor <;> rfl), hu.bytes, exec_merging h⟩

/-- Settles O7: the command's effect stays in the output region, and so does the settling of its races. -/
theorem stepWritesOnlyOutput : Obligations.StepWritesOnlyOutput := by
  intro s t hmoves hstep
  rw [step, if_pos hmoves] at hstep
  obtain ⟨u, v, hu, hv, rfl⟩ := blockStep_next hstep
  obtain ⟨m, d, hsettle, hread, -⟩ := settleRaces_effect v
  rw [hsettle]
  have hout (a : Nat) : inOutput u a = inOutput s a := inOutput_congr hu.operands a
  rcases hv with rfl | ⟨f, rfl, -⟩
  · exact ⟨fun a ha => (hread a ((hout a).trans ha)).trans (hu.bytes a ha), rfl, nofun⟩
  · exact ⟨fun a ha => (hread a ((hout a).trans ha)).trans (hu.bytes a ha), rfl, nofun⟩

/-- Until it ends, a command that stores nothing has left host memory. -/
theorem Footprint.mem {i : Instr} {s t : State} (h : Footprint i s t)
    (hi : i = .nop ∨ (∃ n, i = .readBits n) ∨ (∃ r, i = .buildTree r) ∨ (∃ r, i = .decodeSymbol r)
        ∨ i = .readDynTrees ∨ i = .zlibHeader ∨ i = .paeth) : t.mem = s.mem := by
  cases i with
  | nop | paeth => obtain ⟨d, w, rfl⟩ := h; rfl
  | readBits | decodeSymbol => obtain ⟨⟨p, d, w, rfl⟩, -⟩ := h; rfl
  | buildTree => obtain ⟨l, v, d, w, rfl⟩ := h; rfl
  | readDynTrees => obtain ⟨⟨p, d, w, a, b, c, e, f, g, rfl⟩, -⟩ := h; rfl
  | zlibHeader => obtain ⟨p, o, e, d, w, rfl⟩ := h; rfl
  | lzCopy | inflateBlock | inflateZlib | unfilterLine | unfilterImage => simp at hi

/-- The bytes a command changes are those its operation changes. -/
theorem outside_of_overRegions {i j : Nat} {b : Bool} {body : State → Res Unit} {s t : State}
    (hbody : ∀ x, Ready b (s.setMerging x) → (body (s.setMerging x)).Ensures fun u => sameOutside s u.mem i j)
    (h : finish (overRegions b body s) = .next t) : sameOutside s t.mem i j := by
  have hends : (overRegions b body s).EndsIn (fun u => sameOutside s u.mem i j) fun u => sameOutside s u.mem i j :=
    overRegions_endsIn (sameOutside_refl s i j) fun x hx => (hbody x hx).endsIn (fun _ hu => hu) fun _ hu => hu
  rcases finish_next h with ⟨u, hu, rfl⟩ | ⟨f, u, hu, rfl⟩ <;> rw [hu] at hends <;> exact hends

theorem Stores.outside {i j : Nat} {s t : State} (h : Stores i j s t) : sameOutside s t.mem i j := by
  obtain ⟨m, o, d, w, rfl, hm⟩ := h; exact hm

theorem Fills.outside {i j : Nat} {s t : State} (h : Fills i j s t) : sameOutside s t.mem i j := h.stores.outside

/-- The inflate side stores only from `OUTPOS` on. -/
theorem Runs.outside {s t : State} (h : Runs s t) : sameOutside s t.mem s.outpos.toNat s.dstCap.toNat := h.bytes

/-- A stream stores from the start of the output region on (R280). -/
theorem Runs.outside_stream {s t : State} (h : Runs (streamStart s) t) : sameOutside s t.mem 0 s.dstCap.toNat := h.bytes

theorem copyArgs_outside (s : State) :
    (copyArgs s).Ensures fun t => sameOutside s t.mem s.outpos.toNat (s.outpos.toNat + s.arg0.toNat) := by
  unfold copyArgs; split
  · exact (checkedCopy_stores _ _ s).mono fun _ => Stores.outside
  · exact sameOutside_refl s _ _

/-- An unfilter operation works with the geometry of the registers, or ends where it began (R302). -/
theorem unfGeometry_andThen {P : State → Prop} {s : State} {f : Geometry → State → Res Unit} (hs : P s)
    (hf : (f (geometry s) s).Ensures P) : ((unfGeometry s).andThen f).Ensures P := by
  unfold unfGeometry; split
  · exact hs
  · split
    · exact hs
    · exact hf

theorem lineOf_outside (s : State) :
    (lineOf s).Ensures fun t => sameOutside s t.mem (s.arg0.toNat * lbOf s) (s.arg0.toNat * lbOf s + lbOf s) := by
  refine unfGeometry_andThen (sameOutside_refl s _ _) ?_
  split
  · exact sameOutside_refl s _ _
  · exact (unfilterLine_fills (geometry s) _ s).mono fun _ => Fills.outside

theorem imageOf_outside (s : State) :
    (imageOf s).Ensures fun t => sameOutside s t.mem 0 (s.unfHeight.toNat * lbOf s) := by
  refine unfGeometry_andThen (sameOutside_refl s _ _) ?_
  have h := unfilterLines_fills (geometry s) s.unfHeight.toNat 0 s
  rw [Nat.zero_mul, Nat.zero_add] at h
  exact h.mono fun _ => Fills.outside

/-- Settles O55: each storing command by the bytes its operation stores, any other by its footprint. -/
theorem storedBytes : Obligations.StoredBytes := by
  intro s t
  refine ⟨fun i hi h => ?_, fun h => ?_, fun h => ?_, fun h => ?_, fun h => ?_, fun h => ?_⟩
  · rcases exec_footprint h with ⟨u, ⟨⟨w, v, hw, rfl⟩, -, -⟩, rfl⟩ | ⟨f, u, hu, rfl⟩
    · exact fun a => congrArg (Memory.read · a) (hw.mem hi)
    · exact fun a => congrArg (Memory.read · a) (hu.mem hi)
  · exact outside_of_overRegions (fun x _ => copyArgs_outside (s.setMerging x)) h
  · exact outside_of_overRegions
      (fun x hx => (inflateOne_runs (inBounds_of_ready hx)).mono fun _ => Runs.outside) h
  · refine outside_of_overRegions (fun x hx => ?_) h
    have hruns : ((readZlibHeader (s.setMerging x)).andThen fun _ u => inflateBlocks u).Ensures
        (Runs (streamStart (s.setMerging x))) :=
      Res.Ensures.andThen Runs.trans (readZlibHeader_runs hx) fun _ _ ht _ => inflateBlocks_runs (Runs.refl ht.bounds)
    exact hruns.mono fun _ hu => hu.outside_stream
  · exact outside_of_overRegions (fun x _ => lineOf_outside (s.setMerging x)) h
  · exact outside_of_overRegions (fun x _ => imageOf_outside (s.setMerging x)) h

/-! ### The host's accesses -/

/-- Settles O17: an access in the register block that is not served has no effect but the 0 it returns. -/
theorem unservedAccesses : Obligations.UnservedAccesses := by
  intro s addr w width hin hn
  obtain ⟨off, hoff, -⟩ := regOffset_some hin
  have hserved := servedOffset_none hin hn
  constructor
  · rw [stepWith_eq (a := .regWrite addr width w) (.inr nofun)]
    simp only [hostAct, portWrite, hserved]
  · rw [stepWith_eq (a := .regRead addr width) (.inr nofun)]
    simp only [hostAct, portRead, hoff, hserved]

/-- The step of a host write outside the register block. -/
theorem stepWith_memWrite {s : State} {addr : Word} (h : ¬ inRegisterBlock s addr) (v : Byte) :
    stepWith (.memWrite addr v) s = .next
      { s with
        mem := s.mem.write addr.toNat v
        raced := if races s addr.toNat then addr.toNat :: s.raced else s.raced } := by
  rw [stepWith_eq (a := .memWrite addr v) (.inr nofun)]
  simp only [hostAct, hostMemWrite, regOffset_none h]

/-- The step of a host read outside the register block. -/
theorem stepWith_memRead {s : State} {addr : Word} (h : ¬ inRegisterBlock s addr) :
    stepWith (.memRead addr) s = .next
      (if races s addr.toNat && inOutput s addr.toNat then { s.hostTick with memData := racingRead addr.toNat s }
      else { s with memData := s.mem.read addr.toNat }) := by
  rw [stepWith_eq (a := .memRead addr) (.inr nofun)]
  simp only [hostAct, hostMemRead, regOffset_none h]

theorem races_eq_true {s : State} {a : Nat} (hb : s.phase = .busy) (h : inSource s a = true ∨ inOutput s a = true) :
    races s a = true := by
  rcases h with h | h <;> simp [races, hb, h]

theorem races_eq_false {s : State} {a : Nat} (h : s.phase ≠ .busy ∨ inSource s a = false ∧ inOutput s a = false) :
    races s a = false := by
  rcases h with h | ⟨h1, h2⟩
  · simp [races, h]
  · simp [races, h1, h2]

/-- A write of a byte, and what a memory reads as after it. -/
theorem write_reads (m : Memory) (a : Nat) (v : Byte) :
    (m.write a v).read a = v ∧ ∀ b, b ≠ a → (m.write a v).read b = m.read b :=
  ⟨by simp, fun b hb => by simp [hb]⟩

/-- A block read returns a free value for a byte that is raced or that a rival may write (R347, R376). -/
theorem dmaRead_disputed {s : State} {a : Nat} (hb : s.busErrors = false) (h : a ∈ s.raced ∨ rivalWrites s a = true) :
    dmaRead a s = .ok (Config.freeByte s.draws) s.tick := by
  have hd : (decide (a ∈ s.raced) || rivalWrites s a) = true := by simpa using h
  rw [dmaRead, busAccess_quiet hb, Res.andThen_ok, if_neg (by decide), if_pos hd]

/-- A block write leaves a free value at a byte that a rival may access (R347). -/
theorem dmaWrite_disputed {s : State} {a : Nat} (hb : s.busErrors = false) (h : rivalTouches s a = true) (v : Byte) :
    dmaWrite a v s = .ok () { s with mem := s.mem.write a (Config.freeByte s.draws), draws := s.draws + 1 } := by
  rw [dmaWrite, busAccess_quiet hb, Res.andThen_ok, if_pos h]; rfl

theorem within_iff (a b n : Nat) : within a b n = true ↔ b ≤ a ∧ a < b + n := by simp [within]

theorem rivalWrites_of_clash {s : State} {r : Rival} (hr : r ∈ s.rivals) (hc : clashes s r = true) {a : Nat}
    (h : r.dstBase ≤ a ∧ a < r.dstBase + r.dstCap) : rivalWrites s a = true :=
  List.any_eq_true.2 ⟨r, hr, by simp only [hc, (within_iff _ _ _).2 h, Bool.and_self]⟩

theorem rivalTouches_of_clash {s : State} {r : Rival} (hr : r ∈ s.rivals) (hc : clashes s r = true) {a : Nat}
    (h : r.dstBase ≤ a ∧ a < r.dstBase + r.dstCap ∨ r.srcBase ≤ a ∧ a < r.srcBase + r.srcLen) :
    rivalTouches s a = true := by
  refine List.any_eq_true.2 ⟨r, hr, ?_⟩
  simp only [hc, Bool.true_and, Bool.or_eq_true, within_iff]
  exact h.symm

/-- The block's step leaves a free value at an output byte that the host has raced (R106 (3)). -/
theorem blockStep_raced {s t : State} {a : Nat} (hr : a ∈ s.raced) (ha : inOutput s a = true)
    (h : blockStep s = .next t) : ∃ d, t.mem.read a = Config.freeByte d := by
  obtain ⟨u, v, hu, hv, rfl⟩ := blockStep_next h
  obtain ⟨hraced, hout⟩ : v.raced = s.raced ∧ inOutput v a = true := by
    have hout := (inOutput_congr hu.operands a).trans ha
    rcases hv with rfl | ⟨f, rfl, -⟩ <;> exact ⟨hu.operands.raced, hout⟩
  rcases settleBytes_read v.raced v a hout with hfree | ⟨hn, -⟩
  · exact hfree
  · exact absurd (hraced ▸ hr) hn

/-- Settles O19: the host's two accesses by whether they race, the block's by whether the byte is disputed. -/
theorem hostMemory : Obligations.HostMemory := by
  intro s addr v hout
  rw [stepWith_memWrite hout, stepWith_memRead hout]
  refine ⟨fun h => ?_, fun h => ?_, fun hb h => ?_, fun hr hb => dmaRead_disputed hb (.inl hr),
    fun hr ha hmoves t hstep => ?_, fun r hr hc hb => ⟨fun h => ?_, fun h => ?_⟩⟩
  · rw [races_eq_false h]; exact ⟨_, rfl, write_reads _ _ _⟩
  · have hfree : (races s addr.toNat && inOutput s addr.toNat) = false := by
      rcases h with h | h
      · rw [races_eq_false (.inl h), Bool.false_and]
      · rw [h, Bool.and_false]
    rw [hfree]; rfl
  · rw [races_eq_true hb h]; exact ⟨_, rfl, write_reads _ _ _⟩
  · rw [step, if_pos hmoves] at hstep
    exact blockStep_raced hr ha hstep
  · exact dmaRead_disputed hb (.inr (rivalWrites_of_clash hr hc h))
  · exact ⟨_, dmaWrite_disputed hb (rivalTouches_of_clash hr hc h) v, write_reads _ _ _⟩

/-- Settles O20: a racing read is the byte of the command's end or the one before it, and a command with no end leaves
the one before it. -/
theorem racingRead_holds : Obligations.RacingRead := by
  intro s addr hout hb hr ha
  have hraces : (races s addr.toNat && inOutput s addr.toNat) = true := by rw [races_eq_true hb (.inr ha), ha]; rfl
  rw [stepWith_memRead hout, hraces]
  refine ⟨racingRead addr.toNat s, rfl, ?_⟩
  rw [racingRead, if_neg hr]
  split
  · rcases commandEnd_cases s with hend | hend
    · exact .inl (by rw [hend])
    · exact .inr ⟨_, hend, rfl⟩
  · exact .inl rfl

end Machine
end Sys2Proof

/-! SUPPORT. Bus errors (O29). A procedure fails on the bus with all but its last step done, a run of single-byte accesses
that returns has met no byte that errs, and a run that meets none does what it does where no error is possible. -/

namespace Sys2Proof
namespace Machine

theorem Res.Ensures.of_ok {α : Type} {P : State → Prop} {r : Res α} {a : α} {t : State} (h : r.Ensures P)
    (hr : r = .ok a t) : P t := by
  subst hr; exact h

theorem Drawn.outpos {s t : State} (h : Drawn s t) : t.outpos = s.outpos := by
  obtain ⟨d, x, rfl⟩ := h; rfl

theorem Fills.outpos {i j : Nat} {s t : State} (h : Fills i j s t) : t.outpos = s.outpos := by
  obtain ⟨m, d, w, rfl, -⟩ := h; rfl

theorem Fills.operands {i j : Nat} {s t : State} (h : Fills i j s t) : SameOperands s t := by
  obtain ⟨m, d, w, rfl, -⟩ := h; constructor <;> rfl

/-! ### Failing on the bus -/

/-- The procedure returns, or fails with `BUS_ERROR` in a state that satisfies `P`. -/
def Res.FailsOnBus {α : Type} (P : State → Prop) : Res α → Prop
  | .ok _ _ => True
  | .fail f t => f = .cause .busError ∧ P t
  | .refuse _ => False

theorem Res.FailsOnBus.mono {α : Type} {P Q : State → Prop} {r : Res α} (h : r.FailsOnBus P) (hPQ : ∀ t, P t → Q t) :
    r.FailsOnBus Q := by
  cases r with
  | ok a t => trivial
  | fail f t => exact ⟨h.1, hPQ t h.2⟩
  | refuse x => exact h

theorem Res.FailsOnBus.andThen {α β : Type} {P : State → Prop} {r : Res α} {f : α → State → Res β}
    (h : r.FailsOnBus P) (hf : ∀ a t, r = .ok a t → (f a t).FailsOnBus P) : (r.andThen f).FailsOnBus P := by
  cases r with
  | ok a t => exact hf a t rfl
  | fail x t => exact h
  | refuse x => exact h

/-- The same for procedures that only draw. -/
theorem Res.FailsOnBus.andThenDrawn {α β : Type} {s : State} {r : Res α} {f : α → State → Res β}
    (h : r.FailsOnBus (Drawn s)) (hr : r.Ensures (Drawn s)) (hf : ∀ a t, (f a t).FailsOnBus (Drawn t)) :
    (r.andThen f).FailsOnBus (Drawn s) := by
  refine h.andThen fun a t ht => ?_
  rw [ht] at hr
  exact (hf a t).mono fun _ => Drawn.trans hr

/-- Where it does not return, it fails. -/
theorem Res.FailsOnBus.eq_raise {α : Type} {P : State → Prop} {r : Res α} (h : r.FailsOnBus P)
    (hn : ∀ a t, r ≠ .ok a t) : ∃ t, P t ∧ r = raise .busError t := by
  cases r with
  | ok a t => exact absurd rfl (hn a t)
  | fail f t => obtain ⟨rfl, ht⟩ := h; exact ⟨t, ht, rfl⟩
  | refuse x => exact h.elim

theorem busAccess_failsOnBus (write : Bool) (a : Nat) (s : State) : (busAccess write a s).FailsOnBus (Drawn s) := by
  unfold busAccess; split
  · split
    · split
      · exact ⟨rfl, drawn_tick s⟩
      · trivial
    · split
      · exact ⟨rfl, drawn_tick s⟩
      · trivial
  · trivial

theorem dmaRead_failsOnBus (a : Nat) (s : State) : (dmaRead a s).FailsOnBus (Drawn s) :=
  (busAccess_failsOnBus false a s).andThen fun _ _ _ => by
    split
    · trivial
    · split <;> trivial

theorem dmaWrite_failsOnBus (a : Nat) (v : Byte) (s : State) : (dmaWrite a v s).FailsOnBus (Drawn s) :=
  (busAccess_failsOnBus true a s).andThen fun _ _ _ => by split <;> trivial

theorem bitsFrom_failsOnBus (p n : Nat) (s : State) : (bitsFrom p n s).FailsOnBus (Drawn s) := by
  induction n generalizing p s with
  | zero => trivial
  | succ n ih =>
    have hbit : (streamBit p s).FailsOnBus (Drawn s) := (dmaRead_failsOnBus _ s).andThen fun _ _ _ => trivial
    exact hbit.andThenDrawn (streamBit_drawn p s) fun _ t =>
      (ih _ t).andThenDrawn (bitsFrom_drawn _ n t) fun _ _ => trivial

theorem neighbour_failsOnBus (b : Bool) (off : Nat) (s : State) : (neighbour b off s).FailsOnBus (Drawn s) := by
  unfold neighbour; split
  · exact (dmaRead_failsOnBus _ s).andThen fun _ _ _ => trivial
  · trivial

theorem unfilterByte_failsOnBus (g : Geometry) (ft y i : Nat) (s : State) :
    (unfilterByte g ft y i s).FailsOnBus (Drawn s) :=
  (dmaRead_failsOnBus _ s).andThenDrawn (src_drawn _ s) fun _ t =>
    (neighbour_failsOnBus _ _ t).andThenDrawn (neighbour_drawn _ _ t) fun _ t =>
      (neighbour_failsOnBus _ _ t).andThenDrawn (neighbour_drawn _ _ t) fun _ t =>
        (neighbour_failsOnBus _ _ t).andThenDrawn (neighbour_drawn _ _ t) fun _ t => dmaWrite_failsOnBus _ _ t

/-! ### The copier, byte by byte -/

/-- One byte of a copy: the read at `back` and the write at the output position (R259). -/
def copyByte (back : Nat) (s : State) : Res Unit :=
  (dst back s).andThen fun b s => dstWrite s.outpos.toNat b s

/-- The back pointer of byte `k` of a copy moves on to that of byte `k + 1` (R259, R260). -/
theorem copyBack_succ {start dist : Nat} (k : Nat) (hd : 1 ≤ dist) (hs : dist ≤ start) :
    (if start ≤ start - dist + k % dist + 1 then start - dist else start - dist + k % dist + 1)
      = start - dist + (k + 1) % dist := by
  have hlt := Nat.mod_lt k hd
  rw [← Nat.mod_add_mod k dist 1]
  by_cases hwrap : k % dist + 1 = dist
  · rw [hwrap, Nat.mod_self, if_pos (by omega)]; rfl
  · rw [Nat.mod_eq_of_lt (show k % dist + 1 < dist by omega), if_neg (by omega)]; rfl

/-- A copy is its first byte, and then the rest. -/
theorem lzLoop_succ {start dist : Nat} (n k : Nat) (hd : 1 ≤ dist) (hs : dist ≤ start) (s : State) :
    lzLoop start dist (n + 1) (start - dist + k % dist) s =
      (copyByte (start - dist + k % dist) s).andThen fun _ t =>
        lzLoop start dist n (start - dist + (k + 1) % dist) (t.setOutpos (t.outpos.toNat + 1)) := by
  rw [lzLoop, copyByte, Res.andThen_assoc, copyBack_succ k hd hs]

/-- A copy is its first `m` bytes, and then the rest. -/
theorem lzLoop_add {start dist : Nat} (m n k : Nat) (hd : 1 ≤ dist) (hs : dist ≤ start) (s : State) :
    lzLoop start dist (m + n) (start - dist + k % dist) s =
      (lzLoop start dist m (start - dist + k % dist) s).andThen fun _ t =>
        lzLoop start dist n (start - dist + (k + m) % dist) t := by
  induction m generalizing k s with
  | zero => rw [Nat.zero_add]; rfl
  | succ m ih =>
    rw [Nat.add_right_comm, lzLoop_succ _ k hd hs, lzLoop_succ _ k hd hs, Res.andThen_assoc]
    simp only [ih (k + 1), Nat.add_assoc, Nat.add_comm 1 m]

theorem copyByte_failsOnBus (back : Nat) (s : State) : (copyByte back s).FailsOnBus (Drawn s) :=
  (dmaRead_failsOnBus _ s).andThenDrawn (dst_drawn back s) fun _ t => dmaWrite_failsOnBus _ _ t

/-- A byte of a copy changes that byte alone. -/
theorem copyByte_fills (back : Nat) (s : State) :
    (copyByte back s).Ensures (Fills s.outpos.toNat (s.outpos.toNat + 1) s) := by
  refine Res.Ensures.andThen Fills.trans ((dst_drawn back s).mono fun _ => fills_of_drawn) fun b t ht _ => ?_
  rw [ht.outpos]
  exact dstWrite_fills le_rfl (Nat.lt_succ_self _) b t

/-- The state in which a copy goes on after a byte. -/
theorem copyByte_advance {back : Nat} {s t : State} {u : Unit} (hc : s.outpos.toNat + 1 < 2 ^ 32)
    (h : copyByte back s = .ok u t) : SameOperands s (t.setOutpos (t.outpos.toNat + 1))
      ∧ (t.setOutpos (t.outpos.toNat + 1)).outpos.toNat = s.outpos.toNat + 1 := by
  have hfill := (copyByte_fills back s).of_ok h
  refine ⟨hfill.operands.trans (procKeeps_setOutpos _ t).operands, ?_⟩
  rw [hfill.outpos]; exact toNat_setOutpos hc

/-- What a copy that fails on the bus has done: some of its bytes. -/
theorem lzLoop_failsOnBus {start dist : Nat} (n k : Nat) (s : State) (hd : 1 ≤ dist) (hs : dist ≤ start)
    (hc : s.outpos.toNat + n < 2 ^ 32) :
    (lzLoop start dist n (start - dist + k % dist) s).FailsOnBus fun t =>
      ∃ j, j < n ∧ Stores s.outpos.toNat (s.outpos.toNat + j) s t ∧ t.outpos.toNat = s.outpos.toNat + j := by
  induction n generalizing k s with
  | zero => trivial
  | succ n ih =>
    rw [lzLoop_succ n k hd hs]
    refine ((copyByte_failsOnBus _ s).mono fun t ht => ?_).andThen fun _ t ht => ?_
    · exact ⟨0, by omega, stores_of_drawn ht, congrArg BitVec.toNat ht.outpos⟩
    · have hfill := ((copyByte_fills _ s).of_ok ht).stores
      have hpos := (copyByte_advance (by omega) ht).2
      refine (ih (k + 1) _ (by rw [hpos]; omega)).mono fun u hu => ?_
      obtain ⟨j, hj, hstores, hu⟩ := hu
      rw [hpos] at hstores hu
      refine ⟨j + 1, by omega, (hfill.mono le_rfl (by omega)).trans ?_, by omega⟩
      exact (stores_setOutpos _ _ _ t).trans (hstores.mono (by omega) (by omega))

/-! ### Single-byte accesses that return -/

/-- Bus errors are possible, and nothing is merged. -/
structure Single (s : State) : Prop where
  possible : s.busErrors = true
  unmerged : s.merging = none

theorem Single.tick {s : State} (h : Single s) : Single s.tick := ⟨h.possible, h.unmerged⟩

theorem Single.setMem {s : State} (h : Single s) (m : Memory) : Single (s.setMem m) := ⟨h.possible, h.unmerged⟩

theorem dmaRead_single {s t : State} {a : Nat} {v : Byte} (hs : Single s) (h : dmaRead a s = .ok v t) :
    a ∉ s.errsRead ∧ Single t ∧ SameOperands s t := by
  have hsame := (procKeeps_of_drawn ((dmaRead_drawn a s).of_ok h)).operands
  by_cases ha : a ∈ s.errsRead
  · rw [dmaRead_errs hs.possible hs.unmerged ha] at h; exact nomatch h
  · refine ⟨ha, ⟨hsame.busErrors.trans hs.possible, ?_⟩, hsame⟩
    rw [dmaRead, busAccess_served hs.possible hs.unmerged ha, Res.andThen_ok, if_neg (by decide)] at h
    split at h <;> cases h <;> exact hs.unmerged

theorem putByte_served (a : Nat) (v : Byte) (s : State) : putByte false a v s = s.setMem (s.mem.write a v) := rfl

theorem dmaWrite_single {s t : State} {a : Nat} {v : Byte} {u : Unit} (hs : Single s) (h : dmaWrite a v s = .ok u t) :
    a ∉ s.errsWrite ∧ Single t := by
  by_cases ha : a ∈ s.errsWrite
  · rw [dmaWrite_errs hs.possible hs.unmerged ha] at h; exact nomatch h
  · refine ⟨ha, ?_⟩
    rw [dmaWrite, busAccess_served hs.possible hs.unmerged ha, Res.andThen_ok, putByte_served, putByte_served] at h
    split at h <;> cases h
    · exact hs.tick.tick.setMem _
    · exact hs.tick.setMem _

theorem neighbour_single {s t : State} {b : Bool} {off v : Nat} (hs : Single s) (h : neighbour b off s = .ok v t) :
    Single t ∧ SameOperands s t := by
  unfold neighbour at h; split at h
  · obtain ⟨w, u, hw, hu⟩ := Res.andThen_eq_ok h
    cases hu
    exact (dmaRead_single hs hw).2
  · cases h; exact ⟨hs, .refl s⟩

/-- A field that was read lies in bytes that do not err. -/
theorem bitsFrom_single {p n v : Nat} {s t : State} (hs : Single s) (h : bitsFrom p n s = .ok v t) :
    ∀ i, i < n → s.srcBase.toNat + (p + i) / 8 ∉ s.errsRead := by
  induction n generalizing p s v t with
  | zero => exact fun i hi => nomatch hi
  | succ n ih =>
    obtain ⟨b, u, hb, h⟩ := Res.andThen_eq_ok h
    obtain ⟨w, x, hw, -⟩ := Res.andThen_eq_ok h
    obtain ⟨c, y, hc, hu⟩ := Res.andThen_eq_ok hb
    cases hu
    obtain ⟨hne, hsingle, hsame⟩ := dmaRead_single hs hc
    intro i hi
    cases i with
    | zero => exact hne
    | succ i =>
      have hrest := ih hsingle hw i (by omega)
      rwa [hsame.srcBase, hsame.errsRead, Nat.add_right_comm] at hrest

theorem copyByte_single {back : Nat} {s t : State} {u : Unit} (hs : Single s) (h : copyByte back s = .ok u t) :
    s.dstBase.toNat + back ∉ s.errsRead ∧ s.dstBase.toNat + s.outpos.toNat ∉ s.errsWrite ∧ Single t := by
  obtain ⟨b, x, hb, h⟩ := Res.andThen_eq_ok h
  obtain ⟨hread, hx, hsame⟩ := dmaRead_single hs hb
  obtain ⟨hwrite, ht⟩ := dmaWrite_single hx h
  have hpos := ((dst_drawn back s).of_ok hb).outpos
  rw [hsame.dstBase, hsame.errsWrite, hpos] at hwrite
  exact ⟨hread, hwrite, ht⟩

/-- A copy that was made reads and writes bytes that do not err. -/
theorem lzLoop_single {start dist n k : Nat} {s t : State} {u : Unit} (hs : Single s) (hd : 1 ≤ dist)
    (hst : dist ≤ start) (hc : s.outpos.toNat + n < 2 ^ 32)
    (h : lzLoop start dist n (start - dist + k % dist) s = .ok u t) : ∀ i, i < n →
      s.dstBase.toNat + (start - dist + (k + i) % dist) ∉ s.errsRead
        ∧ s.dstBase.toNat + (s.outpos.toNat + i) ∉ s.errsWrite := by
  induction n generalizing k s with
  | zero => exact fun i hi => nomatch hi
  | succ n ih =>
    rw [lzLoop_succ n k hd hst] at h
    obtain ⟨_, x, hx, h⟩ := Res.andThen_eq_ok h
    obtain ⟨hread, hwrite, hsingle⟩ := copyByte_single hs hx
    obtain ⟨hsame, hpos⟩ := copyByte_advance (by omega) hx
    have hnext : Single (x.setOutpos (x.outpos.toNat + 1)) := ⟨hsingle.possible, hsingle.unmerged⟩
    intro i hi
    cases i with
    | zero => exact ⟨hread, hwrite⟩
    | succ i =>
      have hrest := ih hnext (by rw [hpos]; omega) h i (by omega)
      rwa [hpos, hsame.dstBase, hsame.errsRead, hsame.errsWrite, Nat.add_right_comm k, Nat.add_right_comm _ 1] at hrest

/-- A byte of a line that was reconstructed is one whose write does not err. -/
theorem unfilterByte_single {g : Geometry} {ft y i : Nat} {s t : State} {u : Unit} (hs : Single s)
    (h : unfilterByte g ft y i s = .ok u t) : s.dstBase.toNat + (y * g.lb + i) ∉ s.errsWrite := by
  obtain ⟨x, t1, h1, h⟩ := Res.andThen_eq_ok h
  obtain ⟨a, t2, h2, h⟩ := Res.andThen_eq_ok h
  obtain ⟨b, t3, h3, h⟩ := Res.andThen_eq_ok h
  obtain ⟨c, t4, h4, h⟩ := Res.andThen_eq_ok h
  obtain ⟨-, hs1, hsame1⟩ := dmaRead_single hs h1
  obtain ⟨hs2, hsame2⟩ := neighbour_single hs1 h2
  obtain ⟨hs3, hsame3⟩ := neighbour_single hs2 h3
  obtain ⟨hs4, hsame4⟩ := neighbour_single hs3 h4
  have hsame := hsame1.trans (hsame2.trans (hsame3.trans hsame4))
  have hwrite := (dmaWrite_single hs4 h).1
  rwa [hsame.dstBase, hsame.errsWrite] at hwrite

/-! ### Runs that meet no error -/

/-- No step of the run fails and no write of it is lost, and no access it has made erred. -/
structure Merging.Clean (g : Merging) : Prop where
  stop : g.stop = none
  erring : g.erring = []
  lost : g.lost = []
  seen : ∀ x ∈ g.seen, x.errs = false

/-- Bus errors are possible, nothing disputes a byte, and the run has met no error: an access errs only where the
platform errs at its own byte. -/
structure Serves (s : State) : Prop where
  possible : s.busErrors = true
  raced : s.raced = []
  apart : rivalsApart s = true
  clean : ∀ g, s.merging = some g → g.Clean

/-- The state in which no error is possible. -/
def State.quietly (s : State) : State := { s with busErrors := false, merging := none, draws := 0 }

theorem Serves.quiet {s : State} (h : Serves s) : Quiet s.quietly := ⟨rfl, h.raced, h.apart⟩

/-- But for the draw counter and the note of merged accesses, the state is the quiet one. -/
theorem setMerging_of_quietly {t q : State} (hb : t.busErrors = true) (h : t.quietly = q) (x : Option Merging) :
    t.setMerging x = { q with busErrors := true, draws := t.draws, merging := x } := by
  subst h; rw [← hb]; rfl

theorem rivalsApart_congr {s t : State} (h : SameOperands s t) : rivalsApart t = rivalsApart s := by
  have hc (r : Rival) : clashes t r = clashes s r := by
    simp only [clashes, h.srcBase, h.srcLen, h.dstBase, h.dstCap]
  simp only [rivalsApart, h.rivals, hc]

theorem Serves.congr {s t : State} (h : Serves s) (hsame : SameOperands s t)
    (hclean : ∀ g, t.merging = some g → g.Clean) : Serves t :=
  ⟨hsame.busErrors.trans h.possible, hsame.raced.trans h.raced, (rivalsApart_congr hsame).trans h.apart, hclean⟩

/-- What a procedure that met no error leaves to the next. -/
structure Served (s t : State) : Prop where
  serves : Serves t
  same : SameOperands s t
  unmerged : s.merging = none → t.merging = none

theorem Served.refl {s : State} (h : Serves s) : Served s s := ⟨h, .refl s, id⟩

theorem Served.trans {s t u : State} (h : Served s t) (k : Served t u) : Served s u :=
  ⟨k.serves, h.same.trans k.same, fun hs => k.unmerged (h.unmerged hs)⟩

theorem served_setOutpos {s : State} (h : Serves s) (p : Nat) : Served s (s.setOutpos p) :=
  ⟨⟨h.possible, h.raced, h.apart, h.clean⟩, (procKeeps_setOutpos p s).operands, id⟩

theorem served_setMem {s : State} (h : Serves s) (m : Memory) : Served s (s.setMem m) :=
  ⟨⟨h.possible, h.raced, h.apart, h.clean⟩, (procKeeps_setMem m s).operands, id⟩

/-- The procedure meets no error, and does what `q` does, which it is where none is possible. -/
def Res.ServedAs {α : Type} (s : State) (r q : Res α) : Prop :=
  ∃ a t, r = .ok a t ∧ q = .ok a t.quietly ∧ Served s t

theorem Res.ServedAs.andThen {α β : Type} {s : State} {r q : Res α} {f g : α → State → Res β} (h : r.ServedAs s q)
    (hf : ∀ a t, r = .ok a t → Served s t → (f a t).ServedAs t (g a t.quietly)) :
    (r.andThen f).ServedAs s (q.andThen g) := by
  obtain ⟨a, t, rfl, rfl, ht⟩ := h
  obtain ⟨b, u, hr, hq, hu⟩ := hf a t rfl ht
  exact ⟨b, u, hr, hq, ht.trans hu⟩

theorem servedAs_ok {α : Type} {s : State} (h : Serves s) (a : α) :
    (Res.ok a s).ServedAs s (.ok a s.quietly) := ⟨a, s, rfl, rfl, .refl h⟩

/-- An access that does not err is served. -/
theorem busAccess_serves {s : State} {write : Bool} {a : Nat} (h : Serves s) (ha : a ∉ errsAt write s) :
    ∃ t, busAccess write a s = .ok false t ∧ Drawn s t ∧ Served s t := by
  cases hm : s.merging with
  | none =>
    refine ⟨s.tick, busAccess_served h.possible hm ha, drawn_tick s, ?_, (procKeeps_tick s).operands, id⟩
    exact h.congr (procKeeps_tick s).operands h.clean
  | some g =>
    have hg := h.clean g hm
    have hstop : g.stop ≠ some g.steps := by rw [hg.stop]; nofun
    have hserved := busAccess_notes h.possible hm hstop write a
    simp only [ha, hg.erring, List.not_mem_nil, decide_false, Bool.and_false, Bool.or_self] at hserved
    have hsame := (procKeeps_tick s).operands.trans (procKeeps_setMerging (some (g.note ⟨write, a, false⟩)) _).operands
    refine ⟨_, hserved, (drawn_tick s).trans (drawn_setMerging _ _), h.congr hsame ?_, hsame, fun hn => ?_⟩
    · rintro g' hg'
      cases hg'
      exact ⟨hg.stop, hg.erring, hg.lost, List.forall_mem_cons.2 ⟨rfl, hg.seen⟩⟩
    · rw [hm] at hn; exact nomatch hn

theorem quietly_of_drawn {s t : State} (h : Drawn s t) : t.quietly = s.quietly := by
  obtain ⟨d, x, rfl⟩ := h; rfl

theorem dmaRead_servedAs {s : State} {a : Nat} (h : Serves s) (ha : a ∉ s.errsRead) :
    (dmaRead a s).ServedAs s (dmaRead a s.quietly) := by
  obtain ⟨t, hbus, hdrawn, ht⟩ := busAccess_serves (write := false) h ha
  have hmem : t.mem = s.mem := by obtain ⟨d, x, rfl⟩ := hdrawn; rfl
  refine ⟨s.mem.read a, t, ?_, ?_, ht⟩
  · rw [dmaRead_of_served hbus ht.serves.raced ht.serves.apart,
      byteSeen_read fun g hg => (ht.serves.clean g hg).lost, hmem]
  · rw [dmaRead_quiet h.quiet, quietly_of_drawn hdrawn]; rfl

theorem dmaWrite_servedAs {s : State} {a : Nat} (h : Serves s) (ha : a ∉ s.errsWrite) (v : Byte) :
    (dmaWrite a v s).ServedAs s (dmaWrite a v s.quietly) := by
  obtain ⟨t, hbus, hdrawn, ht⟩ := busAccess_serves (write := true) h ha
  refine ⟨(), _, dmaWrite_of_served hbus ht.serves.apart v, ?_, ht.trans (served_setMem ht.serves _)⟩
  rw [dmaWrite_quiet h.quiet, ← quietly_of_drawn hdrawn]; rfl

theorem bitsFrom_servedAs {p n : Nat} {s : State} (h : Serves s)
    (hread : ∀ i, i < n → s.srcBase.toNat + (p + i) / 8 ∉ s.errsRead) :
    (bitsFrom p n s).ServedAs s (bitsFrom p n s.quietly) := by
  induction n generalizing p s with
  | zero => exact servedAs_ok h 0
  | succ n ih =>
    have hbit : (streamBit p s).ServedAs s (streamBit p s.quietly) :=
      (dmaRead_servedAs h (hread 0 (Nat.succ_pos n))).andThen fun b t _ ht => servedAs_ok ht.serves _
    refine hbit.andThen fun b t _ ht => (ih ht.serves fun i hi => ?_).andThen fun v u _ hu => servedAs_ok hu.serves _
    rw [ht.same.srcBase, ht.same.errsRead, Nat.add_right_comm]
    exact hread (i + 1) (by omega)

theorem copyByte_servedAs {back : Nat} {s : State} (h : Serves s) (hread : s.dstBase.toNat + back ∉ s.errsRead)
    (hwrite : s.dstBase.toNat + s.outpos.toNat ∉ s.errsWrite) :
    (copyByte back s).ServedAs s (copyByte back s.quietly) := by
  refine (dmaRead_servedAs h hread).andThen fun b t hb ht => ?_
  have hpos := ((dst_drawn back s).of_ok hb).outpos
  refine dmaWrite_servedAs ht.serves ?_ b
  rwa [ht.same.dstBase, ht.same.errsWrite, hpos]

theorem lzLoop_servedAs {start dist n k : Nat} {s : State} (h : Serves s) (hd : 1 ≤ dist) (hst : dist ≤ start)
    (hc : s.outpos.toNat + n < 2 ^ 32)
    (hread : ∀ i, i < n → s.dstBase.toNat + (start - dist + (k + i) % dist) ∉ s.errsRead)
    (hwrite : ∀ i, i < n → s.dstBase.toNat + (s.outpos.toNat + i) ∉ s.errsWrite) :
    (lzLoop start dist n (start - dist + k % dist) s).ServedAs s
      (lzLoop start dist n (start - dist + k % dist) s.quietly) := by
  induction n generalizing k s with
  | zero => exact servedAs_ok h ()
  | succ n ih =>
    rw [lzLoop_succ n k hd hst, lzLoop_succ n k hd hst]
    refine (copyByte_servedAs h (hread 0 (by omega)) (hwrite 0 (by omega))).andThen fun _ t hb ht => ?_
    obtain ⟨hsame, hpos⟩ := copyByte_advance (by omega) hb
    have hnext := served_setOutpos ht.serves (t.outpos.toNat + 1)
    obtain ⟨a, u, hr, hq, hu⟩ := ih (k := k + 1) hnext.serves (by rw [hpos]; omega)
      (fun i hi => by
        rw [hsame.dstBase, hsame.errsRead, Nat.add_right_comm]; exact hread (i + 1) (by omega))
      (fun i hi => by
        rw [hsame.dstBase, hsame.errsWrite, hpos, Nat.add_right_comm]; exact hwrite (i + 1) (by omega))
    exact ⟨a, u, hr, hq, hnext.trans hu⟩

/-- No read of a region errs. -/
def ReadsClear (s : State) : Prop := ∀ a ∈ s.errsRead, inSource s a = false ∧ inOutput s a = false

theorem ReadsClear.congr {s t : State} (h : ReadsClear s) (hsame : SameOperands s t) : ReadsClear t := by
  intro a ha
  rw [hsame.errsRead] at ha
  rw [inOutput_congr hsame, inSource, hsame.srcBase, hsame.srcLen]
  exact h a ha

theorem src_servedAs {i : Nat} {s : State} (h : Serves s) (hr : ReadsClear s) (hi : i < s.srcLen.toNat) :
    (src i s).ServedAs s (src i s.quietly) :=
  dmaRead_servedAs h fun ha => by simpa [inSource, hi] using (hr _ ha).1

theorem neighbour_servedAs {b : Bool} {off : Nat} {s : State} (h : Serves s) (hr : ReadsClear s)
    (hoff : off < s.dstCap.toNat) : (neighbour b off s).ServedAs s (neighbour b off s.quietly) := by
  cases b with
  | false => exact servedAs_ok h 0
  | true =>
    have hread : (dst off s).ServedAs s (dst off s.quietly) :=
      dmaRead_servedAs h fun ha => by simpa [inOutput, hoff] using (hr _ ha).2
    exact hread.andThen fun v t _ ht => servedAs_ok ht.serves _

theorem unfilterByte_servedAs {g : Geometry} {ft y i : Nat} {s : State} (h : Serves s) (hr : ReadsClear s)
    (hsrc : y * (g.lb + 1) + 1 + i < s.srcLen.toNat) (hdst : y * g.lb + i < s.dstCap.toNat)
    (hwrite : s.dstBase.toNat + (y * g.lb + i) ∉ s.errsWrite) :
    (unfilterByte g ft y i s).ServedAs s (unfilterByte g ft y i s.quietly) := by
  have habove : (y - 1) * g.lb + i ≤ y * g.lb + i := Nat.add_le_add_right (Nat.mul_le_mul_right _ (Nat.sub_le y 1)) i
  refine (src_servedAs h hr hsrc).andThen fun x t1 _ h1 => ?_
  refine (neighbour_servedAs h1.serves (hr.congr h1.same) (by rw [h1.same.dstCap]; omega)).andThen fun a t2 _ h2 => ?_
  have h2 := h1.trans h2
  refine (neighbour_servedAs h2.serves (hr.congr h2.same) (by rw [h2.same.dstCap]; omega)).andThen fun b t3 _ h3 => ?_
  have h3 := h2.trans h3
  refine (neighbour_servedAs h3.serves (hr.congr h3.same) (by rw [h3.same.dstCap]; omega)).andThen fun c t4 _ h4 => ?_
  have h4 := h3.trans h4
  refine dmaWrite_servedAs h4.serves ?_ _
  rwa [h4.same.dstBase, h4.same.errsWrite]

/-- The bytes of a line are its first `m` bytes, and then the rest. -/
theorem unfilterBytes_add (g : Geometry) (ft y m n i : Nat) (s : State) :
    unfilterBytes g ft y (m + n) i s =
      (unfilterBytes g ft y m i s).andThen fun _ t => unfilterBytes g ft y n (i + m) t := by
  induction m generalizing i s with
  | zero => rw [Nat.zero_add]; rfl
  | succ m ih =>
    rw [Nat.add_right_comm, unfilterBytes, unfilterBytes, Res.andThen_assoc]
    simp only [ih (i + 1), Nat.add_assoc, Nat.add_comm 1 m]

theorem unfilterBytes_servedAs {g : Geometry} {ft y n i : Nat} {s : State} (h : Serves s) (hr : ReadsClear s)
    (hsrc : y * (g.lb + 1) + 1 + i + n ≤ s.srcLen.toNat) (hdst : y * g.lb + i + n ≤ s.dstCap.toNat)
    (hwrite : ∀ k, i ≤ k → k < i + n → s.dstBase.toNat + (y * g.lb + k) ∉ s.errsWrite) :
    (unfilterBytes g ft y n i s).ServedAs s (unfilterBytes g ft y n i s.quietly) := by
  induction n generalizing i s with
  | zero => exact servedAs_ok h ()
  | succ n ih =>
    refine (unfilterByte_servedAs h hr (by omega) (by omega) (hwrite i le_rfl (by omega))).andThen fun _ t _ ht => ?_
    refine ih ht.serves (hr.congr ht.same) (by rw [ht.same.srcLen]; omega) (by rw [ht.same.dstCap]; omega)
      fun k hk hkn => ?_
    rw [ht.same.dstBase, ht.same.errsWrite]
    exact hwrite k (by omega) (by omega)

/-! ### The run of a command -/

/-- A command whose run of single-byte accesses cannot return fails with `BUS_ERROR`, merged or not (R344). -/
theorem runAccesses_busError {body : State → Res Unit} {s : State} {P : State → Prop} (hb : s.busErrors = true)
    (hfails : ∀ x, (body (s.setMerging x)).FailsOnBus P) (hn : ∀ a t, body (s.setMerging none) ≠ .ok a t) :
    ∃ t, P t ∧ runAccesses body s = raise .busError (t.setMerging s.merging) := by
  obtain ⟨t, ht, hsingle⟩ := (hfails none).eq_raise hn
  cases hmerges : s.merges with
  | false => exact ⟨t, ht, by rw [runAccesses_single hb hmerges, hsingle]; rfl⟩
  | true =>
    rw [runAccesses_merged hb hmerges]
    rcases mergedRun_cases body s with ⟨hbus, hrun⟩ | hrun
    · rw [hrun] at hbus ⊢
      obtain ⟨u, hu, hmerged⟩ := (hfails (some (drawnRun body s))).eq_raise fun a t ht => by
        rw [ht] at hbus; exact nomatch hbus
      exact ⟨u, hu, by rw [hmerged]; rfl⟩
    · exact ⟨t, ht, by rw [hrun, hsingle]; rfl⟩

/-- A command of which no access errs does what it does where no error is possible, merged or not (R100, R344). -/
theorem runAccesses_served {body : State → Res Unit} {s : State} (hb : s.busErrors = true) (hr : s.raced = [])
    (hv : rivalsApart s = true)
    (hbody : ∀ x, Serves (s.setMerging x) → (body (s.setMerging x)).ServedAs (s.setMerging x) (body s.quietly)) :
    ∃ q d, body s.quietly = .ok () q
      ∧ runAccesses body s = .ok () { q with busErrors := true, draws := d, merging := s.merging } := by
  obtain ⟨_, t, hsingle, hquiet, ht⟩ := hbody none ⟨hb, hr, hv, nofun⟩
  refine ⟨t.quietly, t.draws, hquiet, ?_⟩
  rw [← setMerging_of_quietly ht.serves.possible rfl]
  cases hmerges : s.merges with
  | false => rw [runAccesses_single hb hmerges, hsingle]; rfl
  | true =>
    obtain ⟨_, u, hstart, -, hu⟩ := hbody (some (.start s.draws none)) ⟨hb, hr, hv, fun g hg => by
      cases hg; exact ⟨rfl, rfl, rfl, nofun⟩⟩
    have hnone : ∀ x ∈ accessesWith body s none, x.errs = false := by
      intro x hx
      rw [accessesWith, hstart] at hx
      cases hm : u.merging with
      | none => simp [noted, hm] at hx
      | some g => exact (hu.serves.clean g hm).seen x (by simpa [noted, hm] using hx)
    have hrun : mergedRun body s = body (s.setMerging none) := by
      rw [mergedRun, drawnRun_none hnone, hstart]; rfl
    rw [runAccesses_merged hb hmerges, hrun, hsingle]; rfl

theorem busErrors_of_drawn {s t : State} (h : Drawn s t) (hb : s.busErrors = true) : t.busErrors = true := by
  obtain ⟨d, x, rfl⟩ := h; exact hb

/-- A procedure that meets no error, and after it one that fails on the bus before it has any effect. -/
theorem Res.ServedAs.andThen_raise {α β : Type} {s : State} {r q : Res α} {f : α → State → Res β} (h : r.ServedAs s q)
    (hf : ∀ a t, q = .ok a t.quietly → Served s t → ∃ u, Drawn t u ∧ f a t = raise .busError u) :
    ∃ a u, r.andThen f = raise .busError u ∧ q = .ok a u.quietly ∧ u.busErrors = true := by
  obtain ⟨a, t, rfl, rfl, ht⟩ := h
  obtain ⟨u, hu, hfail⟩ := hf a t rfl ht
  exact ⟨a, u, hfail, by rw [quietly_of_drawn hu], busErrors_of_drawn hu ht.serves.possible⟩

/-- A command whose single-byte accesses end with a bus error, what it did until then being what it does where no error
is possible. -/
theorem finish_busError {body : State → Res Unit} {s u q : State} (hb : s.busErrors = true) (hm : s.merges = false)
    (hrun : body (s.setMerging none) = raise .busError u) (hu : u.busErrors = true) (hq : u.quietly = q) :
    finish (runAccesses body s) =
      .next (failedWith .busError { q with busErrors := true, draws := u.draws, merging := s.merging }) := by
  rw [runAccesses_single hb hm, hrun, mapState_raise, setMerging_of_quietly hu hq]; rfl

/-! ### `READ_BITS` -/

/-- The operation of `READ_BITS` (R193). -/
def readBitsOf (n : Nat) (s : State) : Res Unit := (checkedRead n s).andThen fun v s => .ok () (s.setResult v)

theorem exec_readBits {n : BitVec 5} {s : State} (hn : n.toNat ≤ 16) (hr : Ready true s) :
    exec (.readBits n) s = finish (runAccesses (readBitsOf n.toNat) s) := by
  rw [← overRegions_ready hr]
  exact congrArg finish (if_neg (Nat.not_lt.2 hn))

/-- A field that lies in the source is read, and `RESULT` takes it. -/
theorem readBitsOf_eq {n : Nat} {s : State} (h : s.bitpos.toNat + n ≤ 8 * s.srcLen.toNat) :
    readBitsOf n s = (bitsFrom s.bitpos.toNat n s).andThen fun v t =>
      .ok () ((t.setBitpos (t.bitpos.toNat + n)).setResult v) := by
  rw [readBitsOf, checkedRead, if_neg (by omega), readBits, Res.andThen_assoc]; rfl

theorem readBits_busError {s : State} {n : BitVec 5} {i : Nat} (hb : s.busErrors = true) (hn : n.toNat ≤ 16)
    (hr : Ready true s) (hfit : s.bitpos.toNat + n.toNat ≤ 8 * s.srcLen.toNat) (hi : i < n.toNat)
    (herr : s.srcBase.toNat + (s.bitpos.toNat + i) / 8 ∈ s.errsRead) :
    ∃ d, exec (.readBits n) s = .next { failedWith .busError s with draws := d } := by
  obtain ⟨t, ⟨d, x, rfl⟩, hrun⟩ := runAccesses_busError (body := readBitsOf n.toNat) (P := Drawn s) hb
    (fun x => by
      rw [readBitsOf_eq (s := s.setMerging x) hfit]
      refine Res.FailsOnBus.andThen ?_ fun _ _ _ => trivial
      exact (bitsFrom_failsOnBus _ _ _).mono fun _ => Drawn.trans (drawn_setMerging x s))
    (fun a t ht => by
      rw [readBitsOf_eq (s := s.setMerging none) hfit] at ht
      obtain ⟨v, u, hv, -⟩ := Res.andThen_eq_ok ht
      exact bitsFrom_single (s := s.setMerging none) ⟨hb, rfl⟩ hv i hi herr)
  exact ⟨d, by rw [exec_readBits hn hr, hrun]; rfl⟩

theorem readBits_completes {s : State} {n : BitVec 5} (hb : s.busErrors = true) (hraced : s.raced = [])
    (hv : rivalsApart s = true) (hn : n.toNat ≤ 16) (hr : Ready true s)
    (hfit : s.bitpos.toNat + n.toNat ≤ 8 * s.srcLen.toNat)
    (hread : ∀ i, i < n.toNat → s.srcBase.toNat + (s.bitpos.toNat + i) / 8 ∉ s.errsRead) :
    ∃ d, exec (.readBits n) s = .next (completed
      { s with
        result := BitVec.ofNat 32 (fieldAt s s.bitpos.toNat n.toNat)
        bitpos := BitVec.ofNat 32 (s.bitpos.toNat + n.toNat)
        draws := d }) := by
  obtain ⟨q, d, hq, hrun⟩ := runAccesses_served (body := readBitsOf n.toNat) hb hraced hv fun x hx => by
    rw [readBitsOf_eq (s := s.setMerging x) hfit, readBitsOf_eq (s := s.quietly) hfit]
    refine (bitsFrom_servedAs hx hread).andThen fun v t _ ht => ?_
    exact ⟨(), _, rfl, rfl, ⟨ht.serves.possible, ht.serves.raced, ht.serves.apart, ht.serves.clean⟩,
      by constructor <;> rfl, id⟩
  have hquiet : Quiet s.quietly := ⟨rfl, hraced, hv⟩
  have hsource : SameSource s s.quietly := ⟨rfl, rfl, fun _ _ => rfl⟩
  have hvalue : fieldAt s.quietly s.bitpos.toNat n.toNat = fieldAt s s.bitpos.toNat n.toNat :=
    fieldAt_congr hsource hfit
  rw [readBitsOf_eq (s := s.quietly) hfit, bitsFrom_quiet hquiet] at hq
  cases hq
  exact ⟨d, by rw [exec_readBits hn hr, hrun, ← hvalue, ← hb]; cases s; rfl⟩

/-! ### `LZ_COPY` -/

/-- The operands of `LZ_COPY` pass the checks of R258 and R262. -/
structure CopyFits (s : State) : Prop where
  length_ge : 3 ≤ s.arg0.toNat
  length_le : s.arg0.toNat ≤ 258
  dist_ge : 1 ≤ s.arg1.toNat
  dist_le : s.arg1.toNat ≤ 32768
  dist_fits : s.arg1.toNat ≤ s.outpos.toNat
  length_fits : s.outpos.toNat + s.arg0.toNat ≤ s.dstCap.toNat

theorem CopyFits.lt {s : State} (h : CopyFits s) : s.outpos.toNat + s.arg0.toNat < 2 ^ 32 :=
  lt_of_le_of_lt h.length_fits s.dstCap.isLt

theorem CopyFits.setMerging {s : State} (h : CopyFits s) (x : Option Merging) : CopyFits (s.setMerging x) :=
  ⟨h.length_ge, h.length_le, h.dist_ge, h.dist_le, h.dist_fits, h.length_fits⟩

theorem CopyFits.quietly {s : State} (h : CopyFits s) : CopyFits s.quietly :=
  ⟨h.length_ge, h.length_le, h.dist_ge, h.dist_le, h.dist_fits, h.length_fits⟩

/-- The operation is then the copy. -/
theorem copyArgs_eq {s : State} (h : CopyFits s) : copyArgs s = lzCopy s.arg0.toNat s.arg1.toNat s := by
  have hlegal : copyArgsLegal s = true := by
    simp [copyArgsLegal, h.length_ge, h.length_le, h.dist_ge, h.dist_le]
  rw [copyArgs, if_pos hlegal, checkedCopy, if_neg (Nat.not_lt.2 h.dist_fits), if_neg (Nat.not_lt.2 h.length_fits)]

/-- The copy begins with its back pointer at byte 0. -/
theorem lzCopy_eq (length dist : Nat) (s : State) : lzCopy length dist s =
    lzLoop s.outpos.toNat dist length (s.outpos.toNat - dist + 0 % dist) s := by rw [lzCopy, Nat.zero_mod]; rfl

/-- A copy is its first `j` bytes, the next one, and then the rest. -/
theorem lzCopy_split {dist : Nat} {s : State} (j n : Nat) (hd : 1 ≤ dist) (hs : dist ≤ s.outpos.toNat) :
    lzCopy (j + (n + 1)) dist s = (lzCopy j dist s).andThen fun _ t =>
      (copyByte (s.outpos.toNat - dist + j % dist) t).andThen fun _ u =>
        lzLoop s.outpos.toNat dist n (s.outpos.toNat - dist + (j + 1) % dist) (u.setOutpos (u.outpos.toNat + 1)) := by
  rw [lzCopy_eq, lzCopy_eq, lzLoop_add j (n + 1) 0 hd hs]
  simp only [Nat.zero_add, lzLoop_succ n j hd hs]

theorem lzCopy_servedAs {length dist : Nat} {s : State} (h : Serves s) (hd : 1 ≤ dist) (hs : dist ≤ s.outpos.toNat)
    (hc : s.outpos.toNat + length < 2 ^ 32)
    (hread : ∀ k, k < length → s.dstBase.toNat + (s.outpos.toNat - dist + k % dist) ∉ s.errsRead)
    (hwrite : ∀ k, k < length → s.dstBase.toNat + (s.outpos.toNat + k) ∉ s.errsWrite) :
    (lzCopy length dist s).ServedAs s (lzCopy length dist s.quietly) := by
  rw [lzCopy_eq, lzCopy_eq]
  exact lzLoop_servedAs h hd hs hc (fun i hi => by rw [Nat.zero_add]; exact hread i hi) hwrite

theorem exec_lzCopy {s : State} (hr : Ready true s) : exec .lzCopy s = finish (runAccesses copyArgs s) :=
  congrArg finish (overRegions_ready hr)

theorem lzCopy_busError {s : State} (hb : s.busErrors = true) (hr : Ready true s) (h : CopyFits s)
    (herr : ∃ k, k < s.arg0.toNat
      ∧ (s.dstBase.toNat + (s.outpos.toNat - s.arg1.toNat + k % s.arg1.toNat) ∈ s.errsRead
        ∨ s.dstBase.toNat + (s.outpos.toNat + k) ∈ s.errsWrite)) :
    ∃ j m d, j < s.arg0.toNat
      ∧ exec .lzCopy s = .next
        { failedWith .busError { s with mem := m, outpos := BitVec.ofNat 32 (s.outpos.toNat + j) } with draws := d }
      ∧ sameOutside s m s.outpos.toNat (s.outpos.toNat + j) := by
  obtain ⟨k, hk, herr⟩ := herr
  obtain ⟨t, ⟨j, hj, ⟨m, o, d, w, rfl, hm⟩, ho⟩, hrun⟩ := runAccesses_busError (body := copyArgs)
    (P := fun t => ∃ j, j < s.arg0.toNat ∧ Stores s.outpos.toNat (s.outpos.toNat + j) s t
      ∧ t.outpos.toNat = s.outpos.toNat + j) hb
    (fun x => by
      rw [copyArgs_eq (h.setMerging x), lzCopy_eq]
      refine (lzLoop_failsOnBus _ 0 (s.setMerging x) h.dist_ge h.dist_fits h.lt).mono ?_
      rintro t ⟨j, hj, hstores, ht⟩
      exact ⟨j, hj, (stores_of_drawn (drawn_setMerging x s)).trans hstores, ht⟩)
    (fun a t ht => by
      rw [copyArgs_eq (h.setMerging none), lzCopy_eq] at ht
      obtain ⟨hread, hwrite⟩ := lzLoop_single (s := s.setMerging none) ⟨hb, rfl⟩ h.dist_ge h.dist_fits h.lt ht k hk
      rw [Nat.zero_add] at hread
      exact herr.elim hread hwrite)
  have ho' : o = BitVec.ofNat 32 (s.outpos.toNat + j) := by rw [← ho]; simp
  subst ho'
  exact ⟨j, m, d, hj, by rw [exec_lzCopy hr, hrun]; rfl, hm⟩

theorem lzCopy_completes {s : State} (hb : s.busErrors = true) (hraced : s.raced = []) (hv : rivalsApart s = true)
    (hr : Ready true s) (h : CopyFits s)
    (hserved : ∀ k, k < s.arg0.toNat →
      s.dstBase.toNat + (s.outpos.toNat - s.arg1.toNat + k % s.arg1.toNat) ∉ s.errsRead
        ∧ s.dstBase.toNat + (s.outpos.toNat + k) ∉ s.errsWrite) :
    ∃ m d, exec .lzCopy s = .next (completed
        { s with mem := m, outpos := BitVec.ofNat 32 (s.outpos.toNat + s.arg0.toNat), draws := d })
      ∧ (∀ k, k < s.arg0.toNat → m.read (s.dstBase.toNat + (s.outpos.toNat + k))
        = s.mem.read (s.dstBase.toNat + (s.outpos.toNat - s.arg1.toNat + k % s.arg1.toNat)))
      ∧ sameOutside s m s.outpos.toNat (s.outpos.toNat + s.arg0.toNat) := by
  obtain ⟨q, d, hq, hrun⟩ := runAccesses_served (body := copyArgs) hb hraced hv fun x hx => by
    rw [copyArgs_eq (h.setMerging x), copyArgs_eq h.quietly]
    exact lzCopy_servedAs hx h.dist_ge h.dist_fits h.lt (fun k hk => (hserved k hk).1) fun k hk => (hserved k hk).2
  obtain ⟨m, hcopy, hbytes, hout⟩ := lzCopy_quiet (s := s.quietly) ⟨rfl, hraced, hv⟩ h.dist_ge h.dist_fits h.length_fits
  rw [copyArgs_eq h.quietly] at hq
  cases hcopy.symm.trans hq
  exact ⟨m, d, by rw [exec_lzCopy hr, hrun, ← hb]; cases s; rfl, hbytes, hout⟩

/-- A byte of a copy whose write errs ends the copy before it has any effect. -/
theorem copyByte_raises {s : State} (hs : Single s) (back : Nat) (herr : s.dstBase.toNat + s.outpos.toNat ∈ s.errsWrite) :
    ∃ u, Drawn s u ∧ copyByte back s = raise .busError u :=
  (copyByte_failsOnBus back s).eq_raise fun _ _ h => (copyByte_single hs h).2.1 herr

/-- A copy of which no read errs fails at the first byte whose write does, the bytes before it copied. -/
theorem lzCopy_raises {length dist j : Nat} {s : State} (h : Serves s) (hm : s.merging = none) (hd : 1 ≤ dist)
    (hs : dist ≤ s.outpos.toNat) (hc : s.outpos.toNat + length ≤ s.dstCap.toNat) (hj : j < length)
    (herr : s.dstBase.toNat + (s.outpos.toNat + j) ∈ s.errsWrite)
    (hwrite : ∀ k, k < j → s.dstBase.toNat + (s.outpos.toNat + k) ∉ s.errsWrite)
    (hread : ∀ a ∈ s.errsRead, inOutput s a = false) :
    ∃ m u, lzCopy length dist s = raise .busError u ∧ u.busErrors = true
      ∧ u.quietly = (s.quietly.setMem m).setOutpos (s.outpos.toNat + j)
      ∧ (∀ k, k < j → m.read (s.dstBase.toNat + (s.outpos.toNat + k)) = outByte s (s.outpos.toNat - dist + k % dist))
      ∧ sameOutside s m s.outpos.toNat (s.outpos.toNat + j) := by
  have hlt := s.dstCap.isLt
  obtain ⟨n, rfl⟩ : ∃ n, length = j + (n + 1) := ⟨length - j - 1, by omega⟩
  have hback (k : Nat) : s.dstBase.toNat + (s.outpos.toNat - dist + k % dist) ∉ s.errsRead := by
    intro ha
    have hk := Nat.mod_lt k hd
    have hin : s.outpos.toNat - dist + k % dist < s.dstCap.toNat := by omega
    simpa [inOutput, hin] using hread _ ha
  obtain ⟨m, hcopy, hbytes, hout⟩ := lzCopy_quiet (length := j) h.quiet hd hs
    (show s.outpos.toNat + j ≤ s.dstCap.toNat by omega)
  have hserved := lzCopy_servedAs (length := j) h hd hs (by omega) (fun k _ => hback k) hwrite
  obtain ⟨_, u, hrun, hquiet, hu⟩ := hserved.andThen_raise
    (f := fun _ t => (copyByte (s.outpos.toNat - dist + j % dist) t).andThen fun _ u =>
      lzLoop s.outpos.toNat dist n (s.outpos.toNat - dist + (j + 1) % dist) (u.setOutpos (u.outpos.toNat + 1)))
    fun _ t hq ht => by
      have hpos : t.outpos.toNat = s.outpos.toNat + j := by
        rw [show t.outpos = t.quietly.outpos from rfl, ← (Res.ok.inj (hcopy.symm.trans hq)).2]
        exact toNat_setOutpos (by show s.outpos.toNat + j < _; omega)
      obtain ⟨u, hu, hfail⟩ := copyByte_raises ⟨ht.serves.possible, ht.unmerged hm⟩ (s.outpos.toNat - dist + j % dist)
        (by rwa [ht.same.dstBase, ht.same.errsWrite, hpos])
      exact ⟨u, hu, by rw [hfail, raise_andThen]⟩
  exact ⟨m, u, (lzCopy_split j n hd hs).trans hrun, hu, (Res.ok.inj (hquiet.symm.trans hcopy)).2, hbytes, hout⟩

/-- By single-byte accesses of which no read errs, the command ends at the first byte whose write does. -/
theorem lzCopy_busError_at {s : State} (hb : s.busErrors = true) (hmerges : s.merges = false) (hraced : s.raced = [])
    (hv : rivalsApart s = true) (hr : Ready true s) (h : CopyFits s) {j : Nat} (hj : j < s.arg0.toNat)
    (herr : s.dstBase.toNat + (s.outpos.toNat + j) ∈ s.errsWrite)
    (hwrite : ∀ k, k < j → s.dstBase.toNat + (s.outpos.toNat + k) ∉ s.errsWrite)
    (hread : ∀ a ∈ s.errsRead, inOutput s a = false) :
    ∃ m d, exec .lzCopy s = .next
        { failedWith .busError { s with mem := m, outpos := BitVec.ofNat 32 (s.outpos.toNat + j) } with draws := d }
      ∧ (∀ k, k < j → m.read (s.dstBase.toNat + (s.outpos.toNat + k))
        = s.mem.read (s.dstBase.toNat + (s.outpos.toNat - s.arg1.toNat + k % s.arg1.toNat)))
      ∧ sameOutside s m s.outpos.toNat (s.outpos.toNat + j) := by
  obtain ⟨m, u, hrun, hu, hq, hbytes, hout⟩ := lzCopy_raises (s := s.setMerging none) ⟨hb, hraced, hv, nofun⟩ rfl
    h.dist_ge h.dist_fits h.length_fits hj herr hwrite hread
  refine ⟨m, u.draws, ?_, hbytes, hout⟩
  rw [exec_lzCopy hr, finish_busError hb hmerges ((copyArgs_eq (h.setMerging none)).trans hrun) hu hq, ← hb]
  cases s; rfl

/-! ### `UNFILTER_LINE` -/

theorem unfGeometry_valid {s : State} (h : geometryValid s) : unfGeometry s = .ok ⟨bwOf s, lbOf s⟩ s := by
  obtain ⟨hbpp, hbpp', hsrc, hdst⟩ := h
  rw [unfGeometry, if_neg (by rw [Config.unfBppMax]; omega), geometry_eq, if_neg (by simp only; omega)]

/-- Line `y` of an image whose geometry is valid lies in the regions (R302). -/
theorem line_in_regions {s : State} (h : geometryValid s) {y : Nat} (hy : y < s.unfHeight.toNat) :
    1 ≤ bwOf s ∧ y * (lbOf s + 1) + (lbOf s + 1) ≤ s.srcLen.toNat ∧ y * lbOf s + lbOf s ≤ s.dstCap.toNat := by
  obtain ⟨hbpp, -, hsrc, hdst⟩ := h
  have hline (w : Nat) : y * w + w ≤ s.unfHeight.toNat * w := by
    rw [← Nat.succ_mul]; exact Nat.mul_le_mul_right w hy
  exact ⟨by unfold bwOf; omega, (hline _).trans hsrc, (hline _).trans hdst⟩

/-- The operation on a line that has bytes, the checks passed (R306, R307). -/
theorem lineOf_eq {s : State} (h : geometryValid s) (hy : s.arg0.toNat < s.unfHeight.toNat) (hlb : lbOf s ≠ 0) :
    lineOf s = (src (s.arg0.toNat * (lbOf s + 1)) s).andThen fun ft t =>
      if 4 < ft.toNat then .fail (.badFilter s.arg0.toNat (lbOf s)) t
      else unfilterBytes ⟨bwOf s, lbOf s⟩ ft.toNat s.arg0.toNat (lbOf s) 0 t := by
  rw [lineOf, unfGeometry_valid h, Res.andThen_ok, if_neg (Nat.not_le.2 hy), unfilterLine, if_neg hlb]

theorem exec_unfilterLine {s : State} (hr : Ready false s) : exec .unfilterLine s = finish (runAccesses lineOf s) :=
  congrArg finish (overRegions_ready hr)

/-- In a quiet state a line's bytes change host memory and nothing else. -/
theorem unfilterBytes_setMem (bw lb ft y n i : Nat) {s : State} (hq : Quiet s) :
    ∃ m, unfilterBytes ⟨bw, lb⟩ ft y n i s = .ok () (s.setMem m) := by
  induction n generalizing i s with
  | zero => exact ⟨s.mem, rfl⟩
  | succ n ih =>
    rw [unfilterBytes, unfilterByte_quiet hq, Res.andThen_ok]
    exact ih (i + 1) (quiet_setMem hq _)

/-- The first `j` bytes of a line are reconstructed before the rest is. -/
theorem unfilterBytes_quiet_first {s : State} (hq : Quiet s) (hr : regionsBad false s = false) (hbw : 1 ≤ bwOf s)
    {y j : Nat} (hs : y * (lbOf s + 1) + (lbOf s + 1) ≤ s.srcLen.toNat) (hc : y * lbOf s + lbOf s ≤ s.dstCap.toNat)
    (hj : j ≤ lbOf s) : ∃ m, unfilterBytes ⟨bwOf s, lbOf s⟩ (filterOf s y) y j 0 s = .ok () (s.setMem m)
      ∧ (∀ i, i < j → reconstructed s m y i) ∧ sameOutside s m (y * lbOf s) (y * lbOf s + j) := by
  obtain ⟨m, hfirst⟩ := unfilterBytes_setMem (bwOf s) (lbOf s) (filterOf s y) y j 0 hq
  obtain ⟨m', hline, hrec, -⟩ := unfilterBytes_quiet hq hr hbw hs hc (lbOf s) 0 (fun _ _ => rfl) (Nat.zero_add _)
  have hsplit := unfilterBytes_add ⟨bwOf s, lbOf s⟩ (filterOf s y) y j (lbOf s - j) 0 s
  rw [Nat.add_sub_cancel' hj, hfirst, Res.andThen_ok] at hsplit
  have hrest := ((unfilterBytes_fills (g := ⟨bwOf s, lbOf s⟩) (i := y * lbOf s + j) (j := y * lbOf s + lbOf s)
    (filterOf s y) (lbOf s - j) (0 + j) (by simp only; omega) (by simp only; omega) (s.setMem m)).of_ok
      (hsplit.symm.trans hline)).outside
  refine ⟨m, hfirst, fun i hi => ?_, ?_⟩
  · exact reconstructed_congr (fun k hk => (hrest _ (.inl (by simp only [State.setMem_dstBase]; omega))).symm)
      (hrec i (Nat.zero_le i) (by omega))
  · exact ((unfilterBytes_fills (g := ⟨bwOf s, lbOf s⟩) _ j 0 le_rfl le_rfl s).of_ok hfirst).outside

/-- The bytes of a line fail at the first one whose write errs, where no read does. -/
theorem unfilterBytes_raises {g : Geometry} {ft y n j : Nat} {s : State} (h : Serves s) (hm : s.merging = none)
    (hr : ReadsClear s) (hsrc : y * (g.lb + 1) + 1 + j ≤ s.srcLen.toNat) (hdst : y * g.lb + j ≤ s.dstCap.toNat)
    (hj : j < n) (herr : s.dstBase.toNat + (y * g.lb + j) ∈ s.errsWrite)
    (hwrite : ∀ k, k < j → s.dstBase.toNat + (y * g.lb + k) ∉ s.errsWrite) :
    ∃ u, unfilterBytes g ft y n 0 s = raise .busError u ∧ u.busErrors = true
      ∧ unfilterBytes g ft y j 0 s.quietly = .ok () u.quietly := by
  obtain ⟨n, rfl⟩ : ∃ k, n = j + (k + 1) := ⟨n - j - 1, by omega⟩
  have hserved := unfilterBytes_servedAs (g := g) (ft := ft) (y := y) (n := j) (i := 0) h hr hsrc hdst
    fun k _ hk => hwrite k (by omega)
  obtain ⟨_, u, hrun, hquiet, hu⟩ := hserved.andThen_raise (f := fun _ t => unfilterBytes g ft y (n + 1) (0 + j) t)
    fun _ t _ ht => by
      obtain ⟨u, hu, hfail⟩ := (unfilterByte_failsOnBus g ft y (0 + j) t).eq_raise fun _ _ hb =>
        unfilterByte_single ⟨ht.serves.possible, ht.unmerged hm⟩ hb
          (by rwa [ht.same.dstBase, ht.same.errsWrite, Nat.zero_add])
      exact ⟨u, hu, by rw [unfilterBytes, hfail, raise_andThen]⟩
  exact ⟨u, (unfilterBytes_add g ft y j (n + 1) 0 s).trans hrun, hu, hquiet⟩

/-- A line of which no read errs fails at the first byte whose write does, the bytes before it reconstructed. -/
theorem lineOf_raises {s : State} (h : Serves s) (hm : s.merging = none) (hr : regionsBad false s = false)
    (hg : geometryValid s) (hy : s.arg0.toNat < s.unfHeight.toNat) (hft : filterOf s s.arg0.toNat ≤ 4) {j : Nat}
    (hj : j < lbOf s) (herr : s.dstBase.toNat + (s.arg0.toNat * lbOf s + j) ∈ s.errsWrite)
    (hwrite : ∀ k, k < j → s.dstBase.toNat + (s.arg0.toNat * lbOf s + k) ∉ s.errsWrite) (hread : ReadsClear s) :
    ∃ m u, lineOf s = raise .busError u ∧ u.busErrors = true ∧ u.quietly = s.quietly.setMem m
      ∧ (∀ i, i < j → reconstructed s m s.arg0.toNat i)
      ∧ sameOutside s m (s.arg0.toNat * lbOf s) (s.arg0.toNat * lbOf s + j) := by
  obtain ⟨hbw, hsrc, hdst⟩ := line_in_regions hg hy
  obtain ⟨ft, t, hfilter, hfilter', ht⟩ := src_servedAs (i := s.arg0.toNat * (lbOf s + 1)) h hread (by omega)
  obtain ⟨hval, hq⟩ := Res.ok.inj (hfilter'.symm.trans (src_quiet h.quiet _))
  have hval : ft.toNat = filterOf s s.arg0.toNat := congrArg BitVec.toNat hval
  obtain ⟨u, hrun, hu, hquiet⟩ := unfilterBytes_raises (g := ⟨bwOf s, lbOf s⟩) (ft := filterOf s s.arg0.toNat)
    (y := s.arg0.toNat) ht.serves (ht.unmerged hm) (hread.congr ht.same) (by rw [ht.same.srcLen]; simp only; omega)
    (by rw [ht.same.dstCap]; simp only; omega) hj (by rwa [ht.same.dstBase, ht.same.errsWrite])
    (by rwa [ht.same.dstBase, ht.same.errsWrite])
  obtain ⟨m, hfirst, hrec, hout⟩ := unfilterBytes_quiet_first h.quiet hr hbw hsrc hdst hj.le
  rw [hq] at hquiet
  refine ⟨m, u, ?_, hu, (Res.ok.inj (hquiet.symm.trans hfirst)).2, hrec, hout⟩
  rw [lineOf_eq hg hy (by omega), hfilter, Res.andThen_ok, hval, if_neg (Nat.not_lt.2 hft), hrun]

/-- By single-byte accesses of which no read errs, the command ends at the first byte whose write does. -/
theorem unfilterLine_busError_at {s : State} (hb : s.busErrors = true) (hmerges : s.merges = false)
    (hraced : s.raced = []) (hv : rivalsApart s = true) (hr : Ready false s) (hg : geometryValid s)
    (hy : s.arg0.toNat < s.unfHeight.toNat) (hft : filterOf s s.arg0.toNat ≤ 4) {j : Nat} (hj : j < lbOf s)
    (herr : s.dstBase.toNat + (s.arg0.toNat * lbOf s + j) ∈ s.errsWrite)
    (hwrite : ∀ k, k < j → s.dstBase.toNat + (s.arg0.toNat * lbOf s + k) ∉ s.errsWrite) (hread : ReadsClear s) :
    ∃ m d, exec .unfilterLine s = .next { failedWith .busError { s with mem := m } with draws := d }
      ∧ (∀ i, i < j → reconstructed s m s.arg0.toNat i)
      ∧ sameOutside s m (s.arg0.toNat * lbOf s) (s.arg0.toNat * lbOf s + j) := by
  obtain ⟨m, u, hrun, hu, hq, hrec, hout⟩ := lineOf_raises (s := s.setMerging none) ⟨hb, hraced, hv, nofun⟩ rfl hr.1 hg
    hy hft hj herr hwrite hread
  refine ⟨m, u.draws, ?_, hrec, hout⟩
  rw [exec_unfilterLine hr, finish_busError hb hmerges hrun hu hq, ← hb]
  cases s; rfl

/-- Settles O29: `READ_BITS` and `LZ_COPY` by whether a byte of theirs errs, and the two writers by their first byte that
does. -/
theorem busError : Obligations.BusError := by
  intro s hb
  refine ⟨fun n i hn hr hfit hi herr => readBits_busError hb hn hr hfit hi herr,
    fun hm hraced hv => ⟨fun j hr h1 h2 h3 h4 h5 h6 hj herr hwrite hread => ?_,
      fun j hr hg hy hft hj herr hwrite hread => ?_⟩,
    fun hr h1 h2 h3 h4 h5 h6 herr => lzCopy_busError hb hr ⟨h1, h2, h3, h4, h5, h6⟩ herr,
    fun hraced hv => ⟨fun n hn hr hfit hread => readBits_completes hb hraced hv hn hr hfit hread,
      fun hr h1 h2 h3 h4 h5 h6 hserved => lzCopy_completes hb hraced hv hr ⟨h1, h2, h3, h4, h5, h6⟩ hserved⟩⟩
  · exact lzCopy_busError_at hb hm hraced hv hr ⟨h1, h2, h3, h4, h5, h6⟩ hj herr hwrite hread
  · exact unfilterLine_busError_at hb hm hraced hv hr hg hy hft hj herr hwrite hread

end Machine
end Sys2Proof

/-! SUPPORT. The command word (O1, O2, O3, O4, O6): a word is the concatenation of its fields, the decoder reads an
operation and its operands from them, and a command is one word. -/

namespace Sys2Proof
namespace Machine

/-! ### The fields of a word -/

/-- The reserved bits 31:21 (R120). -/
def highField (w : Word) : BitVec 11 := w.extractLsb' 21 11

/-- The reserved bits 15:11 (R120). -/
def midField (w : Word) : BitVec 5 := w.extractLsb' 11 5

/-- The word with these fields (R120). -/
def wordOf (high : BitVec 11) (n mid : BitVec 5) (sel : BitVec 3) (op : BitVec 8) : Word :=
  high ++ n ++ mid ++ sel ++ op

theorem toNat_wordOf (high : BitVec 11) (n mid : BitVec 5) (sel : BitVec 3) (op : BitVec 8) :
    (wordOf high n mid sel op).toNat
      = 2 ^ 21 * high.toNat + 2 ^ 16 * n.toNat + 2 ^ 11 * mid.toNat + 2 ^ 8 * sel.toNat + op.toNat := by
  simp only [wordOf, toNat_append_eq_add]; omega

/-- A field of a word as a number. -/
theorem toNat_field (w : Word) (i n : Nat) : (w.extractLsb' i n).toNat = w.toNat / 2 ^ i % 2 ^ n := by
  rw [BitVec.extractLsb'_toNat, Nat.shiftRight_eq_div_pow]

theorem toNat_opField (w : Word) : (opField w).toNat = w.toNat % 256 := by
  rw [opField, toNat_field]; omega

theorem toNat_selField (w : Word) : (selField w).toNat = w.toNat / 2 ^ 8 % 8 := toNat_field w 8 3

theorem toNat_countField (w : Word) : (countField w).toNat = w.toNat / 2 ^ 16 % 32 := toNat_field w 16 5

theorem toNat_midField (w : Word) : (midField w).toNat = w.toNat / 2 ^ 11 % 32 := toNat_field w 11 5

theorem toNat_highField (w : Word) : (highField w).toNat = w.toNat / 2 ^ 21 := by
  have hw := w.isLt
  rw [highField, toNat_field]; omega

/-- Every word is the word of its fields. -/
theorem wordOf_fields (w : Word) : wordOf (highField w) (countField w) (midField w) (selField w) (opField w) = w := by
  apply BitVec.eq_of_toNat_eq
  rw [toNat_wordOf, toNat_highField, toNat_countField, toNat_midField, toNat_selField, toNat_opField]
  omega

section Fields
variable (high : BitVec 11) (n mid : BitVec 5) (sel : BitVec 3) (op : BitVec 8)

@[simp] theorem opField_wordOf : opField (wordOf high n mid sel op) = op := BitVec.extractLsb'_append_eq_right

@[simp] theorem selField_wordOf : selField (wordOf high n mid sel op) = sel := by
  apply BitVec.eq_of_toNat_eq
  have := op.isLt
  rw [toNat_selField, toNat_wordOf]; omega

@[simp] theorem countField_wordOf : countField (wordOf high n mid sel op) = n := by
  apply BitVec.eq_of_toNat_eq
  have := op.isLt
  rw [toNat_countField, toNat_wordOf]; omega

@[simp] theorem midField_wordOf : midField (wordOf high n mid sel op) = mid := by
  apply BitVec.eq_of_toNat_eq
  have := op.isLt
  rw [toNat_midField, toNat_wordOf]; omega

@[simp] theorem highField_wordOf : highField (wordOf high n mid sel op) = high := by
  apply BitVec.eq_of_toNat_eq
  have := op.isLt
  rw [toNat_highField, toNat_wordOf]; omega

end Fields

theorem wordOf_and (h h' : BitVec 11) (n n' m m' : BitVec 5) (l l' : BitVec 3) (o o' : BitVec 8) :
    wordOf h n m l o &&& wordOf h' n' m' l' o' = wordOf (h &&& h') (n &&& n') (m &&& m') (l &&& l') (o &&& o') := by
  show (h ++ n ++ m ++ l ++ o &&& h' ++ n' ++ m' ++ l' ++ o' : BitVec (11 + 5 + 5 + 3 + 8)) = _
  rw [BitVec.and_append, BitVec.and_append, BitVec.and_append, BitVec.and_append]; rfl

/-- A word is 0 when its fields are. -/
theorem wordOf_eq_zero_iff {h : BitVec 11} {n m : BitVec 5} {l : BitVec 3} {o : BitVec 8} :
    wordOf h n m l o = 0#32 ↔ h = 0#11 ∧ n = 0#5 ∧ m = 0#5 ∧ l = 0#3 ∧ o = 0#8 := by
  constructor
  · intro hw
    exact ⟨(highField_wordOf h n m l o).symm.trans (congrArg highField hw),
      (countField_wordOf h n m l o).symm.trans (congrArg countField hw),
      (midField_wordOf h n m l o).symm.trans (congrArg midField hw),
      (selField_wordOf h n m l o).symm.trans (congrArg selField hw),
      (opField_wordOf h n m l o).symm.trans (congrArg opField hw)⟩
  · rintro ⟨rfl, rfl, rfl, rfl, rfl⟩; rfl

/-! ### The decoder -/

/-- A field under a mask that keeps all of it or nothing. -/
theorem and_mask_eq_zero_iff {k : Nat} {p : Prop} [Decidable p] (x : BitVec k) :
    x &&& (if p then 0#k else .allOnes k) = 0#k ↔ (¬ p → x = 0#k) := by
  split <;> simp_all

/-- The bits that the decoder asks to be 0 (R121, R173): the reserved ones, and the fields the operation does not use. -/
theorem unusedBits_eq_zero_iff (op : Op) (w : Word) :
    w &&& 0xFFFFFF00#32 &&& ~~~(allowedBits op) = 0#32 ↔
      highField w = 0#11 ∧ midField w = 0#5 ∧ (op ≠ .readBits → countField w = 0#5)
        ∧ (op ≠ .buildTree → op ≠ .decodeSymbol → selField w = 0#3) := by
  have hmask : (0xFFFFFF00#32 &&& ~~~(allowedBits op) : Word) =
      wordOf (.allOnes 11) (if op = .readBits then 0#5 else .allOnes 5) (.allOnes 5)
        (if op = .buildTree ∨ op = .decodeSymbol then 0#3 else .allOnes 3) 0#8 := by
    cases op <;> decide
  rw [BitVec.and_assoc, hmask]
  nth_rw 1 [← wordOf_fields w]
  rw [wordOf_and, wordOf_eq_zero_iff]
  simp only [BitVec.and_allOnes, and_mask_eq_zero_iff, BitVec.and_zero, not_or, and_imp]
  tauto

theorem opOf_opCode (op : Op) : opOf (opCode op) = some op := by cases op <;> rfl

theorem ramTreeOf_ramTreeCode (t : RamTree) : ramTreeOf (ramTreeCode t) = some t := by cases t <;> rfl

theorem treeSelOf_treeSelCode (t : TreeSel) : treeSelOf (treeSelCode t) = some t := by
  cases t with
  | ram r => cases r <;> rfl
  | fixedLL | fixedD => rfl

/-- One entry of a table of codes. -/
theorem cases_of_ite_eq_some {α : Type} {p : Prop} [Decidable p] {a b : α} {o : Option α}
    (h : (if p then some a else o) = some b) : p ∧ a = b ∨ o = some b := by
  by_cases hp : p
  · rw [if_pos hp] at h; exact .inl ⟨hp, Option.some.inj h⟩
  · rw [if_neg hp] at h; exact .inr h

/-- Only an operation's own code names it (R122). -/
theorem eq_opCode_of_opOf {c : BitVec 8} {op : Op} (h : opOf c = some op) : c = opCode op := by
  unfold opOf at h
  iterate 12 (obtain ⟨hc, rfl⟩ | h := cases_of_ite_eq_some h; · exact hc)
  exact nomatch h

/-- Only a tree's own selector names it (R123). -/
theorem eq_ramTreeCode_of_ramTreeOf {c : BitVec 3} {t : RamTree} (h : ramTreeOf c = some t) : c = ramTreeCode t := by
  unfold ramTreeOf at h
  iterate 3 (obtain ⟨hc, rfl⟩ | h := cases_of_ite_eq_some h; · exact hc)
  exact nomatch h

theorem eq_treeSelCode_of_treeSelOf {c : BitVec 3} {t : TreeSel} (h : treeSelOf c = some t) : c = treeSelCode t := by
  unfold treeSelOf at h
  iterate 2 (obtain ⟨hc, rfl⟩ | h := cases_of_ite_eq_some h; · exact hc)
  obtain ⟨r, hr, rfl⟩ := Option.map_eq_some_iff.1 h
  exact eq_ramTreeCode_of_ramTreeOf hr

/-- The command an operation and its two operand fields make, where the fields are in range (R122 to R124). -/
def commandOf (op : Op) (sel : BitVec 3) (n : BitVec 5) : Option Instr :=
  match op with
  | .nop => some .nop
  | .readBits => if n.toNat ≤ Config.readBitsMax then some (.readBits n) else none
  | .buildTree => (ramTreeOf sel).map .buildTree
  | .decodeSymbol => (treeSelOf sel).map .decodeSymbol
  | .readDynTrees => some .readDynTrees
  | .lzCopy => some .lzCopy
  | .inflateBlock => some .inflateBlock
  | .zlibHeader => some .zlibHeader
  | .inflateZlib => some .inflateZlib
  | .paeth => some .paeth
  | .unfilterLine => some .unfilterLine
  | .unfilterImage => some .unfilterImage

/-- The decoder where the code names an operation and the bits it does not use are 0 (R173). -/
theorem toOption_decode {w : Word} {op : Op} (hop : opField w = opCode op)
    (hunused : w &&& 0xFFFFFF00#32 &&& ~~~(allowedBits op) = 0#32) :
    (decode w).toOption = commandOf op (selField w) (countField w) := by
  unfold decode
  rw [hop, opOf_opCode]
  dsimp only
  rw [if_neg (not_not.2 hunused)]
  cases op with
  | readBits =>
    dsimp only [commandOf]
    split
    · rw [if_neg (by omega)]; rfl
    · rw [if_pos (by omega)]; rfl
  | buildTree => dsimp only [commandOf]; cases ramTreeOf (selField w) <;> rfl
  | decodeSymbol => dsimp only [commandOf]; cases treeSelOf (selField w) <;> rfl
  | _ => rfl

/-- A word that decodes names an operation, and the bits the operation does not use are 0. -/
theorem op_of_decode {w : Word} {i : Instr} (h : decode w = .ok i) :
    ∃ op, opField w = opCode op ∧ w &&& 0xFFFFFF00#32 &&& ~~~(allowedBits op) = 0#32 := by
  unfold decode at h
  split at h
  · exact nomatch h
  · next op hop =>
    split at h
    · exact nomatch h
    · next hunused => exact ⟨op, eq_opCode_of_opOf hop, not_not.1 hunused⟩

/-- The decoder by the fields of the word: the reserved bits, the operation, the fields it does not use, and those it
does (R120 to R124, R173). -/
theorem decode_eq_ok_iff {w : Word} {i : Instr} :
    decode w = .ok i ↔ ∃ op, opField w = opCode op ∧ highField w = 0#11 ∧ midField w = 0#5
      ∧ (op ≠ .readBits → countField w = 0#5) ∧ (op ≠ .buildTree → op ≠ .decodeSymbol → selField w = 0#3)
      ∧ commandOf op (selField w) (countField w) = some i := by
  constructor
  · intro h
    obtain ⟨op, hop, hunused⟩ := op_of_decode h
    have hi := toOption_decode hop hunused
    rw [h] at hi
    obtain ⟨hhigh, hmid, hn, hsel⟩ := (unusedBits_eq_zero_iff op w).1 hunused
    exact ⟨op, hop, hhigh, hmid, hn, hsel, hi.symm⟩
  · rintro ⟨op, hop, hhigh, hmid, hn, hsel, hi⟩
    have h := toOption_decode hop ((unusedBits_eq_zero_iff op w).2 ⟨hhigh, hmid, hn, hsel⟩)
    rw [hi] at h
    cases hd : decode w with
    | ok j => rw [hd] at h; exact congrArg _ (Option.some.inj h)
    | error e => rw [hd] at h; exact nomatch h

/-! ### The encoder -/

/-- A command is the word of its operation and operands, and legal where the operands are in range. -/
theorem encode_of_commandOf {op : Op} {sel : BitVec 3} {n : BitVec 5} {i : Instr} (h : commandOf op sel n = some i)
    (hn : op ≠ .readBits → n = 0#5) (hsel : op ≠ .buildTree → op ≠ .decodeSymbol → sel = 0#3) :
    encode i = commandWord op sel n ∧ WellFormed i := by
  cases op with
  | readBits =>
    obtain ⟨hle, hi⟩ := Option.ite_none_right_eq_some.1 h
    rw [hsel nofun nofun, ← Option.some.inj hi]
    exact ⟨rfl, decide_eq_true hle⟩
  | buildTree =>
    obtain ⟨t, ht, rfl⟩ := Option.map_eq_some_iff.1 h
    rw [hn nofun, eq_ramTreeCode_of_ramTreeOf ht]
    exact ⟨rfl, rfl⟩
  | decodeSymbol =>
    obtain ⟨t, ht, rfl⟩ := Option.map_eq_some_iff.1 h
    rw [hn nofun, eq_treeSelCode_of_treeSelOf ht]
    exact ⟨rfl, rfl⟩
  | _ =>
    rw [hn nofun, hsel nofun nofun, ← Option.some.inj h]
    exact ⟨rfl, rfl⟩

/-- Every command is the word of an operation and of operands in range. -/
theorem commandOf_of_wellFormed {i : Instr} (h : WellFormed i) :
    ∃ op sel n, encode i = commandWord op sel n ∧ commandOf op sel n = some i
      ∧ (op ≠ .readBits → n = 0#5) ∧ (op ≠ .buildTree → op ≠ .decodeSymbol → sel = 0#3) := by
  cases i with
  | readBits n => exact ⟨.readBits, 0#3, n, rfl, if_pos (of_decide_eq_true h), nofun, fun _ _ => rfl⟩
  | buildTree t =>
    have ht := congrArg (Option.map Instr.buildTree) (ramTreeOf_ramTreeCode t)
    exact ⟨.buildTree, ramTreeCode t, 0#5, rfl, ht, fun _ => rfl, nofun⟩
  | decodeSymbol t =>
    have ht := congrArg (Option.map Instr.decodeSymbol) (treeSelOf_treeSelCode t)
    exact ⟨.decodeSymbol, treeSelCode t, 0#5, rfl, ht, fun _ => rfl, nofun⟩
  | _ => exact ⟨_, 0#3, 0#5, rfl, rfl, fun _ => rfl, fun _ _ => rfl⟩

theorem commandWord_eq (op : Op) (sel : BitVec 3) (n : BitVec 5) :
    commandWord op sel n = wordOf 0#11 n 0#5 sel (opCode op) := rfl

/-- Settles O1: the fields of the command's word are those it was made of. -/
theorem decodeEncode : Obligations.DecodeEncode := by
  intro i h
  obtain ⟨op, sel, n, hword, hi, hn, hsel⟩ := commandOf_of_wellFormed h
  rw [hword, commandWord_eq, decode_eq_ok_iff]
  exact ⟨op, by simpa using ⟨hn, hsel, hi⟩⟩

/-- Settles O2: a word whose reserved bits are 0 is the word of its operation and operands. -/
theorem encodeDecode : Obligations.EncodeDecode := by
  intro w i h
  obtain ⟨op, hop, hhigh, hmid, hn, hsel, hi⟩ := decode_eq_ok_iff.1 h
  obtain ⟨hword, hwf⟩ := encode_of_commandOf hi hn hsel
  refine ⟨?_, hwf⟩
  rw [hword, commandWord_eq, ← hop, ← hhigh, ← hmid, wordOf_fields]

/-- Settles O4: each is the word of its command. -/
theorem specWords : Obligations.SpecWords :=
  ⟨decodeEncode .nop rfl, decodeEncode (.readBits 3#5) rfl, decodeEncode (.readBits 7#5) rfl,
    decodeEncode (.buildTree .cl) rfl, decodeEncode (.decodeSymbol (.ram .cl)) rfl,
    decodeEncode (.decodeSymbol .fixedLL) rfl, decodeEncode (.decodeSymbol .fixedD) rfl,
    decodeEncode .readDynTrees rfl, decodeEncode .lzCopy rfl, decodeEncode .inflateBlock rfl,
    decodeEncode .zlibHeader rfl, decodeEncode .inflateZlib rfl, decodeEncode .paeth rfl,
    decodeEncode .unfilterLine rfl, decodeEncode .unfilterImage rfl⟩

/-! ### Legal and illegal words -/

theorem ramTreeOf_isSome (c : BitVec 3) : (ramTreeOf c).isSome = true ↔ c.toNat ≤ 2 := by revert c; decide

theorem treeSelOf_isSome (c : BitVec 3) : (treeSelOf c).isSome = true ↔ c.toNat ≤ 4 := by revert c; decide

/-- The operand fields that make a command (R123, R124). -/
theorem exists_commandOf_iff (op : Op) (sel : BitVec 3) (n : BitVec 5) :
    (∃ i, commandOf op sel n = some i) ↔ (op = .readBits → n.toNat ≤ 16) ∧ (op = .buildTree → sel.toNat ≤ 2)
      ∧ (op = .decodeSymbol → sel.toNat ≤ 4) := by
  rw [← Option.isSome_iff_exists]
  cases op with
  | readBits =>
    by_cases hn : n.toNat ≤ 16 <;> simp [commandOf, Config.readBitsMax, hn]
  | buildTree => simp [commandOf, ramTreeOf_isSome]
  | decodeSymbol => simp [commandOf, treeSelOf_isSome]
  | _ => simp [commandOf]

/-- The legal words by the numbers of their fields (R120 to R124). -/
theorem exists_decode_iff (w : Word) : (∃ i, decode w = .ok i) ↔
    ∃ op, w.toNat % 256 = (opCode op).toNat ∧ w.toNat / 2 ^ 21 = 0 ∧ w.toNat / 2 ^ 11 % 32 = 0
      ∧ (op ≠ .readBits → w.toNat / 2 ^ 16 % 32 = 0)
      ∧ (op ≠ .buildTree → op ≠ .decodeSymbol → w.toNat / 2 ^ 8 % 8 = 0)
      ∧ (op = .readBits → w.toNat / 2 ^ 16 % 32 ≤ 16) ∧ (op = .buildTree → w.toNat / 2 ^ 8 % 8 ≤ 2)
      ∧ (op = .decodeSymbol → w.toNat / 2 ^ 8 % 8 ≤ 4) := by
  simp only [decode_eq_ok_iff, exists_comm (α := Instr), exists_and_left, exists_commandOf_iff, ← BitVec.toNat_inj,
    toNat_opField, toNat_highField, toNat_midField, toNat_countField, toNat_selField]
  rfl

/-- The numbers that are operation codes (R122). -/
theorem exists_opCode {c : Nat} (h : c ≤ 8 ∨ 16 ≤ c ∧ c ≤ 18) : ∃ op, c = (opCode op).toNat := by
  have hcodes : ∀ c, c < 19 → (c ≤ 8 ∨ 16 ≤ c) → (opOf (BitVec.ofNat 8 c)).isSome = true := by decide
  obtain ⟨op, hop⟩ := Option.isSome_iff_exists.1 (hcodes c (by omega) (by omega))
  refine ⟨op, ?_⟩
  rw [← eq_opCode_of_opOf hop, BitVec.toNat_ofNat]; omega

/-- The rows of the opcode table, where the code is that of an operation (R121 to R124). -/
theorem row_iff {op : Op} {c sel n : Nat} (hc : c = (opCode op).toNat) :
    ((op ≠ .readBits → n = 0) ∧ (op ≠ .buildTree → op ≠ .decodeSymbol → sel = 0) ∧ (op = .readBits → n ≤ 16)
        ∧ (op = .buildTree → sel ≤ 2) ∧ (op = .decodeSymbol → sel ≤ 4)) ↔
      c = 0x01 ∧ sel = 0 ∧ n ≤ 16 ∨ c = 0x02 ∧ sel ≤ 2 ∧ n = 0 ∨ c = 0x03 ∧ sel ≤ 4 ∧ n = 0
        ∨ (c = 0x00 ∨ 0x04 ≤ c ∧ c ≤ 0x08 ∨ 0x10 ≤ c ∧ c ≤ 0x12) ∧ sel = 0 ∧ n = 0 := by
  subst hc
  cases op <;> simp [opCode, and_comm]

/-- Settles O3: the rows of the opcode table by the operation whose code the word holds. -/
theorem legalWords : Obligations.LegalWords := by
  intro w
  rw [exists_decode_iff]
  constructor
  · rintro ⟨op, hop, hhigh, hmid, hrow⟩
    exact ⟨hmid, hhigh, (row_iff hop).1 hrow⟩
  · rintro ⟨hmid, hhigh, hrow⟩
    obtain ⟨op, hop⟩ : ∃ op, w.toNat % 256 = (opCode op).toNat := exists_opCode (by omega)
    exact ⟨op, hop, hhigh, hmid, (row_iff hop).2 hrow⟩

/-- Settles O6: the words that O3 leaves; the step of one is the failure entry, and then its races. -/
theorem illegalWords : Obligations.IllegalWords := by
  intro s
  refine ⟨?_, fun hno hmoves => ?_⟩
  · rw [← not_exists, legalWords s.cmd]
    have hop : s.cmd.toNat % 256 < 256 := Nat.mod_lt _ (by decide)
    generalize s.cmd.toNat % 256 = op at *
    generalize s.cmd.toNat / 2 ^ 8 % 8 = sel
    generalize s.cmd.toNat / 2 ^ 16 % 32 = n
    omega
  · have hstep : step s = .next (settleRaces (failedWith .illegalCmd s)) := by
      rw [step, if_pos hmoves, blockStep]
      cases hd : decode s.cmd with
      | ok i => exact absurd hd (hno i)
      | error e => rfl
    exact ⟨hstep, fun hr => hstep.trans (congrArg _ (settleRaces_of_quiet hr))⟩

end Machine
end Sys2Proof

/-! SUPPORT. The decoder and the stream (O36, O37, O47, O60): a symbol that stands at the cursor goes to `RESULT`, the
canonical codes and the fixed ones stand for their symbols, and a stream is its header and then its blocks. -/

namespace Sys2Proof
namespace Machine

/-! ### Canonical codes -/

/-- A command over its regions in a quiet state, whose operation returns there. -/
theorem finish_overRegions_ok {b : Bool} {body : State → Res Unit} {s t : State} (hr : Ready b s) (hq : Quiet s)
    (h : body s = .ok () t) (hm : t.merging = s.merging) : finish (overRegions b body s) = .next (completed t) := by
  rw [overRegions_quiet hr hq.1, h, ← hm, Res.mapState_ok, setMerging_self, finish_ok]; rfl

/-- `DECODE_SYMBOL` where a symbol stands at the cursor (R205, R206). -/
theorem exec_decodeSymbol_some {t : TreeSel} {T : List Nat} {N v q : Nat} {s : State} (hr : Ready true s) (hq : Quiet s)
    (ht : TreeReady t T N s) (hv : symAt T N s s.bitpos.toNat = some (v, q)) :
    exec (.decodeSymbol t) s = .next (completed
      { s with result := BitVec.ofNat 32 v, bitpos := BitVec.ofNat 32 q }) := by
  refine finish_overRegions_ok (t := (s.setBitpos q).setResult v) hr hq ?_ rfl
  rw [decodeSymbol_ready hq ht (regions_of_ready hr.1).1 hv, Res.andThen_ok]

/-- No length of a tree that builds is above the maximum (R195). -/
theorem length_le_of_built {len T : List Nat} {N M : Nat} (h : buildTree len N M = .ok T) : ∀ l ∈ len, l ≤ M := by
  intro l hl
  by_contra hM
  rw [buildTree, if_pos (List.any_eq_true.2 ⟨l, hl, decide_eq_true (Nat.lt_of_not_le hM)⟩)] at h
  exact nomatch h

/-- The assigned code of a used symbol is its canonical code (R198, R199). -/
theorem assignCodes_canonical {len : List Nat} {M sym : Nat} (hs : sym < len.length) (hused : len.getD sym 0 ≠ 0)
    (hM : ∀ l ∈ len, l ≤ M) : (assignCodes len M).getD sym 0 = canonicalCode len sym := assignCodes_getD hs hused hM

/-- `DECODE_SYMBOL` where the canonical code of a used symbol stands at the cursor, and the tree is that of the
lengths (R134, R205, R206). -/
theorem exec_decodeSymbol_canonical {t : TreeSel} {len T : List Nat} {N M sym : Nat} {s : State} (hr : Ready true s)
    (hq : Quiet s) (ht : TreeReady t T N s) (hN : 2 ≤ N) (hlen : len.length ≤ N) (hT : buildTree len N M = .ok T)
    (hs : sym < len.length) (hused : len.getD sym 0 ≠ 0)
    (hcode : codeAt s s.bitpos.toNat (canonicalCode len sym) (len.getD sym 0))
    (hfit : s.bitpos.toNat + len.getD sym 0 ≤ 8 * s.srcLen.toNat) :
    exec (.decodeSymbol t) s = .next (completed
      { s with
        result := BitVec.ofNat 32 sym
        bitpos := BitVec.ofNat 32 (s.bitpos.toNat + len.getD sym 0) }) := by
  rw [← assignCodes_canonical hs hused (length_le_of_built hT)] at hcode
  exact exec_decodeSymbol_some hr hq ht (symAt_of_built hN hlen hT hs hused hcode hfit)

/-- Settles O36: the table that stands in the RAM is ready to decode with. -/
theorem canonicalCodesDecode : Obligations.CanonicalCodesDecode := by
  intro s t len T sym hr hq hlen hT htable hvalid hs hused hcode hfit
  obtain ⟨hN, hN'⟩ := numcodes_bounds t
  have hfine := (buildTree_ok hN hlen.le hT).2
  have ht : TreeReady (.ram t) T (numcodes t) s :=
    treeReady_of_built hlen.le hT (by rw [htable, map_toNat_ofNat (by omega) hfine]) hvalid
  exact exec_decodeSymbol_canonical hr hq ht hN hlen.le hT hs hused hcode hfit

/-! ### The fixed codes -/

theorem length_fixedLLLengths : fixedLLLengths.length = 288 := by
  simp only [fixedLLLengths, List.length_append, List.length_replicate]

theorem length_fixedDLengths : fixedDLengths.length = 32 := List.length_replicate

/-- The lengths of the literal/length codes, row by row (R142). -/
theorem fixedLLLengths_getD (sym : Nat) : fixedLLLengths.getD sym 0 =
    if sym < 144 then 8 else if sym < 256 then 9 else if sym < 280 then 7 else if sym < 288 then 8 else 0 := by
  simp only [fixedLLLengths, List.getD_eq_getElem?_getD, List.getElem?_append, List.getElem?_replicate,
    List.length_append, List.length_replicate]
  split_ifs <;> simp only [Option.getD_some, Option.getD_none] <;> omega

/-- The symbols before `sym` that share a length (R199). -/
theorem count_take_fixedLLLengths (sym L : Nat) : (fixedLLLengths.take sym).count L =
    (if L = 8 then min sym 144 + min (sym - 280) 8 else 0) + (if L = 9 then min (sym - 144) 112 else 0)
      + (if L = 7 then min (sym - 256) 24 else 0) := by
  simp only [fixedLLLengths, List.take_append, List.take_replicate, List.count_append, List.count_replicate,
    List.length_append, List.length_replicate, beq_iff_eq]
  split_ifs <;> omega

/-- The first code of each length (R198). -/
theorem firstCode_fixedLLLengths : firstCode fixedLLLengths 7 = 0b0000000 ∧ firstCode fixedLLLengths 8 = 0b00110000
    ∧ firstCode fixedLLLengths 9 = 0b110010000 := by decide +kernel

/-- The rows of the literal/length codes (R143). -/
theorem fixedLL_code {sym code L : Nat}
    (h : sym ≤ 143 ∧ L = 8 ∧ code = 0b00110000 + sym
      ∨ 144 ≤ sym ∧ sym ≤ 255 ∧ L = 9 ∧ code = 0b110010000 + (sym - 144)
      ∨ 256 ≤ sym ∧ sym ≤ 279 ∧ L = 7 ∧ code = sym - 256
      ∨ 280 ≤ sym ∧ sym ≤ 287 ∧ L = 8 ∧ code = 0b11000000 + (sym - 280)) :
    fixedLLLengths.getD sym 0 = L ∧ canonicalCode fixedLLLengths sym = code := by
  obtain ⟨h7, h8, h9⟩ := firstCode_fixedLLLengths
  have hL : fixedLLLengths.getD sym 0 = L := by
    rw [fixedLLLengths_getD]; split_ifs <;> omega
  refine ⟨hL, ?_⟩
  rw [canonicalCode, hL, count_take_fixedLLLengths]
  rcases h with ⟨hs, rfl, hc⟩ | ⟨hs, hs', rfl, hc⟩ | ⟨hs, hs', rfl, hc⟩ | ⟨hs, hs', rfl, hc⟩
  · rw [h8]; simp; omega
  · rw [h9]; simp; omega
  · rw [h7]; simp; omega
  · rw [h8]; simp; omega

/-- The row of the distance codes (R143). -/
theorem fixedD_code {sym : Nat} (h : sym ≤ 31) :
    fixedDLengths.getD sym 0 = 5 ∧ canonicalCode fixedDLengths sym = sym := by
  have hL : fixedDLengths.getD sym 0 = 5 := List.getD_replicate _ (show sym < 32 by omega)
  have hfirst : firstCode fixedDLengths 5 = 0 := by decide
  refine ⟨hL, ?_⟩
  rw [canonicalCode, hL, hfirst, fixedDLengths, List.take_replicate, List.count_replicate_self]
  omega

/-- Settles O37: each constant tree is the one built from its lengths. -/
theorem fixedCodes : Obligations.FixedCodes := by
  intro s sym code L t hr hq hrow
  have hll (ht : t = .fixedLL) : fixedLLLengths.getD sym 0 = L ∧ canonicalCode fixedLLLengths sym = code :=
    fixedLL_code (by subst ht; simpa using hrow)
  have hd (ht : t = .fixedD) : fixedDLengths.getD sym 0 = L ∧ canonicalCode fixedDLengths sym = code := by
    obtain ⟨hs, rfl, rfl⟩ : sym ≤ 31 ∧ L = 5 ∧ code = sym := by subst ht; simpa using hrow
    exact fixedD_code hs
  have hused : L ≠ 0 := by omega
  refine ⟨hll, hd, fun hcode hfit => ?_⟩
  obtain ⟨rfl, hs⟩ | ⟨rfl, hs⟩ : t = .fixedLL ∧ sym < 288 ∨ t = .fixedD ∧ sym < 32 := by
    rcases hrow with h | h | h | h | h
    · exact .inl ⟨h.1, by omega⟩
    · exact .inl ⟨h.1, by omega⟩
    · exact .inl ⟨h.1, by omega⟩
    · exact .inl ⟨h.1, by omega⟩
    · exact .inr ⟨h.1, by omega⟩
  · obtain ⟨hL, hc⟩ := hll rfl
    rw [← hL] at hfit hused ⊢
    rw [← hL, ← hc] at hcode
    exact exec_decodeSymbol_canonical hr hq (treeReady_fixedLL s) (by decide) length_fixedLLLengths.le fixedLL_built
      (length_fixedLLLengths.symm ▸ hs) hused hcode hfit
  · obtain ⟨hL, hc⟩ := hd rfl
    rw [← hL] at hfit hused ⊢
    rw [← hL, ← hc] at hcode
    exact exec_decodeSymbol_canonical hr hq (treeReady_fixedD s) (by decide) length_fixedDLengths.le fixedD_built
      (length_fixedDLengths.symm ▸ hs) hused hcode hfit

/-! ### Streams -/

/-- The state in which the blocks of a stream begin, behind a valid header (R280). -/
def blocksStart (s : State) : State := { s with bitpos := 16#32, outpos := 0#32, streamEnd := false }

theorem streamStart_setBitpos (s : State) : (streamStart s).setBitpos 16 = blocksStart s := rfl

theorem sameOperands_blocksStart (s : State) : SameOperands s (blocksStart s) := by constructor <;> rfl

theorem sameSource_blocksStart (s : State) : SameSource s (blocksStart s) := ⟨rfl, rfl, fun _ _ => rfl⟩

theorem blocksStart_dstCap (s : State) : (blocksStart s).dstCap = s.dstCap := rfl

theorem blocksStart_bitpos (s : State) : (blocksStart s).bitpos.toNat = 16 := rfl

theorem blocksStart_outpos (s : State) : (blocksStart s).outpos.toNat = 0 := rfl

/-- The fuel of the block loop is never short. -/
theorem bitsLeft_fuel (s : State) : 8 * s.srcLen.toNat ≤ s.bitpos.toNat + bitsLeft s := by unfold bitsLeft; omega

/-- Behind a valid header `INFLATE_ZLIB` is its block loop (R282). -/
theorem exec_inflateZlib {s : State} (hr : Ready false s) (hq : Quiet s) (hh : headerValid s) :
    exec .inflateZlib s = finish ((inflateBlocks (blocksStart s)).mapState (State.setMerging s.merging)) := by
  refine congrArg finish ((overRegions_quiet hr hq.1).trans ?_)
  rw [readZlibHeader_quiet hq hh, Res.andThen_ok, streamStart_setBitpos]

/-- The trees of a stream's blocks do not depend on where the stream begins. -/
theorem blocksTrees_blocksStart (bs : List Block) (s : State) :
    blocksTrees bs (blocksStart s) = blocksStart (blocksTrees bs s) := by
  induction bs generalizing s with
  | nil => rfl
  | cons b bs ih =>
    cases b with
    | stored | fixed => exact ih s
    | dynamic T ts => exact ih (withTrees T s)

theorem blocksTrees_merging (bs : List Block) (s : State) : (blocksTrees bs s).merging = s.merging := by
  induction bs generalizing s with
  | nil => rfl
  | cons b bs ih => cases b <;> exact ih _

/-- What the blocks of a whole stream leave. -/
theorem afterBlocks_blocksStart (bs : List Block) (m : Memory) (n q : Nat) (s : State) :
    afterBlocks bs m n q (blocksStart s) = afterBlocks bs m n q s := by
  rw [afterBlocks, afterBlocks, blocksTrees_blocksStart]; rfl

theorem midStream_blocksStart (bs : List Block) (s : State) :
    midStream bs (blocksStart s) = ((midStream bs s).setBitpos 16).setOutpos 0 := by
  rw [midStream, midStream, blocksTrees_blocksStart]
  generalize blocksTrees bs s = u
  rfl

/-- A block's failure sets the cursors itself. -/
theorem failureState_setCursors (f : BlockFailure) (l : List (BitVec 10)) (d p o : Nat) (m : Memory) (s : State) :
    f.state l d m ((s.setBitpos p).setOutpos o) = f.state l d m s := by
  obtain ⟨cause, pos, out, header, trees⟩ := f
  cases trees <;> rfl

theorem failureState_merging (f : BlockFailure) (l : List (BitVec 10)) (d : Nat) (m : Memory) (s : State) :
    (f.state l d m s).merging = s.merging := by
  obtain ⟨cause, pos, out, header, trees⟩ := f
  cases trees <;> rfl

/-- The block loop on a whole stream (R282). -/
theorem inflateBlocks_stream {s : State} {bs : List Block} {out : List Byte} {q : Nat} (hr : Ready false s)
    (hq : Quiet s) (hblocks : blocksAt s s.dstCap.toNat [] 16 bs out q) :
    ∃ m, inflateBlocks (blocksStart s) = .ok () (afterBlocks bs m out.length q s)
      ∧ Wrote (blocksStart s) m [] out 16 q := by
  have hops := sameOperands_blocksStart s
  have hstream := blocksAt_congr (sameSource_blocksStart s) hblocks
  rw [← blocksStart_dstCap, ← blocksStart_bitpos s] at hstream
  obtain ⟨m, hrun, hwrote⟩ := inflateLoop_quiet (out := []) (quiet_of_sameOperands hops hq)
    ((regionsBad_false_congr hops).trans hr.1) (blocksStart_outpos s).symm (Nat.zero_le _) nofun (bitsLeft_fuel _)
    hstream
  rw [afterBlocks_blocksStart] at hrun
  rw [blocksStart_bitpos] at hwrote
  exact ⟨m, hrun, hwrote⟩

/-- Settles O47: a valid header, and then the chain of blocks from bit 16 on with no output before it. -/
theorem inflateZlib : Obligations.InflateZlib := by
  intro s bs out q hr hq hh hblocks
  obtain ⟨m, hrun, hwrote⟩ := inflateBlocks_stream hr hq hblocks
  refine ⟨m, ?_, fun k hk => hwrote.holds k hk, fun a ha => hwrote.outside a ha, hwrote.fits, hwrote.inside⟩
  have hm : (afterBlocks bs m out.length q s).merging = s.merging := blocksTrees_merging bs s
  rw [exec_inflateZlib hr hq hh, hrun, Res.mapState_ok, ← hm, setMerging_self, finish_ok, afterBlocks]
  generalize blocksTrees bs s = u
  rfl

/-- The block loop where a block fails (R282). -/
theorem inflateBlocks_fails {s : State} {bs : List Block} {out : List Byte} {p : Nat} {f : BlockFailure}
    (hr : Ready false s) (hq : Quiet s) (hh : headerValid s) (hblocks : blocksTo s s.dstCap.toNat [] 16 bs out p)
    (hf : blockFails s s.dstCap.toNat out p f) :
    ∃ m l d, l.length = f.trees.size
      ∧ inflateBlocks (blocksStart s) = raise f.cause (f.state l d m (midStream bs s))
      ∧ Left (blocksStart s) m [] f.out := by
  have hops := sameOperands_blocksStart s
  have hlen := hh.1
  have hstream := blocksTo_congr (sameSource_blocksStart s) hblocks
  have hfails := blockFails_congr (sameSource_blocksStart s) hf
  rw [← blocksStart_dstCap, ← blocksStart_bitpos s] at hstream
  rw [← blocksStart_dstCap] at hfails
  obtain ⟨m, l, d, hl, hrun, hleft⟩ := inflateLoop_fails (out := []) (quiet_of_sameOperands hops hq)
    ((regionsBad_false_congr hops).trans hr.1) (by rw [blocksStart_bitpos, hops.srcLen]; omega)
    (blocksStart_outpos s).symm (Nat.zero_le _) nofun rfl (bitsLeft_fuel _) hstream hfails
  rw [midStream_blocksStart, failureState_setCursors] at hrun
  exact ⟨m, l, d, hl, hrun, hleft⟩

/-- Settles O60: a valid header, some blocks that are not final, and then the one that fails. -/
theorem streamFails : Obligations.StreamFails := by
  intro s bs out p f hr hq hh hblocks hf
  obtain ⟨m, l, d, hl, hrun, hleft⟩ := inflateBlocks_fails hr hq hh hblocks hf
  refine ⟨m, l, d, hl, ?_, fun k hk => hleft.holds k hk, fun a ha => hleft.outside a ha⟩
  have hm : (f.state l d m (midStream bs s)).merging = s.merging :=
    (failureState_merging f l d m _).trans (blocksTrees_merging bs s)
  rw [exec_inflateZlib hr hq hh, hrun, mapState_raise, ← hm, setMerging_self, finish_raise]
  generalize f.state l d m (midStream bs s) = u
  rfl

end Machine
end Sys2Proof

/-! SUPPORT. The dispatch (O5, O9, O26, O30): a step runs the decoded command, every command ends by completion or by one
failure entry, and no action of the host but a reset leaves `FAILED`. -/

namespace Sys2Proof
namespace Machine

/-! ### The step -/

/-- Where the host has raced no byte, a command leaves no race to settle. -/
theorem mapNext_settleRaces_exec {s : State} (h : s.raced = []) (i : Instr) :
    mapNext settleRaces (exec i s) = exec i s := by
  cases hexec : exec i s with
  | next t =>
    obtain ⟨hsame, -⟩ := commandFrame i s t hexec
    exact congrArg Host.Outcome.next (settleRaces_of_quiet (hsame.raced.trans h))
  | fault r => rfl
  | refused r => rfl

/-- The step of the block where `CMD` holds a legal command (R173, R176). -/
theorem step_of_decode {s : State} {i : Instr} (hmoves : blockMoves s = true) (hi : decode s.cmd = .ok i) :
    step s = mapNext settleRaces (exec i s) := by
  rw [step, if_pos hmoves, blockStep, hi]

/-- Settles O5: the block's step is by the decoder; where the host has raced no byte there is nothing to settle. -/
theorem stepRunsDecoded : Obligations.StepRunsDecoded := by
  intro s
  refine ⟨fun hidle => ?_, fun i hi => ⟨fun hmoves => step_of_decode hmoves hi, fun hmoves hraced => ?_⟩⟩
  · rw [step, hidle, if_neg Bool.false_ne_true]
  · rw [step_of_decode hmoves hi, mapNext_settleRaces_exec hraced]

/-! ### `FAILED` -/

/-- A register write leaves `FAILED` only where it is one of `CTRL` with `SRESET` set (R69, R70, R172, R371). -/
theorem writeReg_phase_failed {r : Reg} {w : Word} {s : State} (h : s.phase = .failed)
    (hr : ¬ (r = .ctrl ∧ w.getLsbD 0 = true)) : (writeReg r w s).phase = .failed := by
  cases r with
  | ctrl =>
    have hw : ¬ w.getLsbD 0 = true := fun hw => hr ⟨rfl, hw⟩
    rw [writeReg, writeCtrl, if_neg hw]; exact h
  | cmd => rw [writeReg, writeCmd, if_pos h]; exact h
  | _ => exact h

/-- A write of the register port leaves `FAILED` only where it resets (R98, R371). -/
theorem portWrite_phase_failed {addr w : Word} {width : Width} {s : State} (h : s.phase = .failed)
    (hr : ¬ isReset s (.regWrite addr width w)) : (portWrite addr width w s).phase = .failed := by
  unfold portWrite
  split
  · next off hoff =>
    obtain ⟨hwidth, -, h4, haddr⟩ := servedOffset_eq_some hoff
    rw [servedWrite_idle (by simp [h])]
    refine writeReg_phase_failed h fun ⟨hctrl, hw⟩ => hr ⟨?_, hwidth, hw⟩
    have hoff4 : off = 0x004 := by
      by_contra hne
      exact (regAt_other h4).1 hne hctrl
    rw [haddr, hoff4]
  · exact h

theorem readReg_phase (r : Reg) (s : State) : (readReg r s).phase = s.phase := by
  unfold readReg
  split
  · rfl
  · split <;> rfl

theorem portRead_phase (addr : Word) (width : Width) (s : State) : (portRead addr width s).phase = s.phase := by
  unfold portRead
  split
  · exact readReg_phase _ s
  · rfl
  · rfl

theorem hostMemWrite_phase (addr : Word) (v : Byte) (s : State) : (hostMemWrite addr v s).phase = s.phase := by
  unfold hostMemWrite
  split <;> rfl

theorem hostMemRead_phase (addr : Word) (s : State) : (hostMemRead addr s).phase = s.phase := by
  unfold hostMemRead
  split
  · rfl
  · split <;> rfl

/-- Any action of the host but a reset leaves the block in `FAILED` (R172). -/
theorem hostAct_phase_failed {a : HostAct} {s : State} (h : s.phase = .failed) (hr : ¬ isReset s a) :
    (hostAct a s).phase = .failed := by
  cases a with
  | regWrite addr width w => exact portWrite_phase_failed h hr
  | regRead addr width => exact (portRead_phase addr width s).trans h
  | memWrite addr v => exact (hostMemWrite_phase addr v s).trans h
  | memRead addr => exact (hostMemRead_phase addr s).trans h
  | wait => exact (readReg_phase .status s).trans h
  | hwReset => exact absurd trivial hr
  | errMap reads writes =>
    have hidle : s.phase ≠ .busy := by simp [h]
    rw [hostAct, platformErrs, if_neg hidle]; exact h
  | rivals running => exact h

/-- Settles O9: the `CMD` write is that of O8, and no action but a reset changes the phase `FAILED`. -/
theorem failedIsTerminal : Obligations.FailedIsTerminal := by
  intro s h
  refine ⟨fun w => ?_, fun a t hstep hleft => ?_⟩
  · obtain ⟨-, hfailed, -⟩ := commandIssue s w
    exact hfailed h
  · rw [stepWith_eq (.inl (by simp [h]))] at hstep
    cases hstep
    by_contra hr
    exact hleft (hostAct_phase_failed h hr)

/-! ### The end of a command -/

/-- A failure carries one of the causes of R332. -/
theorem Failure.code_bounds (f : Failure) : 1 ≤ f.code.toNat ∧ f.code.toNat ≤ 27 := by
  cases f with
  | cause c => exact c.code_bounds
  | badFilter y lb => exact Cause.code_bounds .badFilterType

/-- Settles O26: over plain memory a command ends in a next state, and what it did before its end kept `DONE`, `ERR` and
the stored failure. -/
theorem everyCommandEnds : Obligations.EveryCommandEnds := by
  intro i s hplain
  obtain ⟨t, ht⟩ := exec_ends (i := i) hplain
  refine ⟨t, ht, ?_⟩
  obtain ⟨u, hu, rfl | ⟨f, rfl, -, hcause⟩⟩ := exec_next ht
  · have herror : SameError u u.complete := by constructor <;> rfl
    exact .inl ⟨rfl, rfl, hu.err, hu.error.trans herror⟩
  · obtain ⟨hlow, hhigh⟩ := f.code_bounds
    refine .inr ⟨rfl, rfl, hu.done, rfl, hlow, hhigh, rfl, fun hline himage => ?_⟩
    obtain ⟨c, rfl⟩ := hcause.resolve_left (not_or.2 ⟨hline, himage⟩)
    rfl

/-! ### `NOP` -/

/-- The one command word with operation code 0 is 0: `NOP` uses no other field (R121, R177). -/
theorem eq_zero_of_decode {w : Word} {i : Instr} (hop : w.toNat % 256 = 0) (h : decode w = .ok i) : w = 0#32 := by
  obtain ⟨hmid, hhigh, hrow⟩ := (legalWords w).1 ⟨i, h⟩
  have hsel : w.toNat / 2 ^ 8 % 8 = 0 := by omega
  have hn : w.toNat / 2 ^ 16 % 32 = 0 := by omega
  exact BitVec.eq_of_toNat_eq (by rw [BitVec.toNat_ofNat]; omega)

/-- Settles O30: the word 0 is `NOP`, and any other word with operation code 0 is illegal. -/
theorem nopCompletes : Obligations.NopCompletes := by
  refine ⟨⟨_, rfl, by decide, by decide⟩, fun s => ⟨rfl, fun hmoves hraced hop => ?_, fun hfailed => ?_⟩⟩
  · split
    · next hzero =>
      have hnop : decode s.cmd = .ok .nop := by rw [hzero]; exact decodeEncode .nop rfl
      rw [step_of_decode hmoves hnop, mapNext_settleRaces_exec hraced]; rfl
    · next hzero =>
      have hillegal (i : Instr) : decode s.cmd ≠ .ok i := fun hi => hzero (eq_zero_of_decode hop hi)
      obtain ⟨-, hfails⟩ := illegalWords s
      exact (hfails hillegal hmoves).2 hraced
  · obtain ⟨hcmd, -⟩ := failedIsTerminal s hfailed
    exact hcmd 0#32

end Machine
end Sys2Proof

/-! SUPPORT. The leaf commands and the ways a header and a block fail (O31, O32, O33, O35, O38, O40, O44): how a command
over its regions ends where its operation fails, which code lengths build and what the table of an incomplete tree holds,
and then each command from what its operation does in a quiet state. -/

namespace Sys2Proof
namespace Machine

/-! ### How a command ends -/

theorem complete_eq (s : State) : s.complete = completed s := rfl

/-- The failure entry of a cause (R333). -/
theorem enterFailure_cause (c : Cause) (s : State) : s.enterFailure (.cause c) = failedWith c s := rfl

/-- A command over its regions in a quiet state, whose operation fails there. -/
theorem finish_overRegions_raise {b : Bool} {body : State → Res Unit} {s t : State} {c : Cause} (hr : Ready b s)
    (hq : Quiet s) (h : body s = raise c t) (hm : t.merging = s.merging) :
    finish (overRegions b body s) = .next (failedWith c t) := by
  rw [overRegions_quiet hr hq.1, h, ← hm, mapState_raise, setMerging_self, finish_raise, enterFailure_cause]

/-- A command over its regions, whose operation fails before its first access. -/
theorem finish_overRegions_raise_first {b : Bool} {body : State → Res Unit} {s : State} {c : Cause} (hr : Ready b s)
    (h : ∀ x, body (s.setMerging x) = raise c (s.setMerging x)) :
    finish (overRegions b body s) = .next (failedWith c s) := by
  rw [overRegions_ready hr, runAccesses_raise h, finish_raise, enterFailure_cause]

/-! ### `READ_BITS` -/

/-- A field is the sum of its bits, the `i`-th one weighted `2^i` (R191). -/
theorem fieldAt_eq_sum (s : State) (p n : Nat) :
    fieldAt s p n = ((List.range n).map fun i => bitAt s (p + i) * 2 ^ i).sum := by
  induction n generalizing p with
  | zero => rfl
  | succ n ih =>
    have hstep (i : Nat) : bitAt s (p + (i + 1)) * 2 ^ (i + 1) = 2 * (bitAt s (p + 1 + i) * 2 ^ i) := by
      rw [show p + (i + 1) = p + 1 + i by omega]; ring
    rw [fieldAt, ih, List.range_succ_eq_map, List.map_cons, List.map_map, List.sum_cons, ← List.sum_map_mul_left]
    simp only [Function.comp_def, Nat.succ_eq_add_one, hstep, Nat.add_zero, Nat.pow_zero, Nat.mul_one]

/-- Settles O31: a field that fits is read whole; one that does not, or a count above 16, fails before any access. -/
theorem readBits_holds : Obligations.ReadBits := by
  intro s n hr
  refine ⟨fun hn hq hfit => ?_, fun hn hlong => ?_, fun hn => congrArg finish (if_pos hn)⟩
  · have hbody : readBitsOf n.toNat s
        = .ok () ((s.setBitpos (s.bitpos.toNat + n.toNat)).setResult (fieldAt s s.bitpos.toNat n.toNat)) := by
      rw [readBitsOf, checkedRead_quiet hq hfit, Res.andThen_ok]
    rw [exec_readBits hn hr, ← overRegions_ready hr, finish_overRegions_ok hr hq hbody rfl, fieldAt_eq_sum]
    rfl
  · rw [exec_readBits hn hr, ← overRegions_ready hr]
    exact finish_overRegions_raise_first hr fun x => by
      rw [readBitsOf, checkedRead_exhausted (s := s.setMerging x) hlong, raise_andThen]

/-! ### `BUILD_TREE` -/

/-- The state with this table in a tree RAM, and its valid bit set (R202). -/
def withTree (t : RamTree) (l : List (BitVec 10)) (s : State) : State :=
  match t with
  | .ll => { s with treeLL := l, llValid := true }
  | .d => { s with treeD := l, dValid := true }
  | .cl => { s with treeCL := l, clValid := true }

/-- A table of the RAM's size is stored as it is. -/
theorem setTable_setValid_eq {t : RamTree} {l : List (BitVec 10)} (hl : l.length = 2 * numcodes t) (s : State) :
    (s.setTable t l).setValid t true = withTree t l s := by
  cases t <;> simp only [numcodes] at hl <;>
    simp [State.setTable, State.setValid, withTree, tableOf_of_length hl]

/-- `BUILD_TREE` where the lengths build (R202, R203). -/
theorem exec_buildTree_ok {t : RamTree} {s : State} {T : List Nat}
    (h : buildTree (lenramLengths (numcodes t) s) (numcodes t) (maxbitlen t) = .ok T) :
    exec (.buildTree t) s = .next (completed (withTree t (T.map (BitVec.ofNat 10)) s)) := by
  have hlen : (T.map (BitVec.ofNat 10)).length = 2 * numcodes t := by
    rw [List.length_map, (buildTree_ok (numcodes_bounds t).1 (length_lenramLengths _ s).le h).1]
  refine (congrArg finish (treeCommit_ok h)).trans ?_
  rw [setTable_setValid_eq hlen, finish_ok, complete_eq]

/-- The code lengths of a tree are the first entries of `LENRAM` (R203). -/
theorem lenramLengths_eq_take {n : Nat} {s : State} (h : n ≤ s.lenram.length) :
    lenramLengths n s = (s.lenram.take n).map BitVec.toNat := by
  refine List.ext_getElem (by simp [h]) fun k hk _ => ?_
  have hk : k < s.lenram.length := by rw [length_lenramLengths] at hk; omega
  simp [lenramLengths, hk]

/-- Settles O32: the lengths are those of `LENRAM`, and the table has the size of its RAM. -/
theorem buildTree_holds : Obligations.BuildTree := by
  intro s T
  refine ⟨fun h hlen => ?_, fun h hlen => ?_, fun h hlen => ?_⟩
  · rw [← lenramLengths_eq_take hlen] at h
    exact exec_buildTree_ok (t := .ll) h
  · rw [← lenramLengths_eq_take (by omega)] at h
    exact exec_buildTree_ok (t := .d) h
  · rw [← lenramLengths_eq_take (by omega)] at h
    exact exec_buildTree_ok (t := .cl) h

/-! ### Which lengths build -/

/-- `Kraft` as a sum over the lengths `1..M` (R197). -/
theorem kraft_eq_sum (len : List Nat) (M : Nat) :
    kraft len M = ∑ k ∈ Finset.range M, len.count (k + 1) * 2 ^ (M - (k + 1)) := rfl

theorem usedWeight_cons (a : Nat) (len : List Nat) (M : Nat) :
    usedWeight (a :: len) M = (if a = 0 then 0 else 2 ^ (M - a)) + usedWeight len M := by
  by_cases h : a = 0 <;> simp [usedWeight, h]

theorem kraft_cons {a : Nat} (len : List Nat) {M : Nat} (h : a ≤ M) :
    kraft (a :: len) M = (if a = 0 then 0 else 2 ^ (M - a)) + kraft len M := by
  simp only [kraft_eq_sum, List.count_cons, Nat.add_mul, Finset.sum_add_distrib, beq_iff_eq]
  rw [Nat.add_comm]
  congr 1
  cases a with
  | zero => simp
  | succ a => simp [ite_mul, show a < M by omega]

/-- The weight of the used symbols, each by itself, is the weight of the lengths, each with its count (R197). -/
theorem usedWeight_eq_kraft {len : List Nat} {M : Nat} (h : ∀ l ∈ len, l ≤ M) : usedWeight len M = kraft len M := by
  induction len with
  | nil => simp [kraft_eq_sum, usedWeight]
  | cons a len ih =>
    obtain ⟨ha, hlen⟩ := List.forall_mem_cons.1 h
    rw [usedWeight_cons, kraft_cons len ha, ih hlen]

/-- A length above the maximum fails first (R195). -/
theorem buildTree_tooLong {len : List Nat} {N M : Nat} (h : ∃ l ∈ len, M < l) :
    buildTree len N M = .error .lengthTooLong := by
  rw [buildTree, if_pos (by simpa using h)]

/-- Then a sum of `2^(-length)` above 1 fails (R197). -/
theorem buildTree_oversubscribed {len : List Nat} {N M : Nat} (hM : ∀ l ∈ len, l ≤ M) (h : 2 ^ M < usedWeight len M) :
    buildTree len N M = .error .oversubscribed := by
  rw [buildTree, if_neg (by simpa using hM), if_pos (by rwa [← usedWeight_eq_kraft hM])]

/-- `BUILD_TREE` where the lengths build, as the host sees it. -/
theorem exec_buildTree_completes {t : RamTree} {s : State}
    (h : ∃ T, buildTree (lenramLengths (numcodes t) s) (numcodes t) (maxbitlen t) = .ok T) :
    ∃ u, exec (.buildTree t) s = .next u ∧ u.phase = .idle ∧ valid t u = true := by
  obtain ⟨T, hT⟩ := h
  exact ⟨_, exec_buildTree_ok hT, rfl, by cases t <;> rfl⟩

/-- `BUILD_TREE` where the lengths do not build, as the host sees it. -/
theorem exec_buildTree_fails {t : RamTree} {s : State} {c : Cause}
    (h : buildTree (lenramLengths (numcodes t) s) (numcodes t) (maxbitlen t) = .error c) :
    ∃ u, exec (.buildTree t) s = .next u ∧ u.phase = .failed ∧ u.errCause = c.code := by
  obtain ⟨l, hl⟩ := exec_buildTree_error h
  exact ⟨_, hl, rfl, rfl⟩

/-- Settles O33: by the checks of the builder in their order, and then by how many nodes its tree takes. -/
theorem buildOutcome : Obligations.BuildOutcome := by
  intro t s _
  refine ⟨fun hlong => exec_buildTree_fails (buildTree_tooLong hlong), fun hM =>
    ⟨fun hover => exec_buildTree_fails (buildTree_oversubscribed hM hover), ?_⟩⟩
  have houtcome := buildTree_outcome (numcodes_bounds t).1 (length_lenramLengths (numcodes t) s).le
    (show 1 ≤ maxbitlen t by cases t <;> decide) hM
  rw [← usedWeight_eq_kraft hM] at houtcome
  refine ⟨fun hsum => ?_, fun hone => exec_buildTree_completes ((houtcome hone.le).2 hone)⟩
  rcases (houtcome hsum).1 with hok | hnodes
  · obtain ⟨u, hu, hidle⟩ := exec_buildTree_completes hok
    exact ⟨u, hu, .inl hidle⟩
  · obtain ⟨u, hu, hfailed⟩ := exec_buildTree_fails hnodes
    exact ⟨u, hu, .inr hfailed⟩

/-! ### `DECODE_SYMBOL` -/

theorem treeBuilt_setMerging (t : TreeSel) (x : Option Merging) (s : State) :
    treeBuilt t (s.setMerging x) = treeBuilt t s := by
  cases t with
  | ram r => cases r <;> rfl
  | fixedLL | fixedD => rfl

/-- Settles O35: the check of the valid bit comes before any access, and the walk of a table in range ends in a symbol or
with the source. -/
theorem decodeSymbol_holds : Obligations.DecodeSymbol := by
  intro s t hr
  refine ⟨fun hbuilt => ?_, fun hbuilt hq hrange => ?_⟩
  · refine finish_overRegions_raise_first hr fun x => ?_
    have hbuilt' : treeBuilt t (s.setMerging x) ≠ true := by
      rw [treeBuilt_setMerging, hbuilt]; exact Bool.false_ne_true
    rw [decodeSymbol, if_neg hbuilt', raise_andThen]
  · obtain ⟨hlen, -, -, -, hcursors⟩ := regions_of_ready hr.1
    have hfine := tableFine_of_built hrange hbuilt
    cases hv : symAt (tableAt t s) (numcodesOf t) s s.bitpos.toNat with
    | some x => exact exec_decodeSymbol_some hr hq ⟨rfl, rfl, hbuilt, hfine⟩ hv
    | none =>
      refine finish_overRegions_raise (t := s.setBitpos (8 * s.srcLen.toNat)) hr hq ?_ rfl
      rw [decodeSymbol_none hq ⟨rfl, rfl, hbuilt, hfine⟩ hlen (hcursors rfl).1 hv, raise_andThen]

/-! ### Slots that no code reaches -/

/-- A code of one bit takes one slot of the root (R200). -/
theorem insertBits_one {N sym code : Nat} {b b' : Builder} (h : insertBits N sym code 1 0 b = .ok b') :
    b'.slots = b.slots.set (code % 2) (some sym) := by
  rw [insertBits, if_neg (Nat.not_lt_zero _), Nat.mul_zero, Nat.zero_add, Nat.shiftRight_zero] at h
  split at h
  · cases h; rfl
  · exact nomatch h

/-- Slot `j` of the root stays unset where each symbol is unused, or has a code of one bit that is not `j` (R200). -/
theorem insertFrom_unset {N j : Nat} {l : List (Nat × Nat)} {sym : Nat} {b b' : Builder}
    (hl : ∀ x ∈ l, x.1 = 0 ∨ x.1 = 1 ∧ x.2 % 2 ≠ j) (h : insertFrom N sym l b = .ok b')
    (hb : b.slots.getD j none = none) : b'.slots.getD j none = none := by
  induction l generalizing sym b with
  | nil => cases h; exact hb
  | cons x l ih =>
    obtain ⟨L, c⟩ := x
    obtain ⟨hx, hl⟩ := List.forall_mem_cons.1 hl
    rw [insertFrom] at h
    split at h
    · next b1 h1 =>
      refine ih hl h ?_
      rcases hx with rfl | ⟨rfl, hc⟩
      · cases h1; exact hb
      · rw [insertBits_one h1, getD_set_ne hc, hb]
    · exact nomatch h

/-- The table of a tree that builds is that of the tree under construction, zero-filled (R200, R201). -/
theorem buildTree_eq_slots {len T : List Nat} {N M : Nat} (h : buildTree len N M = .ok T) :
    ∃ b, insertFrom N 0 (len.zip (assignCodes len M)) ⟨List.replicate (2 * N) none, 0⟩ = .ok b
      ∧ T = b.slots.map fun x => x.getD 0 := by
  unfold buildTree at h
  split at h
  · exact nomatch h
  · split at h
    · exact nomatch h
    · split at h
      · next b hb => cases h; exact ⟨b, hb, rfl⟩
      · exact nomatch h

/-- A slot of the root that no code takes is filled with 0, where no code is longer than one bit (R201). -/
theorem slot_zero_of_built {len T : List Nat} {N M j : Nat} (h : buildTree len N M = .ok T)
    (hlen : ∀ k, k < len.length → len.getD k 0 ≠ 0 → len.getD k 0 = 1 ∧ canonicalCode len k % 2 ≠ j) :
    T.getD j 0 = 0 := by
  obtain ⟨b, hb, rfl⟩ := buildTree_eq_slots h
  have hunset : b.slots.getD j none = none := by
    refine insertFrom_unset (fun x hx => ?_) hb
      (List.getD_eq_getElem?_getD.trans (List.getElem?_getD_replicate_default_eq ..))
    obtain ⟨k, hk, rfl⟩ := List.mem_iff_getElem.1 hx
    have hk' : k < len.length := by rw [List.length_zip] at hk; omega
    have hcode : k < (assignCodes len M).length := by rw [length_assignCodes]; exact hk'
    rw [List.getElem_zip, ← List.getD_eq_getElem len 0 hk', ← List.getD_eq_getElem (assignCodes len M) 0 hcode]
    by_cases hused : len.getD k 0 = 0
    · exact .inl hused
    · rw [assignCodes_canonical hk' hused (length_le_of_built h)]
      exact .inr (hlen k hk' hused)
  exact (List.getD_map _ none fun x : Option Nat => x.getD 0).trans (by rw [hunset, Option.getD_none])

/-- The first code of one bit is 0 (R198). -/
theorem firstCode_one (len : List Nat) : firstCode len 1 = 0 := by simp [firstCode, blcount]

/-- The code of the one used symbol, of length 1, is 0 (R199, R208). -/
theorem canonicalCode_of_single {n sym : Nat} (h : sym < n) : canonicalCode ((List.replicate n 0).set sym 1) sym = 0 := by
  have hL : ((List.replicate n 0).set sym 1).getD sym 0 = 1 := by simp [List.getD_eq_getElem?_getD, h]
  rw [canonicalCode, hL, firstCode_one, List.take_set_of_le le_rfl, List.take_replicate, List.count_replicate]
  rfl

/-- The zero-filled slots of the two incomplete trees: slot 1 with one used symbol of length 1, both with none (R208). -/
theorem slot_zero_of_incomplete {n N M sym bit : Nat} {len T : List Nat} (h : buildTree len N M = .ok T)
    (hlen : len = (List.replicate n 0).set sym 1 ∧ sym < n ∧ bit = 1 ∨ len = List.replicate n 0) :
    T.getD bit 0 = 0 := by
  refine slot_zero_of_built h fun k hk hused => ?_
  rcases hlen with ⟨rfl, hs, rfl⟩ | rfl
  · obtain rfl : sym = k := by
      by_contra hne
      simp [List.getD_eq_getElem?_getD, List.getElem?_set_ne hne] at hused
    exact ⟨by simp [List.getD_eq_getElem?_getD, hs], by rw [canonicalCode_of_single hs]; decide⟩
  · exact absurd (List.getD_replicate _ (by simpa using hk)) hused

/-- The symbol that an unset slot of the root decodes as is 0, and it takes one bit (R201, R205). -/
theorem symAt_of_zero {T : List Nat} {N p : Nat} {s : State} (hN : 0 < N) (h : T.getD (bitAt s p) 0 = 0)
    (hp : p < 8 * s.srcLen.toNat) : symAt T N s p = some (0, p + 1) := by
  obtain ⟨n, hn⟩ : ∃ n, 8 * s.srcLen.toNat - p = n + 1 := ⟨8 * s.srcLen.toNat - p - 1, by omega⟩
  rw [symAt, hn, symFrom, Nat.mul_zero, Nat.zero_add, h, if_pos hN]

/-- Settles O38: the table in the RAM is the built one, whose slot for the bit at the cursor is zero-filled. -/
theorem unresolvedSlots : Obligations.UnresolvedSlots := by
  intro s len T sym hr hq hlen hT htable hvalid hbit hshape
  have hrange := (buildTree_ok (by decide) hlen.le hT).2
  have ht : TreeReady (.ram .d) T 32 s :=
    treeReady_of_built (r := .d) hlen.le hT (by rw [htable, map_toNat_ofNat (by decide) hrange]) hvalid
  exact exec_decodeSymbol_some hr hq ht (symAt_of_zero (by decide) (slot_zero_of_incomplete hT hshape) hbit)

/-! ### Where a header and a block fail -/

/-- Settles O40: the reader's failure is that of the command. -/
theorem readDynTreesFails : Obligations.ReadDynTreesFails := by
  intro s c q k hr hq hf
  obtain ⟨hlen, -, -, -, hcursors⟩ := regions_of_ready hr.1
  obtain ⟨l, d, hl, hrun⟩ := readDynTrees_fails hq hlen (hcursors rfl).1 hf
  exact ⟨l, d, hl, finish_overRegions_raise hr hq hrun (by cases k <;> rfl)⟩

/-- The check of the inflate side is the check of both regions, and that of the cursors (R95). -/
theorem regionsBad_false_of_ready {b : Bool} {s : State} (h : regionsBad b s = false) : regionsBad false s = false := by
  simp only [regionsBad, Bool.or_eq_false_iff, Bool.false_and] at h ⊢
  exact ⟨h.1, trivial⟩

theorem length_outSoFar (s : State) : (outSoFar s).length = s.outpos.toNat := by simp [outSoFar]

/-- Host memory holds the output so far. -/
theorem holdsOutput_outSoFar (s : State) : holdsOutput s s.mem (outSoFar s) := by
  intro k hk
  rw [length_outSoFar] at hk
  simp [outSoFar, outByte, hk]

/-- Settles O44: the block's failure, the output before it being what host memory holds below `OUTPOS`, is that of the
command. -/
theorem blockFails_holds : Obligations.BlockFails := by
  intro s f hr hq hf
  obtain ⟨-, -, -, -, hcursors⟩ := regions_of_ready hr.1
  obtain ⟨hbit, hout⟩ := hcursors rfl
  have hlen := length_outSoFar s
  obtain ⟨m, l, d, hl, hrun, hleft⟩ := inflateOne_fails hq (regionsBad_false_of_ready hr.1) hbit hlen (hlen ▸ hout)
    (holdsOutput_outSoFar s) hf
  refine ⟨m, l, d, hl, finish_overRegions_raise hr hq hrun (failureState_merging f l d m s), hleft.holds, ?_⟩
  rw [← hlen]
  exact hleft.outside

end Machine
end Sys2Proof

/-! SUPPORT. The dynamic-tree reader where a header stands at the cursor (O39). -/

namespace Sys2Proof
namespace Machine

/-! ### `READ_DYN_TREES` -/

/-- Settles O39: the command completes in the state in which the reader returns. -/
theorem readDynTrees_holds : Obligations.ReadDynTrees := by
  intro s T q hr hq hheader
  obtain ⟨hlen, -⟩ := regions_of_ready hr.1
  obtain ⟨hrun, -⟩ := readDynTrees_quiet hq hlen hheader
  exact finish_overRegions_ok hr hq hrun rfl

end Machine
end Sys2Proof

/-! SUPPORT. The copier and the block inflator (O41, O42, O43, O45): each command from what its operation does in a
quiet state. -/

namespace Sys2Proof
namespace Machine

/-! ### `INFLATE_BLOCK` on a block that stands in the stream -/

/-- The trees of a block leave the model's field `merging`. -/
theorem blockTrees_merging (b : Block) (s : State) : (b.trees s).merging = s.merging := by cases b <;> rfl

/-- Settles O45: the block is inflated behind the output so far, which host memory holds below `OUTPOS`. -/
theorem inflateBlock : Obligations.InflateBlock := by
  intro s final b out' q hr hq hblock
  obtain ⟨-, -, -, -, hcursors⟩ := regions_of_ready hr.1
  obtain ⟨-, hout⟩ := hcursors rfl
  have hlen := length_outSoFar s
  obtain ⟨m, hrun, hwrote⟩ := inflateOne_quiet hq (regionsBad_false_of_ready hr.1) hlen (hlen ▸ hout)
    (holdsOutput_outSoFar s) hblock
  refine ⟨m, finish_overRegions_ok hr hq hrun (blockTrees_merging b s), hwrote.holds, ?_, hwrote.fits, hwrote.inside⟩
  rw [← hlen]
  exact hwrote.outside

/-! ### The block header -/

/-- The state in which a block's body begins: the header is stored, and the cursor is behind it (R250). -/
def headerRead (s : State) : State :=
  (s.setBitpos (s.bitpos.toNat + 3)).setHeader (bitAt s s.bitpos.toNat) (fieldAt s (s.bitpos.toNat + 1) 2)

theorem sameSource_headerRead (s : State) : SameSource s (headerRead s) := ⟨rfl, rfl, fun _ _ => rfl⟩

/-- A field of one bit is that bit. -/
theorem fieldAt_one (s : State) (p : Nat) : fieldAt s p 1 = bitAt s p := rfl

/-- A block whose header is in the source is its body, behind the stored header (R250, R251). -/
theorem inflateOne_of_header {s : State} (hq : Quiet s) (hlen : s.srcLen.toNat ≤ Config.srcLenMax)
    (hfit : s.bitpos.toNat + 3 ≤ 8 * s.srcLen.toNat) :
    inflateOne s = (blockBody (fieldAt s (s.bitpos.toNat + 1) 2) (headerRead s)).andThen fun _ t =>
      .ok () (t.setStreamEnd (bitAt s s.bitpos.toNat == 1)) := by
  rw [inflateOne, checkedRead_quiet hq (by omega), Res.andThen_ok, fieldAt_one,
    headerField_read (a := 1) hlen hq hfit, Res.andThen_ok]
  rfl

/-- `INFLATE_BLOCK` where the body fails (R250, R251). -/
theorem exec_inflateBlock_bodyRaise {s t : State} {c : Cause} (hr : Ready true s) (hq : Quiet s)
    (hfit : s.bitpos.toNat + 3 ≤ 8 * s.srcLen.toNat)
    (hbody : blockBody (fieldAt s (s.bitpos.toNat + 1) 2) (headerRead s) = raise c t) (hm : t.merging = s.merging) :
    exec .inflateBlock s = .next (failedWith c t) := by
  refine finish_overRegions_raise hr hq ?_ hm
  rw [inflateOne_of_header hq (regions_of_ready hr.1).1 hfit, hbody, raise_andThen]

/-- Settles O42: the first field, the second field, or the body of type 3 fails. -/
theorem blockHeader : Obligations.BlockHeader := by
  intro s hr hq
  have hlen := (regions_of_ready hr.1).1
  refine ⟨fun hshort => ?_, fun hone hshort => ?_, fun hfit htype => ?_⟩
  · refine finish_overRegions_raise hr hq ?_ rfl
    rw [inflateOne, checkedRead_exhausted hshort, raise_andThen]
  · refine finish_overRegions_raise (t := s.setBitpos (s.bitpos.toNat + 1)) hr hq ?_ rfl
    rw [inflateOne, checkedRead_quiet hq hone, Res.andThen_ok, field_exhausted hlen hone hshort, raise_andThen]
  · have hbody : blockBody (fieldAt s (s.bitpos.toNat + 1) 2) (headerRead s) = raise .badBtype (headerRead s) := by
      rw [htype]; rfl
    rw [exec_inflateBlock_bodyRaise hr hq hfit hbody rfl, headerRead, htype]
    rfl

/-! ### A stored block -/

/-- A stored block that fails one of its four checks does so at the aligned cursor, its header stored (R252). -/
theorem exec_inflateBlock_storedFails {s : State} {p : Nat} {c : Cause} (hr : Ready true s) (hq : Quiet s)
    (hfit : s.bitpos.toNat + 3 ≤ 8 * s.srcLen.toNat) (htype : fieldAt s (s.bitpos.toNat + 1) 2 = 0)
    (hp : p = (s.bitpos.toNat + 3 + 7) / 8) (hf : storedFails s s.dstCap.toNat s.outpos.toNat p c) :
    exec .inflateBlock s = .next (failedWith c
      { s with bfinal := bitAt s s.bitpos.toNat == 1, btype := 0#2, bitpos := BitVec.ofNat 32 (8 * p) }) := by
  have hlen := (regions_of_ready hr.1).1
  simp only [Config.srcLenMax] at hlen
  have hcursor : (headerRead s).bitpos.toNat = s.bitpos.toNat + 3 := toNat_setBitpos (s := s) (by omega)
  have hbody : blockBody (fieldAt s (s.bitpos.toNat + 1) 2) (headerRead s)
      = raise c ((headerRead s).setBitpos (8 * p)) := by
    rw [htype, blockBody, if_pos rfl]
    exact storedBody_fails hq rfl (by rw [hcursor, hp]) (storedFails_congr (sameSource_headerRead s) hf)
  rw [exec_inflateBlock_bodyRaise hr hq hfit hbody rfl, headerRead, htype]
  rfl

/-- The final-block flag as a field of the header. -/
theorem fieldAt_one_eq_toNat (s : State) (p : Nat) : fieldAt s p 1 = (bitAt s p == 1).toNat := by
  have := bitAt_lt s p
  rw [fieldAt_one]
  rcases (show bitAt s p = 0 ∨ bitAt s p = 1 by omega) with h | h <;> rw [h] <;> rfl

/-- Settles O43: each check is a failure of the stored body, and the copy is O45 for a stored block. -/
theorem storedBlock : Obligations.StoredBlock := by
  rintro s u p len nlen hr hq hfit htype hp rfl rfl rfl
  have hfails {c : Cause} (hf : storedFails s s.dstCap.toNat s.outpos.toNat p c) :=
    exec_inflateBlock_storedFails hr hq hfit htype hp hf
  refine ⟨fun hhead => hfails (.inl ⟨hhead, rfl⟩), fun hhead =>
    ⟨fun hcheck => hfails (.inr ⟨hhead, .inl ⟨hcheck, rfl⟩⟩), fun hcheck =>
    ⟨fun hbody => hfails (.inr ⟨hhead, .inr ⟨hcheck, .inl ⟨hbody, rfl⟩⟩⟩), fun hbody =>
    ⟨fun hfull => hfails (.inr ⟨hhead, .inr ⟨hcheck, .inr ⟨hbody, hfull, rfl⟩⟩⟩), fun hroom => ?_⟩⟩⟩⟩
  have hlen := length_outSoFar s
  have hstored : blockAt s s.dstCap.toNat (outSoFar s) s.bitpos.toNat (bitAt s s.bitpos.toNat == 1) .stored
      (outSoFar s ++ srcBytes s (p + 4) (halfAt s p)) (8 * (p + 4 + halfAt s p)) := by
    subst hp
    exact ⟨hfit, fieldAt_one_eq_toNat s _, htype, hbody, hcheck, hlen ▸ hroom, rfl, rfl⟩
  obtain ⟨m, hrun, hholds, houtside, -⟩ := inflateBlock s _ _ _ _ hr hq hstored
  have hlen' : (outSoFar s ++ srcBytes s (p + 4) (halfAt s p)).length = s.outpos.toNat + halfAt s p := by
    rw [List.length_append, hlen, srcBytes, List.length_map, List.length_range]
  rw [hlen'] at hrun houtside
  refine ⟨m, hrun, fun k hk => ?_, houtside⟩
  rw [hholds _ (by rw [hlen']; omega), ← hlen, getD_append_right]
  simp [srcBytes, List.getD_eq_getElem?_getD, hk]

/-! ### `LZ_COPY` -/

/-- `LZ_COPY` where a check fails (R258, R262). -/
theorem exec_lzCopy_raise {s : State} {c : Cause} (hr : Ready true s) (hq : Quiet s) (h : copyArgs s = raise c s) :
    exec .lzCopy s = .next (failedWith c s) :=
  finish_overRegions_raise hr hq h rfl

theorem copyArgsLegal_iff (s : State) : copyArgsLegal s = true ↔
    3 ≤ s.arg0.toNat ∧ s.arg0.toNat ≤ 258 ∧ 1 ≤ s.arg1.toNat ∧ s.arg1.toNat ≤ 32768 := by
  simp [copyArgsLegal, and_assoc]

/-- A periodic copy of the `dist` bytes before offset `o` is the byte-by-byte copy from `dist` bytes back (R260). -/
theorem read_copy_eq_back {s : State} {m : Memory} {o length dist k : Nat} (hs : dist ≤ o)
    (hk : k < length)
    (hbytes : ∀ j, j < length → m.read (s.dstBase.toNat + (o + j)) = outByte s (o - dist + j % dist))
    (hout : sameOutside s m o (o + length)) :
    m.read (s.dstBase.toNat + (o + k)) = m.read (s.dstBase.toNat + (o + k - dist)) := by
  rw [hbytes k hk]
  by_cases hback : k < dist
  · rw [hout _ (.inl (by omega)), Nat.mod_eq_of_lt hback, outByte]
    congr 2
    omega
  · rw [show o + k - dist = o + (k - dist) by omega, hbytes _ (by omega), Nat.mod_eq_sub_mod (by omega)]

/-- Settles O41: the checks in their order, and then the copy in closed form. -/
theorem lzCopy_holds : Obligations.LzCopy := by
  intro s hr hq
  refine ⟨fun hargs => exec_lzCopy_raise hr hq ?_, fun h1 h2 h3 h4 =>
    ⟨fun hfar => exec_lzCopy_raise hr hq ?_, fun hnear hfull => exec_lzCopy_raise hr hq ?_, fun hnear hroom => ?_⟩⟩
  · rw [copyArgs, if_neg (by rwa [copyArgsLegal_iff])]
  · rw [copyArgs, if_pos ((copyArgsLegal_iff s).2 ⟨h1, h2, h3, h4⟩), checkedCopy, if_pos hfar]
  · rw [copyArgs, if_pos ((copyArgsLegal_iff s).2 ⟨h1, h2, h3, h4⟩), checkedCopy, if_neg (by omega), if_pos hfull]
  · obtain ⟨m, hrun, hbytes, hout⟩ := lzCopy_quiet hq h3 hnear hroom
    refine ⟨m, ?_, fun k hk => ⟨hbytes k hk, read_copy_eq_back hnear hk hbytes hout⟩, hout⟩
    exact finish_overRegions_ok hr hq ((copyArgs_eq ⟨h1, h2, h3, h4, hnear, hroom⟩).trans hrun) rfl

end Machine
end Sys2Proof

/-! SUPPORT. The stream inflator's own commands (O46, O48): the checks of the zlib header in arithmetic on its two
bytes, and a whole stream whose source changes behind the final block. -/

namespace Sys2Proof
namespace Machine

/-! ### The zlib header -/

/-- The compression method is the low half of the first byte (R131). -/
theorem zlibMethod_ne_iff (b : Byte) : b.extractLsb' 0 4 ≠ 8#4 ↔ b.toNat % 16 ≠ 8 := by
  rw [Ne, ← BitVec.toNat_inj, BitVec.extractLsb'_toNat, Nat.shiftRight_zero]
  rfl

/-- The window size is the high half of the first byte (R131). -/
theorem zlibWindow_toNat (b : Byte) : (b.extractLsb' 4 4).toNat = b.toNat / 16 := by
  have := b.isLt
  rw [BitVec.extractLsb'_toNat, Nat.shiftRight_eq_div_pow]
  omega

/-- The preset-dictionary flag is bit 5 of the second byte (R131). -/
theorem zlibFdict_iff (b : Byte) : b.getLsbD 5 = true ↔ b.toNat / 32 % 2 = 1 := by
  rw [BitVec.getLsbD, Nat.testBit_eq_decide_div_mod_eq, decide_eq_true_iff]

/-- A source of fewer than two bytes fails before any access (R280). -/
theorem readZlibHeader_short {s : State} (hlen : s.srcLen.toNat < 2) :
    readZlibHeader s = raise .bitsExhausted (streamStart s) := if_pos hlen

/-- The checks of R280 on the two header bytes, in their order, once both bytes are in the source. -/
theorem readZlibHeader_checks {s : State} (hq : Quiet s) (hlen : 2 ≤ s.srcLen.toNat) :
    readZlibHeader s =
      if ((srcByte s 0).toNat * 256 + (srcByte s 1).toNat) % 31 ≠ 0 then raise .zlibFcheck (streamStart s)
      else if (srcByte s 0).toNat % 16 ≠ 8 then raise .zlibMethod (streamStart s)
      else if 7 < (srcByte s 0).toNat / 16 then raise .zlibWindow (streamStart s)
      else if (srcByte s 1).toNat / 32 % 2 = 1 then raise .zlibFdict (streamStart s)
      else .ok () ((streamStart s).setBitpos 16) := by
  have hbyte (i : Nat) : src i (streamStart s) = .ok (srcByte s i) (streamStart s) :=
    src_quiet (s := streamStart s) hq i
  rw [readZlibHeader, if_neg (by omega), hbyte, Res.andThen_ok, hbyte, Res.andThen_ok]
  simp only [zlibMethod_ne_iff, zlibWindow_toNat, zlibFdict_iff]

/-- A failing header ends `ZLIB_HEADER` and `INFLATE_ZLIB` alike (R281, R282). -/
theorem exec_headerRaise {i : Instr} {s : State} {c : Cause} (hi : i = .zlibHeader ∨ i = .inflateZlib)
    (hr : Ready false s) (hq : Quiet s) (h : readZlibHeader s = raise c (streamStart s)) :
    exec i s = .next (failedWith c (streamStart s)) := by
  rcases hi with rfl | rfl
  · exact finish_overRegions_raise hr hq h rfl
  · exact finish_overRegions_raise hr hq (by rw [h, raise_andThen]) rfl

/-- Settles O46: the first check that fails ends both commands, and a header that passes all of them ends
`ZLIB_HEADER`. -/
theorem zlibHeader : Obligations.ZlibHeader := by
  rintro s _ _ _ hr hq rfl rfl rfl
  refine ⟨fun i hi => ?_, fun hlen hcheck hmethod hwindow hdict => ?_⟩
  · have hfails {c : Cause} := exec_headerRaise (c := c) hi hr hq
    refine ⟨fun hshort => hfails (readZlibHeader_short hshort), fun hlen => ⟨fun hcheck => hfails ?_, fun hcheck =>
      ⟨fun hmethod => hfails ?_, fun hmethod => ⟨fun hwindow => hfails ?_, fun hwindow hdict => hfails ?_⟩⟩⟩⟩
    · rw [readZlibHeader_checks hq hlen, if_pos hcheck]
    · rw [readZlibHeader_checks hq hlen, if_neg (not_not.2 hcheck), if_pos hmethod]
    · rw [readZlibHeader_checks hq hlen, if_neg (not_not.2 hcheck), if_neg (not_not.2 hmethod), if_pos hwindow]
    · rw [readZlibHeader_checks hq hlen, if_neg (not_not.2 hcheck), if_neg (not_not.2 hmethod),
        if_neg (Nat.not_lt.2 hwindow), if_pos hdict]
  · refine finish_overRegions_ok hr hq (t := (streamStart s).setBitpos 16) ?_ rfl
    rw [readZlibHeader_checks hq hlen, if_neg (not_not.2 hcheck), if_neg (not_not.2 hmethod),
      if_neg (Nat.not_lt.2 hwindow), if_neg (by omega)]

/-! ### The trailer -/

/-- The trees of a stream's blocks do not depend on host memory. -/
theorem blocksTrees_setMem (bs : List Block) (m : Memory) (s : State) :
    blocksTrees bs (s.setMem m) = (blocksTrees bs s).setMem m := by
  induction bs generalizing s with
  | nil => rfl
  | cons b bs ih =>
    cases b with
    | stored | fixed => exact ih s
    | dynamic T ts => exact ih (withTrees T s)

/-- Output that stands in the memory a command leaves is read at the same output region as before it (R175). -/
theorem outByte_of_exec {i : Instr} {s t : State} {out : List Byte} {k : Nat} (hrun : exec i s = .next t)
    (hholds : holdsOutput s t.mem out) (hk : k < out.length) : outByte t k = out.getD k 0#8 := by
  obtain ⟨hops, -⟩ := commandFrame i s t hrun
  rw [outByte, hops.dstBase, hholds k hk]

/-- Settles O48: the other source holds the same header and the same blocks, so both runs are those of O47. -/
theorem trailerIgnored : Obligations.TrailerIgnored := by
  rintro s _ m' bs out q hr hq hh hblocks rfl hbytes
  have hprefix : SamePrefix ((q + 7) / 8) s (s.setMem m') := ⟨rfl, rfl, hbytes⟩
  have hend := blocksAt_end hblocks
  have hh' : headerValid (s.setMem m') := headerValid_prefix hprefix (by omega) hh
  have hblocks' : blocksAt (s.setMem m') s.dstCap.toNat [] 16 bs out q := blocksAt_prefix hprefix hblocks (by omega)
  obtain ⟨m₁, hrun, hholds, -⟩ := inflateZlib s bs out q hr hq hh hblocks
  obtain ⟨m₂, hrun', hholds', -⟩ := inflateZlib (s.setMem m') bs out q hr hq hh' hblocks'
  have htrees : SameTrees (blocksTrees bs s) (blocksTrees bs (s.setMem m')) :=
    blocksTrees_setMem bs m' s ▸ sameTrees_setMem m' _
  refine ⟨_, _, hrun, hrun', rfl, rfl, rfl, rfl, ?_, fun k hk => ?_⟩
  · exact ⟨htrees.llValid, htrees.dValid, htrees.clValid, htrees.treeLL, htrees.treeD, htrees.treeCL⟩
  · exact (outByte_of_exec hrun' hholds' hk).trans (outByte_of_exec hrun hholds hk).symm

end Machine
end Sys2Proof

/-! SUPPORT. The unfilter commands (O49, O50, O51, O52, O53): which neighbour the predictor picks, how the geometry checks
and a bad filter byte end a command, and what the lines above a bad one leave. -/

namespace Sys2Proof
namespace Machine

/-! ### The predictor -/

/-- The distance of a neighbour's value `x` from `left + above - upper-left`, in exact integers (R300). -/
def paethDistance (a b c x : Nat) : Nat := ((a : Int) + b - c - x).natAbs

theorem paeth_eq (a b c : Nat) : paeth a b c =
    if paethDistance a b c a ≤ paethDistance a b c b ∧ paethDistance a b c a ≤ paethDistance a b c c then a
    else if paethDistance a b c b ≤ paethDistance a b c c then b else c := rfl

/-- The neighbour the predictor picks is strictly nearer than those before it and no farther than those after it (R300). -/
theorem paeth_cases (a b c : Nat) :
    (paeth a b c = a ∧ paethDistance a b c a ≤ paethDistance a b c b ∧ paethDistance a b c a ≤ paethDistance a b c c)
      ∨ (paeth a b c = b ∧ paethDistance a b c b < paethDistance a b c a
        ∧ paethDistance a b c b ≤ paethDistance a b c c)
      ∨ (paeth a b c = c ∧ paethDistance a b c c < paethDistance a b c a
        ∧ paethDistance a b c c < paethDistance a b c b) := by
  rw [paeth_eq]
  split_ifs with hleft habove
  · exact .inl ⟨rfl, hleft⟩
  · exact .inr (.inl ⟨rfl, by omega, habove⟩)
  · exact .inr (.inr ⟨rfl, by omega, by omega⟩)

theorem forall_lt_three {P : Nat → Prop} (h0 : P 0) (h1 : P 1) (h2 : P 2) : ∀ j, j < 3 → P j
  | 0, _ => h0
  | 1, _ => h1
  | 2, _ => h2
  | j + 3, hj => absurd hj (by omega)

/-- Settles O49: the three positions the predictor can pick, each with its distances. -/
theorem paethMinimises : Obligations.PaethMinimises := by
  refine ⟨fun a b c _ _ _ => ?_, rfl⟩
  obtain ⟨hpick, hb, hc⟩ | ⟨hpick, ha, hc⟩ | ⟨hpick, ha, hb⟩ := paeth_cases a b c
  · exact ⟨0, by decide, hpick, forall_lt_three le_rfl hb hc, nofun⟩
  · refine ⟨1, by decide, hpick, forall_lt_three ha.le le_rfl hc, fun j hj => ?_⟩
    obtain rfl : j = 0 := by omega
    exact ha
  · refine ⟨2, by decide, hpick, forall_lt_three ha.le hb.le le_rfl, fun j hj => ?_⟩
    obtain rfl | rfl : j = 0 ∨ j = 1 := by omega
    · exact ha
    · exact hb

/-- `PAETH` in arithmetic on `ARG0` (R301). -/
theorem exec_paeth (s : State) : exec .paeth s = .next (completed (s.setResult
    (paeth (s.arg0.toNat % 256) (s.arg0.toNat / 256 % 256) (s.arg0.toNat / 65536 % 256)))) := by
  rw [exec, execPaeth, toNat_field, toNat_field, toNat_field, Nat.pow_zero, Nat.div_one]
  rfl

/-- Settles O50: the bytes of `ARG0` in arithmetic, and the picks of `paeth_cases` where neighbours are equal or 0. -/
theorem paeth_holds : Obligations.Paeth := by
  refine ⟨fun s => ?_, fun x => ?_, fun a => ?_, fun b => ?_⟩
  · exact exec_paeth s
  · obtain ⟨h, -⟩ | ⟨h, -⟩ | ⟨h, -⟩ := paeth_cases x x x <;> exact h
  · have hdist : paethDistance a 0 0 a = 0 := by simp [paethDistance]
    rw [paeth_eq, hdist, if_pos ⟨Nat.zero_le _, Nat.zero_le _⟩]
  · have hdist : paethDistance 0 b 0 b = 0 := by simp [paethDistance]
    obtain ⟨h, hle, -⟩ | ⟨h, -⟩ | ⟨-, -, hlt⟩ := paeth_cases 0 b 0
    · rw [hdist, paethDistance] at hle
      omega
    · exact h
    · omega

/-! ### The checks -/

/-- A pixel size of 0 or above 64 bits fails first (R302). -/
theorem unfGeometry_argRange {s : State} (h : s.unfBpp.toNat = 0 ∨ 64 < s.unfBpp.toNat) :
    unfGeometry s = raise .argRange s := if_pos h

/-- A region too small for the image fails next (R302). -/
theorem unfGeometry_unfSize {s : State} (hmin : 1 ≤ s.unfBpp.toNat) (hmax : s.unfBpp.toNat ≤ 64)
    (h : s.srcLen.toNat < s.unfHeight.toNat * (lbOf s + 1) ∨ s.dstCap.toNat < s.unfHeight.toNat * lbOf s) :
    unfGeometry s = raise .unfSize s := by
  rw [unfGeometry, if_neg (by rw [Config.unfBppMax]; omega), geometry_eq, if_pos h]

/-- A failing geometry check ends `UNFILTER_LINE` and `UNFILTER_IMAGE` alike (R307, R308). -/
theorem exec_unfilter_geometryRaise {i : Instr} {s : State} {c : Cause} (hi : i = .unfilterLine ∨ i = .unfilterImage)
    (hr : Ready false s) (hq : Quiet s) (h : unfGeometry s = raise c s) : exec i s = .next (failedWith c s) := by
  rcases hi with rfl | rfl
  · exact finish_overRegions_raise hr hq (by rw [lineOf, h, raise_andThen]) rfl
  · exact finish_overRegions_raise hr hq (by rw [imageOf, h, raise_andThen]) rfl

/-- A command over its regions in a quiet state, whose operation fails at a line's filter byte (R306, R333). -/
theorem finish_overRegions_badFilter {b : Bool} {body : State → Res Unit} {s t : State} {y lb : Nat} (hr : Ready b s)
    (hq : Quiet s) (h : body s = .fail (.badFilter y lb) t) (hm : t.merging = s.merging) :
    finish (overRegions b body s) = .next (failedAtLine y lb t) := by
  rw [overRegions_quiet hr hq.1, h, ← hm, Res.mapState_fail, setMerging_self, finish_fail]
  rfl

/-- The operation of `UNFILTER_LINE` once its checks have passed (R307). -/
theorem lineOf_valid {s : State} (hg : geometryValid s) (hy : s.arg0.toNat < s.unfHeight.toNat) :
    lineOf s = unfilterLine ⟨bwOf s, lbOf s⟩ s.arg0.toNat s := by
  rw [lineOf, unfGeometry_valid hg, Res.andThen_ok, if_neg (Nat.not_le.2 hy)]

/-- The operation of `UNFILTER_IMAGE` once its checks have passed (R308). -/
theorem imageOf_valid {s : State} (hg : geometryValid s) :
    imageOf s = unfilterLines ⟨bwOf s, lbOf s⟩ s.unfHeight.toNat 0 s := by
  rw [imageOf, unfGeometry_valid hg, Res.andThen_ok]

/-- Settles O51: the geometry checks end both commands, and the line checks follow them in `UNFILTER_LINE`. -/
theorem unfilterFails : Obligations.UnfilterFails := by
  intro s hr hq
  refine ⟨fun i hi => ⟨fun hbpp => ?_, fun hmin hmax hsize => ?_⟩, fun hg => ⟨fun hrange => ?_, fun hy hlb hft => ?_⟩⟩
  · exact exec_unfilter_geometryRaise hi hr hq (unfGeometry_argRange hbpp)
  · exact exec_unfilter_geometryRaise hi hr hq (unfGeometry_unfSize hmin hmax hsize)
  · exact finish_overRegions_raise hr hq (by rw [lineOf, unfGeometry_valid hg, Res.andThen_ok, if_pos hrange]) rfl
  · obtain ⟨-, hsrc, -⟩ := line_in_regions hg hy
    refine finish_overRegions_badFilter hr hq ?_ rfl
    rw [lineOf_valid hg hy]
    exact unfilterLine_bad hq hr.1 hsrc (fun _ _ => rfl) hlb hft

/-! ### The lines -/

/-- Settles O52: the line's bytes are those of R306, and completion follows. -/
theorem unfilterLine_holds : Obligations.UnfilterLine := by
  intro s hr hq hg hy hft
  obtain ⟨hbw, hsrc, hdst⟩ := line_in_regions hg hy
  obtain ⟨m, hrun, hrec, hout⟩ := unfilterLine_quiet hq hr.1 hbw hsrc hdst (fun _ _ => rfl) hft.resolve_left
  exact ⟨m, finish_overRegions_ok hr hq ((lineOf_valid hg hy).trans hrun) rfl, hrec, hout⟩

/-- The lines of an image in two parts (R308). -/
theorem unfilterLines_add (g : Geometry) (m n y : Nat) (s : State) :
    unfilterLines g (m + n) y s = (unfilterLines g m y s).andThen fun _ t => unfilterLines g n (y + m) t := by
  induction m generalizing y s with
  | zero => rw [Nat.zero_add]; rfl
  | succ m ih =>
    rw [Nat.add_right_comm, unfilterLines, unfilterLines, Res.andThen_assoc]
    simp only [ih (y + 1), Nat.add_assoc, Nat.add_comm 1 m]

/-- The first `n` lines of an image, all their filter bytes good: each is reconstructed, and no other byte changes. -/
theorem unfilterLines_first {s : State} (hr : Ready false s) (hq : Quiet s) (hg : geometryValid s) {n : Nat}
    (hn : n ≤ s.unfHeight.toNat) (hft : lbOf s ≠ 0 → ∀ y, y < n → filterOf s y ≤ 4) :
    ∃ m, unfilterLines ⟨bwOf s, lbOf s⟩ n 0 s = .ok () (s.setMem m)
      ∧ (∀ y i, y < n → i < lbOf s → reconstructed s m y i) ∧ sameOutside s m 0 (n * lbOf s) := by
  obtain ⟨hbpp, -, hsrc, hdst⟩ := hg
  obtain ⟨m, hrun, hrec, hout⟩ := unfilterLines_quiet hq hr.1 (by unfold bwOf; omega) n 0 (m0 := s.mem)
    (by rw [Nat.zero_add]; exact (Nat.mul_le_mul_right _ hn).trans hsrc)
    (by rw [Nat.zero_add]; exact (Nat.mul_le_mul_right _ hn).trans hdst) (fun _ _ => rfl)
    (fun hlb y _ hy => hft hlb y (by omega))
  refine ⟨m, hrun, fun y i hy hi => hrec y (Nat.zero_le y) (by omega) i hi, fun a ha => hout a ?_⟩
  rwa [Nat.zero_mul, Nat.zero_add]

/-- Memory that differs from that of `s` in the first lines of the image only is that of `s` outside the output region. -/
theorem read_of_sameOutside {s : State} {m : Memory} {i j a : Nat} (h : sameOutside s m i j) (hj : j ≤ s.dstCap.toNat)
    (ha : inOutput s a = false) : m.read a = s.mem.read a := by
  refine h a ?_
  simp only [inOutput, Bool.and_eq_false_iff, decide_eq_false_iff_not] at ha
  omega

/-- An image ends at its first line whose filter byte is bad, the lines above it done (R306, R308). -/
theorem unfilterLines_bad {s : State} {m : Memory} {y : Nat} (hr : Ready false s) (hq : Quiet s)
    (hg : geometryValid s) (hy : y < s.unfHeight.toNat)
    (hrun : unfilterLines ⟨bwOf s, lbOf s⟩ y 0 s = .ok () (s.setMem m)) (hout : sameOutside s m 0 (y * lbOf s))
    (hlb : lbOf s ≠ 0) (hft : 4 < filterOf s y) :
    unfilterLines ⟨bwOf s, lbOf s⟩ s.unfHeight.toNat 0 s = .fail (.badFilter y (lbOf s)) (s.setMem m) := by
  obtain ⟨k, hk⟩ : ∃ k, s.unfHeight.toNat = y + (k + 1) := ⟨s.unfHeight.toNat - y - 1, by omega⟩
  obtain ⟨-, hsrc, hdst⟩ := line_in_regions hg hy
  rw [hk, unfilterLines_add, hrun, Res.andThen_ok, unfilterLines, Nat.zero_add,
    unfilterLine_bad hq hr.1 hsrc (fun _ ha => read_of_sameOutside hout (by omega) ha) hlb hft, Res.andThen_fail]

/-- Settles O53: the lines above a bad one, or all of them, are done before the command ends. -/
theorem unfilterImage : Obligations.UnfilterImage := by
  intro s hr hq hg
  refine ⟨fun hft => ?_, fun y hlb hy habove hft => ?_⟩
  · obtain ⟨m, hrun, hrec, hout⟩ := unfilterLines_first hr hq hg le_rfl hft.resolve_left
    exact ⟨m, finish_overRegions_ok hr hq ((imageOf_valid hg).trans hrun) rfl, hrec, hout⟩
  · obtain ⟨m, hrun, hrec, hout⟩ := unfilterLines_first hr hq hg hy.le fun _ => habove
    have hbad := unfilterLines_bad hr hq hg hy hrun hout hlb hft
    exact ⟨m, finish_overRegions_badFilter hr hq ((imageOf_valid hg).trans hbad) rfl, hrec, hout⟩

end Machine
end Sys2Proof

/-! SUPPORT. The failure entry (O25): what it leaves for each of the two places where a failure is located. -/

namespace Sys2Proof
namespace Machine

/-! ### The failure entry -/

/-- The failure entry of `BAD_FILTER_TYPE`, at the filter byte of its line (R306, R333). -/
theorem enterFailure_badFilter (y lb : Nat) (s : State) : s.enterFailure (.badFilter y lb) = failedAtLine y lb s := rfl

/-- Settles O25: a failure ends in its entry, located by the cursors or by the failing line, and the codes of the causes
are those of the table. -/
theorem failureEntry : Obligations.FailureEntry := by
  intro s
  refine ⟨fun c _ => ?cause, fun y lb => ?filterByte, ?codes⟩
  case cause => rw [finish_fail, enterFailure_cause, failedWith]
  case filterByte => rw [finish_fail, enterFailure_badFilter, failedAtLine, failedWith, Cause.code]
  case codes => decide

end Machine
end Sys2Proof

/-! SUPPORT. Resets (O21 to O24): what a hardware reset leaves, what a soft reset adds to it, and what an abort leaves
of host memory. -/

namespace Sys2Proof
namespace Machine

/-! ### The reset -/

/-- The step of the reset input, in every state (R370). -/
theorem stepWith_hwReset (s : State) : stepWith .hwReset s = .next (hardReset s) := stepWith_eq (.inr nofun)

/-- A reset right after reset changes nothing. -/
theorem hardReset_reset : hardReset State.reset = State.reset := rfl

/-- Without a command in progress, a reset leaves host memory (R370). -/
theorem hardReset_mem_idle {s : State} (h : s.phase ≠ .busy) : (hardReset s).mem = s.mem := by
  simp [hardReset, h]

/-- A reset while `BUSY` leaves the memory of the aborted command (R373). -/
theorem hardReset_mem_busy {s : State} (h : s.phase = .busy) : (hardReset s).mem = (abortedState s).mem := by
  simp [hardReset, h]

/-- The line is 0 after a reset (R340, R370). -/
theorem AtReset.irq {t : State} (h : AtReset t) : irq t = false := by rw [Machine.irq, h.irqEn, Bool.false_and]

/-! ### An aborted command -/

/-- The command's end leaves every byte outside the output region, and so does the settling of its races (R93). -/
theorem blockStep_outside {s t : State} (h : blockStep s = .next t) : WritesOnlyOutput s t := by
  obtain ⟨u, v, hu, hv, rfl⟩ := blockStep_next h
  obtain ⟨m, d, hsettle, hread, -⟩ := settleRaces_effect v
  intro a ha
  rw [hsettle]
  have hout := (inOutput_congr hu.operands a).trans ha
  rcases hv with rfl | ⟨f, rfl, -⟩ <;> exact (hread a hout).trans (hu.bytes a ha)

/-- A byte that the end of the command changes is an output byte, with the value the block's step gives it. -/
theorem commandEnd_read (s : State) (a : Nat) :
    (commandEnd s).mem.read a = s.mem.read a ∨ inOutput s a = true ∧ blockStep s = .next (commandEnd s) := by
  rcases commandEnd_cases s with hnone | hend
  · exact .inl (by rw [hnone])
  · cases ha : inOutput s a with
    | false => exact .inl (blockStep_outside hend a ha)
    | true => exact .inr ⟨rfl, hend⟩

/-- Each byte of an aborted command that the host has not raced is old or new (R373). -/
theorem abortedState_read {s : State} (h : s.raced = []) (a : Nat) :
    (abortedState s).mem.read a = s.mem.read a ∨ (abortedState s).mem.read a = (commandEnd s).mem.read a := by
  rw [abortedState, settleRaces_of_quiet]
  · exact mixFrom_read _ _ _ _ a
  · exact h

/-! ### The obligations on resets -/

/-- Settles O24: each byte is old or that of the command's end, which differs from the old one in output bytes only. -/
theorem abortedCommand : Obligations.AbortedCommand := by
  intro s t hb hr hstep a
  rw [stepWith_hwReset] at hstep
  cases hstep
  rw [hardReset_mem_busy hb]
  rcases abortedState_read hr a with hold | hnew
  · exact .inl hold
  · rcases commandEnd_read s a with hsame | ⟨hout, hend⟩
    · exact .inl (hnew.trans hsame)
    · exact .inr ⟨hout, commandEnd s, hend, hnew⟩

/-- Settles O22: the block has its reset values, and its port then serves the host as in any idle state. -/
theorem hardwareReset : Obligations.HardwareReset := by
  intro s
  have hreset := atReset_hardReset s
  refine ⟨hardReset s, stepWith_hwReset s, hreset, hreset.irq, hardReset_mem_idle, ?readsId, ?accepts, ?platform⟩
  case readsId => exact hostReads_status (by decide) (by decide) rfl
  case accepts => exact fun w => (commandIssue _ w).1 hreset.phase
  case platform => exact ⟨rfl, rfl, rfl, rfl, rfl, rfl, rfl, rfl, rfl, rfl⟩

/-- Settles O23: with `SRESET`, a write of `CTRL` is the hardware reset and then sets `IRQ_EN`. -/
theorem softReset : Obligations.SoftReset := by
  intro s w
  refine ⟨fun h0 => ⟨hardReset s, stepWith_hwReset s, atReset_hardReset s, hardReset_mem_idle, ?_⟩,
    fun h0 => hostWrites_irqEn h0 s⟩
  rw [hostWrites_ctrl, writeCtrl, if_pos h0]

/-- Settles O21: the reset state is one a reset leaves. -/
theorem resetState : Obligations.ResetState := by
  have hreset : AtReset State.reset := hardReset_reset ▸ atReset_hardReset State.reset
  exact ⟨hreset, rfl, rfl, hreset.irq⟩

end Machine
end Sys2Proof
